-- ==== Sys2Proof/Word.lean ====
section
/-! DEFINITION. The word and byte types (R7, R12, R15). -/

namespace Sys2Proof

/-- A 64-bit general register value. -/
abbrev Word := BitVec 64

/-- A byte of memory. -/
abbrev Byte := BitVec 8

/-- A 48-bit tenant virtual address (R19). -/
abbrev Addr := BitVec 48

/-- A capability: 128 bits and the validity tag held out of band (R15). -/
structure Cap where
  bits : BitVec 128
  tag  : Bool
  deriving DecidableEq, Repr

/-- The null capability of R11: all bits zero and the tag clear. -/
def Cap.null : Cap := { bits := 0, tag := false }

end Sys2Proof
end

