-- ==== Sys2Proof/Config.lean ====
section
/-! DEFINITION. The values the specification leaves open: free constants without a body, and the fixed sizes of R1 and R3. -/

namespace Sys2Proof.Config

/-- Which of the enabled agents moves next (R254 gives no rule): a free value per step; log entry 2. -/
opaque choice : Nat → Nat

/-- The result of a MAX, MIN or MAXABS reduction without a contribution, and of a broken reduction of an integer type (R232, R251, R415
state none), by the operation (0 for a broken one) and the width of the type, so that equal contributions give equal bits (R253): log entry 28. -/
opaque unstatedReduction : Nat → Nat → Nat

/-- The cores that the placer would give a stage of a launch (R363: any valid placement): free per step and stage; log entry 29. -/
opaque placement : Nat → Nat → List Nat

/-- How many cycles beyond the first a step takes (R84, R282 under contention): a free value per step; log entry 3. -/
opaque delay : Nat → Nat

/-- Which of a core's threads have passed their issue interval (R280, R84): free per step and slot; log entry 3. -/
opaque eligible : Nat → Nat → Bool

/-- Whether an MTU has dropped a cached entry since (R391 gives no replacement rule): free per step and kind; log entry 9. -/
opaque mtuDropped : Nat → Nat → Bool

/-- A byte of a register of the supervisor control window (R19: the spec names no register there): free per step; log entry 50. -/
opaque controlByte : Nat → Nat → BitVec 8

/-- A byte of a peer module's memory (R274, R413): free per step and address; log entry 10. -/
opaque peerByte : Nat → Nat → BitVec 8

/-- The lowest bit of the offending field where ENGCMD concerns no field of the word (R81, R223): free; log entry 11. -/
opaque unringedBit : Nat

/-- Which unfinished element of a command is taken next (R211: no specified order), by step: log entry 24. -/
opaque element : Nat → Nat

/-- Whether a row read before the failing row of an mlatch or mtrans is in the latch (R214), by step and row: log entry 25. -/
opaque partialRow : Nat → Nat → Bool

/-- Which elements behind a failing one had already issued (R229), by step: log entry 26. -/
opaque applied : Nat → BitVec 15

/-- The offending index of a gather or scatter whose index could not be read (R229 gives none), by step: log entry 26. -/
opaque badIndex : Nat → BitVec 48

/-- The declared bytes of a command whose descriptor cannot be read or is invalid (R237 gives none), by step: log entry 27. -/
opaque undeclared : Nat → Nat

/-- A byte read through another tenant's key (R396: unpredictable data): free per step and address; log entry 8. -/
opaque garble : Nat → Nat → BitVec 8

/-- What an image's bytes hold (R406 gives no layout): the header and body that are signed, its two public keys, RSA-3072 and
SLH-DSA-SHA2-192s, and the two signatures; log entry 20. -/
opaque imageSigned : List (BitVec 8) → List (BitVec 8)
opaque imageRsaKey : List (BitVec 8) → List (BitVec 8)
opaque imageSlhKey : List (BitVec 8) → List (BitVec 8)
opaque imageRsaSignature : List (BitVec 8) → List (BitVec 8)
opaque imageSlhSignature : List (BitVec 8) → List (BitVec 8)

/-- The SHA-384 hashes of the vendor's two public keys in boot ROM (R406): free values; log entry 20. -/
opaque romRsaHash : BitVec 384
opaque romSlhHash : BitVec 384

/-- Whether a signature over a digest verifies under a key, by RSASSA-PSS with SHA-384 and by SLH-DSA-SHA2-192s (R406): free predicates;
log entry 20. -/
opaque rsaVerifies : List (BitVec 8) → BitVec 384 → List (BitVec 8) → Bool
opaque slhVerifies : List (BitVec 8) → BitVec 384 → List (BitVec 8) → Bool

/-- The quote's two signatures (R409), by the measured bytes: a free function; log entry 20. -/
opaque quoteSignature : List (BitVec 8) → List (BitVec 8)

/-- The module's two identity public keys (R408): free values; log entry 20. -/
opaque identityKeys : List (BitVec 8)

/-- The fields of an image's header that R406, R410 and R411 use, by its bytes (imageTrial: TRIAL less 1); log entry 20. -/
opaque imageVersion : List (BitVec 8) → BitVec 56
opaque imageMinver : List (BitVec 8) → BitVec 56
opaque imageTrial : List (BitVec 8) → Fin 120

/-- The length a header gives its image (R406, R410), by its bytes; log entry 20. -/
opaque imageLength : List (BitVec 8) → Nat

/-- The kind and version words of the attestation log for the components of R407 after the first; log entry 20. -/
opaque logKind : Nat → BitVec 64
opaque logVersion : Nat → BitVec 64

/-- Whether the SRAM section stands in a dump (R383 FLAGS bit 0), by step: log entry 21. -/
opaque dumpSram : Nat → Bool

/-- Words the module measures at boot besides the image (R407): the signed configuration and the leaf firmware; log entry 20. -/
opaque configDigest : BitVec 384
opaque leafDigest : BitVec 384

/-- Results of the leaf log and other parts of a dump that are not architectural (R384); log entry 21. -/
opaque dumpByte : Nat → BitVec 8

/-- Whether a host access of a firmware request fails (R411 RESULT 4): free, by step; log entry 22. -/
opaque hostError : Nat → Bool

/-- The Ballast loop context as saved in the RCB area (R348: not architectural), by position: log entry 19. -/
opaque savedLoopByte : Nat → BitVec 8

/-- What an XLREC entry does not hold of the relaxed access that it re-issues (R371, R372): its PC, and whether its capability has RC; free by
step and entry: log entry 102. -/
opaque xlPc : Nat → Nat → BitVec 48
opaque xlRc : Nat → Nat → Bool

/-- Clusters in the module (R1): 128 by 80. -/
def clusters : Nat := 10240

/-- Physical cores in the module (R1). -/
def cores : Nat := 655360

/-- Bytes of one slice (R1, R19). -/
def sliceBytes : Nat := 0xC000

/-- Bytes of physical HBM (R424): 768 times 10^9. -/
def hbmBytes : Nat := 768000000000

/-- First byte of the dump area, the highest 34 GiB of physical HBM (R383). -/
def dumpBase : Nat := hbmBytes - 34 * 1073741824

end Sys2Proof.Config
end

