-- ==== Sys2Proof/Syntax.lean ====
section
/-! DEFINITION. The instruction set as syntax: operand forms, command words and one constructor per row of the opcode table. -/

namespace Sys2Proof

/-- A source operand code (R54): a general register, a constant 0 to 15, a queue register q0 to q7, or a literal. -/
inductive Src where
  | g (r : BitVec 5)
  | const (c : BitVec 4)
  | q (i : BitVec 3)
  | lit32 (v : BitVec 32)
  | lit64 (v : BitVec 64)
  deriving DecidableEq, Repr

/-- A destination operand code (R54): a general register, or the send buffers q6 and q7. -/
inductive Dst where
  | g (r : BitVec 5)
  | q6
  | q7
  deriving DecidableEq, Repr

/-- The two scalar floating types of ops 0x10 and 0x11 (R71). -/
inductive FTy where
  | d
  | s
  deriving DecidableEq, Repr

/-- The lane and conversion types of R63. -/
inductive LaneTy where
  | f64 | f32 | bf16 | f16 | e4m3 | e5m2
  | i8 | u8 | i16 | u16 | i32 | u32 | i64 | u64
  deriving DecidableEq, Repr

/-- ORDER of an ORD prefix (R66). -/
inductive Order where
  | plain | relaxed | acquire | release | acqRel
  deriving DecidableEq, Repr

/-- SCOPE of an ORD prefix and of fence (R66, R74). -/
inductive Scope where
  | thread | core | cluster | die | module | system
  deriving DecidableEq, Repr

/-- The header of a command word, bits 247:192 (R79). -/
structure CmdHdr where
  gate  : BitVec 4
  cmode : BitVec 2
  smode : BitVec 2
  ccap  : BitVec 4
  rms   : BitVec 3
  bslot : BitVec 5
  coff  : BitVec 32
  deriving DecidableEq, Repr

/-- An address operand of a command (R208): a capability index and a signed byte offset. -/
structure AOp where
  cap : BitVec 4
  off : BitVec 36
  deriving DecidableEq, Repr

/-- The fields of an mmul (R220). -/
structure MmulF where
  a     : AOp
  str   : BitVec 16
  latch : BitVec 1
  slot  : BitVec 2
  deriving DecidableEq, Repr

/-- The fields of mlatch and mtrans (R222). -/
structure MlatchF where
  b     : AOp
  str   : BitVec 16
  sc    : AOp
  nq    : Bool
  fmt   : BitVec 4
  latch : BitVec 1
  deriving DecidableEq, Repr

/-- The fields of cgath, cscat and cscata (R229, R230). -/
structure GathF where
  s     : AOp
  d     : AOp
  i     : AOp
  count : BitVec 32
  iw    : Bool
  aop   : BitVec 3
  ety   : BitVec 4
  deriving DecidableEq, Repr

/-- The two engines that take command words (R80). -/
inductive Eng where
  | matrix | copy
  deriving DecidableEq, Repr

/-- The source of a soft error (R421). -/
inductive SoftErr where
  | symbol      -- a corrected single-symbol error
  | bank        -- a failed bank, reconstructed
  | second      -- a second fault in a slice under reconstruction, or an uncorrectable SRAM error
  | hbmSymbol   -- a corrected error of HBM (R420)
  | hbm         -- an uncorrectable HBM error
  deriving DecidableEq, Repr

/-- The result of a reduction element: its bits, the flags of R253, and whether it is the canonical NaN of R232. -/
structure RedRes where
  bits : Nat
  fl   : BitVec 6
  nan  : Bool
  deriving DecidableEq, Repr

/-- The exact partial of a reduction element (R250-R252, R415): the number of contributions, whether one is not finite, the largest
exponent (the exponent pass), the sum in fixed point, whether the sum pass discarded bits, and the best of MAX, MIN and MAXABS. -/
structure RedPart where
  count : Nat
  bad   : Bool
  top   : Option Int
  sum   : BitVec 320
  nx    : Bool
  best  : Option Nat
  deriving DecidableEq, Repr

/-- A message of a group reduction (R415), by element: a member's exponent pass and the greatest exponents in answer; a member's sums; the
results; or that the reduction is broken. -/
inductive GroupMsg where
  | exponents (l : List (Option Int))
  | tops (l : List (Option Int))
  | sums (l : List RedPart)
  | results (l : List RedRes)
  | broken
  deriving DecidableEq, Repr

/-- What a host access reaches (R390, R411, R412): a function's window WIN0, the firmware window BAR2, or device memory. -/
inductive Space where
  | win0
  | bar2
  | mem
  deriving DecidableEq, Repr

/-- The agent and the item an event acts on, for the rows that have no operands of their own. An encoded instruction acts
on the thread core, slot. -/
structure Cur where
  core : Nat
  slot : Fin 8
  idx  : Nat
  sub  : Nat
  val  : Word
  deriving DecidableEq, Repr

/-- One constructor per row of spec/opcode_table.json. The first 207 rows of the table have words (R59-R78); then come the
command words (R208-R237) and the events of the other agents. A row without operands acts on what State.cur names. -/
inductive Instr where
  -- op 0x00 (R85-R87)
  | add (d : Dst) (s t : Src)
  | sub (d : Dst) (s t : Src)
  | and (d : Dst) (s t : Src)
  | or (d : Dst) (s t : Src)
  | xor (d : Dst) (s t : Src)
  | andn (d : Dst) (s t : Src)
  | orn (d : Dst) (s t : Src)
  | min (d : Dst) (s t : Src)
  | max (d : Dst) (s t : Src)
  | minu (d : Dst) (s t : Src)
  | maxu (d : Dst) (s t : Src)
  | sel (d : BitVec 5) (s t : Src)
  | mov (d : Dst) (s : Src)
  -- op 0x01 (R88-R91)
  | shl (d : Dst) (s t : Src)
  | shr (d : Dst) (s t : Src)
  | sar (d : Dst) (s t : Src)
  | rotl (d : Dst) (s t : Src)
  | clz (d : Dst) (s : Src)
  | ctz (d : Dst) (s : Src)
  | popc (d : Dst) (s : Src)
  | sextB (d : Dst) (s : Src)
  | sextH (d : Dst) (s : Src)
  | sextW (d : Dst) (s : Src)
  | zextB (d : Dst) (s : Src)
  | zextH (d : Dst) (s : Src)
  | zextW (d : Dst) (s : Src)
  | bfx (d : Dst) (s t : Src)
  | bfi (d : BitVec 5) (s t : Src)
  -- op 0x02 (R92, R93)
  | mul (d : Dst) (s t : Src)
  | mulh (d : Dst) (s t : Src)
  | mulhu (d : Dst) (s t : Src)
  | div (d : Dst) (s t : Src)
  | divu (d : Dst) (s t : Src)
  | rem (d : Dst) (s t : Src)
  | remu (d : Dst) (s t : Src)
  -- op 0x03 (R94)
  | seq (d : Dst) (s t : Src)
  | sne (d : Dst) (s t : Src)
  | slt (d : Dst) (s t : Src)
  | sltu (d : Dst) (s t : Src)
  | sle (d : Dst) (s t : Src)
  | sleu (d : Dst) (s t : Src)
  -- ops 0x10, 0x11, 0x12 (R95-R105)
  | fadd (y : FTy) (d : Dst) (s t : Src)
  | fsub (y : FTy) (d : Dst) (s t : Src)
  | fmul (y : FTy) (d : Dst) (s t : Src)
  | fdiv (y : FTy) (d : Dst) (s t : Src)
  | fsqrt (y : FTy) (d : Dst) (s : Src)
  | fmin (y : FTy) (d : Dst) (s t : Src)
  | fmax (y : FTy) (d : Dst) (s t : Src)
  | fsgn (y : FTy) (d : Dst) (s t : Src)
  | feq (y : FTy) (d : Dst) (s t : Src)
  | flt (y : FTy) (d : Dst) (s t : Src)
  | fle (y : FTy) (d : Dst) (s t : Src)
  | fcls (y : FTy) (d : Dst) (s : Src)
  | fma (y : FTy) (d : BitVec 5) (s t : Src)
  | fcvt (dty sty : LaneTy) (d : Dst) (s : Src)
  -- op 0x14 (R106-R112)
  | cadd (d s : BitVec 4) (t : Src)
  | cset (d s : BitVec 4) (t : Src)
  | cbnd (d s : BitVec 4) (t : Src)
  | cperm (d s : BitVec 4) (t : Src)
  | cmov (d s : BitVec 4)
  | ctag (d : Dst) (s : BitVec 4)
  | cgetCur (d : Dst) (s : BitVec 4)
  | cgetBase (d : Dst) (s : BitVec 4)
  | cgetTop (d : Dst) (s : BitVec 4)
  | cgetLen (d : Dst) (s : BitVec 4)
  | cgetPerm (d : Dst) (s : BitVec 4)
  | cgetTen (d : Dst) (s : BitVec 4)
  | cgetKind (d : Dst) (s : BitVec 4)
  | cgetTag (d : Dst) (s : BitVec 4)
  -- ops 0x16-0x19 (R113-R117)
  | b (disp : BitVec 16)
  | bEq (s : Src) (disp : BitVec 16)
  | bNe (s : Src) (disp : BitVec 16)
  | bLt (s : Src) (disp : BitVec 16)
  | bGe (s : Src) (disp : BitVec 16)
  | bLe (s : Src) (disp : BitVec 16)
  | bGt (s : Src) (disp : BitVec 16)
  | dbnz (s : BitVec 5) (disp : BitVec 16)
  | jmp (disp : BitVec 16)
  | call (disp : BitVec 16)
  | jmpr (s : Src)
  | callr (s : Src)
  -- ops 0x1A-0x21 (R121-R132)
  | ld (d : Dst) (a : BitVec 4) (off : BitVec 14) (sz : BitVec 2)
  | ldZext (d : Dst) (a : BitVec 4) (off : BitVec 14) (sz : BitVec 2)
  | st (v : Src) (a : BitVec 4) (off : BitVec 14) (sz : BitVec 2)
  | ldc (c a : BitVec 4) (off : BitVec 14)
  | stc (c a : BitVec 4) (off : BitVec 14)
  | ldf (d : Dst) (a : BitVec 4) (off : BitVec 14)
  | ldfe (d : Dst) (a : BitVec 4) (off : BitVec 14)
  | stef (v : Src) (a : BitVec 4) (off : BitVec 14)
  | stf (v : Src) (a : BitVec 4) (off : BitVec 14)
  | empt (a : BitVec 4) (off : BitVec 14)
  | fes (d : Dst) (a : BitVec 4) (off : BitVec 14)
  | amoAdd (d : Dst) (a : BitVec 4) (t : Src) (dbl : Bool)
  | amoAnd (d : Dst) (a : BitVec 4) (t : Src) (dbl : Bool)
  | amoOr (d : Dst) (a : BitVec 4) (t : Src) (dbl : Bool)
  | amoXor (d : Dst) (a : BitVec 4) (t : Src) (dbl : Bool)
  | amoMin (d : Dst) (a : BitVec 4) (t : Src) (dbl : Bool)
  | amoMax (d : Dst) (a : BitVec 4) (t : Src) (dbl : Bool)
  | amoMinu (d : Dst) (a : BitVec 4) (t : Src) (dbl : Bool)
  | amoMaxu (d : Dst) (a : BitVec 4) (t : Src) (dbl : Bool)
  | amoSwap (d : Dst) (a : BitVec 4) (t : Src) (dbl : Bool)
  | amoFaddS (d : Dst) (a : BitVec 4) (t : Src)
  | cas (d : BitVec 5) (a : BitVec 4) (t : Src) (dbl : Bool)
  | mon (a : BitVec 4)
  | mwait (d : Dst) (t : Src)
  | fence (sc : Scope)
  | ord (o : Order) (sc : Scope)
  -- op 0x22 (R134-R138)
  | qpoll (d : Dst) (q : BitVec 3)
  | qcnt (d : Dst) (q : BitVec 3)
  | qclose (d : Dst) (q : BitVec 3)
  | qstat (d : Dst) (q : BitVec 3)
  | qwait (d : Dst) (q : BitVec 3) (t : Src)
  -- op 0x24 (R139-R142)
  | barv (d : Dst) (s t : Src)
  | barw (d : Dst) (s t : Src)
  | bexp (d : Dst) (s t : Src)
  | bini (d : Dst) (s t : Src)
  -- ops 0x25, 0x26 (R151-R162)
  | fork (d : Dst) (s : BitVec 5)
  | jdec (d : Dst) (a : BitVec 4)
  | pushr (d : Dst) (s : BitVec 5)
  | popr (d : Dst) (s : BitVec 5)
  | splitr (d : Dst) (s : BitVec 5) (t : Src)
  | steal (d : Dst) (s : BitVec 5)
  | dsp (d : Dst) (s : BitVec 5)
  | launch (d : Dst) (a : BitVec 4)
  -- op 0x28 (R143-R150, R299-R311)
  | binc (d : Dst) (a : BitVec 4) (t : Src)
  | bdec (d : Dst) (a : BitVec 4) (t : Src)
  | bcan (d : Dst) (a : BitVec 4) (t : Src)
  | bbar (d : Dst) (a : BitVec 4) (t : Src)
  | bbw (d : Dst) (a : BitVec 4) (t : Src)
  | bcfg (d : Dst) (a : BitVec 4) (t : Src)
  | bpeek (d : Dst) (a : BitVec 4) (t : Src)
  -- op 0x2A (R163-R168, R327-R338)
  | trecv (d : Dst) (e : BitVec 5)
  | tsend (d : Dst) (q : BitVec 3) (t : Src)
  | tann (d : Dst) (q : BitVec 3) (t : Src)
  | tlah (d : Dst) (q : BitVec 3) (t : Src)
  | tdone (d : Dst)
  -- op 0x2B (R169-R173)
  | enqm (v : BitVec 4)
  | enqc (v : BitVec 4)
  | ewait (d : Dst) (s : Src)
  | xbset (s : Src)
  | xbp (s : Src)
  -- ops 0x38, 0x39, 0x3A (R174-R182, R77)
  | srd (d : Dst) (sys : BitVec 10)
  | swr (sys : BitVec 10) (v : Src)
  | swapctx (d : Dst) (s t : Src)
  | spsave (d : Dst) (s : Src)
  | spload (d : Dst) (s t : Src)
  | pth (d : Dst) (s t : Src)
  | rth (d : Dst) (s t : Src)
  | ebrk (s : Src)
  | scall (s : Src)
  | trap (s : Src)
  -- ops 0x2C-0x37 (R183-R207)
  | vadd (vd vs vt : BitVec 4) (km : BitVec 3) (ty : LaneTy)
  | vsub (vd vs vt : BitVec 4) (km : BitVec 3) (ty : LaneTy)
  | vmul (vd vs vt : BitVec 4) (km : BitVec 3) (ty : LaneTy)
  | vfma (vd vs vt : BitVec 4) (km : BitVec 3) (ty : LaneTy)
  | vmin (vd vs vt : BitVec 4) (km : BitVec 3) (ty : LaneTy)
  | vmax (vd vs vt : BitVec 4) (km : BitVec 3) (ty : LaneTy)
  | vabs (vd vs : BitVec 4) (km : BitVec 3) (ty : LaneTy)
  | vneg (vd vs : BitVec 4) (km : BitVec 3) (ty : LaneTy)
  | vsclb (vd vs vt : BitVec 4) (km : BitVec 3) (ty : LaneTy)
  | vand (vd vs vt : BitVec 4) (km : BitVec 3) (ty : LaneTy)
  | vor (vd vs vt : BitVec 4) (km : BitVec 3) (ty : LaneTy)
  | vxor (vd vs vt : BitVec 4) (km : BitVec 3) (ty : LaneTy)
  | vshl (vd vs vt : BitVec 4) (km : BitVec 3) (ty : LaneTy)
  | vshr (vd vs vt : BitVec 4) (km : BitVec 3) (ty : LaneTy)
  | vsar (vd vs vt : BitVec 4) (km : BitVec 3) (ty : LaneTy)
  | vcmpEq (kd : BitVec 3) (vs vt : BitVec 4) (km : BitVec 3) (ty : LaneTy)
  | vcmpNe (kd : BitVec 3) (vs vt : BitVec 4) (km : BitVec 3) (ty : LaneTy)
  | vcmpLt (kd : BitVec 3) (vs vt : BitVec 4) (km : BitVec 3) (ty : LaneTy)
  | vcmpLe (kd : BitVec 3) (vs vt : BitVec 4) (km : BitVec 3) (ty : LaneTy)
  | vcmpGt (kd : BitVec 3) (vs vt : BitVec 4) (km : BitVec 3) (ty : LaneTy)
  | vcmpGe (kd : BitVec 3) (vs vt : BitVec 4) (km : BitVec 3) (ty : LaneTy)
  | vsel (vd vs vt : BitVec 4) (km : BitVec 3) (ty : LaneTy)
  | vcls (vd vs : BitVec 4) (km : BitVec 3) (ty : LaneTy)
  | vcvt (vd vs p : BitVec 4) (km : BitVec 3) (dty sty : LaneTy)
  | vld (vd a : BitVec 4) (off : BitVec 11) (km : BitVec 3) (ty : LaneTy)
  | vst (vd a : BitVec 4) (off : BitVec 11) (km : BitVec 3) (ty : LaneTy)
  | vldx (vd a vt : BitVec 4) (km : BitVec 3) (ty : LaneTy)
  | vstx (vd a vt : BitVec 4) (km : BitVec 3) (ty : LaneTy)
  | vbc (vd gs : BitVec 4) (km : BitVec 3) (ty : LaneTy)
  | vmovg (gd vs gt : BitVec 4) (ty : LaneTy)
  | vins (vd gs gt : BitVec 4) (ty : LaneTy)
  | vperm (vd vs vt : BitVec 4) (km : BitVec 3) (ty : LaneTy)
  | vrot (vd vs gt : BitVec 4) (km : BitVec 3) (ty : LaneTy)
  | vred (vd vs : BitVec 4) (km : BitVec 3) (ty : LaneTy)
  | vdot (vd vs vt : BitVec 4) (km : BitVec 3) (ty : LaneTy)
  | vexp2 (vd vs : BitVec 4) (km : BitVec 3) (ty : LaneTy)
  | vlog2 (vd vs : BitVec 4) (km : BitVec 3) (ty : LaneTy)
  | vrcp (vd vs : BitVec 4) (km : BitVec 3) (ty : LaneTy)
  | vrsq (vd vs : BitVec 4) (km : BitVec 3) (ty : LaneTy)
  | vacr (vd gt : BitVec 4) (km : BitVec 3) (ty : LaneTy)
  | vacw (vs gt : BitVec 4) (km : BitVec 3) (ty : LaneTy)
  | kand (kd ks kt : BitVec 3)
  | kor (kd ks kt : BitVec 3)
  | kxor (kd ks kt : BitVec 3)
  | knot (kd ks : BitVec 3)
  | kmovKk (kd ks : BitVec 3)
  | kmovKg (kd : BitVec 3) (gs : BitVec 4)
  | kmovGk (gd : BitVec 4) (ks : BitVec 3)
  | kpop (gd : BitVec 4) (ks : BitVec 3)
  -- matrix and copy command words (R208-R237)
  | mzero (h : CmdHdr) (slot : BitVec 2)
  | mmulF64 (h : CmdHdr) (f : MmulF)
  | mmulF32 (h : CmdHdr) (f : MmulF)
  | mmulBf16 (h : CmdHdr) (f : MmulF)
  | mmulF16 (h : CmdHdr) (f : MmulF)
  | mmulE4m3 (h : CmdHdr) (f : MmulF)
  | mmulE5m2 (h : CmdHdr) (f : MmulF)
  | mmulE4e5 (h : CmdHdr) (f : MmulF)
  | mmulNq4e4 (h : CmdHdr) (f : MmulF)
  | mmulNq4b (h : CmdHdr) (f : MmulF)
  | mmulI8 (h : CmdHdr) (f : MmulF)
  | mlatch (h : CmdHdr) (f : MlatchF)
  | mtrans (h : CmdHdr) (f : MlatchF)
  | mrot (h : CmdHdr) (sl dl : BitVec 1)
  | mstore (h : CmdHdr) (d : AOp) (str : BitVec 16) (sty dty : BitVec 4) (slot : BitVec 2)
  | mspill (h : CmdHdr) (m : AOp) (slot : BitVec 2)
  | mfill (h : CmdHdr) (m : AOp) (slot : BitVec 2)
  | ccopy (h : CmdHdr) (s d t : AOp) (sty dty : BitVec 4)
  | cgath (h : CmdHdr) (f : GathF)
  | cscat (h : CmdHdr) (f : GathF)
  | cscata (h : CmdHdr) (f : GathF)
  | cmerge (h : CmdHdr) (x y o : AOp) (na nb : BitVec 24) (dupok cty : Bool)
  | cred (h : CmdHdr) (s : AOp) (ridx : BitVec 2)
  | cfill (h : CmdHdr) (d t : AOp) (value : BitVec 64) (ety : BitVec 4)
  | cstrm (h : CmdHdr) (s t : AOp) (ety : BitVec 4) (q : BitVec 2)
  | cbcast (h : CmdHdr) (s : AOp) (dcap : BitVec 4) (doff len : BitVec 16) (scope : BitVec 1)
  | cquant (h : CmdHdr) (s k v : AOp) (nblk : BitVec 9)
  -- host, link and firmware events that carry data (R273, R383, R405-R421)
  | hostWrite (port fn : Nat) (space : Space) (addr : Addr) (data : List Byte)
  | hostRead (port fn : Nat) (space : Space) (addr : Addr) (n : Nat)
  | cxlMemRequest (write : Bool) (ipa : Addr) (data : List Byte) (n : Nat)
  | linkRequest (port : Nat) (remote : BitVec 6) (write : Bool) (addr : Addr) (data : List Byte) (n : Nat)
  | groupPartial (tag : Word) (ch src : Nat) (msg : GroupMsg)
  | fwLinkMessage (cluster : Nat) (up : Bool) (returns : BitVec 4) (payload : Bool)
  | powerOnBoot (imgA imgB : List Byte)
  | powerInterval (watts : Nat) (temps : List Nat)
  | fatalError (cause : BitVec 8) (detail : BitVec 56)
  | softError (core : Nat) (kind : SoftErr)
  -- instructions without operands (R77, R117, R151-R159, R177)
  | ret
  | waitw
  | tend
  | done
  | yield
  | tret
  | nop
  -- full/empty, atomics, watches and queues (R127, R130, R131, R138, R263): cur.core and cur.slot; cur.idx counts
  -- the thread's relaxed accesses; watchEvict: cur.idx is the core's port, or cores + the die of a gateway table
  | feResend
  | reservationGrant
  | mwaitWake
  | mwaitTimeout
  | watchEvict
  | qwaitTimeout
  -- tasks (R154-R159): cur.core and cur.slot
  | doneProceed
  | yieldExpire
  | stealRequest
  | idlewRetry
  -- the Bridle (R145-R148, R299-R306): cur.idx is the flit or the counter ID
  | balancerServe
  | exitCellServe
  | bridleResult
  | bcfgDrainDone
  | bridleBarrierRelease
  -- Tether and channels (R137, R286, R332, R333): cur.core; cur.idx is the endpoint or the message in flight
  | tetherAnnounce
  | tetherAnnounceArrival
  | slotArrival
  | channelSlotFreed
  | closeMarkerArrival
  -- the crossbar (R171, R172): cur.core; cur.idx is the term or the output
  | xbarTermFire
  | xbarOutputPending
  | xbarTickPulse
  -- writes of system registers with an effect of their own (R25, R33, R172, R246): the cur thread; cur.val is the
  -- word, cur.idx the XBCFG
  | fpcsrWrite
  | xbcfgWrite
  | cflagsClear
  | accownWrite
  | timer
  -- engines (R183, R185, R211, R215, R223, R234, R323): cur.core; cur.idx is 0 for the matrix engine and 1 for the
  -- copy engine, the tile in flight, the stream, or the cluster
  | vectorStart
  | vectorComplete
  | mrotTileArrive
  | streamElementDelivery
  | engineCommandStart
  | commandComplete
  | drogueWindow
  -- homes, replies and scope misses (R119, R255, R261, R262): the cur thread; cur.idx counts its relaxed accesses
  | homeRequest
  | accessReply
  | scopeMissMessage
  | scopeMissHandling
  -- completion (R289): cur.idx is the region, cur.sub the stage
  | nodeDoneMessage
  -- the front end (R341-R367, R386-R401): cur.idx is the SEQ of the block
  | dispatch
  | nopBlock
  | launchBlock
  | launchBindRetry
  | ballastBlock
  | ballastTest
  | ballastUpcall
  | waitwBlock
  | waitwBlockTimeout
  | signal
  | tstamp
  | inval
  | dirtysnap
  | seal
  | partCreate
  | partModify
  | partDestroy
  | qassign
  | partStatus
  | partStop
  | partStart
  -- register writes by a function (R355, R365, R390): cur.sub is the function, cur.idx the queue or the offset,
  -- cur.val the word
  | qcfgWrite
  | tailWrite
  | qctlDestroy
  | s1rootWrite
  | registerWrite
  -- pre-emption, the Spool, teardown (R364-R385, R397, R398): the cur thread; cur.idx is the region, the frame
  -- (cur.core its cluster), the function or the vector
  | preemptThread
  | sliceEnd
  | sliceResume
  | hypervisorPreempt
  | spoolEvict
  | evictionDone
  | framePinResolved
  | spoolRefillDone
  | regionTeardown
  | msgToDone
  | coreRetire
  | flr
  | msixModerationExpire
  -- firmware and links (R410-R422): cur.val is the word written, cur.idx the port
  | linkFailure
  | commit
  | update
  | activate
  | trialRevert
  | quote
  | telem
  | drgset
  | pwrcapWrite
  | dumpcpy
  | dumpclr
  deriving DecidableEq, Repr

end Sys2Proof
end

