-- ==== Sys2Proof/WellFormed.lean ====
section
/-! DEFINITION. Which terms of the syntax stand for an encoding: the field rules of R57, R58, R71, R73, R74, R189, R195 and R237. -/

namespace Sys2Proof

/-- Width of a lane in bits (R63). -/
def LaneTy.width : LaneTy → Nat
  | .f64 | .i64 | .u64 => 64
  | .f32 | .i32 | .u32 => 32
  | .bf16 | .f16 | .i16 | .u16 => 16
  | .e4m3 | .e5m2 | .i8 | .u8 => 8

/-- Lanes in a vector register (R63). -/
def LaneTy.lanes (t : LaneTy) : Nat := 256 / t.width

/-- The six floating types, codes 0x0 to 0x5 (R63). -/
def LaneTy.isFloat : LaneTy → Bool
  | .f64 | .f32 | .bf16 | .f16 | .e4m3 | .e5m2 => true
  | _ => false

/-- The class F of R189: codes 0x0 to 0x3. -/
def LaneTy.isF : LaneTy → Bool
  | .f64 | .f32 | .bf16 | .f16 => true
  | _ => false

/-- The signed integer types (class Is of R189). -/
def LaneTy.isSigned : LaneTy → Bool
  | .i8 | .i16 | .i32 | .i64 => true
  | _ => false

/-- The integer types (class I of R189): codes 0x6 to 0xD. -/
def LaneTy.isInt (t : LaneTy) : Bool := !t.isFloat

/-- Bytes of a literal source (R52): 4 for code 62, 8 for code 63. -/
def Src.litBytes : Src → Nat
  | .lit32 _ => 4
  | .lit64 _ => 8
  | _ => 0

/-- Whether a source is a literal (R57). -/
def Src.isLit : Src → Bool
  | .lit32 _ | .lit64 _ => true
  | _ => false

/-- The source operands of an instruction, in field order (R55). -/
def Instr.srcs : Instr → List Src
  | .add _ s t | .sub _ s t | .and _ s t | .or _ s t | .xor _ s t | .andn _ s t | .orn _ s t
  | .min _ s t | .max _ s t | .minu _ s t | .maxu _ s t | .sel _ s t
  | .shl _ s t | .shr _ s t | .sar _ s t | .rotl _ s t | .bfx _ s t | .bfi _ s t
  | .mul _ s t | .mulh _ s t | .mulhu _ s t | .div _ s t | .divu _ s t | .rem _ s t | .remu _ s t
  | .seq _ s t | .sne _ s t | .slt _ s t | .sltu _ s t | .sle _ s t | .sleu _ s t
  | .fadd _ _ s t | .fsub _ _ s t | .fmul _ _ s t | .fdiv _ _ s t | .fmin _ _ s t | .fmax _ _ s t
  | .fsgn _ _ s t | .feq _ _ s t | .flt _ _ s t | .fle _ _ s t | .fma _ _ s t
  | .barv _ s t | .barw _ s t | .bexp _ s t | .bini _ s t
  | .swapctx _ s t | .spload _ s t | .pth _ s t | .rth _ s t => [s, t]
  | .mov _ s | .clz _ s | .ctz _ s | .popc _ s | .sextB _ s | .sextH _ s | .sextW _ s
  | .zextB _ s | .zextH _ s | .zextW _ s | .fsqrt _ _ s | .fcls _ _ s | .fcvt _ _ _ s
  | .bEq s _ | .bNe s _ | .bLt s _ | .bGe s _ | .bLe s _ | .bGt s _ | .jmpr s | .callr s
  | .st s _ _ _ | .stef s _ _ | .stf s _ _ | .ewait _ s | .xbset s | .xbp s | .swr _ s
  | .spsave _ s | .ebrk s | .scall s | .trap s => [s]
  | .cadd _ _ t | .cset _ _ t | .cbnd _ _ t | .cperm _ _ t
  | .amoAdd _ _ t _ | .amoAnd _ _ t _ | .amoOr _ _ t _ | .amoXor _ _ t _ | .amoMin _ _ t _
  | .amoMax _ _ t _ | .amoMinu _ _ t _ | .amoMaxu _ _ t _ | .amoSwap _ _ t _ | .amoFaddS _ _ t
  | .cas _ _ t _ | .mwait _ t | .qwait _ _ t | .splitr _ _ t
  | .binc _ _ t | .bdec _ _ t | .bcan _ _ t | .bbar _ _ t | .bbw _ _ t | .bcfg _ _ t | .bpeek _ _ t
  | .tsend _ _ t | .tann _ _ t | .tlah _ _ t => [t]
  | _ => []

/-- Bytes of an instruction's word and literal, without a prefix (R52). -/
def Instr.length (i : Instr) : Nat := 4 + (i.srcs.map Src.litBytes).sum

/-- At most one source is a literal (R57). -/
def Instr.oneLit (i : Instr) : Bool := decide ((i.srcs.filter Src.isLit).length ≤ 1)

/-- A block register g1 to g28 (the encodings of the task group, 06). -/
def blockOk (r : BitVec 5) : Bool := decide (1 ≤ r.toNat ∧ r.toNat ≤ 28)

/-- The pairing rule of conversions (R71, R78): the types differ and at least one is floating. -/
def convPair (d s : LaneTy) : Bool := decide (d ≠ s) && (d.isFloat || s.isFloat)

/-- The lane type of a four-bit code; 0xE and 0xF name none (R63). -/
def LaneTy.ofCode (c : BitVec 4) : Option LaneTy :=
  match c.toNat with
  | 0 => some .f64 | 1 => some .f32 | 2 => some .bf16 | 3 => some .f16 | 4 => some .e4m3 | 5 => some .e5m2
  | 6 => some .i8 | 7 => some .u8 | 8 => some .i16 | 9 => some .u16 | 10 => some .i32 | 11 => some .u32
  | 12 => some .i64 | 13 => some .u64 | _ => none

/-- The four-bit code of a lane type (R63). -/
def LaneTy.code : LaneTy → BitVec 4
  | .f64 => 0 | .f32 => 1 | .bf16 => 2 | .f16 => 3 | .e4m3 => 4 | .e5m2 => 5 | .i8 => 6 | .u8 => 7
  | .i16 => 8 | .u16 => 9 | .i32 => 10 | .u32 => 11 | .i64 => 12 | .u64 => 13

/-- Bytes of an element of a type code, 0 for a reserved code (R63). -/
def codeBytes (c : BitVec 4) : Nat :=
  match LaneTy.ofCode c with
  | some t => t.width / 8
  | none => 0

/-- Equal type codes, or a pair that meets the pairing rule; a reserved code meets neither (R224, R228). -/
def storePair (d s : BitVec 4) : Bool :=
  match LaneTy.ofCode d, LaneTy.ofCode s with
  | some x, some y => decide (x = y) || convPair x y
  | _, _ => false

/-- The header rules of R79 that do not depend on the machine's state. -/
def CmdHdr.ok (h : CmdHdr) : Bool :=
  (decide (h.gate.toNat ≤ 7) || h.gate == 0xF) && h.smode != 3
  && (if h.cmode.getLsbD 0 then decide (h.coff.toNat % 8 = 0) else h.ccap == 0 && h.coff == 0)
  && (h.cmode.getLsbD 1 || h.bslot == 0)

/-- The row rule of an A operand (R220, R237). -/
def MmulF.ok (f : MmulF) (row : Nat) : Bool := decide (f.str.toNat % 32 = 0 ∧ row ≤ f.str.toNat)

/-- Bytes of a memory row of mlatch (R222). -/
def latchRow (fmt : BitVec 4) (nq : Bool) : Nat :=
  if nq then 16 else match fmt.toNat with | 0 => 128 | 1 => 128 | 2 => 64 | 3 => 64 | _ => 32

/-- Bytes of a memory row of mtrans (R222). -/
def transRow (fmt : BitVec 4) (nq : Bool) : Nat :=
  if nq then 64 else match fmt.toNat with | 0 => 128 | _ => 64

/-- The body rules of mlatch and mtrans (R222, R237). -/
def MlatchF.ok (f : MlatchF) (row : Nat) : Bool :=
  decide (f.fmt.toNat ≤ 6) && (!f.nq || f.fmt == 0) && (f.nq || (f.sc.cap == 0 && f.sc.off == 0))
  && decide (f.str.toNat % 16 = 0 ∧ row ≤ f.str.toNat)

/-- The operation and type pairs of cscata (R230). -/
def atomicPair (aop : BitVec 3) (ety : BitVec 4) : Bool :=
  if aop.toNat ≤ 5 then decide (10 ≤ ety.toNat ∧ ety.toNat ≤ 13) else aop == 6 && ety == 1

/-- Whether a term is an encoding's instruction. Events, which have no encoding, are all well formed. -/
def Instr.wf (i : Instr) : Bool :=
  i.oneLit &&
  match i with
  | .bEq s _ | .bNe s _ | .bLt s _ | .bGe s _ | .bLe s _ | .bGt s _ => !s.isLit
  | .fcvt d s _ _ => convPair d s
  | .dbnz s _ => s != 0
  | .ldZext _ _ _ sz => sz != 3
  | .fork _ s | .pushr _ s | .popr _ s | .splitr _ s _ | .steal _ s | .dsp _ s => blockOk s
  | .trecv d e => decide (d ≠ .g e)
  | .vabs _ _ _ ty => ty.isF || ty.isSigned
  | .vadd _ _ _ _ ty | .vsub _ _ _ _ ty | .vmul _ _ _ _ ty | .vfma _ _ _ _ ty | .vmin _ _ _ _ ty
  | .vmax _ _ _ _ ty | .vneg _ _ _ ty | .vcmpEq _ _ _ _ ty | .vcmpNe _ _ _ _ ty | .vcmpLt _ _ _ _ ty
  | .vcmpLe _ _ _ _ ty | .vcmpGt _ _ _ _ ty | .vcmpGe _ _ _ _ ty | .vred _ _ _ ty | .vdot _ _ _ _ ty => ty.isF || ty.isInt
  | .vsclb _ _ _ _ ty | .vcls _ _ _ ty | .vexp2 _ _ _ ty | .vlog2 _ _ _ ty | .vrcp _ _ _ ty | .vrsq _ _ _ ty => ty.isF
  | .vshl _ _ _ _ ty | .vshr _ _ _ _ ty | .vsar _ _ _ _ ty => ty.isInt
  | .vacr _ _ _ ty | .vacw _ _ _ ty => decide (ty = .f64 ∨ ty = .f32 ∨ ty = .i32)
  | .vcvt _ _ p _ d s => convPair d s && decide (p.toNat < Max.max d.lanes s.lanes / Min.min d.lanes s.lanes)
  | .mzero h _ | .mrot h _ _ | .mspill h _ _ | .mfill h _ _ | .cmerge h _ _ _ _ _ _ _ | .cred h _ _ => h.ok
  | .mmulF64 h f => h.ok && f.ok 128
  | .mmulF32 h f | .mmulBf16 h f | .mmulF16 h f | .mmulE4m3 h f | .mmulE5m2 h f | .mmulE4e5 h f | .mmulI8 h f => h.ok && f.ok 64
  | .mmulNq4e4 h f => h.ok && f.ok 128
  | .mmulNq4b h f => h.ok && f.ok 256
  | .mlatch h f => h.ok && f.ok (latchRow f.fmt f.nq)
  | .mtrans h f => h.ok && f.ok (transRow f.fmt f.nq)
  | .mstore h _ str sty dty _ =>
      h.ok && (sty == 0 || sty == 1 || sty == 10) && storePair dty sty
      && decide ((if sty = 0 then 16 else 32) * codeBytes dty ≤ str.toNat)
  | .ccopy h _ _ _ sty dty => h.ok && storePair dty sty
  | .cgath h f | .cscat h f => h.ok && f.count != 0 && decide (f.ety.toNat ≤ 13) && f.aop == 0
  | .cscata h f => h.ok && f.count != 0 && atomicPair f.aop f.ety
  | .cfill h _ _ _ ety | .cstrm h _ _ ety _ => h.ok && decide (ety.toNat ≤ 13)
  | .cbcast h _ _ doff len _ =>
      h.ok && decide (len.toNat % 32 = 0 ∧ 32 ≤ len.toNat ∧ len.toNat ≤ 0xC000 ∧ doff.toNat + len.toNat ≤ 0xC000)
  | .cquant h _ _ _ nblk => h.ok && decide (1 ≤ nblk.toNat ∧ nblk.toNat ≤ 256)
  | _ => true

end Sys2Proof
end

