-- ==== Sys2Proof/Decode.lean ====
section
/-! DEFINITION. Decoding and encoding: instruction words (R52-R78), the ORD pairing (R67) and command words (R79-R81, R208-R237). -/

namespace Sys2Proof

/-- Why a word is no instruction. Every reason gives ILLEGAL (R82); the name says which rule the word breaks. -/
inductive Reject where
  | selector   -- an unassigned op, fn, cnd or sz (R69-R78)
  | operand    -- an operand code illegal in its position, or a reserved one (R54, R57)
  | typeCode   -- a reserved type code (R63)
  | reserved   -- a reserved ORDER or SCOPE (R66)
  | field      -- two literals, a non-zero unused field, or a limit of the instruction's own (R57, R58, R82)
  | short      -- fewer bytes than the instruction has
  deriving DecidableEq, Repr

/-! ## Fields -/

/-- A source operand code (R54); the literal's words come from lit. -/
def srcOf (lit : BitVec 64) (c : BitVec 6) : Except Reject Src :=
  if c.toNat < 32 then .ok (.g (c.extractLsb' 0 5))
  else if c.toNat < 48 then .ok (.const (c.extractLsb' 0 4))
  else if c.toNat < 56 then .ok (.q (c.extractLsb' 0 3))
  else if c.toNat = 62 then .ok (.lit32 (lit.extractLsb' 0 32))
  else if c.toNat = 63 then .ok (.lit64 lit)
  else .error .operand

/-- A destination operand code (R54). -/
def dstOf (c : BitVec 6) : Except Reject Dst :=
  if c.toNat < 32 then .ok (.g (c.extractLsb' 0 5))
  else if c.toNat = 54 then .ok .q6
  else if c.toNat = 55 then .ok .q7
  else .error .operand

/-- The code of a source operand (R54). -/
def Src.code : Src → BitVec 6
  | .g r => 0b0#1 ++ r
  | .const c => 0b10#2 ++ c
  | .q i => 0b110#3 ++ i
  | .lit32 _ => 62
  | .lit64 _ => 63

/-- The code of a destination operand (R54). -/
def Dst.code : Dst → BitVec 6
  | .g r => 0b0#1 ++ r
  | .q6 => 54
  | .q7 => 55

/-- A lane type, or the reserved codes (R63). -/
def tyOf (c : BitVec 4) : Except Reject LaneTy :=
  match LaneTy.ofCode c with
  | some t => .ok t
  | none => .error .typeCode

/-- The type bit of ops 0x10 and 0x11 (R71). -/
def FTy.bit : FTy → BitVec 1
  | .d => 0
  | .s => 1

def ftyOf (b : BitVec 1) : FTy := if b = 0 then .d else .s

/-- ORDER (R66). -/
def Order.code : Order → BitVec 3
  | .plain => 0 | .relaxed => 1 | .acquire => 2 | .release => 3 | .acqRel => 4

def orderOf (c : BitVec 3) : Option Order :=
  match c.toNat with
  | 0 => some .plain | 1 => some .relaxed | 2 => some .acquire | 3 => some .release | 4 => some .acqRel
  | _ => none

/-- SCOPE (R66). -/
def Scope.code : Scope → BitVec 3
  | .thread => 0 | .core => 1 | .cluster => 2 | .die => 3 | .module => 4 | .system => 5

def scopeOf (c : BitVec 3) : Option Scope :=
  match c.toNat with
  | 0 => some .thread | 1 => some .core | 2 => some .cluster | 3 => some .die | 4 => some .module | 5 => some .system
  | _ => none

namespace Field

/-- The fields of the formats (R59-R66). -/
def op (w : BitVec 32) : Nat := (w.extractLsb' 26 6).toNat
def d6 (w : BitVec 32) : BitVec 6 := w.extractLsb' 20 6
def s6 (w : BitVec 32) : BitVec 6 := w.extractLsb' 14 6
def t6 (w : BitVec 32) : BitVec 6 := w.extractLsb' 8 6
def fn (w : BitVec 32) : Nat := (w.extractLsb' 0 8).toNat
def fn7 (w : BitVec 32) : Nat := (w.extractLsb' 0 7).toNat
def fty (w : BitVec 32) : FTy := ftyOf (w.extractLsb' 7 1)
def dBlk (w : BitVec 32) : BitVec 5 := w.extractLsb' 20 5
def sBlk (w : BitVec 32) : BitVec 5 := w.extractLsb' 14 5
def dCap (w : BitVec 32) : BitVec 4 := w.extractLsb' 20 4
def sCap (w : BitVec 32) : BitVec 4 := w.extractLsb' 14 4
def sQ (w : BitVec 32) : BitVec 3 := w.extractLsb' 14 3
def mCap (w : BitVec 32) : BitVec 4 := w.extractLsb' 16 4
def off14 (w : BitVec 32) : BitVec 14 := w.extractLsb' 2 14
def sz (w : BitVec 32) : BitVec 2 := w.extractLsb' 0 2
def cnd (w : BitVec 32) : Nat := (w.extractLsb' 22 4).toNat
def cs6 (w : BitVec 32) : BitVec 6 := w.extractLsb' 16 6
def cs5 (w : BitVec 32) : BitVec 5 := w.extractLsb' 16 5
def disp (w : BitVec 32) : BitVec 16 := w.extractLsb' 0 16
def vd (w : BitVec 32) : BitVec 4 := w.extractLsb' 22 4
def vs (w : BitVec 32) : BitVec 4 := w.extractLsb' 18 4
def vt (w : BitVec 32) : BitVec 4 := w.extractLsb' 14 4
def kd (w : BitVec 32) : BitVec 3 := w.extractLsb' 22 3
def ks (w : BitVec 32) : BitVec 3 := w.extractLsb' 18 3
def kt (w : BitVec 32) : BitVec 3 := w.extractLsb' 14 3
def km (w : BitVec 32) : BitVec 3 := w.extractLsb' 11 3
def ty (w : BitVec 32) : BitVec 4 := w.extractLsb' 7 4
def off11 (w : BitVec 32) : BitVec 11 := w.extractLsb' 14 4 ++ w.extractLsb' 0 7
def sys (w : BitVec 32) : BitVec 10 := w.extractLsb' 10 10
def ev (w : BitVec 32) : BitVec 4 := w.extractLsb' 16 4
def es6 (w : BitVec 32) : BitVec 6 := w.extractLsb' 10 6

end Field

open Sys2Proof.Field

/-! ## The rows by form. Each reader takes the fields the row names; the fields it does not name are checked in decodeWord. -/

/-- d, s, t. -/
def rDST (w : BitVec 32) (lit : BitVec 64) (k : Dst → Src → Src → Instr) : Except Reject Instr := do
  let d ← dstOf (d6 w)
  let s ← srcOf lit (s6 w)
  let t ← srcOf lit (t6 w)
  .ok (k d s t)

/-- d, s. -/
def rDS (w : BitVec 32) (lit : BitVec 64) (k : Dst → Src → Instr) : Except Reject Instr := do
  let d ← dstOf (d6 w)
  let s ← srcOf lit (s6 w)
  .ok (k d s)

/-- A d register that is also read (sel, bfi, fma, cas), s, t. -/
def rGST (w : BitVec 32) (lit : BitVec 64) (k : BitVec 5 → Src → Src → Instr) : Except Reject Instr := do
  let s ← srcOf lit (s6 w)
  let t ← srcOf lit (t6 w)
  .ok (k (dBlk w) s t)

/-- Two capabilities and t (R72). -/
def rCCT (w : BitVec 32) (lit : BitVec 64) (k : BitVec 4 → BitVec 4 → Src → Instr) : Except Reject Instr := do
  let t ← srcOf lit (t6 w)
  .ok (k (dCap w) (sCap w) t)

/-- d and a capability in s. -/
def rDC (w : BitVec 32) (k : Dst → BitVec 4 → Instr) : Except Reject Instr := do
  let d ← dstOf (d6 w)
  .ok (k d (sCap w))

/-- d, a capability in s, t. -/
def rDCT (w : BitVec 32) (lit : BitVec 64) (k : Dst → BitVec 4 → Src → Instr) : Except Reject Instr := do
  let d ← dstOf (d6 w)
  let t ← srcOf lit (t6 w)
  .ok (k d (sCap w) t)

/-- d and a queue name in s (R58: 48 to 55). -/
def rDQ (w : BitVec 32) (k : Dst → BitVec 3 → Instr) : Except Reject Instr := do
  let d ← dstOf (d6 w)
  .ok (k d (sQ w))

/-- d, a queue name in s, t. -/
def rDQT (w : BitVec 32) (lit : BitVec 64) (k : Dst → BitVec 3 → Src → Instr) : Except Reject Instr := do
  let d ← dstOf (d6 w)
  let t ← srcOf lit (t6 w)
  .ok (k d (sQ w) t)

/-- d and a block of registers named by s (R158, R164). -/
def rDB (w : BitVec 32) (k : Dst → BitVec 5 → Instr) : Except Reject Instr := do
  let d ← dstOf (d6 w)
  .ok (k d (sBlk w))

/-- One source in the s field of format A. -/
def rS (w : BitVec 32) (lit : BitVec 64) (k : Src → Instr) : Except Reject Instr := do
  let s ← srcOf lit (s6 w)
  .ok (k s)

/-- One source in the s field of format E. -/
def rES (w : BitVec 32) (lit : BitVec 64) (k : Src → Instr) : Except Reject Instr := do
  let s ← srcOf lit (es6 w)
  .ok (k s)

/-- A branch on a source (R61, R73). -/
def rBr (w : BitVec 32) (lit : BitVec 64) (k : Src → BitVec 16 → Instr) : Except Reject Instr := do
  let s ← srcOf lit (cs6 w)
  .ok (k s (disp w))

/-- A load through a capability (R60). -/
def rLd (w : BitVec 32) (k : Dst → BitVec 4 → BitVec 14 → Instr) : Except Reject Instr := do
  let d ← dstOf (d6 w)
  .ok (k d (mCap w) (off14 w))

/-- A store through a capability: d is a source (R60). -/
def rSt (w : BitVec 32) (lit : BitVec 64) (k : Src → BitVec 4 → BitVec 14 → Instr) : Except Reject Instr := do
  let v ← srcOf lit (d6 w)
  .ok (k v (mCap w) (off14 w))

/-- vd, vs, vt, km, ty (R62). -/
def rV (w : BitVec 32) (k : BitVec 4 → BitVec 4 → BitVec 4 → BitVec 3 → LaneTy → Instr) : Except Reject Instr := do
  let t ← tyOf (ty w)
  .ok (k (vd w) (vs w) (vt w) (km w) t)

/-- vd, vs, km, ty. -/
def rV1 (w : BitVec 32) (k : BitVec 4 → BitVec 4 → BitVec 3 → LaneTy → Instr) : Except Reject Instr := do
  let t ← tyOf (ty w)
  .ok (k (vd w) (vs w) (km w) t)

/-- A mask register in vd, vs, vt, km, ty. -/
def rVK (w : BitVec 32) (k : BitVec 3 → BitVec 4 → BitVec 4 → BitVec 3 → LaneTy → Instr) : Except Reject Instr := do
  let t ← tyOf (ty w)
  .ok (k (kd w) (vs w) (vt w) (km w) t)

/-- vld and vst (R62). -/
def rVM (w : BitVec 32) (k : BitVec 4 → BitVec 4 → BitVec 11 → BitVec 3 → LaneTy → Instr) : Except Reject Instr := do
  let t ← tyOf (ty w)
  .ok (k (vd w) (vs w) (off11 w) (km w) t)

/-- vd, vs, vt without a mask (vmovg, vins). -/
def rVG (w : BitVec 32) (k : BitVec 4 → BitVec 4 → BitVec 4 → LaneTy → Instr) : Except Reject Instr := do
  let t ← tyOf (ty w)
  .ok (k (vd w) (vs w) (vt w) t)

/-! ## The groups (R70-R78) -/

def groupAlu (w : BitVec 32) (l : BitVec 64) : Except Reject Instr :=
  match fn w with
  | 0x01 => rDST w l .add | 0x02 => rDST w l .sub | 0x03 => rDST w l .and | 0x04 => rDST w l .or
  | 0x05 => rDST w l .xor | 0x06 => rDST w l .andn | 0x07 => rDST w l .orn | 0x08 => rDST w l .min
  | 0x09 => rDST w l .max | 0x0A => rDST w l .minu | 0x0B => rDST w l .maxu | 0x0C => rGST w l .sel
  | 0x0D => rDS w l .mov
  | _ => .error .selector

def groupShift (w : BitVec 32) (l : BitVec 64) : Except Reject Instr :=
  match fn w with
  | 0x00 => rDST w l .shl | 0x01 => rDST w l .shr | 0x02 => rDST w l .sar | 0x03 => rDST w l .rotl
  | 0x04 => rDS w l .clz | 0x05 => rDS w l .ctz | 0x06 => rDS w l .popc
  | 0x08 => rDS w l .sextB | 0x09 => rDS w l .sextH | 0x0A => rDS w l .sextW
  | 0x0C => rDS w l .zextB | 0x0D => rDS w l .zextH | 0x0E => rDS w l .zextW
  | 0x10 => rDST w l .bfx | 0x11 => rGST w l .bfi
  | _ => .error .selector

def groupMul (w : BitVec 32) (l : BitVec 64) : Except Reject Instr :=
  match fn w with
  | 0x00 => rDST w l .mul | 0x01 => rDST w l .mulh | 0x02 => rDST w l .mulhu
  | 0x04 => rDST w l .div | 0x05 => rDST w l .divu | 0x06 => rDST w l .rem | 0x07 => rDST w l .remu
  | _ => .error .selector

def groupSet (w : BitVec 32) (l : BitVec 64) : Except Reject Instr :=
  match fn w with
  | 0x00 => rDST w l .seq | 0x01 => rDST w l .sne | 0x02 => rDST w l .slt | 0x03 => rDST w l .sltu
  | 0x04 => rDST w l .sle | 0x05 => rDST w l .sleu
  | _ => .error .selector

def groupFp (w : BitVec 32) (l : BitVec 64) : Except Reject Instr :=
  match fn7 w with
  | 0x00 => rDST w l (.fadd (fty w)) | 0x01 => rDST w l (.fsub (fty w)) | 0x02 => rDST w l (.fmul (fty w))
  | 0x03 => rDST w l (.fdiv (fty w)) | 0x04 => rDS w l (.fsqrt (fty w)) | 0x05 => rDST w l (.fmin (fty w))
  | 0x06 => rDST w l (.fmax (fty w)) | 0x07 => rDST w l (.fsgn (fty w)) | 0x08 => rDST w l (.feq (fty w))
  | 0x09 => rDST w l (.flt (fty w)) | 0x0A => rDST w l (.fle (fty w)) | 0x0B => rDS w l (.fcls (fty w))
  | _ => .error .selector

def groupCvt (w : BitVec 32) (l : BitVec 64) : Except Reject Instr := do
  let dt ← tyOf (w.extractLsb' 4 4)
  let st ← tyOf (w.extractLsb' 0 4)
  rDS w l (.fcvt dt st)

def groupCap (w : BitVec 32) (l : BitVec 64) : Except Reject Instr :=
  match fn w with
  | 0x00 => rCCT w l .cadd | 0x01 => rCCT w l .cset | 0x02 => rCCT w l .cbnd | 0x03 => rCCT w l .cperm
  | 0x04 => .ok (.cmov (dCap w) (sCap w)) | 0x05 => rDC w .ctag
  | 0x10 => rDC w .cgetCur | 0x11 => rDC w .cgetBase | 0x12 => rDC w .cgetTop | 0x13 => rDC w .cgetLen
  | 0x14 => rDC w .cgetPerm | 0x15 => rDC w .cgetTen | 0x16 => rDC w .cgetKind | 0x17 => rDC w .cgetTag
  | _ => .error .selector

def groupB (w : BitVec 32) (l : BitVec 64) : Except Reject Instr :=
  match cnd w with
  | 0 => .ok (.b (disp w))
  | 1 => rBr w l .bEq | 2 => rBr w l .bNe | 3 => rBr w l .bLt | 4 => rBr w l .bGe | 5 => rBr w l .bLe | 6 => rBr w l .bGt
  | _ => .error .selector

def groupDbnz (w : BitVec 32) : Except Reject Instr :=
  match cnd w with
  | 0 => .ok (.dbnz (cs5 w) (disp w))
  | _ => .error .selector

def groupJmp (w : BitVec 32) : Except Reject Instr :=
  match cnd w with
  | 0 => .ok (.jmp (disp w)) | 1 => .ok (.call (disp w))
  | _ => .error .selector

def groupJmpr (w : BitVec 32) (l : BitVec 64) : Except Reject Instr :=
  match fn w with
  | 0x00 => rS w l .jmpr | 0x01 => rS w l .callr | 0x02 => .ok .ret
  | _ => .error .selector

def groupCapMem (w : BitVec 32) : Except Reject Instr :=
  match (sz w).toNat with
  | 0 => .ok (.ldc (dCap w) (mCap w) (off14 w)) | 1 => .ok (.stc (dCap w) (mCap w) (off14 w))
  | _ => .error .selector

def groupFe (w : BitVec 32) (l : BitVec 64) : Except Reject Instr :=
  match (sz w).toNat with
  | 0 => rLd w .ldf | 1 => rLd w .ldfe | 2 => rSt w l .stef | _ => rSt w l .stf

def groupFes (w : BitVec 32) : Except Reject Instr :=
  match (sz w).toNat with
  | 0 => .ok (.empt (mCap w) (off14 w)) | 1 => rLd w .fes
  | _ => .error .selector

/-- Op 0x20: fn<5:4> is the size, 0b10 word or 0b11 doubleword (R74). -/
def groupAmo (w : BitVec 32) (l : BitVec 64) : Except Reject Instr :=
  if w.getLsbD 5 then
    let dbl := w.getLsbD 4
    match (w.extractLsb' 0 4).toNat with
    | 0x0 => rDCT w l (.amoAdd · · · dbl) | 0x1 => rDCT w l (.amoAnd · · · dbl) | 0x2 => rDCT w l (.amoOr · · · dbl)
    | 0x3 => rDCT w l (.amoXor · · · dbl) | 0x4 => rDCT w l (.amoMin · · · dbl) | 0x5 => rDCT w l (.amoMax · · · dbl)
    | 0x6 => rDCT w l (.amoMinu · · · dbl) | 0x7 => rDCT w l (.amoMaxu · · · dbl) | 0x8 => rDCT w l (.amoSwap · · · dbl)
    | 0x9 => rDCT w l .amoFaddS
    | 0xA => do
        let t ← srcOf l (t6 w)
        .ok (.cas (dBlk w) (sCap w) t dbl)
    | _ => .error .selector
  else .error .selector

def groupMon (w : BitVec 32) (l : BitVec 64) : Except Reject Instr :=
  match fn w with
  | 0x00 => .ok (.mon (sCap w))
  | 0x01 => do
      let d ← dstOf (d6 w)
      let t ← srcOf l (t6 w)
      .ok (.mwait d t)
  | 0x08 => .ok (.fence .thread) | 0x09 => .ok (.fence .core) | 0x0A => .ok (.fence .cluster)
  | 0x0B => .ok (.fence .die) | 0x0C => .ok (.fence .module) | 0x0D => .ok (.fence .system)
  | _ => .error .selector

def groupQueue (w : BitVec 32) (l : BitVec 64) : Except Reject Instr :=
  match fn w with
  | 0x00 => rDQ w .qpoll | 0x01 => rDQ w .qcnt | 0x02 => rDQ w .qclose | 0x03 => rDQ w .qstat | 0x04 => rDQT w l .qwait
  | _ => .error .selector

def groupBarrier (w : BitVec 32) (l : BitVec 64) : Except Reject Instr :=
  match fn w with
  | 0x00 => rDST w l .barv | 0x01 => rDST w l .barw | 0x02 => rDST w l .bexp | 0x03 => rDST w l .bini
  | _ => .error .selector

def groupTask (w : BitVec 32) (l : BitVec 64) : Except Reject Instr :=
  match fn w with
  | 0x00 => .ok .waitw | 0x01 => .ok .tend | 0x02 => .ok .done | 0x03 => .ok .yield
  | 0x04 => rDB w .fork | 0x05 => rDC w .jdec | 0x06 => rDB w .pushr | 0x07 => rDB w .popr
  | 0x08 => do
      let d ← dstOf (d6 w)
      let t ← srcOf l (t6 w)
      .ok (.splitr d (sBlk w) t)
  | 0x09 => rDB w .steal | 0x0A => rDB w .dsp
  | _ => .error .selector

def groupLaunch (w : BitVec 32) : Except Reject Instr :=
  match fn w with
  | 0x00 => rDC w .launch
  | _ => .error .selector

def groupBridle (w : BitVec 32) (l : BitVec 64) : Except Reject Instr :=
  match fn w with
  | 0x00 => rDCT w l .binc | 0x01 => rDCT w l .bdec | 0x02 => rDCT w l .bcan | 0x03 => rDCT w l .bbar
  | 0x04 => rDCT w l .bbw | 0x05 => rDCT w l .bcfg | 0x06 => rDCT w l .bpeek
  | _ => .error .selector

def groupTether (w : BitVec 32) (l : BitVec 64) : Except Reject Instr :=
  match fn w with
  | 0x00 => rDB w .trecv | 0x01 => rDQT w l .tsend | 0x02 => rDQT w l .tann | 0x03 => rDQT w l .tlah
  | 0x04 => do
      let d ← dstOf (d6 w)
      .ok (.tdone d)
  | _ => .error .selector

def groupEngine (w : BitVec 32) (l : BitVec 64) : Except Reject Instr :=
  match fn w with
  | 0x00 => .ok (.enqm (ev w)) | 0x01 => .ok (.enqc (ev w))
  | 0x02 => do
      let d ← dstOf (d6 w)
      rES w l (.ewait d)
  | 0x03 => rES w l .xbset | 0x04 => rES w l .xbp
  | _ => .error .selector

def groupSys (w : BitVec 32) (l : BitVec 64) : Except Reject Instr :=
  match (w.extractLsb' 0 10).toNat with
  | 0x000 => do
      let d ← dstOf (d6 w)
      .ok (.srd d (sys w))
  | 0x001 => do
      let v ← srcOf l (d6 w)
      .ok (.swr (sys w) v)
  | _ => .error .selector

/-- s and t without a destination are read beside d in op 0x39 (R177-R182). -/
def groupSuper (w : BitVec 32) (l : BitVec 64) : Except Reject Instr :=
  match fn w with
  | 0x00 => .ok .tret | 0x01 => rDST w l .swapctx | 0x02 => rDS w l .spsave | 0x03 => rDST w l .spload
  | 0x04 => rDST w l .pth | 0x05 => rDST w l .rth
  | 0x08 => rS w l .ebrk | 0x09 => rS w l .scall | 0x0A => rS w l .trap
  | _ => .error .selector

def groupVArith (w : BitVec 32) : Except Reject Instr :=
  match fn7 w with
  | 0x00 => rV w .vadd | 0x01 => rV w .vsub | 0x02 => rV w .vmul | 0x03 => rV w .vfma | 0x04 => rV w .vmin
  | 0x05 => rV w .vmax | 0x06 => rV1 w .vabs | 0x07 => rV1 w .vneg | 0x08 => rV w .vsclb
  | _ => .error .selector

def groupVLogic (w : BitVec 32) : Except Reject Instr :=
  match fn7 w with
  | 0x00 => rV w .vand | 0x01 => rV w .vor | 0x02 => rV w .vxor | 0x03 => rV w .vshl | 0x04 => rV w .vshr | 0x05 => rV w .vsar
  | _ => .error .selector

def groupVCmp (w : BitVec 32) : Except Reject Instr :=
  match fn7 w with
  | 0x00 => rVK w .vcmpEq | 0x01 => rVK w .vcmpNe | 0x02 => rVK w .vcmpLt | 0x03 => rVK w .vcmpLe
  | 0x04 => rVK w .vcmpGt | 0x05 => rVK w .vcmpGe | 0x10 => rV w .vsel | 0x11 => rV1 w .vcls
  | _ => .error .selector

def groupVCvt (w : BitVec 32) : Except Reject Instr :=
  match (w.extractLsb' 4 3).toNat with
  | 0 => do
      let dt ← tyOf (ty w)
      let st ← tyOf (w.extractLsb' 0 4)
      .ok (.vcvt (vd w) (vs w) (vt w) (km w) dt st)
  | _ => .error .selector

def groupVIdx (w : BitVec 32) : Except Reject Instr :=
  match fn7 w with
  | 0x00 => rV w .vldx | 0x01 => rV w .vstx
  | _ => .error .selector

def groupVMove (w : BitVec 32) : Except Reject Instr :=
  match fn7 w with
  | 0x00 => rV1 w .vbc | 0x01 => rVG w .vmovg | 0x02 => rVG w .vins | 0x03 => rV w .vperm | 0x04 => rV w .vrot
  | _ => .error .selector

def groupVRed (w : BitVec 32) : Except Reject Instr :=
  match fn7 w with
  | 0x00 => rV1 w .vred | 0x01 => rV w .vdot
  | _ => .error .selector

def groupVTrans (w : BitVec 32) : Except Reject Instr :=
  match fn7 w with
  | 0x00 => rV1 w .vexp2 | 0x01 => rV1 w .vlog2 | 0x02 => rV1 w .vrcp | 0x03 => rV1 w .vrsq
  | _ => .error .selector

def groupVAcc (w : BitVec 32) : Except Reject Instr := do
  let t ← tyOf (ty w)
  match fn7 w with
  | 0x00 => .ok (.vacr (vd w) (vt w) (km w) t)
  | 0x01 => .ok (.vacw (vs w) (vt w) (km w) t)
  | _ => .error .selector

def groupMask (w : BitVec 32) : Except Reject Instr :=
  match fn7 w with
  | 0x00 => .ok (.kand (kd w) (ks w) (kt w)) | 0x01 => .ok (.kor (kd w) (ks w) (kt w))
  | 0x02 => .ok (.kxor (kd w) (ks w) (kt w)) | 0x03 => .ok (.knot (kd w) (ks w))
  | 0x04 => .ok (.kmovKk (kd w) (ks w)) | 0x05 => .ok (.kmovKg (kd w) (vs w))
  | 0x06 => .ok (.kmovGk (vd w) (ks w)) | 0x07 => .ok (.kpop (vd w) (ks w))
  | _ => .error .selector

def groupOrd (w : BitVec 32) : Except Reject Instr :=
  match orderOf (w.extractLsb' 23 3), scopeOf (w.extractLsb' 20 3) with
  | some o, some sc => .ok (.ord o sc)
  | _, _ => .error .reserved

/-- The major opcode map (R69): the fields of the row, before the checks on what the row does not use. -/
def rawWord (w : BitVec 32) (l : BitVec 64) : Except Reject Instr :=
  match op w with
  | 0x00 => groupAlu w l | 0x01 => groupShift w l | 0x02 => groupMul w l | 0x03 => groupSet w l
  | 0x10 => groupFp w l
  | 0x11 => if fn7 w = 0 then rGST w l (.fma (fty w)) else .error .selector
  | 0x12 => groupCvt w l
  | 0x14 => groupCap w l
  | 0x16 => groupB w l | 0x17 => groupDbnz w | 0x18 => groupJmp w | 0x19 => groupJmpr w l
  | 0x1A => rLd w (.ld · · · (sz w)) | 0x1B => rLd w (.ldZext · · · (sz w)) | 0x1C => rSt w l (.st · · · (sz w))
  | 0x1D => groupCapMem w | 0x1E => groupFe w l | 0x1F => groupFes w
  | 0x20 => groupAmo w l | 0x21 => groupMon w l | 0x22 => groupQueue w l
  | 0x24 => groupBarrier w l | 0x25 => groupTask w l | 0x26 => groupLaunch w
  | 0x28 => groupBridle w l | 0x2A => groupTether w l | 0x2B => groupEngine w l
  | 0x2C => groupVArith w | 0x2D => groupVLogic w | 0x2E => groupVCmp w | 0x2F => groupVCvt w
  | 0x30 => rVM w .vld | 0x31 => rVM w .vst | 0x32 => groupVIdx w | 0x33 => groupVMove w
  | 0x34 => groupVRed w | 0x35 => groupVTrans w | 0x36 => groupVAcc w | 0x37 => groupMask w
  | 0x38 => groupSys w l | 0x39 => groupSuper w l
  | 0x3A => .ok .nop
  | 0x3E => groupOrd w
  | _ => .error .selector

/-! ## Encoding -/

/-- Format A (R59). -/
def fA (op : BitVec 6) (d s t : BitVec 6) (fn : BitVec 8) : BitVec 32 := op ++ d ++ s ++ t ++ fn

/-- Format A with the type bit in fn<7> (R71). -/
def fF (op : BitVec 6) (y : FTy) (d s t : BitVec 6) (fn : BitVec 7) : BitVec 32 := op ++ d ++ s ++ t ++ y.bit ++ fn

/-- Format A of op 0x20 (R74). -/
def fAmo (d : BitVec 6) (a : BitVec 4) (t : BitVec 6) (dbl : Bool) (fn : BitVec 4) : BitVec 32 :=
  0x20#6 ++ d ++ 0#2 ++ a ++ t ++ 0#2 ++ 1#1 ++ BitVec.ofBool dbl ++ fn

/-- Format M (R60). -/
def fM (op : BitVec 6) (d : BitVec 6) (a : BitVec 4) (off : BitVec 14) (sz : BitVec 2) : BitVec 32 := op ++ d ++ a ++ off ++ sz

/-- Format C (R61). -/
def fC (op : BitVec 6) (cnd : BitVec 4) (s : BitVec 6) (disp : BitVec 16) : BitVec 32 := op ++ cnd ++ s ++ disp

/-- Format V (R62). -/
def fV (op : BitVec 6) (vd vs vt : BitVec 4) (km : BitVec 3) (ty : BitVec 4) (fn : BitVec 7) : BitVec 32 :=
  op ++ vd ++ vs ++ vt ++ km ++ ty ++ fn

/-- vld and vst (R62). -/
def fVM (op : BitVec 6) (vd a : BitVec 4) (off : BitVec 11) (km : BitVec 3) (ty : BitVec 4) : BitVec 32 :=
  op ++ vd ++ a ++ off.extractLsb' 7 4 ++ km ++ ty ++ off.extractLsb' 0 7

/-- Format E (R65). -/
def fE (d : BitVec 6) (v : BitVec 4) (s : BitVec 6) (fn : BitVec 8) : BitVec 32 := 0x2B#6 ++ d ++ v ++ s ++ 0#2 ++ fn

/-- Format S (R64). -/
def fS (d : BitVec 6) (sys : BitVec 10) (fn : BitVec 10) : BitVec 32 := 0x38#6 ++ d ++ sys ++ fn

/-- A capability index in a six-bit field (R58). -/
def c6 (a : BitVec 4) : BitVec 6 := 0#2 ++ a

/-- A register in a six-bit field. -/
def g6 (r : BitVec 5) : BitVec 6 := 0#1 ++ r

/-- A queue name in a six-bit field (R58). -/
def q6c (q : BitVec 3) : BitVec 6 := 0b110#3 ++ q

/-- A mask register in a four-bit field (R58). -/
def k4 (k : BitVec 3) : BitVec 4 := 0#1 ++ k

/-- The word of an instruction, from the encoding tables R66 and R70-R78. Rows without a word answer the all-zero word,
which is no instruction (R70). -/
def encodeWord : Instr → BitVec 32
  | .add d s t => fA 0x00 d.code s.code t.code 0x01
  | .sub d s t => fA 0x00 d.code s.code t.code 0x02
  | .and d s t => fA 0x00 d.code s.code t.code 0x03
  | .or d s t => fA 0x00 d.code s.code t.code 0x04
  | .xor d s t => fA 0x00 d.code s.code t.code 0x05
  | .andn d s t => fA 0x00 d.code s.code t.code 0x06
  | .orn d s t => fA 0x00 d.code s.code t.code 0x07
  | .min d s t => fA 0x00 d.code s.code t.code 0x08
  | .max d s t => fA 0x00 d.code s.code t.code 0x09
  | .minu d s t => fA 0x00 d.code s.code t.code 0x0A
  | .maxu d s t => fA 0x00 d.code s.code t.code 0x0B
  | .sel d s t => fA 0x00 (g6 d) s.code t.code 0x0C
  | .mov d s => fA 0x00 d.code s.code 0 0x0D
  | .shl d s t => fA 0x01 d.code s.code t.code 0x00
  | .shr d s t => fA 0x01 d.code s.code t.code 0x01
  | .sar d s t => fA 0x01 d.code s.code t.code 0x02
  | .rotl d s t => fA 0x01 d.code s.code t.code 0x03
  | .clz d s => fA 0x01 d.code s.code 0 0x04
  | .ctz d s => fA 0x01 d.code s.code 0 0x05
  | .popc d s => fA 0x01 d.code s.code 0 0x06
  | .sextB d s => fA 0x01 d.code s.code 0 0x08
  | .sextH d s => fA 0x01 d.code s.code 0 0x09
  | .sextW d s => fA 0x01 d.code s.code 0 0x0A
  | .zextB d s => fA 0x01 d.code s.code 0 0x0C
  | .zextH d s => fA 0x01 d.code s.code 0 0x0D
  | .zextW d s => fA 0x01 d.code s.code 0 0x0E
  | .bfx d s t => fA 0x01 d.code s.code t.code 0x10
  | .bfi d s t => fA 0x01 (g6 d) s.code t.code 0x11
  | .mul d s t => fA 0x02 d.code s.code t.code 0x00
  | .mulh d s t => fA 0x02 d.code s.code t.code 0x01
  | .mulhu d s t => fA 0x02 d.code s.code t.code 0x02
  | .div d s t => fA 0x02 d.code s.code t.code 0x04
  | .divu d s t => fA 0x02 d.code s.code t.code 0x05
  | .rem d s t => fA 0x02 d.code s.code t.code 0x06
  | .remu d s t => fA 0x02 d.code s.code t.code 0x07
  | .seq d s t => fA 0x03 d.code s.code t.code 0x00
  | .sne d s t => fA 0x03 d.code s.code t.code 0x01
  | .slt d s t => fA 0x03 d.code s.code t.code 0x02
  | .sltu d s t => fA 0x03 d.code s.code t.code 0x03
  | .sle d s t => fA 0x03 d.code s.code t.code 0x04
  | .sleu d s t => fA 0x03 d.code s.code t.code 0x05
  | .fadd y d s t => fF 0x10 y d.code s.code t.code 0x00
  | .fsub y d s t => fF 0x10 y d.code s.code t.code 0x01
  | .fmul y d s t => fF 0x10 y d.code s.code t.code 0x02
  | .fdiv y d s t => fF 0x10 y d.code s.code t.code 0x03
  | .fsqrt y d s => fF 0x10 y d.code s.code 0 0x04
  | .fmin y d s t => fF 0x10 y d.code s.code t.code 0x05
  | .fmax y d s t => fF 0x10 y d.code s.code t.code 0x06
  | .fsgn y d s t => fF 0x10 y d.code s.code t.code 0x07
  | .feq y d s t => fF 0x10 y d.code s.code t.code 0x08
  | .flt y d s t => fF 0x10 y d.code s.code t.code 0x09
  | .fle y d s t => fF 0x10 y d.code s.code t.code 0x0A
  | .fcls y d s => fF 0x10 y d.code s.code 0 0x0B
  | .fma y d s t => fF 0x11 y (g6 d) s.code t.code 0x00
  | .fcvt x z d s => fA 0x12 d.code s.code 0 (x.code ++ z.code)
  | .cadd d s t => fA 0x14 (c6 d) (c6 s) t.code 0x00
  | .cset d s t => fA 0x14 (c6 d) (c6 s) t.code 0x01
  | .cbnd d s t => fA 0x14 (c6 d) (c6 s) t.code 0x02
  | .cperm d s t => fA 0x14 (c6 d) (c6 s) t.code 0x03
  | .cmov d s => fA 0x14 (c6 d) (c6 s) 0 0x04
  | .ctag d s => fA 0x14 d.code (c6 s) 0 0x05
  | .cgetCur d s => fA 0x14 d.code (c6 s) 0 0x10
  | .cgetBase d s => fA 0x14 d.code (c6 s) 0 0x11
  | .cgetTop d s => fA 0x14 d.code (c6 s) 0 0x12
  | .cgetLen d s => fA 0x14 d.code (c6 s) 0 0x13
  | .cgetPerm d s => fA 0x14 d.code (c6 s) 0 0x14
  | .cgetTen d s => fA 0x14 d.code (c6 s) 0 0x15
  | .cgetKind d s => fA 0x14 d.code (c6 s) 0 0x16
  | .cgetTag d s => fA 0x14 d.code (c6 s) 0 0x17
  | .b i => fC 0x16 0 0 i
  | .bEq s i => fC 0x16 1 s.code i
  | .bNe s i => fC 0x16 2 s.code i
  | .bLt s i => fC 0x16 3 s.code i
  | .bGe s i => fC 0x16 4 s.code i
  | .bLe s i => fC 0x16 5 s.code i
  | .bGt s i => fC 0x16 6 s.code i
  | .dbnz s i => fC 0x17 0 (g6 s) i
  | .jmp i => fC 0x18 0 0 i
  | .call i => fC 0x18 1 0 i
  | .jmpr s => fA 0x19 0 s.code 0 0x00
  | .callr s => fA 0x19 0 s.code 0 0x01
  | .ret => fA 0x19 0 0 0 0x02
  | .ld d a o z => fM 0x1A d.code a o z
  | .ldZext d a o z => fM 0x1B d.code a o z
  | .st v a o z => fM 0x1C v.code a o z
  | .ldc c a o => fM 0x1D (c6 c) a o 0
  | .stc c a o => fM 0x1D (c6 c) a o 1
  | .ldf d a o => fM 0x1E d.code a o 0
  | .ldfe d a o => fM 0x1E d.code a o 1
  | .stef v a o => fM 0x1E v.code a o 2
  | .stf v a o => fM 0x1E v.code a o 3
  | .empt a o => fM 0x1F 0 a o 0
  | .fes d a o => fM 0x1F d.code a o 1
  | .amoAdd d a t z => fAmo d.code a t.code z 0x0
  | .amoAnd d a t z => fAmo d.code a t.code z 0x1
  | .amoOr d a t z => fAmo d.code a t.code z 0x2
  | .amoXor d a t z => fAmo d.code a t.code z 0x3
  | .amoMin d a t z => fAmo d.code a t.code z 0x4
  | .amoMax d a t z => fAmo d.code a t.code z 0x5
  | .amoMinu d a t z => fAmo d.code a t.code z 0x6
  | .amoMaxu d a t z => fAmo d.code a t.code z 0x7
  | .amoSwap d a t z => fAmo d.code a t.code z 0x8
  | .amoFaddS d a t => fAmo d.code a t.code false 0x9
  | .cas d a t z => fAmo (g6 d) a t.code z 0xA
  | .mon a => fA 0x21 0 (c6 a) 0 0x00
  | .mwait d t => fA 0x21 d.code 0 t.code 0x01
  | .fence sc => fA 0x21 0 0 0 (0b00001#5 ++ sc.code)
  | .ord o sc => 0x3E#6 ++ o.code ++ sc.code ++ 0#20
  | .qpoll d q => fA 0x22 d.code (q6c q) 0 0x00
  | .qcnt d q => fA 0x22 d.code (q6c q) 0 0x01
  | .qclose d q => fA 0x22 d.code (q6c q) 0 0x02
  | .qstat d q => fA 0x22 d.code (q6c q) 0 0x03
  | .qwait d q t => fA 0x22 d.code (q6c q) t.code 0x04
  | .barv d s t => fA 0x24 d.code s.code t.code 0x00
  | .barw d s t => fA 0x24 d.code s.code t.code 0x01
  | .bexp d s t => fA 0x24 d.code s.code t.code 0x02
  | .bini d s t => fA 0x24 d.code s.code t.code 0x03
  | .waitw => fA 0x25 0 0 0 0x00
  | .tend => fA 0x25 0 0 0 0x01
  | .done => fA 0x25 0 0 0 0x02
  | .yield => fA 0x25 0 0 0 0x03
  | .fork d s => fA 0x25 d.code (g6 s) 0 0x04
  | .jdec d a => fA 0x25 d.code (c6 a) 0 0x05
  | .pushr d s => fA 0x25 d.code (g6 s) 0 0x06
  | .popr d s => fA 0x25 d.code (g6 s) 0 0x07
  | .splitr d s t => fA 0x25 d.code (g6 s) t.code 0x08
  | .steal d s => fA 0x25 d.code (g6 s) 0 0x09
  | .dsp d s => fA 0x25 d.code (g6 s) 0 0x0A
  | .launch d a => fA 0x26 d.code (c6 a) 0 0x00
  | .binc d a t => fA 0x28 d.code (c6 a) t.code 0x00
  | .bdec d a t => fA 0x28 d.code (c6 a) t.code 0x01
  | .bcan d a t => fA 0x28 d.code (c6 a) t.code 0x02
  | .bbar d a t => fA 0x28 d.code (c6 a) t.code 0x03
  | .bbw d a t => fA 0x28 d.code (c6 a) t.code 0x04
  | .bcfg d a t => fA 0x28 d.code (c6 a) t.code 0x05
  | .bpeek d a t => fA 0x28 d.code (c6 a) t.code 0x06
  | .trecv d e => fA 0x2A d.code (g6 e) 0 0x00
  | .tsend d q t => fA 0x2A d.code (q6c q) t.code 0x01
  | .tann d q t => fA 0x2A d.code (q6c q) t.code 0x02
  | .tlah d q t => fA 0x2A d.code (q6c q) t.code 0x03
  | .tdone d => fA 0x2A d.code 0 0 0x04
  | .enqm v => fE 0 v 0 0x00
  | .enqc v => fE 0 v 0 0x01
  | .ewait d s => fE d.code 0 s.code 0x02
  | .xbset s => fE 0 0 s.code 0x03
  | .xbp s => fE 0 0 s.code 0x04
  | .srd d r => fS d.code r 0x000
  | .swr r v => fS v.code r 0x001
  | .tret => fA 0x39 0 0 0 0x00
  | .swapctx d s t => fA 0x39 d.code s.code t.code 0x01
  | .spsave d s => fA 0x39 d.code s.code 0 0x02
  | .spload d s t => fA 0x39 d.code s.code t.code 0x03
  | .pth d s t => fA 0x39 d.code s.code t.code 0x04
  | .rth d s t => fA 0x39 d.code s.code t.code 0x05
  | .ebrk s => fA 0x39 0 s.code 0 0x08
  | .scall s => fA 0x39 0 s.code 0 0x09
  | .trap s => fA 0x39 0 s.code 0 0x0A
  | .nop => 0x3A#6 ++ 0#26
  | .vadd d s t k y => fV 0x2C d s t k y.code 0x00
  | .vsub d s t k y => fV 0x2C d s t k y.code 0x01
  | .vmul d s t k y => fV 0x2C d s t k y.code 0x02
  | .vfma d s t k y => fV 0x2C d s t k y.code 0x03
  | .vmin d s t k y => fV 0x2C d s t k y.code 0x04
  | .vmax d s t k y => fV 0x2C d s t k y.code 0x05
  | .vabs d s k y => fV 0x2C d s 0 k y.code 0x06
  | .vneg d s k y => fV 0x2C d s 0 k y.code 0x07
  | .vsclb d s t k y => fV 0x2C d s t k y.code 0x08
  | .vand d s t k y => fV 0x2D d s t k y.code 0x00
  | .vor d s t k y => fV 0x2D d s t k y.code 0x01
  | .vxor d s t k y => fV 0x2D d s t k y.code 0x02
  | .vshl d s t k y => fV 0x2D d s t k y.code 0x03
  | .vshr d s t k y => fV 0x2D d s t k y.code 0x04
  | .vsar d s t k y => fV 0x2D d s t k y.code 0x05
  | .vcmpEq d s t k y => fV 0x2E (k4 d) s t k y.code 0x00
  | .vcmpNe d s t k y => fV 0x2E (k4 d) s t k y.code 0x01
  | .vcmpLt d s t k y => fV 0x2E (k4 d) s t k y.code 0x02
  | .vcmpLe d s t k y => fV 0x2E (k4 d) s t k y.code 0x03
  | .vcmpGt d s t k y => fV 0x2E (k4 d) s t k y.code 0x04
  | .vcmpGe d s t k y => fV 0x2E (k4 d) s t k y.code 0x05
  | .vsel d s t k y => fV 0x2E d s t k y.code 0x10
  | .vcls d s k y => fV 0x2E d s 0 k y.code 0x11
  | .vcvt d s p k x z => fV 0x2F d s p k x.code (0#3 ++ z.code)
  | .vld d a o k y => fVM 0x30 d a o k y.code
  | .vst d a o k y => fVM 0x31 d a o k y.code
  | .vldx d a t k y => fV 0x32 d a t k y.code 0x00
  | .vstx d a t k y => fV 0x32 d a t k y.code 0x01
  | .vbc d g k y => fV 0x33 d g 0 k y.code 0x00
  | .vmovg d s g y => fV 0x33 d s g 0 y.code 0x01
  | .vins d g t y => fV 0x33 d g t 0 y.code 0x02
  | .vperm d s t k y => fV 0x33 d s t k y.code 0x03
  | .vrot d s g k y => fV 0x33 d s g k y.code 0x04
  | .vred d s k y => fV 0x34 d s 0 k y.code 0x00
  | .vdot d s t k y => fV 0x34 d s t k y.code 0x01
  | .vexp2 d s k y => fV 0x35 d s 0 k y.code 0x00
  | .vlog2 d s k y => fV 0x35 d s 0 k y.code 0x01
  | .vrcp d s k y => fV 0x35 d s 0 k y.code 0x02
  | .vrsq d s k y => fV 0x35 d s 0 k y.code 0x03
  | .vacr d g k y => fV 0x36 d 0 g k y.code 0x00
  | .vacw s g k y => fV 0x36 0 s g k y.code 0x01
  | .kand d s t => fV 0x37 (k4 d) (k4 s) (k4 t) 0 0 0x00
  | .kor d s t => fV 0x37 (k4 d) (k4 s) (k4 t) 0 0 0x01
  | .kxor d s t => fV 0x37 (k4 d) (k4 s) (k4 t) 0 0 0x02
  | .knot d s => fV 0x37 (k4 d) (k4 s) 0 0 0 0x03
  | .kmovKk d s => fV 0x37 (k4 d) (k4 s) 0 0 0 0x04
  | .kmovKg d g => fV 0x37 (k4 d) g 0 0 0 0x05
  | .kmovGk g s => fV 0x37 g (k4 s) 0 0 0 0x06
  | .kpop g s => fV 0x37 g (k4 s) 0 0 0 0x07
  | _ => 0

/-- Whether an instruction has an instruction word: the first 207 rows of the table. -/
def Instr.hasWord (i : Instr) : Bool := encodeWord i != 0

/-! ## Decoding of a word -/

/-- The instruction of a word, its literal words being lit (R68 step 3). A field the row does not use must be zero (R58),
which holds exactly when encoding the fields the row does use gives the word back. -/
def decodeWord (w : BitVec 32) (lit : BitVec 64) : Except Reject Instr :=
  match rawWord w lit with
  | .error e => .error e
  | .ok i => if i.wf && encodeWord i == w then .ok i else .error .field

/-- The literal of an instruction, as its words hold it (R52). -/
def Instr.literal (i : Instr) : BitVec 64 :=
  match i.srcs.find? Src.isLit with
  | some (.lit32 v) => v.zeroExtend 64
  | some (.lit64 v) => v
  | _ => 0

/-- n bytes of a number, the lowest first (R7). -/
def bytesOf : Nat → Nat → List Byte
  | 0, _ => []
  | n + 1, v => BitVec.ofNat 8 v :: bytesOf n (v / 256)

/-- The number of bytes laid lowest first (R7). -/
def ofBytes : List Byte → Nat
  | [] => 0
  | b :: r => b.toNat + 256 * ofBytes r

/-- The bytes of an instruction: its word and its literal, without a prefix (R52). -/
def encode (i : Instr) : List Byte := bytesOf 4 (encodeWord i).toNat ++ bytesOf (i.length - 4) i.literal.toNat

/-- The instruction at the front of a list of bytes, and the bytes after it (R52, R53). -/
def decode (bs : List Byte) : Except Reject (Instr × List Byte) :=
  if bs.length < 4 then .error .short
  else
    let w := BitVec.ofNat 32 (ofBytes (bs.take 4))
    match decodeWord w 0 with
    | .error e => .error e
    | .ok i =>
        let n := i.length
        if bs.length < n then .error .short
        else
          let lit := BitVec.ofNat 64 (ofBytes ((bs.drop 4).take (n - 4)))
          match decodeWord w lit with
          | .error e => .error e
          | .ok j => .ok (j, bs.drop n)

/-- The instruction of a table word, with literal words of zeros. -/
def decodeTableWord (nbits w : Nat) : Option Instr :=
  if nbits = 32 then
    match decode (bytesOf 16 (w % 2 ^ 32)) with
    | .ok (i, _) => some i
    | .error _ => none
  else none

/-! ## Prefixes and privilege -/

/-- The orders R67 lists for an instruction; the empty list where no prefix is legal. -/
def Instr.orders : Instr → List Order
  | .ld _ _ _ _ | .ldZext _ _ _ _ | .ldc _ _ _ => [.plain, .relaxed, .acquire]
  | .st _ _ _ _ | .stc _ _ _ => [.plain, .relaxed, .release]
  | .ldf _ _ _ | .ldfe _ _ _ | .fes _ _ _ => [.plain, .acquire]
  | .stef _ _ _ | .stf _ _ _ | .empt _ _ => [.plain, .release]
  | .amoAdd _ _ _ _ | .amoAnd _ _ _ _ | .amoOr _ _ _ _ | .amoXor _ _ _ _ | .amoMin _ _ _ _ | .amoMax _ _ _ _
  | .amoMinu _ _ _ _ | .amoMaxu _ _ _ _ | .amoSwap _ _ _ _ | .amoFaddS _ _ _ | .cas _ _ _ _ =>
      [.plain, .relaxed, .acquire, .release, .acqRel]
  | .binc _ _ _ | .bdec _ _ _ => [.plain, .release]
  | _ => []

/-- Whether an instruction's destination is q6 or q7 where it may be a relaxed access, which is ILLEGAL (R123). -/
def Instr.relaxedQueue : Instr → Bool
  | .ld d _ _ _ | .ldZext d _ _ _ | .amoAdd d _ _ _ | .amoAnd d _ _ _ | .amoOr d _ _ _ | .amoXor d _ _ _ | .amoMin d _ _ _
  | .amoMax d _ _ _ | .amoMinu d _ _ _ | .amoMaxu d _ _ _ | .amoSwap d _ _ _ | .amoFaddS d _ _ =>
      match d with
      | .g _ => false
      | .q6 | .q7 => true
  | _ => false

/-- R67, and R123's destination of a relaxed access. -/
def legalPair (o : Order) (i : Instr) : Bool := i.orders.contains o && !(o == .relaxed && i.relaxedQueue)

/-- The S-only instructions (R177-R182). -/
def Instr.sOnly : Instr → Bool
  | .tret | .trap _ | .swapctx _ _ _ | .spsave _ _ | .spload _ _ _ | .pth _ _ _ | .rth _ _ _ => true
  | _ => false

/-! ## Command words -/

/-- The header of a command word (R79). -/
def hdrOf (w : BitVec 256) : CmdHdr :=
  { gate := w.extractLsb' 244 4, cmode := w.extractLsb' 242 2, smode := w.extractLsb' 240 2, ccap := w.extractLsb' 236 4,
    rms := w.extractLsb' 229 3, bslot := w.extractLsb' 224 5, coff := w.extractLsb' 192 32 }

/-- The operands of R208: the capability index and the offset above it. -/
def op1 (w : BitVec 256) : AOp := { cap := w.extractLsb' 184 4, off := w.extractLsb' 148 36 }
def op2 (w : BitVec 256) : AOp := { cap := w.extractLsb' 128 4, off := w.extractLsb' 92 36 }
def op3 (w : BitVec 256) : AOp := { cap := w.extractLsb' 88 4, off := w.extractLsb' 52 36 }

def mmulOf (w : BitVec 256) : MmulF :=
  { a := op1 w, str := w.extractLsb' 132 16, latch := w.extractLsb' 2 1, slot := w.extractLsb' 0 2 }

def mlatchOf (w : BitVec 256) : MlatchF :=
  { b := op1 w, str := w.extractLsb' 132 16, sc := op2 w, nq := w.getLsbD 8, fmt := w.extractLsb' 4 4, latch := w.extractLsb' 0 1 }

def gathOf (w : BitVec 256) : GathF :=
  { s := op1 w, d := op2 w, i := op3 w, count := w.extractLsb' 20 32, iw := w.getLsbD 19, aop := w.extractLsb' 16 3,
    ety := w.extractLsb' 12 4 }

/-- The opcode byte (R80) and the fields of the body (R208, R209, R219-R236). -/
def rawCmd (w : BitVec 256) : Option Instr :=
  let h := hdrOf w
  match (w.extractLsb' 248 8).toNat with
  | 0x10 => some (.mzero h (w.extractLsb' 0 2))
  | 0x11 => some (.mmulF64 h (mmulOf w)) | 0x12 => some (.mmulF32 h (mmulOf w)) | 0x13 => some (.mmulBf16 h (mmulOf w))
  | 0x14 => some (.mmulF16 h (mmulOf w)) | 0x15 => some (.mmulE4m3 h (mmulOf w)) | 0x16 => some (.mmulE5m2 h (mmulOf w))
  | 0x17 => some (.mmulE4e5 h (mmulOf w)) | 0x18 => some (.mmulNq4e4 h (mmulOf w)) | 0x19 => some (.mmulNq4b h (mmulOf w))
  | 0x1A => some (.mmulI8 h (mmulOf w))
  | 0x1B => some (.mlatch h (mlatchOf w))
  | 0x1C => some (.mrot h (w.extractLsb' 0 1) (w.extractLsb' 1 1))
  | 0x1D => some (.mstore h (op1 w) (w.extractLsb' 132 16) (w.extractLsb' 8 4) (w.extractLsb' 4 4) (w.extractLsb' 0 2))
  | 0x1E => if w.getLsbD 191 then some (.mfill h (op1 w) (w.extractLsb' 0 2)) else some (.mspill h (op1 w) (w.extractLsb' 0 2))
  | 0x1F => some (.mtrans h (mlatchOf w))
  | 0x20 => some (.ccopy h (op1 w) (op2 w) (op3 w) (w.extractLsb' 4 4) (w.extractLsb' 0 4))
  | 0x21 => some (.cgath h (gathOf w)) | 0x22 => some (.cscat h (gathOf w)) | 0x23 => some (.cscata h (gathOf w))
  | 0x24 => some (.cmerge h (op1 w) (op2 w) (op3 w) (w.extractLsb' 28 24) (w.extractLsb' 4 24) (w.getLsbD 1) (w.getLsbD 0))
  | 0x25 => some (.cred h (op1 w) (w.extractLsb' 0 2))
  | 0x26 => some (.cfill h (op1 w) (op2 w) (w.extractLsb' 28 64) (w.extractLsb' 0 4))
  | 0x27 => some (.cstrm h (op1 w) (op2 w) (w.extractLsb' 4 4) (w.extractLsb' 0 2))
  | 0x28 => some (.cbcast h (op1 w) (w.extractLsb' 128 4) (w.extractLsb' 112 16) (w.extractLsb' 36 16) (w.extractLsb' 0 1))
  | 0x29 => some (.cquant h (op1 w) (op2 w) (op3 w) (w.extractLsb' 43 9))
  | _ => none

/-- The header bits of a command word, above the body (R79). -/
def hdrBits (opc : BitVec 8) (h : CmdHdr) : BitVec 64 :=
  opc ++ h.gate ++ h.cmode ++ h.smode ++ h.ccap ++ 0#4 ++ h.rms ++ h.bslot ++ h.coff

/-- The 40 bits of an operand (R208). -/
def AOp.bits (a : AOp) : BitVec 40 := a.cap ++ a.off

def mmulBits (opc : BitVec 8) (h : CmdHdr) (f : MmulF) : BitVec 256 :=
  hdrBits opc h ++ 0#4 ++ f.a.bits ++ f.str ++ 0#129 ++ f.latch ++ f.slot

def mlatchBits (opc : BitVec 8) (h : CmdHdr) (f : MlatchF) : BitVec 256 :=
  hdrBits opc h ++ 0#4 ++ f.b.bits ++ f.str ++ f.sc.bits ++ 0#83 ++ BitVec.ofBool f.nq ++ f.fmt ++ 0#3 ++ f.latch

def gathBits (opc : BitVec 8) (h : CmdHdr) (f : GathF) : BitVec 256 :=
  hdrBits opc h ++ 0#4 ++ f.s.bits ++ 0#16 ++ f.d.bits ++ f.i.bits ++ f.count ++ BitVec.ofBool f.iw ++ f.aop ++ f.ety ++ 0#12

/-- The command word of a command (R79, R80, R208-R236); every other row answers the all-zero word, which is no command. -/
def encodeCmd : Instr → BitVec 256
  | .mzero h s => hdrBits 0x10 h ++ 0#190 ++ s
  | .mmulF64 h f => mmulBits 0x11 h f
  | .mmulF32 h f => mmulBits 0x12 h f
  | .mmulBf16 h f => mmulBits 0x13 h f
  | .mmulF16 h f => mmulBits 0x14 h f
  | .mmulE4m3 h f => mmulBits 0x15 h f
  | .mmulE5m2 h f => mmulBits 0x16 h f
  | .mmulE4e5 h f => mmulBits 0x17 h f
  | .mmulNq4e4 h f => mmulBits 0x18 h f
  | .mmulNq4b h f => mmulBits 0x19 h f
  | .mmulI8 h f => mmulBits 0x1A h f
  | .mlatch h f => mlatchBits 0x1B h f
  | .mrot h sl dl => hdrBits 0x1C h ++ 0#190 ++ dl ++ sl
  | .mstore h d str sty dty slot =>
      hdrBits 0x1D h ++ 0#4 ++ d.bits ++ str ++ 0#120 ++ sty ++ dty ++ 0#2 ++ slot
  | .mspill h m slot => hdrBits 0x1E h ++ 0b0000#4 ++ m.bits ++ 0#146 ++ slot
  | .mfill h m slot => hdrBits 0x1E h ++ 0b1000#4 ++ m.bits ++ 0#146 ++ slot
  | .mtrans h f => mlatchBits 0x1F h f
  | .ccopy h s d t sty dty => hdrBits 0x20 h ++ 0#4 ++ s.bits ++ 0#16 ++ d.bits ++ t.bits ++ 0#44 ++ sty ++ dty
  | .cgath h f => gathBits 0x21 h f
  | .cscat h f => gathBits 0x22 h f
  | .cscata h f => gathBits 0x23 h f
  | .cmerge h x y o na nb dup cty =>
      hdrBits 0x24 h ++ 0#4 ++ x.bits ++ 0#16 ++ y.bits ++ o.bits ++ na ++ nb ++ 0#2 ++ BitVec.ofBool dup ++ BitVec.ofBool cty
  | .cred h s r => hdrBits 0x25 h ++ 0#4 ++ s.bits ++ 0#146 ++ r
  | .cfill h d t v ety => hdrBits 0x26 h ++ 0#4 ++ d.bits ++ 0#16 ++ t.bits ++ v ++ 0#24 ++ ety
  | .cstrm h s t ety q => hdrBits 0x27 h ++ 0#4 ++ s.bits ++ 0#16 ++ t.bits ++ 0#84 ++ ety ++ 0#2 ++ q
  | .cbcast h s dcap doff len sc =>
      hdrBits 0x28 h ++ 0#4 ++ s.bits ++ 0#16 ++ dcap ++ doff ++ 0#60 ++ len ++ 0#35 ++ sc
  | .cquant h s k v n => hdrBits 0x29 h ++ 0#4 ++ s.bits ++ 0#16 ++ k.bits ++ v.bits ++ n ++ 0#43
  | _ => 0

/-- Whether an opcode byte belongs to the matrix engine (R80). -/
def matrixOp (opc : Nat) : Bool := decide (0x10 ≤ opc ∧ opc ≤ 0x1F)

/-- A run of bits that must be zero, with its lowest bit. -/
def zeroRun (w : BitVec 256) (hi lo : Nat) : Bool × Nat := (w.extractLsb' lo (hi - lo + 1) == 0, lo)

/-- The same for a run of body bits, field by field of R208 from the highest down (R209, R237). -/
def zeroRuns (w : BitVec 256) (hi lo : Nat) : List (Bool × Nat) :=
  [(191, 188), (187, 184), (183, 148), (147, 132), (131, 128), (127, 92), (91, 88), (87, 52), (51, 0)].filterMap (fun f =>
    if lo ≤ f.1 ∧ f.2 ≤ hi then some (zeroRun w (Nat.min hi f.1) (Nat.max lo f.2)) else none)

/-- The checks of step 3 of R81, each with the lowest bit of its field. DESIGN CHOICE (entry 98): the fields from the highest bit down,
and a COFF of a mailbox word that is no multiple of 8 is rejected here. -/
def hdrChecks (w : BitVec 256) : List (Bool × Nat) :=
  let h := hdrOf w
  let mail := h.cmode.getLsbD 0
  [ (decide (h.gate.toNat ≤ 7) || h.gate == 0xF, 244), (h.smode != 3, 240), (mail || h.ccap == 0, 236), zeroRun w 235 232,
    (h.cmode.getLsbD 1 || h.bslot == 0, 224), (if mail then decide (h.coff.toNat % 8 = 0) else h.coff == 0, 192) ]

def mmulChecks (w : BitVec 256) (row : Nat) : List (Bool × Nat) :=
  [zeroRun w 191 188, ((mmulOf w).ok row, 132)] ++ zeroRuns w 131 3

def mlatchChecks (w : BitVec 256) (row : BitVec 4 → Bool → Nat) : List (Bool × Nat) :=
  let f := mlatchOf w
  [ zeroRun w 191 188, (decide (f.str.toNat % 16 = 0 ∧ row f.fmt f.nq ≤ f.str.toNat), 132), (f.nq || f.sc.cap == 0, 128),
    (f.nq || f.sc.off == 0, 92) ] ++ zeroRuns w 91 9 ++ [ (decide (f.fmt.toNat ≤ 6) && (!f.nq || f.fmt == 0), 4), zeroRun w 3 1 ]

def gathChecks (w : BitVec 256) (atomic : Bool) : List (Bool × Nat) :=
  let f := gathOf w
  [ zeroRun w 191 188, zeroRun w 147 132, (f.count != 0, 20), (if atomic then decide (f.aop.toNat ≤ 6) else f.aop == 0, 16),
    (if atomic then atomicPair f.aop f.ety else decide (f.ety.toNat ≤ 13), 12), zeroRun w 11 0 ]

/-- The checks of step 4 of R81, from bit 191 downward (R237). DESIGN CHOICE (entry 98): a pair of types is judged at its lower field,
and a DOFF + LEN above 0xC000 of a cbcast at DOFF. -/
def bodyChecks (w : BitVec 256) : List (Bool × Nat) :=
  match rawCmd w with
  | some (.mzero _ _) => zeroRuns w 191 2
  | some (.mmulF64 _ _) => mmulChecks w 128
  | some (.mmulF32 _ _) | some (.mmulBf16 _ _) | some (.mmulF16 _ _) | some (.mmulE4m3 _ _) | some (.mmulE5m2 _ _)
  | some (.mmulE4e5 _ _) | some (.mmulI8 _ _) => mmulChecks w 64
  | some (.mmulNq4e4 _ _) => mmulChecks w 128
  | some (.mmulNq4b _ _) => mmulChecks w 256
  | some (.mlatch _ _) => mlatchChecks w latchRow
  | some (.mtrans _ _) => mlatchChecks w transRow
  | some (.mrot _ _ _) => zeroRuns w 191 2
  | some (.mstore _ _ str sty dty _) =>
      [ zeroRun w 191 188, (decide ((if sty = 0 then 16 else 32) * codeBytes dty ≤ str.toNat), 132) ] ++ zeroRuns w 131 12 ++
      [ (sty == 0 || sty == 1 || sty == 10, 8), (storePair dty sty, 4), zeroRun w 3 2 ]
  | some (.mspill _ _ _) | some (.mfill _ _ _) => [zeroRun w 190 188] ++ zeroRuns w 147 2
  | some (.ccopy _ _ _ _ sty dty) =>
      [ zeroRun w 191 188, zeroRun w 147 132, zeroRun w 51 8, (decide (sty.toNat ≤ 13), 4), (storePair dty sty, 0) ]
  | some (.cgath _ _) | some (.cscat _ _) => gathChecks w false
  | some (.cscata _ _) => gathChecks w true
  | some (.cmerge _ _ _ _ _ _ _ _) => [zeroRun w 191 188, zeroRun w 147 132, zeroRun w 3 2]
  | some (.cred _ _ _) => [zeroRun w 191 188] ++ zeroRuns w 147 2
  | some (.cfill _ _ _ _ ety) => [zeroRun w 191 188, zeroRun w 147 132, zeroRun w 27 4, (decide (ety.toNat ≤ 13), 0)]
  | some (.cstrm _ _ _ ety _) =>
      [zeroRun w 191 188, zeroRun w 147 132] ++ zeroRuns w 91 8 ++ [(decide (ety.toNat ≤ 13), 4), zeroRun w 3 2]
  | some (.cbcast _ _ _ doff len _) =>
      [ zeroRun w 191 188, zeroRun w 147 132, (decide (doff.toNat + len.toNat ≤ 0xC000), 112) ] ++ zeroRuns w 111 52 ++
      [ (decide (len.toNat % 32 = 0 ∧ 32 ≤ len.toNat ∧ len.toNat ≤ 0xC000), 36), zeroRun w 35 1 ]
  | some (.cquant _ _ _ _ n) =>
      [zeroRun w 191 188, zeroRun w 147 132, (decide (1 ≤ n.toNat ∧ n.toNat ≤ 256), 43), zeroRun w 42 0]
  | _ => [(false, 248)]

/-- The lowest bit of the first offending field of a command word (R81 steps 2 to 4), for what depends on the word alone. -/
def cmdCheck (matrix : Bool) (w : BitVec 256) : Option Nat :=
  let opc := (w.extractLsb' 248 8).toNat
  if (rawCmd w).isNone || matrixOp opc != matrix then some 248
  else ((hdrChecks w ++ bodyChecks w).find? (fun c => !c.1)).map Prod.snd

/-- The command of a command word; none where it is rejected with ENGCMD whatever the machine's state (R82). -/
def decodeCmd (w : BitVec 256) : Option Instr :=
  match rawCmd w with
  | some i => if (cmdCheck (matrixOp (w.extractLsb' 248 8).toNat) w).isNone then some i else none
  | none => none

end Sys2Proof
end

