-- ==== Sys2Proof/Machine/State.lean ====
section
/-! DEFINITION. The state of the module: threads, cores, clusters, regions, the front end, partitions, memory and the firmware
(R9-R34, R126, R139, R144, R151, R171, R218, R255, R276-R290, R329, R344-R348, R355-R359, R371-R375, R386-R416). Each field's
docstring names its rule and its value at reset or at bind. -/

namespace Sys2Proof.Machine

/-- Why the machine stops: nothing stops it. Every state has a next one (R4), so this type has no member. -/
inductive Fault where
  deriving DecidableEq, Repr

/-- What has no meaning in the model. -/
inductive Refusal where
  /-- Raised by an arm of exec that has no meaning yet. Safe. -/
  | notModelled (mnemonic : String)
  deriving DecidableEq, Repr

/-- The trap causes of R175. -/
inductive Cause where
  | illegal | priv | capTag | capBound | capPerm | capTenant | align | page | defer | engCmd | accOwn | zeroLa | lAhead
  | timer | broken | qMisuse | brk | scall | scopeMiss
  deriving DecidableEq, Repr

/-- The thread states of R279. -/
inductive TState where
  | empty | ready | handler | waitMem | parkFe | parkQ | parkMon | parkEngq | parkBar | parkTether | parkXl | idleW | hold
  deriving DecidableEq, Repr

/-- The order and scope of an ORD prefix that has issued and whose instruction word has not (R66). -/
structure Pfx where
  order : Order
  scope : Scope
  deriving DecidableEq, Repr

/-- Where an access goes (R19, R255, R413): a slice, HBM, host memory with the function whose Requester ID the request carries, a peer
at its remote address, or the supervisor control window. -/
inductive Tgt where
  | sram (pcore off : Nat)
  | hbm (pa : Nat)
  | host (port fn bus : Nat)
  | peer (port off : Nat)
  | control (addr : Nat)
  deriving DecidableEq, Repr

/-- What an access does, for a relaxed access (R123, R372). -/
inductive RelOp where
  | ld | st | ldc | stc | amo | cas
  deriving DecidableEq, Repr

/-- How far a relaxed access has come: issued, applied at its home, or held on a stage-2 fault (R124, R259). -/
inductive RelStage where
  | issued | applied | held
  deriving DecidableEq, Repr

/-- A relaxed access outstanding (R123): the fields of R372, its PC, and its result once it has taken effect. -/
structure RelAcc where
  op    : RelOp
  reg   : BitVec 6
  fn    : BitVec 6
  addr  : Addr
  val   : Word
  exp   : Word
  rm    : BitVec 3
  cap   : Cap
  pc    : Addr
  order : Nat
  stage : RelStage
  res   : Word
  rcap  : Cap
  deriving DecidableEq, Repr

/-- A recorded relaxed fault not yet delivered (R124): the destination of its access, where it has one (a g register, or a
capability register), its address and its PC, and its place in program order. -/
structure Dfr where
  dest : Option (Bool × BitVec 6)
  addr : Addr
  pc   : Addr
  order : Nat
  deriving DecidableEq, Repr

/-- A release that missed its scope (R261, R262): the target word, what a re-issue would write, and whether the message has come. -/
structure Miss where
  addr    : Addr
  size    : Nat
  value   : Word
  rewrite : Option Bool
  counted : Bool
  deriving DecidableEq, Repr

/-- Who asked for a pre-emption (R370): a sibling's pth with the entry, a slice end, or the hypervisor; or a sibling's done, which
takes the thread out without an image (R159). -/
inductive PreReq where
  | pth (by_ : Fin 8) (entry : Nat)
  | slice
  | hypervisor
  | ended
  deriving DecidableEq, Repr

/-- A request in a slice's waiter table (R127): the word, the thread, the operation (0 ldf, 1 ldfe, 2 stef) and the value to store. -/
structure FeReq where
  key  : Nat
  core : Nat
  slot : Fin 8
  op   : BitVec 2
  val  : Word
  deriving DecidableEq, Repr

/-- A tensor descriptor as the copy engine reads it (R227): the counts and the two strides of the dimensions in use. -/
structure Desc where
  counts : List Nat
  sstr   : List Int
  dstr   : List Int
  deriving DecidableEq, Repr

/-- A command in an engine queue (R169, R208, R211, R217): the word with its RMS, what was snapshot at enqueue, and its progress:
elems holds the elements above the cursor that have been read (their bits) or written (none), left the cycles of an mmul. -/
structure Cmd where
  word     : BitVec 256
  uid      : Nat
  slot     : Fin 8
  caps     : Vector Cap 16
  lcore    : Nat
  tenant   : BitVec 6
  sup      : Bool
  ctxid    : BitVec 11
  jseed    : Word
  srstrm   : Word
  srctr    : Word
  running  : Bool
  finished : Bool
  status   : BitVec 8
  flags    : BitVec 6
  cursor   : Nat
  aux      : Word
  declared : Nat
  retired  : Nat
  left     : Nat
  desc     : Option Desc
  elems    : List (Nat × Option Nat)
  deriving DecidableEq, Repr

/-- A vector or mask instruction in the vector engine (R183): what was snapshot at issue, and the matrix commands it starts after
(R205). -/
structure VOp where
  instr   : Instr
  uid     : Nat
  after   : List Nat
  slot    : Fin 8
  rm      : BitVec 3
  gs      : Word
  gt      : Word
  cap     : Cap
  tenant  : BitVec 6
  lcore   : Nat
  sup     : Bool
  jseed   : Word
  srstrm  : Word
  srctr   : Word
  deriving DecidableEq, Repr

/-- What an instruction writes as it retires besides its destination: the flags it raises (R96), and one draw of SRCTR (R105). -/
structure Fx where
  fl   : BitVec 6
  draw : Bool
  deriving DecidableEq, Repr

def Fx.none : Fx := { fl := 0, draw := false }

/-- What a waiting thread waits for (R120, R279). reissue, vecs, room, ewait, monFull, popq, qwait and trecv: the instruction issues
again from its first word; vecs waits for the thread's vector work (R184), room for one of four relaxed accesses (R123). The others:
an event of the named kind writes d and retires the instruction, whose length is len. missed: the message of a scope miss has yet to
come (R261); handling: the default handling of a miss (R262). A wait for a flit holds its number. A steal waits for its counter, then
for its victim; idle holds the cycle of the last steal attempt (R155). send: parked on the fourth word of an endpoint, with what the instruction writes as it retires;
redo: the instruction has done nothing else, and issues again as a whole after a pre-emption (R56). refill: an entry comes back before its
use (R179); back: the image of the slot comes back, held on a stage-2 fault (R377). -/
inductive Wait where
  | none
  | reissue
  | room
  | ewait (mask : BitVec 3)
  | handling
  | missed (d : Option Dst) (len : Nat) (v : Word) (fx : Fx)
  | vecs
  | fe (d : Option Dst) (len : Nat)
  | feRef (owner : Nat) (q : FeReq) (d : Option Dst) (len : Nat)
  | monFull (home : Nat)
  | engq (e : Eng) (c : Cmd) (len : Nat)
  | vengq (o : VOp) (len : Nat)
  | mwait (d : Dst) (len : Nat) (deadline : Option Nat)
  | qwait (q : BitVec 3) (d : Dst) (len : Nat) (deadline : Option Nat)
  | popq (e : Fin 4)
  | trecv
  | barw (slot : Fin 32) (d : Dst) (len : Nat)
  | bridle (flit : Nat) (d : Dst) (len : Nat)
  | bbw (id : Nat) (gen : BitVec 16) (d : Dst) (len : Nat)
  | steal (flit : Nat) (victim : Option Nat) (d : Option Dst) (blk : BitVec 5) (len : Nat)
  | idle (since : Nat)
  | vres (g : BitVec 4) (len : Nat)
  | send (ep : BitVec 1) (len : Nat) (fx : Fx) (redo : Bool)
  | done
  | doneRoom
  | doneEnd
  | pth (d : Dst) (len : Nat)
  | refill (i : Fin 64)
  | back
  deriving DecidableEq, Repr

/-- A thread's watch (R130, R131): the line, and whether a write or an eviction has ended it. -/
structure Watch where
  line : Nat
  hit  : Bool
  deriving DecidableEq, Repr

/-- A stream queue q0 to q3 of a thread (R14, R234, R371). -/
structure Stream where
  bound  : Bool
  closed : Bool
  broken : Bool
  elems  : List Word
  width  : Nat
  pos    : Nat
  src    : Nat
  num    : Nat
  deriving DecidableEq, Repr

def Stream.none : Stream := { bound := false, closed := false, broken := false, elems := [], width := 0, pos := 0, src := 0, num := 0 }

/-- A hardware thread (R9, R22, R29, R371). The values are those of an empty slot at reset; bind gives the values of R10-R13 and R22. -/
structure Thread where
  /-- PC, 48 bits (R9). Reset: DESIGN CHOICE 0 (entry 5; an empty slot holds no program; bind loads the entry PC, R278). -/
  pc : Addr
  /-- PCC, 128 bits and tag (R9, R11). Reset: DESIGN CHOICE null (entry 5; bind loads the stage's code capability). -/
  pcc : Cap
  /-- EPCC, 128 bits and tag (R177). Reset: DESIGN CHOICE null (entry 5). -/
  epcc : Cap
  /-- g0 to g31, 32 x 64 bits (R10). Reset: 0 at stage entry but g1 to g8 (R10). -/
  g : Vector Word 32
  /-- a0 to a15, 16 x (128 bits and tag) (R11). Reset: null where the stage's table leaves them absent (R11). -/
  a : Vector Cap 16
  /-- v0 to v15, 16 x 256 bits (R12). Reset: 0 (R12). -/
  v : Vector (BitVec 256) 16
  /-- k0 to k7, 8 x 32 bits (R13). Reset: 0, and k0 reads as all ones (R13). -/
  k : Vector (BitVec 32) 8
  /-- The state of R279. Reset: EMPTY (R279). -/
  state : TState
  /-- LCORE (R22, 0x001), the thread's own: it stays what it is when the thread resumes on another core (R244, R370). Reset: per R19;
  DESIGN CHOICE 0 in an empty slot (entry 5). -/
  lcore : Nat
  /-- CTXID, 11 bits (R22, 0x007). Reset: TSLOT (R22). -/
  ctxid : BitVec 11
  /-- FPCSR, bits 8:0 (R22, 0x008; R24). Reset: 0 (R22). -/
  fpcsr : BitVec 9
  /-- SRSTRM, 64 bits (R22, 0x009). Reset: TSLOT (R22). -/
  srstrm : Word
  /-- SRCTR, 64 bits (R22, 0x00A). Reset: 0 (R22). -/
  srctr : Word
  /-- JSEED, 64 bits (R22, 0x00B). Reset: the RCB's job seed (R22); DESIGN CHOICE 0 in an empty slot (entry 5). -/
  jseed : Word
  /-- TCAUSE, 8 bits (R22, 0x040). Reset: 0 (R22). -/
  tcause : BitVec 8
  /-- TVAL, 64 bits (R22, 0x041). Reset: 0 (R22). -/
  tval : Word
  /-- TEPC, 64 bits (R22, 0x042). Reset: 0 (R22). -/
  tepc : Word
  /-- TFPC, 64 bits (R22, 0x043). Reset: 0 (R22). -/
  tfpc : Word
  /-- TVEC, 64 bits, bits 1:0 zero (R22, 0x044; R174). Reset: the RCB's supervisor entry (R22); DESIGN CHOICE 0 in an empty slot (entry 5). -/
  tvec : Word
  /-- TSTATUS bits 3:0: PTIE, TIE, PPRV, CPRV (R22, 0x045; R29); NREL is the length of rel. Reset: 0 (R22). -/
  tstatus : BitVec 4
  /-- HSCR, 64 bits (R22, 0x046). Reset: 0 (R22). -/
  hscr : Word
  /-- TMCMP, 64 bits (R22, 0x047). Reset: all ones (R22). -/
  tmcmp : Word
  /-- The ORD prefix waiting for its instruction word (R66, R133). Reset: none (R52). -/
  pfx : Option Pfx
  /-- Relaxed accesses outstanding, at most 4 (R123). Reset: none (R29 NREL 0). -/
  rel : List RelAcc
  /-- The recorded relaxed faults, earliest in program order first (R124, R371). Reset: none. -/
  dfr : List Dfr
  /-- The watch armed by mon (R130). Reset: none. -/
  watch : Option Watch
  /-- What the thread waits for (R279). Reset: none. -/
  wait : Wait
  /-- The step at which the thread parked, which orders the waiters of one object (R155, R169, R286, R336). Reset: 0. -/
  parkAt : Nat
  /-- The stream queues q0 to q3 (R14). Reset: unbound (R234). -/
  strm : Vector Stream 4
  /-- Receive buffers of q4 and q5: the words left, at most 4 x 64 bits each (R14). Reset: empty (R14). -/
  rbuf : Vector (List Word) 2
  /-- Send buffers of q6 and q7: the words written, at most 4 x 64 bits each (R14, R56). Reset: empty. -/
  sbuf : Vector (List Word) 2
  /-- Elements popped by an instruction parked on its fourth word, to take back on a break (R55, R56). Reset: none. -/
  undo : List (BitVec 3 × Word)
  /-- yield in force: the cycle at which it ends, and the siblings that have yet to issue (R157). Reset: none. -/
  yld : Option (Nat × List (Fin 8))
  /-- A release that missed (R261, R262). Reset: none. -/
  miss : Option Miss
  /-- A pre-emption request (R370). Reset: none. -/
  pre : Option PreReq
  /-- Commands the thread enqueued since its last ewait of their engine: number and engine (R170). Reset: none. -/
  cmds : List (Nat × Eng)
  /-- The inbox, at most 16 entries of 16 bytes (R9, R373). Reset: empty. -/
  inbox : List (BitVec 128)
  deriving DecidableEq, Repr

/-- An empty slot (R279), with TSLOT n. -/
def Thread.fresh (n : Fin 8) : Thread :=
  { pc := 0, pcc := Cap.null, epcc := Cap.null, g := Vector.replicate 32 0, a := Vector.replicate 16 Cap.null,
    v := Vector.replicate 16 0, k := Vector.replicate 8 0, state := .empty, lcore := 0, ctxid := BitVec.ofNat 11 n.val, fpcsr := 0,
    srstrm := BitVec.ofNat 64 n.val, srctr := 0, jseed := 0, tcause := 0, tval := 0, tepc := 0, tfpc := 0, tvec := 0, tstatus := 0,
    hscr := 0, tmcmp := BitVec.allOnes 64, pfx := none, rel := [], dfr := [], watch := none, wait := .none, parkAt := 0,
    strm := Vector.replicate 4 Stream.none, rbuf := Vector.replicate 2 [], sbuf := Vector.replicate 2 [], undo := [], yld := none,
    miss := none, pre := none, cmds := [], inbox := [] }

/-- A stream being fed by a core's copy engine (R234): its command, and the thread and queue it feeds. -/
structure StreamJob where
  cmd   : Cmd
  q     : Fin 4
  next  : Nat
  total : Nat
  num   : Nat
  deriving DecidableEq, Repr

/-- An endpoint of a core, q4 to q7 (R14, R136, R285, R286, R330). A receive endpoint holds the slots that have arrived, and in kept, by
slot index, those it keeps reserved for pre-empted readers (R373); a send endpoint names its peer. -/
structure Ep where
  bound   : Bool
  tether  : Bool
  cert    : Bool
  allow   : Nat
  closed  : Bool
  broken  : Bool
  senders : Nat
  slots   : List (BitVec 256)
  bnd     : Word
  peer    : Nat
  peerEp  : BitVec 1
  lout    : Word
  floor   : Word
  kept    : List (Nat × BitVec 256)
  deriving DecidableEq, Repr

def Ep.none : Ep :=
  { bound := false, tether := false, cert := false, allow := 0, closed := false, broken := false, senders := 0, slots := [],
    bnd := BitVec.allOnes 64, peer := 0, peerEp := 0, lout := 0, floor := 0, kept := [] }

/-- An event a thread slot holds (R163, R330): its timestamp and the endpoint it came from. -/
structure Held where
  time : Word
  ep   : BitVec 1
  deriving DecidableEq, Repr

/-- A core (R22, R33, R171, R218, R281, R330). The values are those of a core that is not bound. -/
structure Core where
  /-- The eight threads (R1, R9). Reset: EMPTY. -/
  th : Vector Thread 8
  /-- Whether the core is bound to a stage (R277). Reset: no (R386: no partition exists). -/
  bound : Bool
  /-- The region it is bound to. Reset: DESIGN CHOICE 0 while unbound (entry 5). -/
  rid : Nat
  /-- The region of depth 1 above it, whose numbering LCORE uses (R19, R277). Reset: DESIGN CHOICE 0 while unbound (entry 5). -/
  top : Nat
  /-- The stage, by its index in the region. Reset: DESIGN CHOICE 0 while unbound (entry 5). -/
  stage : Nat
  /-- TENANT, 6 bits (R22, 0x006). Reset: from binding; DESIGN CHOICE 0 while unbound (entry 5). -/
  tenant : BitVec 6
  /-- The core's number in its region's numbering (R19), with which a thread begins (R22, 0x001). Reset: per R19; DESIGN CHOICE 0 while
  unbound (entry 5). -/
  lcore : Nat
  /-- SIDX (R22, 0x002). Reset: from binding; DESIGN CHOICE 0 while unbound (entry 5). -/
  sidx : Nat
  /-- SCNT (R22, 0x003). Reset: from binding; DESIGN CHOICE 0 while unbound (entry 5). -/
  scnt : Nat
  /-- RING and RPOS (R22, 0x004, 0x005) where the stage is ring-bound. Reset: none, read as all ones (R22). -/
  ringed : Bool
  /-- Whether done has been executed since the bind (R291). Reset: no. -/
  done : Bool
  /-- SMCOUNT, 32 bits (R22, 0x00F). Reset: 0 (R22). -/
  smcount : BitVec 32
  /-- XBCFG0 to XBCFG7, 8 x 64 bits (R22, 0x020-0x027; R172). Reset: 0 (R22). -/
  xbcfg : Vector Word 8
  /-- COUNT0 to COUNT7, 8 x 16 bits (R171). Reset: 0 (R172: RELOAD 0). -/
  xbcount : Vector (BitVec 16) 8
  /-- The latches of the terms: bits 15:0 inputs, bits 23:16 counters (R171). Reset: 0 (R172). -/
  xblatch : Vector (BitVec 24) 8
  /-- The outputs named by terms that have fired, to be set in the next cycle (R172). Reset: 0. -/
  xbfired : BitVec 8
  /-- The pending bits of the outputs (R171). Reset: 0 (R172). -/
  xbpend : BitVec 8
  /-- The last 1,024-cycle tick whose pulse has been given (R171 input 6). Reset: 0. -/
  xbtick : Nat
  /-- ACCOWN, 64 bits (R22, 0x050; R33). Reset: 0 (R22). -/
  accown : Word
  /-- Accumulator slots, 4 x 4,096 bytes (R1, R218). Reset: 0 at bind (R218). -/
  acc : Vector (BitVec 32768) 4
  /-- B latches, 2 x 2,048 bytes (R1, R218). Reset: 0 at bind (R218). -/
  latch : Vector (BitVec 16384) 2
  /-- Scale stores, 2 x 68 bytes (R218). Reset: 0 at bind (R218). -/
  scale : Vector (BitVec 544) 2
  /-- TRCBASE, 64 bits (R22, 0x058; R34). Reset: 0 or the RCB's TRACE (R22, R276). -/
  trcbase : Word
  /-- TRCLEN, 64 bits: WIDX and LEN (R22, 0x059; R34). Reset: 0 or the RCB's TRACE. -/
  trclen : Word
  /-- TRCRNG0, 64 bits (R22, 0x05A). Reset: 0 or the RCB's TRACE. -/
  trcrng0 : Word
  /-- TRCRNG1, 64 bits (R22, 0x05B). Reset: 0 or the RCB's TRACE. -/
  trcrng1 : Word
  /-- Traced writes since region bind, the next SEQ (R270). Reset: 0 (R270). -/
  trcseq : Nat
  /-- The matrix engine's queue, 2 entries (R3, R211). Reset: empty. -/
  mq : List Cmd
  /-- The copy engine's queue, 2 entries (R3, R211). Reset: empty. -/
  cq : List Cmd
  /-- The vector engine's queue, 2 entries (R183). Reset: empty. -/
  vq : List VOp
  /-- Vector instructions started and not complete (R183). Reset: none. -/
  vrun : List VOp
  /-- Streams in progress (R234). Reset: none. -/
  strms : List StreamJob
  /-- The deque, 16 entries of 256 bits, bottom first (R151). Reset: empty. -/
  deque : List (BitVec 256)
  /-- The waiter table of the slice, 32 entries, oldest first (R127). Reset: empty. -/
  feWait : List FeReq
  /-- The endpoints q4 to q7 (R14, R285). Reset: unbound. -/
  ep : Vector Ep 4
  /-- Held times, by thread slot (R330). Reset: none. -/
  held : Vector (Option Held) 8
  /-- Held times of threads that have been pre-empted, by the step at which each was saved (R337). Reset: none. -/
  heldOut : List (Nat × Held)
  /-- Whether the stage has Tether flags (R327). Reset: no. -/
  tether : Bool
  /-- The quantum Q as QLOG (R330). Reset: 0. -/
  qlog : Nat
  /-- The round-robin pointer of handler class (R281). Reset: 7 at bind (R281). -/
  hptr : Fin 8
  /-- The round-robin pointer of normal class (R281). Reset: 7 at bind (R281). -/
  nptr : Fin 8
  /-- Whether the last instruction issued was handler class (R281). Reset: DESIGN CHOICE no (entry 5). -/
  lastH : Bool
  /-- RSEC: soft errors corrected, 32 bits, and the bank under reconstruction, 0xFF for none (R385, R421). Reset: 0, none (entry 5). -/
  rsec : Nat
  rbank : BitVec 8
  /-- The cycles of the corrections of the last second (R421). Reset: none. -/
  rtimes : List Nat
  /-- Whether firmware has marked the core, and whether it is retired (R364, R421). Reset: no. -/
  marked : Bool
  retired : Bool
  deriving DecidableEq, Repr

/-- A core that is not bound. -/
def Core.fresh : Core :=
  { th := Vector.ofFn Thread.fresh, bound := false, rid := 0, top := 0, stage := 0, tenant := 0, lcore := 0, sidx := 0, scnt := 0,
    ringed := false, done := false, smcount := 0, xbcfg := Vector.replicate 8 0, xbcount := Vector.replicate 8 0,
    xblatch := Vector.replicate 8 0, xbfired := 0, xbpend := 0, xbtick := 0, accown := 0, acc := Vector.replicate 4 0,
    latch := Vector.replicate 2 0, scale := Vector.replicate 2 0, trcbase := 0, trclen := 0, trcrng0 := 0, trcrng1 := 0, trcseq := 0,
    mq := [], cq := [], vq := [], vrun := [], strms := [], deque := [], feWait := [], ep := Vector.replicate 4 Ep.none,
    held := Vector.replicate 8 none, heldOut := [], tether := false, qlog := 0, hptr := 7, nptr := 7, lastH := false, rsec := 0, rbank := 0xFF,
    rtimes := [], marked := false, retired := false }

/-- A slot of a barrier unit (R139, R142). -/
structure Bar where
  arr   : BitVec 16
  exp   : BitVec 16
  pb    : BitVec 48
  ph    : Bool
  brk   : Bool
  sys   : Bool
  /-- The region and stage of a SYS slot (R288). -/
  owner : Option (Nat × Nat)
  /-- Regions that use the slot, and those that used it with bini, barv or bexp (R139, R382). -/
  users : List Nat
  armed : List Nat
  deriving DecidableEq, Repr

/-- A slot at reset (R142). -/
def Bar.fresh : Bar :=
  { arr := 0, exp := 1, pb := 0, ph := false, brk := false, sys := false, owner := none, users := [], armed := [] }

/-- The state of a Spool frame that is not FREE (R374). -/
inductive FrState where
  | held | evicting | pinned
  deriving DecidableEq, Repr

/-- How an image resumes (R371). -/
inductive Resume where
  | run | idlew | reissue
  deriving DecidableEq, Repr

/-- A context image (R371): of the thread, the fields R371 lays out (its LCORE among them); the rest of RSTATE; and BOUND, CLOSED and
BROKEN of q4 to q7. -/
structure Image where
  th     : Thread
  resume : Resume
  tslot  : Fin 8
  seq    : BitVec 32
  eps    : Vector (BitVec 3) 4
  deriving DecidableEq, Repr

/-- A Spool frame in use (R374): its image, its region, its index where it has one, the core it was saved from, when it was saved, and
whether its slice has resumed (R377). cmds and key are the MODEL's own: which engine commands are the thread's (R170; entry 97), and the
step of the save, under which the core keeps an event that the thread holds (R337). -/
structure Frame where
  st    : FrState
  rid   : Nat
  index : Option (Fin 64)
  core  : Nat
  img   : Image
  order : Nat
  due   : Bool
  cmds  : List (Nat × Eng)
  key   : Nat
  deriving DecidableEq, Repr

/-- An image that has been evicted to memory (R375): how it is named, where it is, and whether its slice has resumed (R377). cmds is the
MODEL's own, as in a frame, and so is key. -/
structure Evicted where
  rid   : Nat
  index : Option (Fin 64)
  core  : Nat
  slot  : Fin 8
  addr  : Addr
  due   : Bool
  cmds  : List (Nat × Eng)
  key   : Nat
  deriving DecidableEq, Repr

/-- A dispenser entry with the stage that created it (R151). -/
structure DispEntry where
  rid   : Nat
  stage : Nat
  words : BitVec 256
  deriving DecidableEq, Repr

/-- One direction of a command link (R405): the sender's permits and the messages it holds, the messages in the receiver's inbound buffer,
and the permits of removed messages that have yet to be returned. Reset: the permits of R405; 0. -/
structure Link where
  permits : Nat
  heldMsgs : Nat
  inbox   : Nat
  owed    : Nat
  deriving DecidableEq, Repr

/-- A cluster (R22, R139, R151, R323, R374, R405). -/
structure Cluster where
  /-- The barrier unit, 32 slots (R139). Reset: ARR 0, EXP 1, PB 0, PH 0, BRK 0, SYS 0 (R142). -/
  bars : Vector Bar 32
  /-- The dispenser, at most 256 entries, head first (R151). Reset: empty. -/
  disp : List DispEntry
  /-- Entries the dispenser keeps reserved for pre-empted threads, by entry index (R373). Reset: none. -/
  kept : List (Nat × DispEntry)
  /-- Upcalls that wait for room, with the sequence number of their block (R346). Reset: none. -/
  upcalls : List (Nat × DispEntry)
  /-- The Spool's 64 frames (R374). Reset: FREE. -/
  frames : Vector (Option Frame) 64
  /-- Images evicted to memory (R375). Reset: none. -/
  evicted : List Evicted
  /-- DRGSTAT, 48 bits (R22, 0x010; R34). Reset: 0 (R22). -/
  drgstat : BitVec 48
  /-- DRGBUD, BUDGET and SLEW in force (R22, 0x051; R34, R418). Reset: the operator's grant: 65,536 and 0 (R418). -/
  budget : Nat
  slew : Nat
  /-- The operator's grant, from the next window (R418). Reset: 65,536 and 0 (R418). -/
  grantB : Nat
  grantS : Nat
  /-- The window number, its allowance, and the units used in it (R323). Reset: 0, 65,536 (U_-1 DESIGN CHOICE 0 with SL 0: no limit; entry 5), 0. -/
  window : Nat
  allow : Nat
  used : Nat
  /-- The engine last granted in a window's last cycle (R324). Reset: DESIGN CHOICE 0 (entry 5). -/
  lastGrant : Nat
  /-- The cycle up to which the cluster's grants have been worked out. The MODEL's own. Reset: DESIGN CHOICE 0 (entry 1). -/
  drgAt : Nat
  /-- CFLAGS, bits 8:3 (R22, 0x052; R34). Reset: 0 (R22). -/
  cflags : BitVec 9
  /-- The command link from the global core to the leaf, and from the leaf to the global core (R405). Reset: 8 and 4 permits. -/
  down : Link
  up : Link
  deriving DecidableEq, Repr

/-- A cluster at reset. -/
def Cluster.fresh : Cluster :=
  { bars := Vector.replicate 32 Bar.fresh, disp := [], kept := [], upcalls := [], frames := Vector.replicate 64 none, evicted := [], drgstat := 0,
    budget := 65536, slew := 0, grantB := 65536, grantS := 0, window := 0, allow := 65536, used := 0, lastGrant := 0, drgAt := 0, cflags := 0,
    down := { permits := 8, heldMsgs := 0, inbox := 0, owed := 0 }, up := { permits := 4, heldMsgs := 0, inbox := 0, owed := 0 } }

/-- The first fault of a region (R380, R366), with the trap registers and the software code of trap (R178). -/
structure FInfo where
  tcause : BitVec 8
  code   : BitVec 8
  lcore  : Nat
  tslot  : Fin 8
  tval   : Word
  tepc   : Word
  tfpc   : Word
  soft   : Word
  deriving DecidableEq, Repr

/-- A reduction channel of a stage (R232, R359). -/
structure RedCh where
  op    : BitVec 3
  ty    : LaneTy
  count : Nat
  xg    : Bool
  deriving DecidableEq, Repr

/-- A message of a group reduction that has come from another module: its group tag, its channel and the sender's group ID. -/
structure GroupIn where
  tag : Word
  ch  : Nat
  src : Nat
  msg : GroupMsg
  deriving DecidableEq, Repr

/-- A module group (R415): this module's ID in it, and the ID and the link port of every other member. -/
structure Group where
  me     : Nat
  others : List (Nat × Nat)
  deriving DecidableEq, Repr

/-- A contribution to a reduction channel, by element (R232). -/
structure Contrib where
  ch   : Nat
  elem : Nat
  bits : Word
  deriving DecidableEq, Repr

/-- A node of the completion tree for one stage (R288, R289): its cluster, the cluster of its parent (none for the root), the SYS slot and
the number of the stage's cores it holds (none and 0 where only nodes below it hold some), whether that slot has released, FSUM, FPF and
DONE of its own cluster, and the combined status word of the message it has sent. -/
structure Node where
  cluster  : Nat
  up       : Option Nat
  slot     : Option (Fin 32)
  cores    : Nat
  released : Bool
  fsum     : BitVec 16
  fpf      : BitVec 6
  done     : Nat
  sent     : Option Word
  deriving DecidableEq, Repr

/-- A stage as bound (R275, R288, R359). -/
structure Stage where
  /-- The stage descriptor as parsed (R359). -/
  entry   : Addr
  threads : Nat
  ringed  : Bool
  cores   : Nat
  sram    : Nat
  imgAddr : Addr
  imgLen  : Nat
  tether  : Word
  pcc     : Cap
  eps     : Vector (Nat × Nat) 4
  red     : List RedCh
  raddr   : Addr
  args    : Vector Word 8
  caps    : Vector Cap 16
  slcm    : BitVec 16
  near    : Addr
  onedie  : Bool
  /-- Its serial number in the tenant (R297), its physical cores in the order of SIDX, and whether it is released (R278). -/
  serial  : Nat
  pcores  : List Nat
  released : Bool
  /-- The completion tree: its nodes, FSUM, FPF and DONE as they have reached the root, and the contributions to reductions (R288, R289). -/
  nodes   : List Node
  fsum    : BitVec 16
  fpf     : BitVec 6
  doneN   : Nat
  contribs : List Contrib
  /-- Group reductions (R415): the messages sent, by channel and pass, the results by channel, and whether the group broke. -/
  groupSent : List (Nat × Nat)
  groupRes : List (Nat × List RedRes)
  groupBrk : Bool
  /-- Whether the root has completed the stage, its combined status word, and its results by channel and element (R289, R290). -/
  complete : Bool
  word    : Word
  results : List (Nat × Nat × Word)
  deriving DecidableEq, Repr

/-- Where the loop of R342 stands: what comes next, or what it waits for. -/
inductive LPos where
  | start | launchFact | runFact | launchResid | runResid | launchSolv | runSolv | test | exit | upcall | finish
  deriving DecidableEq, Repr

/-- The Ballast loop context of a region (R342, R348): the position, r, k, c, Rprev, n, n0 and bn (none before they are known); what the
current sub-launch left (its norms, or its fault); the Ballast word of the last test; the exit code, its FINFO word and the FINFO of
R366; whether UPD stands in the exit record; and whether the context is saved (R348). -/
structure Loop where
  pos    : LPos
  r      : Nat
  k      : Nat
  c      : Nat
  rprev  : Option Word
  n      : Option Word
  n0     : Option Word
  bn     : Option Word
  norm0  : Word
  norm1  : Option Word
  climbed : Bool
  lastW  : Word
  sub    : Option Nat
  code   : Nat
  finfo  : Word
  fault  : Option FInfo
  upd    : Bool
  saved  : Bool
  deriving DecidableEq, Repr

/-- The phase of a region (R361, R365, R377, R381). -/
inductive RPhase where
  | binding | running | complete | torn
  deriving DecidableEq, Repr

/-- A region (R275, R276, R366). faulted: a fault has yet to be acted on, or has been; byFault: it has been torn down for its own fault
(R381). -/
structure Region where
  rid     : Nat
  seq     : BitVec 32
  parent  : Option Nat
  pstage  : Nat
  depth   : Nat
  top     : Nat
  tenant  : BitVec 6
  queue   : Option Nat
  first   : Nat
  cores   : Nat
  sram    : Nat
  threads : Nat
  hbmshare : Nat
  slice   : Nat
  prio    : Nat
  fdom    : Bool
  tvec    : Word
  smiss   : Addr
  scap    : Cap
  jseed   : Word
  save    : Addr
  trace   : Vector Word 4
  rcb     : Addr
  stages  : List Stage
  phase   : RPhase
  fault   : Option FInfo
  faulted : Bool
  byFault : Bool
  paused  : Bool
  sliceAt : Nat
  span    : Nat
  loop    : Option Loop
  deriving DecidableEq, Repr

/-- Where a block came from (R356, R362): a host queue, a launching thread (its core, its stage and the top-level region above it), or
the loop of a Ballast region. -/
inductive BSrc where
  | queue (q : Nat)
  | device (core : Nat) (rid stage top : Nat)
  | ballast (rid : Nat)
  deriving DecidableEq, Repr

/-- What a block asks of its completion (R357): CREC and CFLAG, 0 for none, the vector where MSIX.EN is set, and USER. -/
structure CompF where
  crec  : Addr
  cflag : Addr
  msix  : Option Nat
  user  : Word
  deriving DecidableEq, Repr

def CompF.none : CompF := { crec := 0, cflag := 0, msix := Option.none, user := 0 }

/-- A block that has been dispatched or waits in the intake (R356-R366), or a sub-launch that waits for cores (R362). spec is the
region it asks for, subs those of the blocks a BALLAST block names: 0 RESID, 1 + r FACTr, 5 + r SOLVr. silent: no record, flag or
interrupt is written (R398). doomed: it ends with CANCELLED without having run (R365). at_ is the cycle of its dispatch; since orders
the launches that wait. -/
structure Block where
  seq      : BitVec 32
  src      : BSrc
  fn       : Nat
  tenant   : BitVec 6
  typ      : Nat
  raw      : BitVec 1024
  comp     : CompF
  active   : Bool
  parsed   : Bool
  waiting  : Bool
  prio     : Nat
  rid      : Option Nat
  spec     : Option Region
  subs     : List (Nat × Region)
  deadline : Option Nat
  silent   : Bool
  doomed   : Bool
  at_      : Nat
  since    : Nat
  deriving DecidableEq, Repr

/-- A command queue (R355). -/
structure Queue where
  /-- The function that owns it, 0 for the PF, its local index and its tenant (R355). Reset: PF, its number, none (R355). -/
  fn : Nat
  lidx : Nat
  tenant : Option (BitVec 6)
  /-- QBASE, QCFG, TAIL and HEAD, 64 bits each (R355). Reset: 0. -/
  qbase : Word
  qcfg : Word
  tail : BitVec 32
  head : BitVec 32
  /-- QSTAT bits ERROR and DESTROYING (R355). Reset: 0. -/
  error : Bool
  destroying : Bool
  /-- The region of depth 1 most recently released from the queue and still without a record (R367). Reset: none. -/
  anchors : List Nat
  deriving DecidableEq, Repr

/-- A partition (R386, R387, R389, R390). qptr is the queue served last (R356), 4,096 for the intake; serial the number of stages bound
for the tenant (R297); inj and ext the counts of R309; keyGen which key the tenant has had (R396); stopping: STOP is in progress or
DESTROY has begun; drains: that STOP has DRAIN set (R401); draining: the tenant has been torn down and its counters wait for their last flits (R310). Share and weight
hold from the window sharesAt on, and shareWas and weightWas before it (R387). -/
structure Part where
  id      : Nat
  level2  : Bool
  func    : Nat
  cascade : Bool
  dtrk    : Bool
  x0 : Nat
  y0 : Nat
  wd : Nat
  ht : Nat
  share   : Nat
  weight  : Nat
  shareWas : Nat
  weightWas : Nat
  sharesAt : Nat
  slice   : Nat
  bbase   : Nat
  blimit  : Nat
  s2root  : Nat
  vec0    : Nat
  vecN    : Nat
  xflog   : Nat
  xvec    : Nat
  xcount  : Nat
  tstate  : BitVec 2
  faulted : Bool
  deficit : Nat
  qptr    : Nat
  serial  : Nat
  inj     : Nat
  ext     : Nat
  keyGen  : Nat
  stopping : Bool
  drains  : Bool
  draining : Bool
  deriving DecidableEq, Repr

/-- A function, the PF (0) or a VF (1 to 64) (R390, R397). -/
structure Func where
  /-- S1ROOT, 64 bits (R390). Reset: 0. -/
  s1root : Word
  /-- MODER, 16 bits (R390). Reset: 0. -/
  moder : BitVec 16
  /-- KSEL, 6 bits (R390). Reset: 0. -/
  ksel : BitVec 6
  deriving DecidableEq, Repr

/-- An interrupt vector (R397): when its last message went, and whether one is held. -/
structure Vec where
  vec  : Nat
  fn   : Nat
  last : Nat
  held : Bool
  deriving DecidableEq, Repr

/-- What a cached entry of an MTU translates (R391): VA to IPA, IPA to PA, or both at once. -/
inductive MtuKind where
  | stage1 | stage2 | combined
  deriving DecidableEq, Repr

/-- A cached entry of an MTU (R391): die, tenant and kind; the page's VA (0 for stage 2), its IPA and its PA (0 for stage 1), its size,
and the permissions of what it combines. -/
structure MtuE where
  die    : Nat
  tenant : BitVec 6
  kind   : MtuKind
  va     : Nat
  ipa    : Nat
  pa     : Nat
  size   : Nat
  r      : Bool
  w      : Bool
  deriving DecidableEq, Repr

/-- Who makes an access that a stage-2 fault holds (R394): a thread, a relaxed access of a thread by its place in program order, an
engine, a stream job, a block, a region of the front end, a Spool frame, a queue, or a refill of a slot. -/
inductive Holder where
  | thread (core : Nat) (slot : Fin 8)
  | relaxed (core : Nat) (slot : Fin 8) (order : Nat)
  | engine (core : Nat) (eng : Nat)
  | stream (core num : Nat)
  | block (seq : BitVec 32)
  | region (rid : Nat)
  | frame (cluster : Nat) (k : Fin 64)
  | queue (n : Nat)
  | refill (core : Nat) (slot : Fin 8)
  deriving DecidableEq, Repr

/-- An access that a stage-2 fault holds: its tenant, its IPA and who makes it again (R394). -/
structure XFault where
  tenant : BitVec 6
  ipa    : Nat
  who    : Holder
  deriving DecidableEq, Repr

/-- The mode of a Bridle counter (R148). -/
inductive BMode where
  | count | spread | barrier
  deriving DecidableEq, Repr

/-- A Bridle counter (R144, R149, R306, R307). -/
structure Counter where
  /-- MODE, LW and PARAM of its configuration (R144). -/
  mode    : BMode
  lw      : Nat
  param   : Nat
  /-- One bit per balancer, by number (R299). -/
  bal     : List Bool
  /-- c_i and H_i per exit, H_i with the most recent first (R144, R145). -/
  cnt     : List Nat
  holes   : List (List Nat)
  /-- Generations (R149). -/
  gen     : BitVec 16
  /-- Whether it is broken, and the region that owns it (R307). -/
  broken  : Bool
  owner   : Option Nat
  /-- A generation that has yet to start, and a configuration that has yet to be applied (R144, R306). -/
  pending : Bool
  cfg     : Option Word
  deriving DecidableEq, Repr

/-- A counter no bcfg has touched (R144). -/
def Counter.fresh : Counter :=
  { mode := .count, lw := 0, param := 0, bal := [], cnt := [0], holes := [[]], gen := 0, broken := false, owner := none,
    pending := false, cfg := none }

/-- The kinds of flit (R301). -/
inductive FlitKind where
  | token | barToken | anti | cancel | peek | configure | wait
  deriving DecidableEq, Repr

/-- Where a flit is: held at its injection point, on a wire of the network, at an exit cell, or with its result on the way back. -/
inductive FlitAt where
  | injection
  | wire (n : Nat)
  | exit (i : Nat)
  | result (v : Word)
  deriving DecidableEq, Repr

/-- A flit of the Bridle plane (R301): its tenant, the counter, the thread that sent it (fe: the front end did, R297), its input wire, and
its argument. -/
structure Flit where
  id   : Nat
  kind : FlitKind
  tenant : BitVec 6
  fe   : Bool
  ctr  : Nat
  core : Nat
  slot : Fin 8
  wire : Nat
  arg  : Word
  at_  : FlitAt
  deriving DecidableEq, Repr

/-- A message between cores that has left its sender (R223, R286, R333, R137). -/
inductive Msg where
  | slot (src dst : Nat) (ep : BitVec 1) (w : BitVec 256)
  | close (src dst : Nat) (ep : BitVec 1)
  | announce (src dst : Nat) (ep : BitVec 1) (b : Word)
  | tile (src dst : Nat) (uid : Nat) (dl : BitVec 1) (lt : BitVec 16384) (sc : BitVec 544)
  deriving DecidableEq, Repr

/-- An entry of a watch store, oldest first in its list (R130): the store, the line, the watcher and when it was armed. -/
structure WatchE where
  home  : Nat
  line  : Nat
  core  : Nat
  slot  : Fin 8
  since : Nat
  deriving DecidableEq, Repr

/-- What leaves the module (R273, R274, R367, R397, R415): interrupts, completions of host reads, writes to a peer, and partials. -/
inductive Out where
  | irq (fn vec : Nat)
  | completion (port : Nat) (ok : Bool) (data : List Byte)
  | linkCompletion (port : Nat) (ok : Bool) (data : List Byte)
  | cxlCompletion (ok : Bool) (data : List Byte)
  | peerWrite (port : Nat) (tenant : BitVec 6) (off : Nat) (data : List Byte)
  | controlWrite (addr : Nat) (data : List Byte)
  | groupOut (port : Nat) (m : GroupIn)
  | configRetry (fn : Nat)
  deriving DecidableEq, Repr

/-- An entry of the attestation log (R407). -/
structure LogE where
  d : BitVec 384
  kind : Word
  version : Word
  deriving DecidableEq, Repr

/-- A request to the firmware that is in progress (R411, R416): its operands as they stood at the go. -/
inductive FwReq where
  | update (bus : Nat)
  | activate (drain : Bool)
  | quote (bus : Nat)
  | telem (bus : Nat)
  | drgset (budget slew tenant : Nat)
  | dumpcpy (bus off len : Nat)
  deriving DecidableEq, Repr

/-- The firmware and the security block (R405-R411, R416-R422). -/
structure Fw where
  /-- Whether the module has booted (R406). Reset: DESIGN CHOICE yes (entry 6). -/
  up : Bool
  /-- FWSTAT (R411): running slot, TRIAL, REVERTED, NOBOOT, version; DUMPV (R416). Reset: per boot; DESIGN CHOICE 0 (entry 6). -/
  slotB : Bool
  trial : Bool
  reverted : Bool
  noboot : Bool
  version : BitVec 56
  dumpv : Bool
  /-- The images of slots A and B (R410). Reset: DESIGN CHOICE empty (entry 6). -/
  imgA : List Byte
  imgB : List Byte
  /-- The slot last committed, true for B (R410). Reset: DESIGN CHOICE A (entry 6). -/
  committedB : Bool
  /-- MINVER of the image last committed (R406). Reset: DESIGN CHOICE 0 (entry 6). -/
  minver : BitVec 56
  /-- The cycle of the TRIAL deadline (R410). Reset: none. -/
  trialAt : Option Nat
  /-- The request in progress, BUSY (R411), and a DUMPCLR that waits for it (R422). Reset: none. -/
  busy : Option FwReq
  clear : Bool
  /-- RESULT bits 7:0, UPDATE, QUOTE (R411). Reset: 0. -/
  result : BitVec 8
  update : Word
  quote : Word
  /-- TELEM, DRGSET, PWRCAP, DUMPCPY, DUMPARG (R416). Reset: 0, 0, 7,500, 0, 0. -/
  telem : Word
  drgset : Word
  pwrcap : Word
  dumpcpy : Word
  dumparg : Word
  /-- The measurement M, 384 bits, and the log (R407). Reset: 0 and empty before boot; entry 6. -/
  m : BitVec 384
  log : List LogE
  /-- The factor f in units of 2^-16 (R419), the power of the last interval and the temperatures. Reset: 65,536 (f = 1); 0 and none (entry 5). -/
  f : Nat
  power : Nat
  temps : List Nat
  /-- SECOR (R420). Reset: 0. -/
  secor : Nat
  /-- Tenants that ACTIVATE stopped, to restart with the firmware (R410). Reset: none. -/
  restart : List Nat
  deriving DecidableEq, Repr

/-- The state of the module. -/
structure State where
  /-- The agent and item exec acts on. The MODEL's own. Reset: DESIGN CHOICE core 0, slot 0 (entry 1). -/
  cur : Cur
  /-- Steps taken, the argument of the free values. The MODEL's own. Reset: DESIGN CHOICE 0 (entry 1). -/
  tick : Nat
  /-- CYCLE (R22, 0x00C; R27). Reset: 0 (R27: cycles since module reset). -/
  cycle : Nat
  /-- Actions of the outside world not yet taken (R254, R273). The MODEL's own. Reset: DESIGN CHOICE none (entry 1). -/
  inputs : List (Cur × Instr)
  /-- Cores that differ from an unbound core, by physical number (R1). Reset: none. -/
  cores : List (Nat × Core)
  /-- Clusters that differ from one at reset, by number 128 y + x (R1). Reset: none. -/
  clusters : List (Nat × Cluster)
  /-- Memory: key and byte, rising keys, no zero byte (R19, R255). Reset: nothing listed; an unlisted byte reads 0, DESIGN CHOICE (entry 7). -/
  mem : List Host.Cell
  /-- Granules whose tag is set, rising (R18). Reset: none (entry 7). -/
  tags : List Nat
  /-- SRAM doublewords whose F/E bit is empty, rising (R126). Reset: none: every word is full (R126). -/
  empties : List Nat
  /-- HBM lines and the key each was last written with: line, tenant and key generation (R396). Reset: none. -/
  lineKey : List (Nat × (BitVec 6 × Nat))
  /-- Cached translations of the MTUs (R391). Reset: none. -/
  mtu : List MtuE
  /-- Stage-2 faults that hold an access (R394). Reset: none. -/
  xfaults : List XFault
  /-- Dirty bits: tenant and 64 KiB granule (R400). Reset: none. -/
  dirty : List (BitVec 6 × Nat)
  /-- The watch stores: core ports and gateway tables (R130). Reset: empty. -/
  watches : List WatchE
  /-- Messages between cores in flight (R286, R333). Reset: none. -/
  net : List Msg
  /-- Bridle counters that differ from R144, by ID (R144). Reset: none. -/
  counters : List (Nat × Counter)
  /-- Bridle flits in flight (R301). Reset: none. -/
  flits : List Flit
  /-- Commands that ended with a status other than OK, for ewait (R170). Reset: none. -/
  failed : List Nat
  /-- The next number for commands, regions, flits and vector instructions. The MODEL's own. Reset: DESIGN CHOICE 0 (entry 1). -/
  fresh : Nat
  /-- Live regions (R275). Reset: none. -/
  regions : List Region
  /-- The launch sequence counter SEQ (R366). Reset: DESIGN CHOICE 0 (entry 18). -/
  seq : BitVec 32
  /-- Blocks dispatched and not complete, and device launches in the intake (R356). Reset: none. -/
  blocks : List Block
  /-- Command queues that differ from R355's reset, by number (R355). Reset: none. -/
  queues : List (Nat × Queue)
  /-- The partition served last (R356). Reset: DESIGN CHOICE 63 (entry 18). -/
  lastP : Nat
  /-- Partitions that are tenants (R386). Reset: none (R386). -/
  parts : List Part
  /-- Level-1 partitions that have had a child and hold budgets only, by their number i (R386). Reset: none. -/
  parents : List (Nat × Part)
  /-- Function registers that differ from reset, by function (R390). Reset: 0. -/
  funcs : List (Nat × Func)
  /-- Interrupt vectors that have sent a message (R397). Reset: none. -/
  vecs : List Vec
  /-- What has left the module, newest first (R273, R367). Reset: none. -/
  out : List Out
  /-- Pairings of a link port: port, local tenant, remote tenant (R414). Reset: none. -/
  pairs : List (Nat × BitVec 6 × BitVec 6)
  /-- Link ports that have failed (R414). Reset: none. -/
  linkDown : List Nat
  /-- The module group (R415). Reset: none. -/
  group : Option Group
  /-- Messages of group reductions that have come and are not used up (R415). Reset: none. -/
  groupIn : List GroupIn
  /-- The CXL HDM decoder: the tenant, and the first byte and the size of its IPA range (R412). Reset: none. -/
  cxl : Option (BitVec 6 × Nat × Nat)
  /-- Whether the signed configuration sets port 1 to CXL (R412). Reset: DESIGN CHOICE no (entry 6). -/
  cxlMode : Bool
  /-- Firmware and the security block (R405-R411, R416-R422). -/
  fw : Fw
  deriving DecidableEq, Repr

/-- The firmware at reset. -/
def Fw.fresh : Fw :=
  { up := true, slotB := false, trial := false, reverted := false, noboot := false, version := 0, dumpv := false, imgA := [], imgB := [],
    committedB := false, minver := 0, trialAt := none, busy := none, clear := false, result := 0, update := 0, quote := 0, telem := 0,
    drgset := 0, pwrcap := 7500, dumpcpy := 0, dumparg := 0, m := 0, log := [], f := 65536, power := 0, temps := [], secor := 0, restart := [] }

/-- The queue register block at reset (R355). -/
def Queue.fresh (n : Nat) : Queue :=
  { fn := 0, lidx := n, tenant := none, qbase := 0, qcfg := 0, tail := 0, head := 0, error := false, destroying := false, anchors := [] }

def Func.fresh : Func := { s1root := 0, moder := 0, ksel := 0 }

/-- The module right after reset: no partition, no bound core, nothing queued. -/
def State.reset : State :=
  { cur := { core := 0, slot := 0, idx := 0, sub := 0, val := 0 }, tick := 0, cycle := 0, inputs := [], cores := [], clusters := [],
    mem := [], tags := [], empties := [], lineKey := [], mtu := [], xfaults := [], dirty := [], watches := [], net := [], counters := [],
    flits := [], failed := [], fresh := 0, regions := [], seq := 0, blocks := [], queues := [], lastP := 63, parts := [],
    parents := [], funcs := [], vecs := [], out := [], pairs := [], linkDown := [], group := none, groupIn := [], cxl := none,
    cxlMode := false, fw := Fw.fresh }

end Sys2Proof.Machine
end

