-- ==== Sys2Proof/Machine/Ops.lean ====
section
/-! DEFINITION. Named operations over the state: lookups, memory, capabilities, windows, translation, traps and waits
(R15-R20, R30-R32, R124-R131, R177, R255, R269, R390-R400). -/

namespace Sys2Proof

/-! ## The fields of a capability (R15, R16) -/

def Cap.cur (c : Cap) : BitVec 48 := c.bits.extractLsb' 0 48
def Cap.b (c : Cap) : Nat := (c.bits.extractLsb' 48 24).toNat
def Cap.t (c : Cap) : Nat := (c.bits.extractLsb' 72 24).toNat
def Cap.e (c : Cap) : Nat := (c.bits.extractLsb' 96 5).toNat
/-- A, X, WC, RC, W and R, from bit 5 down. -/
def Cap.perms (c : Cap) : BitVec 6 := c.bits.extractLsb' 101 6
def Cap.ten (c : Cap) : BitVec 6 := c.bits.extractLsb' 107 6
def Cap.kind (c : Cap) : BitVec 3 := c.bits.extractLsb' 113 3
def Cap.res (c : Cap) : BitVec 12 := c.bits.extractLsb' 116 12

/-- CapBase and CapTop (R16). -/
def Cap.base (c : Cap) : Nat := c.b * 2 ^ c.e
def Cap.top (c : Cap) : Nat := if c.e = 24 ∧ c.t = 0 then 2 ^ 48 else c.t * 2 ^ c.e

end Sys2Proof

namespace Sys2Proof.Machine

/-! ## Tables keyed by numbers -/

/-- The entry of a key, or the default. -/
def lookup {α : Type} (d : α) : List (Nat × α) → Nat → α
  | [], _ => d
  | (k, v) :: r, n => if k = n then v else lookup d r n

/-- The table with the entry of a key replaced or added, keys rising. -/
def insert {α : Type} : List (Nat × α) → Nat → α → List (Nat × α)
  | [], n, x => [(n, x)]
  | (k, v) :: r, n, x => if n < k then (n, x) :: (k, v) :: r else if k = n then (n, x) :: r else (k, v) :: insert r n x

/-- A rising list of numbers with n in it. -/
def setAdd : List Nat → Nat → List Nat
  | [], n => [n]
  | k :: r, n => if n < k then n :: k :: r else if k = n then k :: r else k :: setAdd r n

/-- The list without n. -/
def setDel (l : List Nat) (n : Nat) : List Nat := l.filter (· != n)

/-- The first entry whose key is lowest. -/
def oldest {α : Type} (key : α → Nat) : List α → Option α
  | [] => none
  | x :: r =>
      match oldest key r with
      | none => some x
      | some y => if key x ≤ key y then some x else some y

/-- The list with its element i replaced. -/
def listSet {α : Type} (l : List α) (i : Nat) (f : α → α) : List α := l.mapIdx (fun j x => if j = i then f x else x)

/-! ## Agents -/

/-- Core n. -/
def State.core (s : State) (n : Nat) : Core := lookup Core.fresh s.cores n

def State.setCore (s : State) (n : Nat) (c : Core) : State := { s with cores := insert s.cores n c }

/-- Cluster n. -/
def State.cluster (s : State) (n : Nat) : Cluster := lookup Cluster.fresh s.clusters n

def State.setCluster (s : State) (n : Nat) (c : Cluster) : State := { s with clusters := insert s.clusters n c }

/-- The thread of slot k of core n. -/
def State.thAt (s : State) (n : Nat) (k : Fin 8) : Thread := (s.core n).th.get k

def State.setThAt (s : State) (n : Nat) (k : Fin 8) (t : Thread) : State :=
  let c := s.core n
  s.setCore n { c with th := c.th.set k.val t k.isLt }

/-- The current core and thread. -/
def State.cc (s : State) : Core := s.core s.cur.core
def State.setCc (s : State) (c : Core) : State := s.setCore s.cur.core c
def State.th (s : State) : Thread := s.thAt s.cur.core s.cur.slot
def State.setTh (s : State) (t : Thread) : State := s.setThAt s.cur.core s.cur.slot t

/-- The cluster of a core, and the compute die of a cluster: cluster 128 y + x, dies row by row of 32 by 20 clusters (R1, R424). -/
def clusterOf (core : Nat) : Nat := core / 64
def dieOfCluster (c : Nat) : Nat := (c / 128) / 20 * 4 + (c % 128) / 32
def dieOf (core : Nat) : Nat := dieOfCluster (clusterOf core)

def State.ccl (s : State) : Cluster := s.cluster (clusterOf s.cur.core)
def State.setCcl (s : State) (c : Cluster) : State := s.setCluster (clusterOf s.cur.core) c

/-- The state with the current agent at a thread. -/
def State.at_ (s : State) (core : Nat) (slot : Fin 8) : State := { s with cur := { s.cur with core := core, slot := slot } }

/-- Region r. -/
def State.region? (s : State) (r : Nat) : Option Region := s.regions.find? (·.rid == r)
def State.setRegion (s : State) (x : Region) : State :=
  { s with regions := s.regions.map (fun y => if y.rid = x.rid then x else y) }
def State.modRegion (s : State) (r : Nat) (f : Region → Region) : State :=
  { s with regions := s.regions.map (fun y => if y.rid = r then f y else y) }

/-- Partition of a tenant (R386). -/
def State.part? (s : State) (t : Nat) : Option Part := s.parts.find? (·.id == t)
def State.modPart (s : State) (t : Nat) (f : Part → Part) : State :=
  { s with parts := s.parts.map (fun y => if y.id = t then f y else y) }

def State.func (s : State) (n : Nat) : Func := lookup Func.fresh s.funcs n

/-- Thread privilege (R29). -/
def Thread.cprv (t : Thread) : Bool := t.tstatus.getLsbD 0
def Thread.pprv (t : Thread) : Bool := t.tstatus.getLsbD 1
def Thread.tie (t : Thread) : Bool := t.tstatus.getLsbD 2
def Thread.ptie (t : Thread) : Bool := t.tstatus.getLsbD 3

/-- TSTATUS from its four fields, PTIE, TIE, PPRV and CPRV (R29). -/
def tstatusOf (ptie tie pprv cprv : Bool) : BitVec 4 :=
  BitVec.ofBool ptie ++ BitVec.ofBool tie ++ BitVec.ofBool pprv ++ BitVec.ofBool cprv

/-- The state a thread runs in (R279): HANDLER while CPRV is 1. -/
def Thread.active (t : Thread) : TState := if t.cprv then .handler else .ready

/-! ## Effects

A meaning computes in Eff: a state passed along, or a stop. A stop forgets what the instruction had done so far, which is how a
trapping or waiting instruction leaves queues, memory and registers as they were (R17, R55, R120). -/

/-- Why an instruction does not go on. -/
inductive Stop where
  /-- A synchronous trap (R175). -/
  | trap (c : Cause) (v : Word)
  /-- A recorded relaxed fault delivered here (R124). -/
  | deferred (addr pc : Addr)
  /-- The thread waits in a state of R279. -/
  | park (st : TState) (w : Wait)
  /-- A stage-2 fault holds the access (R394): the tenant, the IPA and the kind of R394. -/
  | held (tenant : BitVec 6) (ipa kind : Nat)
  deriving DecidableEq, Repr

abbrev Eff := StateT State (Except Stop)

/-- What a meaning answers. -/
abbrev Res := Host.Outcome State Fault Refusal

def stop {α : Type} (x : Stop) : Eff α := fun _ => .error x
def trapWith {α : Type} (c : Cause) (v : Word) : Eff α := stop (.trap c v)
def parkWith {α : Type} (st : TState) (w : Wait) : Eff α := stop (.park st w)
def gets {α : Type} (f : State → α) : Eff α := fun s => .ok (f s, s)
def mods (f : State → State) : Eff Unit := fun s => .ok ((), f s)
def modTh (f : Thread → Thread) : Eff Unit := mods (fun s => s.setTh (f s.th))
def modCc (f : Core → Core) : Eff Unit := mods (fun s => s.setCc (f s.cc))
def modCcl (f : Cluster → Cluster) : Eff Unit := mods (fun s => s.setCcl (f s.ccl))

/-- A trap where a test fails. -/
def demand (ok : Bool) (c : Cause) (v : Word) : Eff Unit := if ok then pure () else trapWith c v

/-! ## Traps (R30, R32, R175, R177) -/

/-- The codes of R175. -/
def Cause.code : Cause → BitVec 8
  | .illegal => 0x01 | .priv => 0x02 | .capTag => 0x03 | .capBound => 0x04 | .capPerm => 0x05 | .capTenant => 0x06
  | .align => 0x07 | .page => 0x08 | .defer => 0x09 | .engCmd => 0x0A | .accOwn => 0x0B | .zeroLa => 0x0C | .lAhead => 0x0D
  | .timer => 0x0E | .broken => 0x0F | .qMisuse => 0x10 | .brk => 0x11 | .scall => 0x12 | .scopeMiss => 0x13

/-- The supervisor code capability of a core's region (R30, R276, R425). -/
def State.scap (s : State) (core : Nat) : Cap :=
  match s.region? (s.core core).rid with
  | some r => if (s.core core).bound then r.scap else Cap.null
  | none => Cap.null

/-- Trap entry on a thread (R30): TEPC and TFPC are given. -/
def Thread.trapEntry (t : Thread) (cause : Cause) (tval : Word) (tepc tfpc : Addr) (scap : Cap) : Thread :=
  { t with
    tepc := tepc.zeroExtend 64, tfpc := tfpc.zeroExtend 64, tcause := cause.code, tval := tval
    tstatus := tstatusOf t.tie false t.cprv true
    pc := t.tvec.extractLsb' 0 48, epcc := t.pcc, pcc := scap
    state := .handler, wait := .none, pfx := none, undo := [], yld := none }

/-- A thread that stops for good (R279 EMPTY): its registers stay, what it waited for does not. -/
def Thread.emptied (t : Thread) : Thread :=
  { t with state := .empty, wait := .none, pfx := none, rel := [], dfr := [], watch := none, yld := none, miss := none, undo := [] }

/-- Whether an access is one a thread waits for, or a relaxed one of it. -/
def Holder.of (h : Holder) (core : Nat) (slot : Fin 8) : Bool :=
  match h with
  | .thread n k | .relaxed n k _ | .refill n k => n == core && k == slot
  | _ => false

/-- A thread leaves its slot: its watch, its waiting requests and its held accesses are dropped (R120, R130, R370). -/
def State.dropWaits (s : State) (core : Nat) (slot : Fin 8) : State :=
  { s with
    watches := s.watches.filter (fun w => !(w.core == core && w.slot == slot))
    xfaults := s.xfaults.filter (fun f => !f.who.of core slot)
    cores := s.cores.map (fun (n, c) => (n, { c with feWait := c.feWait.filter (fun q => !(q.core == core && q.slot == slot)) })) }

/-- The unhandled fault of a region (R380): the first is recorded; the thread that raised it stops. A sibling's pth has yet to learn of
it (R370). -/
def State.regionFault (s : State) (core : Nat) (slot : Fin 8) (tcause code : BitVec 8) (soft : Word) : State :=
  let c := s.core core
  let t := s.thAt core slot
  let f : FInfo := { tcause := tcause, code := code, lcore := t.lcore, tslot := slot, tval := t.tval, tepc := t.tepc, tfpc := t.tfpc
                     soft := soft }
  let pre := match t.pre with | some (.pth b i) => some (PreReq.pth b i) | _ => none
  let s1 := (s.dropWaits core slot).setThAt core slot { (s.thAt core slot).emptied with pre := pre }
  s1.modRegion c.rid (fun r => { r with fault := r.fault.orElse (fun _ => some f), faulted := true })

/-- One popped element back at the head of its queue or buffer (R55). -/
def Thread.unpop (t : Thread) (i : BitVec 3) (w : Word) : Thread :=
  if h : i.toNat < 4 then
    let q := t.strm.get ⟨i.toNat, h⟩
    { t with strm := t.strm.set i.toNat { q with elems := w :: q.elems } h }
  else if i = 4 then { t with rbuf := t.rbuf.set 0 (w :: t.rbuf.get 0) }
  else { t with rbuf := t.rbuf.set 1 (w :: t.rbuf.get 1) }

/-- A slot from its four words, word 0 lowest. -/
def slotOf : List Word → BitVec 256
  | [a, b, c, d] => d ++ c ++ b ++ a
  | _ => 0

/-- The words of a slot. -/
def slotWords (w : BitVec 256) : List Word := [w.extractLsb' 0 64, w.extractLsb' 64 64, w.extractLsb' 128 64, w.extractLsb' 192 64]

/-- A whole slot that stands in a thread's buffer for q4 or q5 goes back to the head of its endpoint. -/
def State.unslot (s : State) (core : Nat) (slot : Fin 8) (e : Fin 2) : State :=
  let t := s.thAt core slot
  let b := t.rbuf.get e
  if b.length < 4 then s
  else
    let c := s.core core
    let ep := c.ep.get ⟨e.val, by omega⟩
    let c1 := { c with ep := c.ep.set e.val { ep with slots := slotOf (b.drop (b.length - 4)) :: ep.slots } (by omega) }
    (s.setCore core c1).setThAt core slot { t with rbuf := t.rbuf.set e.val (b.take (b.length - 4)) e.isLt }

/-- The elements an instruction of a thread has popped go back (R55). -/
def State.takeBack (s : State) (core : Nat) (slot : Fin 8) : State :=
  let t := s.thAt core slot
  if t.undo = [] then s
  else
    let t1 := { t.undo.foldl (fun t u => t.unpop u.1 u.2) t with undo := [] }
    ((s.setThAt core slot t1).unslot core slot 0).unslot core slot 1

/-- A change to the node of the completion tree in a cluster. -/
def Stage.modNode (g : Stage) (cl : Nat) (f : Node → Node) : Stage :=
  { g with nodes := g.nodes.map (fun n => if n.cluster = cl then f n else n) }

/-- A change to the node of a core's stage in its cluster (R289). -/
def State.noteNode (s : State) (core : Nat) (f : Node → Node) : State :=
  let c := s.core core
  if c.bound then
    s.modRegion c.rid (fun r => { r with stages := listSet r.stages c.stage (fun g => g.modNode (clusterOf core) f) })
  else s

/-- Bits of the fault summary of a core's stage (R289): 1 CHILD, 2 SMISS, 4 BRK. -/
def State.noteFsum (s : State) (core : Nat) (bits : BitVec 16) : State :=
  s.noteNode core (fun n => { n with fsum := n.fsum ||| bits })

/-- The SYS slot of a stage in a cluster (R288). -/
def Stage.slotIn (g : Stage) (cl : Nat) : Option (Fin 32) := (g.nodes.find? (·.cluster == cl)).bind (·.slot)

/-- A synchronous trap of the current thread at pc, or the unhandled fault of R32. -/
def State.trapSync (s : State) (c : Cause) (v : Word) (tfpc : Addr) : State :=
  let s := s.takeBack s.cur.core s.cur.slot
  let s := if c = .broken then s.noteFsum s.cur.core 4 else s
  let t := s.th
  if t.cprv then s.regionFault s.cur.core s.cur.slot c.code 0 0
  else s.setTh (t.trapEntry c v t.pc tfpc (s.scap s.cur.core))

/-- An asynchronous trap at the boundary the thread stands at, taken in U only (R27, R262). -/
def State.trapAsync (s : State) (c : Cause) (v : Word) : State :=
  s.setTh (s.th.trapEntry c v s.th.pc s.th.pc (s.scap s.cur.core))

/-- The current thread waits (R279). Its place among the waiters is kept where it waited already. -/
def State.parkTh (s : State) (st : TState) (w : Wait) : State :=
  let t := s.th
  s.setTh { t with state := st, wait := w, parkAt := if t.state = st then t.parkAt else s.tick }

/-! ## Translation faults in the log (R394) -/

/-- The record of a stage-2 fault (R394): 32 bytes at the tenant's ring, and the ring's vector is raised. -/
def xflogWords (tenant : BitVec 6) (ipa kind cycle : Nat) : List Byte :=
  bytesOf 8 (ipa % 2 ^ 48 + tenant.toNat * 2 ^ 48 + kind % 4 * 2 ^ 54) ++ bytesOf 8 cycle ++ bytesOf 16 0

/-! ## Memory (R18, R19, R255) -/

/-- Memory keys: physical HBM from 0, then the slices, then host memory. -/
def sramKey (core off : Nat) : Nat := 2 ^ 48 + core * 0x10000 + off
def hostKey (bus : Nat) : Nat := 2 ^ 50 + bus

/-- What a byte nothing has written reads as. DESIGN CHOICE: entry 7. -/
def Memory.unlisted : Byte := 0

/-- The byte at a key. -/
def Memory.read : List Host.Cell → Nat → Byte
  | [], _ => Memory.unlisted
  | (k, b) :: r, n => if k = n then b else if n < k then Memory.unlisted else Memory.read r n

/-- Memory with the byte at a key written, in canonical form. -/
def Memory.write : List Host.Cell → Nat → Byte → List Host.Cell
  | [], n, x => if x = Memory.unlisted then [] else [(n, x)]
  | (k, b) :: r, n, x =>
      if n < k then (if x = Memory.unlisted then (k, b) :: r else (n, x) :: (k, b) :: r)
      else if k = n then (if x = Memory.unlisted then r else (n, x) :: r)
      else (k, b) :: Memory.write r n x

/-- Rising keys from a bound on, and no byte equal to what an unlisted address reads as. -/
def Memory.wfFrom : Nat → List Host.Cell → Bool
  | _, [] => true
  | lo, (k, b) :: r => decide (lo ≤ k) && b != Memory.unlisted && Memory.wfFrom (k + 1) r

/-- The canonical form. -/
def Memory.wf (m : List Host.Cell) : Bool := Memory.wfFrom 0 m

/-- n bytes from a key. -/
def Memory.readN (m : List Host.Cell) (k : Nat) : Nat → List Byte
  | 0 => []
  | n + 1 => Memory.read m k :: Memory.readN m (k + 1) n

/-- Bytes written from a key on. -/
def Memory.writeN (m : List Host.Cell) (k : Nat) : List Byte → List Host.Cell
  | [] => m
  | b :: r => Memory.writeN (Memory.write m k b) (k + 1) r

/-- Every byte from lo up to hi becomes zero. -/
def Memory.clear (m : List Host.Cell) (lo hi : Nat) : List Host.Cell := m.filter (fun c => !(decide (lo ≤ c.1) && decide (c.1 < hi)))

/-- The little-endian number of n bytes (R7). -/
def Memory.num (m : List Host.Cell) (k n : Nat) : Nat := ofBytes (Memory.readN m k n)

/-! ## Keys of HBM lines (R396) -/

/-- The key a tenant's accesses use now. -/
def State.keyOf (s : State) (t : BitVec 6) : BitVec 6 × Nat :=
  (t, match s.part? t.toNat with | some p => p.keyGen | none => 0)

/-- Whether a line was last written with another key. -/
def State.keyMiss (s : State) (t : BitVec 6) (line : Nat) : Bool :=
  match s.lineKey.find? (·.1 == line) with
  | some (_, k) => k != s.keyOf t
  | none => false

/-- A byte of a line decrypted with a key it was not written with: unpredictable, and the line is never the plaintext (R396). -/
def State.garbled (s : State) (pa : Nat) : Byte :=
  let line := pa / 64 * 64
  if (List.range 64).all (fun i => Config.garble s.tick (line + i) == Memory.read s.mem (line + i)) then ~~~Memory.read s.mem pa
  else Config.garble s.tick pa

/-- n bytes of HBM read with a tenant's key. -/
def State.readHbm (s : State) (t : BitVec 6) (pa : Nat) : Nat → List Byte
  | 0 => []
  | n + 1 => (if s.keyMiss t (pa / 64) then s.garbled pa else Memory.read s.mem pa) :: s.readHbm t (pa + 1) n

/-- The key of a line after a write; the rest of a line that had another key is unpredictable from then on. -/
def State.rekey (s : State) (t : BitVec 6) (line : Nat) : State :=
  if s.keyMiss t line then
    { s with
      mem := Memory.writeN s.mem (line * 64) ((List.range 64).map (fun i => s.garbled (line * 64 + i)))
      lineKey := insert s.lineKey line (s.keyOf t) }
  else { s with lineKey := insert s.lineKey line (s.keyOf t) }

/-- The lines that n bytes, at most 64, touch. -/
def State.rekeyN (s : State) (t : BitVec 6) (pa n : Nat) : State :=
  let s1 := s.rekey t (pa / 64)
  if (pa + n - 1) / 64 = pa / 64 then s1 else s1.rekey t ((pa + n - 1) / 64)

/-! ## Watches (R130, R131) -/

/-- A write has reached a line: every watch on it is hit. -/
def State.hitWatches (s : State) (line : Nat) : State :=
  (s.watches.filter (·.line == line)).foldl
    (fun s w => s.setThAt w.core w.slot
      { s.thAt w.core w.slot with watch := (s.thAt w.core w.slot).watch.map (fun x => { x with hit := true }) }) s

/-! ## Writes that take effect at a home -/

/-- Tags of the granules that bytes from a key touch (R18). -/
def clearTags (tags : List Nat) (k n : Nat) : List Nat :=
  if n = 0 then tags else tags.filter (fun g => !(decide (k / 16 ≤ g) && decide (g ≤ (k + n - 1) / 16)))

/-- A write of bytes at a key: the bytes, the tags, and the watches. -/
def State.poke (s : State) (k : Nat) (bs : List Byte) : State :=
  let s1 := { s with mem := Memory.writeN s.mem k bs, tags := clearTags s.tags k bs.length }
  if bs.length = 0 then s1 else
  let s2 := s1.hitWatches (k / 64)
  if (k + bs.length - 1) / 64 = k / 64 then s2 else s2.hitWatches ((k + bs.length - 1) / 64)

/-- Whose access it is: its tenant, its numbering, its own core, its MTU's die, its privilege, and its SRC fields (R270). -/
structure Agent where
  tenant : BitVec 6
  top    : Nat
  own    : Option Nat
  die    : Nat
  sup    : Bool
  lcore  : Nat
  slot   : Nat
  kind   : Nat
  deriving DecidableEq, Repr

/-- The agent of a thread. -/
def State.agentOf (s : State) (core : Nat) (slot : Fin 8) : Agent :=
  let c := s.core core
  { tenant := c.tenant, top := c.top, own := some core, die := dieOf core, sup := (s.thAt core slot).cprv
    lcore := (s.thAt core slot).lcore, slot := slot.val, kind := 0 }

def State.agent (s : State) : Agent := s.agentOf s.cur.core s.cur.slot

/-! ## Windows (R19, R20, R413) -/

/-- The core of a top-level region's numbering, where one is bound (R19, R382). -/
def State.findCore (s : State) (top l : Nat) : Option Nat :=
  (s.cores.find? (fun (_, c) => c.bound && c.top == top && c.lcore == l)).map Prod.fst

/-- The row of R19 that holds an address. -/
inductive Row where
  | hbm | slice (core off : Nat) | host (port bus : Nat) | peer (port off : Nat) | control | nothing
  deriving DecidableEq, Repr

def State.rowOf (s : State) (a : Agent) (x : Nat) : Row :=
  if x < 0x400000000000 then .hbm
  else if x < 0x500000000000 then
    let l := (x - 0x400000000000) / 0x10000
    let off := x % 0x10000
    if off < 0xC000 ∧ l < Config.cores then
      match s.findCore a.top l with
      | some c => .slice c off
      | none => .nothing
    else .nothing
  else if x < 0x50000000C000 then
    match a.own with
    | some c => .slice c (x - 0x500000000000)
    | none => .nothing
  else if x < 0x600000000000 then .nothing
  else if x < 0x620000000000 then .host 0 (x - 0x600000000000)
  else if x < 0x640000000000 then .host 1 (x - 0x620000000000)
  else if x < 0x680000000000 then .peer ((x - 0x640000000000) / 0x4000000000) (x % 0x4000000000)
  else if x < 0x7F0000000000 then .nothing
  else if x < 0x800000000000 then .control
  else .nothing

/-- The function that owns a tenant, 0 where none does (R390): its host requests carry its Requester ID (R413). -/
def State.funcOf (s : State) (t : BitVec 6) : Nat := match s.part? t.toNat with | some p => p.func | none => 0

/-- The pairing table of a link port, of at most 64 entries (R414). -/
def State.pairsOf (s : State) (port : Nat) : List (Nat × BitVec 6 × BitVec 6) := (s.pairs.filter (·.1 == port)).take 64

/-- Whether a tenant may use the host and peer window at an address (R413, R414). -/
def State.hostOk (s : State) (t : BitVec 6) (r : Row) : Bool :=
  match r with
  | .host _ _ => s.funcOf t != 0
  | .peer p _ => (s.pairsOf p).any (fun (_, l, _) => l == t)
  | _ => true

/-- The first and the last byte of an access lie in one row. -/
def State.rowSame (s : State) (a : Agent) (x size : Nat) : Bool :=
  match s.rowOf a x, s.rowOf a (x + size - 1) with
  | .hbm, .hbm | .control, .control => true
  | .slice c _, .slice d _ => c == d
  | .host p _, .host q _ | .peer p _, .peer q _ => p == q
  | _, _ => false

/-- An access lies in one row, and the row admits it. -/
def State.rowOk (s : State) (a : Agent) (x size : Nat) : Bool := s.rowSame a x size && s.hostOk a.tenant (s.rowOf a x)

/-- WindowCheck (R20). -/
def State.windowFault (s : State) (a : Agent) (x size : Nat) : Option Cause :=
  if 0x7F0000000000 ≤ x ∧ !a.sup then some .priv
  else if s.rowOk a x size then none
  else some .page

/-! ## Translation (R390-R394, R400) -/

/-- Why a translation fails: a stage-1 fault, or a stage-2 fault with its IPA and kind (R394). -/
inductive XErr where
  | stage1
  | stage2 (ipa kind : Nat)
  deriving DecidableEq, Repr

/-- What an access needs of a page (R393), and its kind in the fault record (R394). -/
inductive Acc where
  | read | write | atomic
  deriving DecidableEq, Repr

def Acc.kind : Acc → Nat
  | .read => 0 | .write => 1 | .atomic => 2

def Acc.writes : Acc → Bool
  | .read => false
  | _ => true

/-- The index bits, the table's alignment and the page size of a level (R392). -/
def pteIndex (level x : Nat) : Nat :=
  match level with
  | 0 => x / 2 ^ 40 % 256
  | 1 => x / 2 ^ 31 % 512
  | 2 => x / 2 ^ 21 % 1024
  | _ => x / 2 ^ 12 % 512

def tableAlign (level : Nat) : Nat := if level = 2 then 8192 else 4096
def pageSize (level : Nat) : Nat := if level = 1 then 2 ^ 31 else if level = 2 then 2 ^ 21 else 2 ^ 12

/-- The output address of an entry. -/
def pteOa (e : BitVec 64) : Nat := (e.extractLsb' 12 36).toNat * 4096

/-- Whether an entry is valid in form at a level (R393). -/
def pteOk (level : Nat) (e : BitVec 64) : Bool :=
  let leaf := e.getLsbD 1
  e.getLsbD 0 && e.extractLsb' 56 8 == 0 && e.extractLsb' 48 7 == 0 && e.extractLsb' 4 8 == 0
  && (if level = 0 then !leaf else if level = 3 then leaf else true)
  && (!e.getLsbD 55 || level == 3)
  && (if leaf then decide (pteOa e % pageSize level = 0) else decide (pteOa e % tableAlign (level + 1) = 0))

/-- Whether the 16 aligned entries of a CONT page are alike and consecutive (R393). -/
def contOk (entry : Nat → BitVec 64) (idx : Nat) : Bool :=
  let base := idx / 16 * 16
  let oa0 := pteOa (entry base)
  decide (oa0 % 65536 = 0)
  && (List.range 16).all (fun i =>
    let e := entry (base + i)
    pteOk 3 e && e.getLsbD 55 && pteOa e == oa0 + i * 4096)

/-- A leaf found by a walk. -/
structure Leaf where
  base : Nat
  size : Nat
  r    : Bool
  w    : Bool
  deriving DecidableEq, Repr

/-- The walk of one stage from a level down (R392). read gives an entry's word, or the fault of reading it; the output address of every
entry lies below limit (R393). -/
def walk {ε : Type} (fault : ε) (limit : Nat) (read : Nat → Except ε (BitVec 64)) (x : Nat) : List Nat → Nat → Except ε Leaf
  | [], _ => .error fault
  | level :: rest, table =>
      match read (table + 8 * pteIndex level x) with
      | .error e => .error e
      | .ok e =>
          if !pteOk level e || decide (limit ≤ pteOa e) then .error fault
          else if e.getLsbD 1 then
            if e.getLsbD 55 then
              let entry := fun i => match read (table + 8 * i) with | .ok v => v | .error _ => 0
              let idx := pteIndex level x
              if contOk entry idx then
                .ok { base := pteOa (entry (idx / 16 * 16)), size := 65536, r := e.getLsbD 2, w := e.getLsbD 3 }
              else .error fault
            else .ok { base := pteOa e, size := pageSize level, r := e.getLsbD 2, w := e.getLsbD 3 }
          else walk fault limit read x rest (pteOa e)

/-- The addresses of the entries a walk reads. -/
def walkReads {ε : Type} (read : Nat → Except ε (BitVec 64)) (x : Nat) : List Nat → Nat → List Nat
  | [], _ => []
  | level :: rest, table =>
      let k := table + 8 * pteIndex level x
      match read k with
      | .ok e => k :: (if pteOk level e && !e.getLsbD 1 then walkReads read x rest (pteOa e) else [])
      | .error _ => []

def levels : List Nat := [0, 1, 2, 3]

def Leaf.admits (l : Leaf) (a : Acc) : Bool :=
  match a with
  | .read => l.r
  | .write => l.w
  | .atomic => l.r && l.w

/-- The identity (R390). -/
def Leaf.identity : Leaf := { base := 0, size := 2 ^ 48, r := true, w := true }

/-- Stage 2 (R393, R394): the tables are physical; every output address lies in HBM below the dump area. -/
def State.stage2 (s : State) (p : Part) (ipa : Nat) (a : Acc) (kind : Nat) : Except XErr Leaf :=
  match walk (XErr.stage2 ipa kind) Config.dumpBase (fun k => .ok (BitVec.ofNat 64 (Memory.num s.mem k 8))) ipa levels p.s2root with
  | .error e => .error e
  | .ok l =>
      if l.admits a && decide (l.base + l.size ≤ Config.dumpBase) then .ok l else .error (.stage2 ipa kind)

/-- The address a cached entry translates from, and the one it translates to. -/
def MtuE.inp (e : MtuE) : Nat := if e.kind = .stage2 then e.ipa else e.va
def MtuE.out (e : MtuE) : Nat := if e.kind = .stage1 then e.ipa else e.pa
def MtuE.leaf (e : MtuE) : Leaf := { base := e.out, size := e.size, r := e.r, w := e.w }

def MtuKind.code : MtuKind → Nat
  | .stage1 => 0 | .stage2 => 1 | .combined => 2

/-- The cached entry of a die that serves an access, unless it has been dropped since (R391). -/
def State.cached (s : State) (die : Nat) (p : Part) (kind : MtuKind) (x : Nat) (a : Acc) : Option MtuE :=
  (s.mtu.find? (fun e => e.die == die && e.tenant == BitVec.ofNat 6 p.id && e.kind == kind
    && decide (e.inp ≤ x ∧ x < e.inp + e.size) && e.leaf.admits a)).filter (fun _ => !Config.mtuDropped s.tick kind.code)

/-- Stage 2 by a die's MTU: a cached entry, or a walk. -/
def State.stage2On (s : State) (die : Nat) (p : Part) (ipa : Nat) (a : Acc) (kind : Nat) : Except XErr Leaf :=
  match s.cached die p .stage2 ipa a with
  | some e => .ok e.leaf
  | none => s.stage2 p ipa a kind

/-- An entry of a stage-1 table, read through stage 2 (R392). -/
def State.readPte (s : State) (die : Nat) (p : Part) (k : Nat) : Except XErr (BitVec 64) :=
  match s.stage2On die p k .read 3 with
  | .error e => .error e
  | .ok l => .ok (BitVec.ofNat 64 (ofBytes (s.readHbm (BitVec.ofNat 6 p.id) (l.base + k % l.size) 8)))

/-- The root of a tenant's stage 1, where it has one (R390). -/
def State.root1 (s : State) (p : Part) : Option Nat :=
  let root := (s.func p.func).s1root
  if p.func = 0 || !root.getLsbD 0 then none else some ((root.extractLsb' 12 36).toNat * 4096)

/-- Stage 1 (R390, R392): the identity with EN 0. -/
def State.stage1 (s : State) (die : Nat) (p : Part) (va : Nat) (a : Acc) : Except XErr Leaf :=
  match s.root1 p with
  | none => .ok Leaf.identity
  | some root =>
      match walk XErr.stage1 (2 ^ 48) (s.readPte die p) va levels root with
      | .error e => .error e
      | .ok l => if l.admits a then .ok l else .error .stage1

/-- Stage 1 by a die's MTU: a cached entry, or a walk. -/
def State.stage1On (s : State) (die : Nat) (p : Part) (va : Nat) (a : Acc) : Except XErr Leaf :=
  match s.cached die p .stage1 va a with
  | some e => .ok e.leaf
  | none => s.stage1 die p va a

/-- The dirty bit of a granule (R400). -/
def State.markDirty (s : State) (p : Part) (ipa : Nat) (a : Acc) : State :=
  let d := (BitVec.ofNat 6 p.id, ipa / 65536)
  if a.writes && p.dtrk && !s.dirty.contains d then { s with dirty := d :: s.dirty } else s

/-- The entries of a die beyond the n it holds are dropped (R1). -/
def keepEntries (die : Nat) : Nat → List MtuE → List MtuE
  | _, [] => []
  | n, e :: r =>
      if e.die = die then (match n with | 0 => keepEntries die 0 r | n + 1 => e :: keepEntries die n r) else e :: keepEntries die n r

/-- A stage-2 entry for a page. -/
def entry2 (die : Nat) (t : BitVec 6) (ipa : Nat) (l : Leaf) : MtuE :=
  { die := die, tenant := t, kind := .stage2, va := 0, ipa := ipa / l.size * l.size, pa := l.base, size := l.size, r := l.r, w := l.w }

/-- What a die's MTU caches of a translation (R391): the stage-2 entries of the stage-1 tables it read, the entries of both stages, and
the combined one. -/
def State.newEntries (s : State) (die : Nat) (p : Part) (both : Bool) (va ipa : Nat) (l1 l2 : Leaf) : List MtuE :=
  let t := BitVec.ofNat 6 p.id
  let size := Nat.min l1.size l2.size
  let pa := l2.base + ipa % l2.size
  let tables := if !both then [] else match s.root1 p with
    | none => []
    | some root => (walkReads (s.readPte die p) va levels root).filterMap (fun k => match s.stage2On die p k .read 3 with
        | .ok l => some (entry2 die t k l)
        | .error _ => none)
  let one := if both && l1.size != 2 ^ 48 then
      [{ die := die, tenant := t, kind := .stage1, va := va / l1.size * l1.size, ipa := l1.base, pa := 0, size := l1.size
         r := l1.r, w := l1.w }] else []
  let all := if both then
      [{ die := die, tenant := t, kind := .combined, va := va / size * size, ipa := ipa / size * size, pa := pa / size * size
         size := size, r := l1.r && l2.r, w := l1.w && l2.w }] else []
  all ++ one ++ [entry2 die t ipa l2] ++ tables

/-- The translation of an HBM address for a tenant by the MTU of a die (R391), through both stages or through stage 2 alone: a cached
entry where one serves, else a walk. -/
def State.translate (s : State) (die : Nat) (t : BitVec 6) (both : Bool) (va : Nat) (a : Acc) : Except XErr (Nat × State) :=
  match s.part? t.toNat with
  | none => .error .stage1
  | some p =>
      match (if both then s.cached die p .combined va a else none) with
      | some e => .ok (e.pa + (va - e.va), s.markDirty p (e.ipa + (va - e.va)) a)
      | none =>
          match (if both then s.stage1On die p va a else .ok Leaf.identity) with
          | .error e => .error e
          | .ok l1 =>
              let ipa := l1.base + va % l1.size
              match s.stage2On die p ipa a a.kind with
              | .error e => .error e
              | .ok l2 =>
                  .ok (l2.base + ipa % l2.size,
                    { s.markDirty p ipa a with mtu := keepEntries die 65536 (s.newEntries die p both va ipa l1 l2 ++ s.mtu) })

/-- Where an access of an agent to an address goes (R255), after its window has been checked. -/
def State.resolve (s : State) (ag : Agent) (x : Nat) (a : Acc) : Except XErr (Tgt × State) :=
  match s.rowOf ag x with
  | .hbm =>
      match s.translate ag.die ag.tenant true x a with
      | .error e => .error e
      | .ok (pa, s1) => .ok (.hbm pa, s1)
  | .slice c off => .ok (.sram c off, s)
  | .host p b => .ok (.host p (s.funcOf ag.tenant) b, s)
  | .peer p o => if s.linkDown.contains p && a == .read then .error .stage1 else .ok (.peer p o, s)
  | .control => .ok (.control x, s)
  | .nothing => .error .stage1

/-- The memory key of a place inside the module or host memory. -/
def Tgt.key : Tgt → Nat
  | .sram c off => sramKey c off
  | .hbm pa => pa
  | .host _ _ b => hostKey b
  | .peer _ o => 2 ^ 52 + o
  | .control x => 2 ^ 53 + x

/-- n bytes read at their home (R255). -/
def State.readAt (s : State) (t : BitVec 6) (x : Tgt) (n : Nat) : List Byte :=
  match x with
  | .sram _ _ | .host _ _ _ => Memory.readN s.mem x.key n
  | .hbm pa => s.readHbm t pa n
  | .peer _ o => (List.range n).map (fun i => Config.peerByte s.tick (o + i))
  | .control a => (List.range n).map (fun i => Config.controlByte s.tick (a + i))

/-- Bytes written at a place: memory, tags, watches and the line's key; a peer's bytes and those of a register of the control window
leave the module. A failed link drops writes (R414). -/
def State.put (s : State) (t : BitVec 6) (x : Tgt) (bs : List Byte) : State :=
  match x with
  | .sram _ _ | .host _ _ _ => s.poke x.key bs
  | .hbm pa => (s.rekeyN t pa bs.length).poke pa bs
  | .peer p o => if s.linkDown.contains p then s else { s with out := .peerWrite p t o bs :: s.out }
  | .control a => { s with out := .controlWrite a bs :: s.out }

/-- The parts of an access: one in each page, where it lies in HBM and crosses a page; at most 4,096 bytes. -/
def State.pageParts (s : State) (ag : Agent) (x n : Nat) : List (Nat × Nat) :=
  let m := 4096 - x % 4096
  if s.rowOf ag x = .hbm ∧ m < n then [(x, m), (x + m, n - m)] else [(x, n)]

/-- Where the parts of an access go, each with its bytes. -/
abbrev Spans := List (Tgt × Nat)

/-- Where the parts of a checked access go (R255). -/
def State.resolveAll (s : State) (ag : Agent) (a : Acc) : List (Nat × Nat) → Except XErr (Spans × State)
  | [] => .ok ([], s)
  | (x, n) :: r =>
      match s.resolve ag x a with
      | .error e => .error e
      | .ok (t, s1) =>
          match s1.resolveAll ag a r with
          | .error e => .error e
          | .ok (l, s2) => .ok ((t, n) :: l, s2)

/-- The bytes of an access of several parts. -/
def State.readSpans (s : State) (t : BitVec 6) (l : Spans) : List Byte := l.flatMap (fun x => s.readAt t x.1 x.2)

/-! ## The trace ring (R269, R270) -/

/-- Whether a write of n bytes at a window-form address falls in a range (R34). -/
def traceIn (rng : Word) (addr n : Nat) : Bool :=
  let sz := (rng.extractLsb' 48 6).toNat
  let base := (rng.extractLsb' 0 48).toNat / 2 ^ sz * 2 ^ sz
  rng.getLsbD 63 && decide (6 ≤ sz ∧ sz ≤ 47) && decide (addr < base + 2 ^ sz ∧ base < addr + n)

/-- The window-form address of an offset of a core's slice (R269). -/
def Core.window (c : Core) (off : Nat) : Nat := 0x400000000000 + c.lcore * 0x10000 + off

/-- Whether a write of n bytes to a core's slice is traced (R269). -/
def Core.traced (c : Core) (off n : Nat) : Bool :=
  c.bound && (traceIn c.trcrng0 (c.window off) n || traceIn c.trcrng1 (c.window off) n)

/-- The trace record of a traced write (R270): kind and agent as the table of R270 has them. -/
def State.record (s : State) (ag : Agent) (core off n kind : Nat) : State :=
  let c := s.core core
  let len := (c.trclen.extractLsb' 0 32).toNat
  let s1 := s.setCore core { c with trcseq := c.trcseq + 1 }
  if len = 0 then s1
  else
    let c1 := s1.core core
    let widx := (c1.trclen.extractLsb' 32 32).toNat
    let rec_ := bytesOf 8 c.trcseq ++ bytesOf 8 (c.window off % 2 ^ 48 + n * 2 ^ 48 + kind * 2 ^ 56)
      ++ bytesOf 8 (if ag.kind ≤ 3 then ag.lcore + ag.slot * 2 ^ 20 + ag.kind * 2 ^ 23 else ag.kind * 2 ^ 23) ++ bytesOf 8 s.cycle
    let s2 := s1.setCore core { c1 with trclen := BitVec.ofNat 32 (widx + 1) ++ c1.trclen.extractLsb' 0 32 }
    let at_ := ((c1.trcbase.extractLsb' 5 43).toNat * 32 + 32 * (widx % len)) % 2 ^ 48
    let port : Agent := { tenant := c.tenant, top := c.top, own := some core, die := dieOf core, sup := false, lcore := c.lcore,
                          slot := 0, kind := 0 }
    if (s2.windowFault port at_ 32).isSome then s2
    else match s2.resolve port at_ .write with
      | .error _ => s2
      | .ok (t, s3) => s3.put c.tenant t rec_

/-- A write to a core's slice is recorded where it is traced. -/
def State.trace (s : State) (ag : Agent) (core off n kind : Nat) : State :=
  if (s.core core).traced off n then s.record ag core off n kind else s

/-- A write of bytes at their home (R255), and the trace ring of a slice. -/
def State.writeAt (s : State) (ag : Agent) (x : Tgt) (bs : List Byte) (kind : Nat) : State :=
  match x with
  | .sram c off => (s.put ag.tenant x bs).trace ag c off bs.length kind
  | _ => s.put ag.tenant x bs

/-- A write of bytes in several parts. -/
def State.writeSpans (s : State) (ag : Agent) (bs : List Byte) (kind : Nat) : Spans → State
  | [] => s
  | (x, n) :: r => (s.writeAt ag x (bs.take n) kind).writeSpans ag (bs.drop n) kind r

/-- The tag of the granule at a place, always clear outside SRAM and HBM (R18). -/
def State.tagAt (s : State) (x : Tgt) : Bool :=
  match x with
  | .sram _ _ | .hbm _ => s.tags.contains (x.key / 16)
  | _ => false

/-- Sets or clears the tag of the granule at a place (R18). -/
def State.setTag (s : State) (x : Tgt) (on : Bool) : State :=
  match x with
  | .sram _ _ | .hbm _ => if on then { s with tags := setAdd s.tags (x.key / 16) } else { s with tags := setDel s.tags (x.key / 16) }
  | _ => s

/-- The F/E bit of a doubleword of a slice: true is full (R126). -/
def State.full (s : State) (key : Nat) : Bool := !s.empties.contains (key / 8 * 8)

def State.setFull (s : State) (key : Nat) (on : Bool) : State :=
  if on then { s with empties := setDel s.empties (key / 8 * 8) } else { s with empties := setAdd s.empties (key / 8 * 8) }

/-! ## Capabilities (R15-R17) -/

def permR : BitVec 6 := 0b000001
def permW : BitVec 6 := 0b000010
def permRC : BitVec 6 := 0b000100
def permWC : BitVec 6 := 0b001000
def permX : BitVec 6 := 0b010000
def permA : BitVec 6 := 0b100000
def kindMem : BitVec 3 := 0
def kindCode : BitVec 3 := 1
def kindBridle : BitVec 3 := 2

/-- The first five steps of CapCheck (R17). -/
def capFault (tenant : BitVec 6) (c : Cap) (addr size : Nat) (need : BitVec 6) (kind : BitVec 3) (align : Nat) : Option Cause :=
  if !c.tag || c.res != 0 then some .capTag
  else if c.ten != tenant then some .capTenant
  else if c.kind != kind || need &&& ~~~c.perms != 0 then some .capPerm
  else if 24 < c.e ∨ addr < c.base ∨ c.top < addr + size then some .capBound
  else if addr % align ≠ 0 then some .align
  else none

/-- CapCheck and WindowCheck of a thread's access (R17, R20). -/
def capCheck (c : Cap) (addr size : Nat) (need : BitVec 6) (kind : BitVec 3) (align : Nat) : Eff Unit := do
  let s ← gets id
  match capFault s.cc.tenant c addr size need kind align with
  | some f => trapWith f (BitVec.ofNat 64 addr)
  | none =>
      if kind = kindBridle then pure ()
      else match s.windowFault s.agent addr size with
        | some f => trapWith f (BitVec.ofNat 64 addr)
        | none => pure ()

/-- The home of a checked access of the current thread, with the faults of translation (R394). -/
def home (addr : Nat) (a : Acc) : Eff Tgt := fun s =>
  match s.resolve s.agent addr a with
  | .ok (t, s1) => .ok (t, s1)
  | .error .stage1 => .error (.trap .page (BitVec.ofNat 64 addr))
  | .error (.stage2 ipa k) => .error (.held s.cc.tenant ipa k)

/-- Bytes read by the current thread. -/
def fetchBytes (t : Tgt) (n : Nat) : Eff (List Byte) := gets (fun s => s.readAt s.cc.tenant t n)

/-- Bytes written by the current thread; kind is the trace record's (R270). -/
def storeBytes (t : Tgt) (bs : List Byte) (kind : Nat) : Eff Unit := mods (fun s => s.writeAt s.agent t bs kind)

/-! ## Interrupts (R367, R397) -/

/-- Raises a vector through a function: held where the last message is younger than MODER. The vector is that function's from then
on. -/
def State.raise (s : State) (fn vec : Nat) : State :=
  let spacing := (s.func fn).moder.toNat * 800
  match s.vecs.find? (fun v => v.vec == vec) with
  | some v =>
      if v.held || s.cycle < v.last + spacing then
        { s with vecs := s.vecs.map (fun x => if x.vec = vec then { x with held := true, fn := fn } else x) }
      else { s with vecs := s.vecs.map (fun x => if x.vec = vec then { x with last := s.cycle, fn := fn } else x)
                    out := .irq fn vec :: s.out }
  | none => { s with vecs := { vec := vec, fn := fn, last := s.cycle, held := false } :: s.vecs, out := .irq fn vec :: s.out }

/-- Whether an access is held (R394). -/
def State.holds (s : State) (w : Holder) : Bool := s.xfaults.any (·.who == w)

/-- Records a stage-2 fault in the tenant's ring (R394), and the access it holds, where it is one that is held. -/
def State.logFault (s : State) (t : BitVec 6) (ipa kind : Nat) (who : Option Holder) : State :=
  let s1 := match who with
    | some w => { s with xfaults := { tenant := t, ipa := ipa, who := w } :: s.xfaults }
    | none => s
  match s1.part? t.toNat with
  | none => s1
  | some p =>
      let s2 := s1.poke (p.xflog + 32 * (p.xcount % 128)) (xflogWords t ipa kind s.cycle)
      (s2.modPart t.toNat (fun q => { q with xcount := q.xcount + 1 })).raise 0 p.xvec

/-! ## Ending an instruction -/

/-- A thread's instruction of len bytes, its prefix not counted, has retired. -/
def Thread.retired (t : Thread) (len : Nat) : Thread :=
  { t with
    pc := t.pc + BitVec.ofNat 48 (len + if t.pfx.isSome then 4 else 0)
    pfx := none, wait := .none, undo := [], state := t.active }

/-- Retires the current instruction with control passed to an address (R113). -/
def retireTo (pc : Addr) : Eff Unit := modTh (fun t => { t.retired 0 with pc := pc })

/-- What a stop leaves: the state before the instruction, with the trap taken or the thread waiting. -/
def Stop.finish (s : State) : Stop → Res
  | .trap c v => .next (s.trapSync c v s.th.pc)
  | .deferred addr pc =>
      .next ((s.setTh { s.th with dfr := [] }).trapSync .defer (addr.zeroExtend 64) pc)
  | .park st w => .next (s.parkTh st w)
  | .held t ipa k => .next ((s.logFault t ipa k (some (.thread s.cur.core s.cur.slot))).parkTh .parkXl .reissue)

/-- Runs a meaning. -/
def Eff.go (m : Eff Unit) (s : State) : Res :=
  match m s with
  | .ok (_, t) => .next t
  | .error x => x.finish s

/-- The return from a trap (R177). -/
def Thread.trapReturn (t : Thread) : Thread :=
  { t with
    tstatus := tstatusOf t.ptie t.ptie t.pprv t.pprv
    pcc := t.epcc, pc := (t.tepc.extractLsb' 2 46) ++ 0#2, wait := .none, pfx := none
    state := if t.pprv then .handler else .ready }

end Sys2Proof.Machine
end

