-- ==== Sys2Proof/Machine/Flags.lean ====
section
/-! DEFINITION. Number formats, flags and rounding (R24, R95, R96, R102-R105, R238, R239, R242, R243, R245). Real values are exact:
a sign, a magnitude and a power of two, and whether something below the magnitude's last bit was cut off. -/

namespace Sys2Proof.Machine

/-! ## Flags (R24, R245) -/

/-- The flags at FPCSR bits 8:3: AL, NV, DZ, OF, UF and NX, from bit 5 down. -/
abbrev Fl := BitVec 6

def flNX : Fl := 0b000001
def flUF : Fl := 0b000010
def flOF : Fl := 0b000100
def flDZ : Fl := 0b001000
def flNV : Fl := 0b010000
def flAL : Fl := 0b100000

/-- FPCSR or CFLAGS with flags merged (R24, R34). -/
def withFlags (r : BitVec 9) (f : Fl) : BitVec 9 := r ||| (f ++ 0#3)

/-- FPCSR.RM (R24). -/
def Thread.rm (t : Thread) : BitVec 3 := t.fpcsr.extractLsb' 0 3

/-- Flags of a scalar instruction, ORed into FPCSR and CFLAGS (R96). They reach CFLAGS at once, of the 8 cycles of R246: DESIGN CHOICE
(entry 108). -/
def raiseFlags (f : Fl) : Eff Unit := do
  modTh (fun t => { t with fpcsr := withFlags t.fpcsr f })
  modCcl (fun c => { c with cflags := withFlags c.cflags f })

/-- The mode of arithmetic, which reads SR as RNE (R24, R96). -/
def arithMode (rm : BitVec 3) : BitVec 3 := if rm = 5 then 0 else rm

/-! ## Formats (R238) -/

/-- A floating format: width, exponent bits, fraction bits, and whether the top exponent is finite (E4M3). -/
structure Fmt where
  w   : Nat
  eb  : Nat
  m   : Nat
  fin : Bool
  deriving DecidableEq, Repr

def fp64 : Fmt := { w := 64, eb := 11, m := 52, fin := false }
def fp32 : Fmt := { w := 32, eb := 8, m := 23, fin := false }
def bf16 : Fmt := { w := 16, eb := 8, m := 7, fin := false }
def fp16 : Fmt := { w := 16, eb := 5, m := 10, fin := false }
def e5m2 : Fmt := { w := 8, eb := 5, m := 2, fin := false }
def e4m3 : Fmt := { w := 8, eb := 4, m := 3, fin := true }

def Fmt.bias (f : Fmt) : Nat := 2 ^ (f.eb - 1) - 1
def Fmt.emax (f : Fmt) : Nat := 2 ^ f.eb - 1
/-- The exponent of the last bit of a subnormal. -/
def Fmt.elow (f : Fmt) : Int := 1 - (f.bias : Int) - (f.m : Int)
/-- The pattern of the largest finite magnitude, of infinity and of the canonical NaN. -/
def Fmt.maxBits (f : Fmt) : Nat := if f.fin then f.emax * 2 ^ f.m + 2 ^ f.m - 2 else f.emax * 2 ^ f.m - 1
def Fmt.infBits (f : Fmt) : Nat := f.emax * 2 ^ f.m
def Fmt.nanBits (f : Fmt) : Nat := if f.fin then f.emax * 2 ^ f.m + 2 ^ f.m - 1 else f.emax * 2 ^ f.m + 2 ^ (f.m - 1)
def Fmt.signBit (f : Fmt) : Nat := 2 ^ (f.w - 1)
def Fmt.signed (f : Fmt) (neg : Bool) (mag : Nat) : Nat := if neg then mag + f.signBit else mag

end Sys2Proof.Machine

namespace Sys2Proof

/-- The format of a floating lane type (R63). -/
def LaneTy.fmt : LaneTy → Option Machine.Fmt
  | .f64 => some Machine.fp64 | .f32 => some Machine.fp32 | .bf16 => some Machine.bf16 | .f16 => some Machine.fp16 | .e4m3 => some Machine.e4m3 | .e5m2 => some Machine.e5m2
  | .i8 | .u8 | .i16 | .u16 | .i32 | .u32 | .i64 | .u64 => none

def FTy.fmt : FTy → Machine.Fmt
  | .d => Machine.fp64
  | .s => Machine.fp32

end Sys2Proof

namespace Sys2Proof.Machine

/-- A floating value: a NaN, an infinity, or m times 2^e with a sign. -/
inductive Fv where
  | nan (sig : Bool)
  | inf (neg : Bool)
  | fin (neg : Bool) (m : Nat) (e : Int)
  deriving DecidableEq, Repr

/-- The value of a pattern (R238). -/
def Fmt.decode (f : Fmt) (bits : Nat) : Fv :=
  let neg := bits / f.signBit % 2 == 1
  let e := bits / 2 ^ f.m % 2 ^ f.eb
  let fr := bits % 2 ^ f.m
  if e = f.emax ∧ !f.fin then
    if fr = 0 then .inf neg else .nan (fr / 2 ^ (f.m - 1) % 2 == 0)
  else if f.fin ∧ e = f.emax ∧ fr = 2 ^ f.m - 1 then .nan false
  else if e = 0 then .fin neg fr f.elow
  else .fin neg (fr + 2 ^ f.m) (f.elow + e - 1)

/-- The class of R102: the number of the bit that is set. -/
def Fmt.classBit (f : Fmt) (bits : Nat) : Nat :=
  match f.decode bits with
  | .inf true => 0
  | .inf false => 7
  | .nan true => 8
  | .nan false => 9
  | .fin neg m _ =>
      if m = 0 then (if neg then 3 else 4) else if m < 2 ^ f.m then (if neg then 2 else 5) else (if neg then 1 else 6)

/-! ## Rounding (R242, R104) -/

/-- A result: its bits and its flags. -/
structure Fr where
  bits : Nat
  fl   : Fl
  deriving DecidableEq, Repr

/-- An exact magnitude m times 2^e, or, where st is set, a magnitude strictly between that and (m + 1) times 2^e. -/
structure Mag where
  m  : Nat
  e  : Int
  st : Bool
  deriving DecidableEq, Repr

/-- The magnitude in units of 2^q: the whole units, the discarded part as num of den, and whether more was cut off below it. -/
def Mag.units (x : Mag) (q : Int) : Nat × Nat × Nat × Bool :=
  let k := q - x.e
  if k ≤ 0 then (x.m * 2 ^ (-k).toNat, 0, 1, x.st)
  else if (Nat.log2 x.m + 24 : Int) < k then (0, if x.m = 0 then 0 else 1, 2 ^ 24, x.st || x.m != 0)
  else (x.m / 2 ^ k.toNat, x.m % 2 ^ k.toNat, 2 ^ k.toNat, x.st)

/-- Whether the next larger magnitude is chosen (R242). odd says that the smaller one's last bit is 1; r is the draw of SR. -/
def roundUp (rm : BitVec 3) (neg odd : Bool) (num den : Nat) (st : Bool) (r : Nat) : Bool :=
  if num = 0 ∧ !st then false
  else
    let above := decide (den < 2 * num) || (decide (2 * num = den) && st)
    let tie := decide (2 * num = den) && !st
    if rm = 1 then false
    else if rm = 2 then !neg
    else if rm = 3 then neg
    else if rm = 4 then above || tie
    else if rm = 5 then decide (r < num * 2 ^ 16 / den)
    else above || (tie && odd)

/-- The magnitude in units of 2^q rounded to a whole number, and whether it is inexact. -/
def Mag.roundAt (x : Mag) (rm : BitVec 3) (neg : Bool) (r : Nat) (q : Int) : Nat × Bool :=
  let (u, num, den, st) := x.units q
  (if roundUp rm neg (u % 2 == 1) num den st r then u + 1 else u, num != 0 || st)

/-- The result of an overflow (R104). -/
def Fmt.overflow (f : Fmt) (rm : BitVec 3) (neg : Bool) : Nat :=
  let big := if f.fin then f.maxBits
    else if rm = 1 ∨ rm = 5 then f.maxBits
    else if rm = 2 then (if neg then f.maxBits else f.infBits)
    else if rm = 3 then (if neg then f.infBits else f.maxBits)
    else f.infBits
  f.signed neg big

/-- Round (R242) with the flags of R96: OF with NX on an overflow, NX where inexact, UF where tiny after rounding and inexact. -/
def Fmt.round (f : Fmt) (rm : BitVec 3) (neg : Bool) (x : Mag) (r : Nat) : Fr :=
  if x.m = 0 ∧ !x.st then { bits := f.signed neg 0, fl := 0 }
  else
    let top : Int := x.e + Nat.log2 x.m
    let q := max (top - f.m) f.elow
    let (u, inexact) := x.roundAt rm neg r q
    let (u, q) := if u = 2 ^ (f.m + 1) then (2 ^ f.m, q + 1) else (u, q)
    let mag : Int := if u < 2 ^ f.m then u else (q - f.elow + 1) * 2 ^ f.m + (u - 2 ^ f.m : Nat)
    if (f.maxBits : Int) < mag then { bits := f.overflow rm neg, fl := flOF ||| flNX }
    else
      let small := top < f.elow + f.m
      let tiny := small && !(decide (top + 1 = f.elow + f.m) && (x.roundAt rm neg r (top - f.m)).1 == 2 ^ (f.m + 1))
      { bits := f.signed neg mag.toNat
        fl := if inexact then (if tiny then flNX ||| flUF else flNX) else 0 }

/-- Round of m times 2^e with nothing cut off and no draw. -/
def Fmt.roundExact (f : Fmt) (rm : BitVec 3) (neg : Bool) (m : Nat) (e : Int) : Fr :=
  f.round rm neg { m := m, e := e, st := false } 0

def Fmt.nanRes (f : Fmt) (fl : Fl) : Fr := { bits := f.nanBits, fl := fl }
def Fmt.infRes (f : Fmt) (neg : Bool) (fl : Fl) : Fr := { bits := f.signed neg f.infBits, fl := fl }
def Fmt.zeroRes (f : Fmt) (neg : Bool) : Fr := { bits := f.signed neg 0, fl := 0 }

/-- The sum of two signed magnitudes over a common exponent. -/
def signedAt (neg : Bool) (m : Nat) (e base : Int) : Int :=
  let v : Int := m * 2 ^ (e - base).toNat
  if neg then -v else v

/-- Round of an exact sum of a whole number of units of 2^e; zero gives the sign given. -/
def Fmt.roundInt (f : Fmt) (rm : BitVec 3) (v e : Int) (zeroNeg : Bool) : Fr :=
  if v = 0 then f.zeroRes zeroNeg else f.roundExact rm (decide (v < 0)) v.natAbs e

/-! ## The generator of draws (R243) -/

def srG (jseed : Word) (lcore : Nat) (strm ctr : Word) : Word :=
  let x := jseed ^^^ (BitVec.ofNat 64 lcore * 0x9E3779B97F4A7C15) ^^^ (strm * 0xC2B2AE3D27D4EB4F) ^^^ (ctr * 0x165667B19E3779F9)
  let x := (x ^^^ (x >>> 31)) * 0xBF58476D1CE4E5B9
  let x := (x ^^^ (x >>> 29)) * 0x94D049BB133111EB
  x ^^^ (x >>> 32)

/-- Field k of the draws from a counter value on: four 16-bit fields a draw (R243). -/
def srField (jseed : Word) (lcore : Nat) (strm ctr : Word) (k : Nat) : Nat :=
  ((srG jseed lcore strm (ctr + BitVec.ofNat 64 (k / 4))).extractLsb' (16 * (k % 4)) 16).toNat

/-! ## Conversions (R103-R105) -/

end Sys2Proof.Machine

namespace Sys2Proof

/-- The exact value of a source element. -/
def LaneTy.value (t : LaneTy) (bits : Nat) : Machine.Fv :=
  match t.fmt with
  | some f => f.decode bits
  | none =>
      let w := t.width
      if t.isSigned && bits / 2 ^ (w - 1) % 2 == 1 then .fin true (2 ^ w - bits % 2 ^ w) 0 else .fin false (bits % 2 ^ w) 0

/-- The bounds of an integer type. -/
def LaneTy.lo (t : LaneTy) : Int := if t.isSigned then -(2 ^ (t.width - 1) : Nat) else 0
def LaneTy.hi (t : LaneTy) : Int := if t.isSigned then (2 ^ (t.width - 1) : Nat) - 1 else (2 ^ t.width : Nat) - 1

end Sys2Proof

namespace Sys2Proof.Machine

/-- An integer as w bits. -/
def intBits (w : Nat) (v : Int) : Nat := (v % (2 ^ w : Nat)).toNat

/-- One element converted (R104): d from s, in a mode, with the draw of SR. -/
def convert (d s : LaneTy) (rm : BitVec 3) (r : Nat) (bits : Nat) : Fr :=
  match d.fmt with
  | some f =>
      match s.value bits with
      | .nan sig => f.nanRes (if sig then flNV else 0)
      | .inf neg => if f.fin then { bits := f.nanBits, fl := flNV } else f.infRes neg 0
      | .fin neg m e => f.round rm neg { m := m, e := e, st := false } r
  | none =>
      match s.value bits with
      | .nan _ => { bits := 0, fl := flNV }
      | .inf neg => { bits := intBits d.width (if neg then d.lo else d.hi), fl := flNV }
      | .fin neg m e =>
          let (u, inexact) := ({ m := m, e := e, st := false } : Mag).roundAt rm neg r 0
          let v : Int := if neg then -u else u
          if v < d.lo then { bits := intBits d.width d.lo, fl := flNV }
          else if d.hi < v then { bits := intBits d.width d.hi, fl := flNV }
          else { bits := intBits d.width v, fl := if inexact then flNX else 0 }

end Sys2Proof.Machine
end

