-- ==== Sys2Proof/Machine/Float.lean ====
section
/-! DEFINITION. Floating arithmetic on patterns of one format (R97-R101, R191, R198, R248-R253). -/

namespace Sys2Proof.Machine

/-- NV where an operand is a signalling NaN. -/
def Fv.sigFl : Fv → Fl
  | .nan true => flNV
  | _ => 0

def Fv.isNan : Fv → Bool
  | .nan _ => true
  | _ => false

/-- Round of x + y, exact operands (R96, R97). -/
def Fmt.addV (f : Fmt) (rm : BitVec 3) (x y : Fv) : Fr :=
  match x, y with
  | .nan _, _ | _, .nan _ => f.nanRes (x.sigFl ||| y.sigFl)
  | .inf a, .inf b => if a = b then f.infRes a 0 else f.nanRes flNV
  | .inf a, _ => f.infRes a 0
  | _, .inf b => f.infRes b 0
  | .fin n1 m1 e1, .fin n2 m2 e2 =>
      let e := min e1 e2
      let zeroNeg := if m1 = 0 ∧ m2 = 0 ∧ n1 = n2 then n1 else rm == 3
      f.roundInt rm (signedAt n1 m1 e1 e + signedAt n2 m2 e2 e) e zeroNeg

def Fv.negate : Fv → Fv
  | .nan s => .nan s
  | .inf n => .inf !n
  | .fin n m e => .fin (!n) m e

/-- The exact product; none is 0 times infinity. -/
def Fv.mul (x y : Fv) : Option Fv :=
  match x, y with
  | .nan a, .nan b => some (.nan (a || b))
  | .nan a, _ => some (.nan a)
  | _, .nan b => some (.nan b)
  | .inf a, .inf b => some (.inf (a != b))
  | .inf a, .fin b m _ => if m = 0 then none else some (.inf (a != b))
  | .fin a m _, .inf b => if m = 0 then none else some (.inf (a != b))
  | .fin a m1 e1, .fin b m2 e2 => some (.fin (a != b) (m1 * m2) (e1 + e2))

def Fmt.add (f : Fmt) (rm : BitVec 3) (x y : Nat) : Fr := f.addV rm (f.decode x) (f.decode y)
def Fmt.sub (f : Fmt) (rm : BitVec 3) (x y : Nat) : Fr := f.addV rm (f.decode x) (f.decode y).negate

def Fmt.mul (f : Fmt) (rm : BitVec 3) (x y : Nat) : Fr :=
  match (f.decode x).mul (f.decode y) with
  | none => f.nanRes flNV
  | some (.nan s) => f.nanRes (if s then flNV else 0)
  | some (.inf n) => f.infRes n 0
  | some (.fin n m e) => f.roundExact rm n m e

/-- Round of a times b plus c (R98), with operands of one format and the result in another. -/
def Fmt.fmaV (f : Fmt) (rm : BitVec 3) (a b c : Fv) : Fr :=
  match a.mul b with
  | none => f.nanRes flNV
  | some p => let r := f.addV rm p c; { r with fl := r.fl ||| a.sigFl ||| b.sigFl }

def Fmt.fma (f : Fmt) (rm : BitVec 3) (a b c : Nat) : Fr := f.fmaV rm (f.decode a) (f.decode b) (f.decode c)

/-- m1 over m2 in units of 2^-160. -/
def quot (m1 m2 : Nat) (e : Int) : Mag := { m := m1 * 2 ^ 160 / m2, e := e - 160, st := m1 * 2 ^ 160 % m2 != 0 }

def Fmt.div (f : Fmt) (rm : BitVec 3) (x y : Nat) : Fr :=
  let a := f.decode x
  let b := f.decode y
  match a, b with
  | .nan _, _ | _, .nan _ => f.nanRes (a.sigFl ||| b.sigFl)
  | .inf _, .inf _ => f.nanRes flNV
  | .inf n, .fin k _ _ => f.infRes (n != k) 0
  | .fin n _ _, .inf k => f.zeroRes (n != k)
  | .fin n m1 e1, .fin k m2 e2 =>
      if m2 = 0 then (if m1 = 0 then f.nanRes flNV else f.infRes (n != k) flDZ)
      else f.round rm (n != k) (quot m1 m2 (e1 - e2)) 0

/-- The whole square root, bit by bit. -/
def isqrtFrom (x : Nat) : Nat → Nat → Nat
  | 0, r => r
  | i + 1, r => isqrtFrom x i (if (r + 2 ^ i) * (r + 2 ^ i) ≤ x then r + 2 ^ i else r)

def isqrt (x : Nat) : Nat := isqrtFrom x (Nat.log2 x / 2 + 1) 0

/-- The square root of m times 2^e. -/
def rootMag (m : Nat) (e : Int) : Mag :=
  let m := if e % 2 = 0 then m else 2 * m
  let e := if e % 2 = 0 then e else e - 1
  let x := m * 2 ^ 240
  { m := isqrt x, e := e / 2 - 120, st := isqrt x * isqrt x != x }

def Fmt.sqrt (f : Fmt) (rm : BitVec 3) (x : Nat) : Fr :=
  match f.decode x with
  | .nan s => f.nanRes (if s then flNV else 0)
  | .inf true => f.nanRes flNV
  | .inf false => f.infRes false 0
  | .fin n m e => if m = 0 then f.zeroRes n else if n then f.nanRes flNV else f.round rm false (rootMag m e) 0

/-- Whether one value is less than another; -0 is less than +0 (R99). -/
def Fmt.below (f : Fmt) (x y : Nat) : Bool :=
  let nx := x / f.signBit % 2 == 1
  let ny := y / f.signBit % 2 == 1
  let mx := x % f.signBit
  let my := y % f.signBit
  match nx, ny with
  | true, false => true
  | false, true => false
  | false, false => decide (mx < my)
  | true, true => decide (my < mx)

/-- fmin and fmax (R99). -/
def Fmt.pick (f : Fmt) (larger : Bool) (x y : Nat) : Fr :=
  let a := f.decode x
  let b := f.decode y
  let fl := a.sigFl ||| b.sigFl
  if a.isNan && b.isNan then f.nanRes fl
  else if a.isNan then { bits := y % 2 ^ f.w, fl := fl }
  else if b.isNan then { bits := x % 2 ^ f.w, fl := fl }
  else { bits := (if f.below x y != larger then x else y) % 2 ^ f.w, fl := fl }

/-- The relations of R101 and R193 between two patterns: less, equal, or unordered. -/
inductive FRel where
  | lt | eq | gt | un
  deriving DecidableEq, Repr

def Fmt.rel (f : Fmt) (x y : Nat) : FRel :=
  if (f.decode x).isNan || (f.decode y).isNan then .un
  else if x % f.signBit = 0 ∧ y % f.signBit = 0 then .eq
  else if x % 2 ^ f.w = y % 2 ^ f.w then .eq
  else if f.below x y then .lt else .gt

/-- NV of a comparison: for any NaN, or for a signalling one only. -/
def Fmt.relFl (f : Fmt) (any : Bool) (x y : Nat) : Fl :=
  let a := f.decode x
  let b := f.decode y
  if any && (a.isNan || b.isNan) then flNV else a.sigFl ||| b.sigFl

/-- fsgn: the sign bit of the second operand on the first (R100). -/
def Fmt.withSign (f : Fmt) (x y : Nat) : Nat := x % f.signBit + y / f.signBit % 2 * f.signBit

/-- vsclb: a times 2^e (R191). -/
def Fmt.scale (f : Fmt) (rm : BitVec 3) (x : Nat) (k : Int) : Fr :=
  match f.decode x with
  | .nan s => f.nanRes (if s then flNV else 0)
  | .inf n => f.infRes n 0
  | .fin n m e => if m = 0 then f.zeroRes n else f.roundExact rm n m (e + k)

/-! ## Elementary functions (R198) -/

def Fmt.rcp (f : Fmt) (rm : BitVec 3) (x : Nat) : Fr :=
  match f.decode x with
  | .nan s => f.nanRes (if s then flNV else 0)
  | .inf n => f.zeroRes n
  | .fin n m e => if m = 0 then f.infRes n flDZ else f.round rm n (quot 1 m (-e)) 0

def Fmt.rsq (f : Fmt) (rm : BitVec 3) (x : Nat) : Fr :=
  match f.decode x with
  | .nan s => f.nanRes (if s then flNV else 0)
  | .inf true => f.nanRes flNV
  | .inf false => f.zeroRes false
  | .fin n m e =>
      if m = 0 then f.infRes n flDZ
      else if n then f.nanRes flNV
      else
        let m := if e % 2 = 0 then m else 2 * m
        let e := if e % 2 = 0 then e else e - 1
        let r := isqrt (2 ^ 480 / m)
        f.round rm false { m := r, e := -(e / 2) - 240, st := r * r * m != 2 ^ 480 } 0

/-- The working precision of the series, in bits after the point, and a bound on what their truncations lose. -/
def serBits : Nat := 288
def serErr : Nat := 2 ^ 16

/-- The sum of z^(2k+1) / (2k+1) from a term on, z and the term in units of 2^-288: the series of the inverse hyperbolic tangent. -/
def atanhFrom (z2 : Nat) : Nat → Nat → Nat → Nat
  | 0, _, _ => 0
  | n + 1, k, t => t / (2 * k + 1) + atanhFrom z2 n (k + 1) (t * z2 / 2 ^ serBits)

/-- The natural logarithm of num over den, between 1 and 2, in units of 2^-288, from below. -/
def lnFixed (num den : Nat) : Nat :=
  let z := (num - den) * 2 ^ serBits / (num + den)
  2 * atanhFrom (z * z / 2 ^ serBits) 110 0 z

/-- The sum of y^n / n! from a term on. -/
def expFrom (y : Nat) : Nat → Nat → Nat → Nat
  | 0, _, _ => 0
  | n + 1, k, t => t + expFrom y n (k + 1) (t * y / 2 ^ serBits / (k + 1))

/-- 2^x for x between 0 and 1 in units of 2^-288, from below. -/
def exp2Fixed (x : Nat) : Nat := expFrom (x * lnFixed 2 1 / 2 ^ serBits) 90 0 (2 ^ serBits)

/-- The whole units of a value from a test of N units lying below it, with lo below it: n halvings of the span of 2^n units. -/
def unitsBelow (below : Nat → Bool) : Nat → Nat → Nat
  | 0, lo => lo
  | n + 1, lo => unitsBelow below n (if below (lo + 2 ^ n) then lo + 2 ^ n else lo)

/-- Round of an irrational magnitude that lies between lo and hi units of 2^e. Where the two ends round apart, its whole units are found by
comparing it exactly: below N says that N units lie below it. -/
def Fmt.roundBetween (f : Fmt) (rm : BitVec 3) (neg : Bool) (lo hi : Nat) (e : Int) (below : Nat → Bool) : Fr :=
  let a := f.round rm neg { m := lo, e := e, st := true } 0
  let b := f.round rm neg { m := hi - 1, e := e, st := true } 0
  if a = b then a else f.round rm neg { m := unitsBelow below (Nat.log2 (hi - lo) + 1) lo, e := e, st := true } 0

/-- 2^x. N units of 2^-288 lie below 2^(r / 2^k) exactly when N^(2^k) < 2^(288 2^k + r). -/
def Fmt.exp2 (f : Fmt) (rm : BitVec 3) (x : Nat) : Fr :=
  match f.decode x with
  | .nan s => f.nanRes (if s then flNV else 0)
  | .inf true => f.zeroRes false
  | .inf false => f.infRes false 0
  | .fin neg m e =>
      if m = 0 then f.roundExact rm false 1 0
      else if 0 ≤ e ∨ m % 2 ^ (-e).toNat = 0 then
        let n : Int := if 0 ≤ e then m * 2 ^ e.toNat else (m / 2 ^ (-e).toNat : Nat)
        f.roundExact rm false 1 (if neg then -n else n)
      else
        let k := (-e).toNat
        let v : Int := if neg then -m else m
        let n := v.fdiv (2 ^ k : Nat)
        let r := (v - n * (2 ^ k : Nat)).toNat
        let lo := exp2Fixed (r * 2 ^ serBits / 2 ^ k)
        f.roundBetween rm false lo (min (lo + serErr) (2 ^ (serBits + 1))) (n - serBits)
          (fun u => decide (u ^ (2 ^ k) < 2 ^ (serBits * 2 ^ k + r)))

/-- The base-2 logarithm. N units of 2^-288 lie below that of m 2^e, above 0, exactly when 2^N < (m 2^e)^(2^288), and below its magnitude,
under 0, exactly when (m 2^e)^(2^288) < 2^-N. -/
def Fmt.log2 (f : Fmt) (rm : BitVec 3) (x : Nat) : Fr :=
  match f.decode x with
  | .nan s => f.nanRes (if s then flNV else 0)
  | .inf true => f.nanRes flNV
  | .inf false => f.infRes false 0
  | .fin neg m e =>
      if m = 0 then f.infRes true flDZ
      else if neg then f.nanRes flNV
      else
        let l := Nat.log2 m
        let n : Int := e + l
        if m = 2 ^ l then f.roundInt rm n 0 false
        else
          let lo : Int := n * (2 ^ serBits : Nat) + (lnFixed m (2 ^ l) * 2 ^ serBits / (lnFixed 2 1 + serErr) : Nat)
          let hi : Int := n * (2 ^ serBits : Nat) + ((lnFixed m (2 ^ l) + serErr) * 2 ^ serBits / lnFixed 2 1 + 1 : Nat)
          let p := 2 ^ serBits
          if 0 ≤ lo then f.roundBetween rm false lo.toNat hi.toNat (-serBits)
            (fun u => decide (2 ^ (u + (-e).toNat * p) < m ^ p * 2 ^ (e.toNat * p)))
          else f.roundBetween rm true (-hi).toNat (-lo).toNat (-serBits)
            (fun u => decide (m ^ p * 2 ^ (u + e.toNat * p) < 2 ^ ((-e).toNat * p)))

/-! ## Sums of the matrix engine (R247-R249) -/

/-- The sign of a zero sum: negative where every term is a negative zero; positive where every term is a positive zero; else negative under RDN. -/
def zeroSign (rm : BitVec 3) (terms : List (Bool × Nat)) : Bool :=
  if terms.all (fun t => t.1 && t.2 == 0) then true
  else if terms.all (fun t => !t.1 && t.2 == 0) then false
  else rm == 3

/-- The finite terms: sign, magnitude and exponent. -/
def Fv.terms : List Fv → List (Bool × Nat × Int)
  | [] => []
  | .fin n m e :: r => (n, m, e) :: Fv.terms r
  | _ :: r => Fv.terms r

/-- The special values of GroupSum and NQ4Sum: a NaN, an invalid product, both infinities, or one (R248). -/
def sumSpecial (f : Fmt) (c : Fv) (ps : List (Option Fv)) : Option Fr :=
  let ts := c :: ps.filterMap id
  let sig := ts.any (· == .nan true)
  let bad := ps.any (· == none)
  let pos := ts.contains (.inf false)
  let neg := ts.contains (.inf true)
  if bad || ts.any Fv.isNan || (pos && neg) then some (f.nanRes (if sig || bad || (pos && neg) then flNV else 0))
  else if pos then some (f.infRes false 0)
  else if neg then some (f.infRes true 0)
  else none

/-- The highest bit of the nonzero terms. -/
def topOf : List (Bool × Nat × Int) → Option Int
  | [] => none
  | (_, m, e) :: r =>
      let rest := topOf r
      if m = 0 then rest
      else match rest with
        | none => some (e + Nat.log2 m)
        | some t => some (max t (e + Nat.log2 m))

/-- A term cut toward zero to whole units of 2^q: its sign, its units, and whether bits were lost. -/
def cutAt (q : Int) (t : Bool × Nat × Int) : Bool × Nat × Bool :=
  let (n, m, e) := t
  if q ≤ e then (n, m * 2 ^ (e - q).toNat, false)
  else if (Nat.log2 m : Int) < q - e then (n, 0, m != 0)
  else (n, m / 2 ^ (q - e).toNat, m % 2 ^ (q - e).toNat != 0)

def sumUnits (l : List (Bool × Nat × Bool)) : Int :=
  l.foldl (fun a t => if t.1 then a - (t.2.1 : Int) else a + (t.2.1 : Int)) 0

/-- GroupSum (R248): the accumulator and the exact products. -/
def groupSum (rm : BitVec 3) (c : Fv) (ps : List (Option Fv)) : Fr :=
  match sumSpecial fp32 c ps with
  | some r => r
  | none =>
      let ts := Fv.terms (c :: ps.filterMap id)
      match topOf ts with
      | none => fp32.zeroRes (zeroSign rm (ts.map (fun t => (t.1, t.2.1))))
      | some top =>
          let q := top - 55
          let cut := ts.map (cutAt q)
          let lost : Fl := if cut.any (·.2.2) then flAL ||| flNX else 0
          let s := sumUnits cut
          let r := fp32.roundInt (arithMode rm) s q (zeroSign rm (cut.map (fun t => (t.1, t.2.1))))
          { r with fl := r.fl ||| lost }

/-- The exact sum of terms over their lowest exponent. -/
def exactSum (ts : List (Bool × Nat × Int)) : Int × Int :=
  let e := ts.foldl (fun a t => min a t.2.2) 0
  (ts.foldl (fun a t => a + signedAt t.1 t.2.1 t.2.2 e) 0, e)

/-- An exact sum of terms rounded once to FP32 (R249). -/
def nq4Sum (rm : BitVec 3) (c : Fv) (ps : List (Option Fv)) : Fr :=
  match sumSpecial fp32 c ps with
  | some r => r
  | none =>
      let ts := Fv.terms (c :: ps.filterMap id)
      let (v, e) := exactSum ts
      fp32.roundInt (arithMode rm) v e (zeroSign rm (ts.map (fun t => (t.1, t.2.1))))

end Sys2Proof.Machine
end

