-- ==== Sys2Proof/Machine/Operands.lean ====
section
/-! DEFINITION. Operand forms: reading and writing registers and queues, and the retirement of an instruction (R10, R14, R54-R58,
R83, R123, R124, R134-R137, R163, R286). -/

namespace Sys2Proof.Machine

/-! ## Registers of outstanding relaxed accesses (R123, R124) -/

/-- Whether a relaxed access has register g r as its destination. g0 is no destination. -/
def RelAcc.setsG (x : RelAcc) (r : BitVec 5) : Bool :=
  r != 0 && x.reg == r.zeroExtend 6 && (x.op == .ld || x.op == .amo || x.op == .cas)

/-- Whether a relaxed access has capability register i as its destination. -/
def RelAcc.setsA (x : RelAcc) (i : BitVec 4) : Bool := x.op == .ldc && x.reg == i.zeroExtend 6

/-- Whether a relaxed stc keeps its capability in register i. -/
def RelAcc.keepsA (x : RelAcc) (i : BitVec 4) : Bool := x.op == .stc && x.reg == i.zeroExtend 6

/-- Where the thread waits for a relaxed access: PARK_XL for one a stage-2 fault holds (R124), WAITMEM otherwise. -/
def RelAcc.waitsIn (x : RelAcc) : TState := if x.stage = .held then .parkXl else .waitMem

/-- The wait for, or the deferred fault of, a relaxed access whose register this instruction names. -/
def hazard (hit : RelAcc → Bool) (dest : Bool × BitVec 6) : Eff Unit := do
  let t ← gets State.th
  match t.rel.find? hit with
  | some x => parkWith x.waitsIn .reissue
  | none =>
      if t.dfr.any (fun d => d.dest == some dest) then
        match t.dfr with
        | d :: _ => stop (.deferred d.addr d.pc)
        | [] => pure ()
      else pure ()

/-- Waits until no relaxed access is outstanding, then delivers the earliest recorded fault (R124, R132). -/
def settle : Eff Unit := do
  let t ← gets State.th
  match t.rel with
  | _ :: _ => parkWith (if t.rel.all (·.stage == .held) then .parkXl else .waitMem) .reissue
  | [] =>
      match t.dfr with
      | d :: _ => stop (.deferred d.addr d.pc)
      | [] => pure ()

/-! ## General and capability registers -/

/-- Register g r, zero for g0 (R10). -/
def Thread.gr (t : Thread) (r : BitVec 5) : Word := if r = 0 then 0 else t.g.get r.toFin

/-- Register g r written; a write of g0 is discarded (R10). -/
def Thread.setG (t : Thread) (r : BitVec 5) (v : Word) : Thread :=
  if r = 0 then t else { t with g := t.g.set r.toNat v r.isLt }

def Thread.ar (t : Thread) (i : BitVec 4) : Cap := t.a.get i.toFin
def Thread.setA (t : Thread) (i : BitVec 4) (c : Cap) : Thread := { t with a := t.a.set i.toNat c i.isLt }
def Thread.vr (t : Thread) (i : BitVec 4) : BitVec 256 := t.v.get i.toFin
def Thread.setV (t : Thread) (i : BitVec 4) (x : BitVec 256) : Thread := { t with v := t.v.set i.toNat x i.isLt }

/-- Mask k i; k0 reads as all ones (R13). -/
def Thread.kr (t : Thread) (i : BitVec 3) : BitVec 32 := if i = 0 then BitVec.allOnes 32 else t.k.get i.toFin
def Thread.setK (t : Thread) (i : BitVec 3) (m : BitVec 32) : Thread :=
  if i = 0 then t else { t with k := t.k.set i.toNat m i.isLt }

/-- Register g r read or about to be written: the hazard of R123. -/
def useG (r : BitVec 5) : Eff Unit := hazard (fun x => x.setsG r) (false, if r = 0 then 63 else r.zeroExtend 6)

def readG (r : BitVec 5) : Eff Word := do
  useG r
  gets (fun s => s.th.gr r)

def writeG (r : BitVec 5) (v : Word) : Eff Unit := do
  useG r
  modTh (fun t => t.setG r v)

/-- Capability register i read, or used for an access. -/
def readA (i : BitVec 4) : Eff Cap := do
  hazard (fun x => x.setsA i) (true, i.zeroExtend 6)
  gets (fun s => s.th.ar i)

/-- Capability register i written. -/
def writeA (i : BitVec 4) (c : Cap) : Eff Unit := do
  hazard (fun x => x.setsA i || x.keepsA i) (true, i.zeroExtend 6)
  modTh (fun t => t.setA i c)

/-! ## Queue registers (R14, R56, R136, R137) -/

/-- The operand code of a queue register, as TVAL holds it. -/
def qCode (i : BitVec 3) : Word := 48 + i.zeroExtend 64

/-- An endpoint of a core: 0 and 1 for q4 and q5, 2 and 3 for q6 and q7. -/
def Core.setEp (c : Core) (i : Fin 4) (f : Ep → Ep) : Core := { c with ep := c.ep.set i.val (f (c.ep.get i)) i.isLt }

/-- The endpoint behind q4 to q7. -/
def epOf (i : BitVec 3) : Fin 4 := ⟨i.toNat % 4, Nat.mod_lt _ (by decide)⟩
/-- The buffer of q4 and q5, or of q6 and q7. -/
def bufOf (i : BitVec 3) : Fin 2 := ⟨i.toNat % 2, Nat.mod_lt _ (by decide)⟩

def pushUndo (i : BitVec 3) (w : Word) : Eff Unit := modTh (fun t => { t with undo := (i, w) :: t.undo })

/-- A pop of a stream queue q0 to q3. -/
def popStream (i : BitVec 3) (h : i.toNat < 4) : Eff Word := do
  let t ← gets State.th
  let q := t.strm.get ⟨i.toNat, h⟩
  if !q.bound then trapWith .qMisuse (qCode i)
  else match q.elems with
    | w :: r => do
        modTh (fun t => { t with strm := t.strm.set i.toNat { q with elems := r } h })
        pushUndo i w
        pure w
    | [] =>
        if q.broken then trapWith .broken (qCode i)
        else if q.closed then trapWith .qMisuse (qCode i)
        else parkWith .waitMem .reissue

/-- How many other threads of the cur core have waited longer than the cur thread for a wait of a kind. -/
def State.aheadIn (s : State) (p : Wait → Bool) : Nat :=
  ((List.finRange 8).filter (fun k =>
    let t := s.cc.th.get k
    k != s.cur.slot && p t.wait && !(p s.th.wait && decide (s.th.parkAt < t.parkAt)))).length

/-- A wait for a slot of an endpoint. -/
def popsFrom (e : Fin 4) : Wait → Bool
  | .popq x => x == e
  | _ => false

/-- A pop of q4 or q5: a slot goes to the thread that parked first (R286). A Tether link's slots are taken by trecv alone (R163). -/
def popChannel (i : BitVec 3) : Eff Word := do
  let s ← gets id
  let b := bufOf i
  let e := epOf i
  let ep := s.cc.ep.get e
  match s.th.rbuf.get b with
  | w :: r => do
      modTh (fun t => { t with rbuf := t.rbuf.set b.val r b.isLt })
      pushUndo i w
      pure w
  | [] =>
      if !ep.bound || ep.tether then trapWith .qMisuse (qCode i)
      else match ep.slots with
        | x :: rest => if rest.length < s.aheadIn (popsFrom e) then parkWith .parkQ (.popq e) else do
            modCc (fun c => c.setEp e (fun p => { p with slots := rest }))
            match slotWords x with
            | w :: r => do
                modTh (fun t => { t with rbuf := t.rbuf.set b.val r b.isLt })
                pushUndo i w
                pure w
            | [] => pure 0
        | [] =>
            if ep.broken then trapWith .broken (qCode i)
            else if ep.closed then trapWith .qMisuse (qCode i)
            else parkWith .parkQ (.popq e)

/-- A queue register as a source. -/
def popQ (i : BitVec 3) : Eff Word :=
  if h : i.toNat < 4 then popStream i h
  else if i = 4 ∨ i = 5 then popChannel i
  else trapWith .qMisuse (qCode i)

/-- A source operand (R54). -/
def readSrc : Src → Eff Word
  | .g r => readG r
  | .const c => pure (c.zeroExtend 64)
  | .lit32 v => pure (v.signExtend 64)
  | .lit64 v => pure v
  | .q i => popQ i

/-- Slots on their way to an endpoint. -/
def State.inFlight (s : State) (core : Nat) (e : BitVec 1) : Nat :=
  (s.net.filter (fun m => match m with | .slot _ d x _ => d == core && x == e | _ => false)).length

/-- The slots a receive endpoint holds, with those it keeps reserved (R286, R373). -/
def Ep.held (p : Ep) : Nat := p.slots.length + p.kept.length

/-- The free slots of the channel of a send endpoint (R286). -/
def State.freeSlots (s : State) (ep : Ep) : Nat :=
  ep.allow - (s.inFlight ep.peer ep.peerEp + ((s.core ep.peer).ep.get ⟨ep.peerEp.toNat, by omega⟩).held)

/-- The threads parked on the fourth word of a channel (R56): core, slot and endpoint, with when they parked. -/
def State.senders (s : State) (peer : Nat) (peerEp : BitVec 1) : List (Nat × Fin 8 × Nat) :=
  s.cores.flatMap (fun (n, c) =>
    (List.finRange 8).filterMap (fun k =>
      match (c.th.get k).wait with
      | .send e _ _ _ =>
          let ep := c.ep.get ⟨2 + e.toNat, by omega⟩
          if ep.peer = peer ∧ ep.peerEp = peerEp then some (n, k, (c.th.get k).parkAt) else none
      | _ => none))

/-- Whether the current thread may put a slot on a channel now: one is free, and no other thread has waited longer (R266, R286). -/
def State.maySend (s : State) (ep : Ep) : Bool :=
  decide (0 < s.freeSlots ep)
  && (s.senders ep.peer ep.peerEp).all (fun (n, k, at_) =>
      (n == s.cur.core && k == s.cur.slot) ||
      (match s.th.wait with | .send _ _ _ _ => decide (s.th.parkAt ≤ at_) | _ => false))

/-- What a write to q6 or q7 asks of its endpoint (R56): it is bound, not broken, not closed, and the first word of a Tether slot is
not written this way (R164). -/
def sendCheck (i : BitVec 3) : Eff Unit := do
  let s ← gets id
  let ep := s.cc.ep.get (epOf i)
  if !ep.bound then trapWith .qMisuse (qCode i)
  else if ep.broken then trapWith .broken (qCode i)
  else demand (!(ep.closed || (ep.tether && (s.th.sbuf.get (bufOf i)).isEmpty))) .qMisuse (qCode i)

/-- A write to q6 or q7: the next word of the thread's send buffer (R56). -/
def pushQ (i : BitVec 3) (v : Word) : Eff Unit := do
  sendCheck i
  modTh (fun t => { t with sbuf := t.sbuf.set (bufOf i).val (t.sbuf.get (bufOf i) ++ [v]) (bufOf i).isLt })

/-- A destination operand (R54). -/
def writeDst (d : Dst) (v : Word) : Eff Unit :=
  match d with
  | .g r => writeG r v
  | .q6 => pushQ 6 v
  | .q7 => pushQ 7 v

/-- What a destination asks for, before an instruction waits for its result. -/
def dstCheck (d : Dst) : Eff Unit :=
  match d with
  | .g _ => pure ()
  | .q6 => sendCheck 6
  | .q7 => sendCheck 7

/-- The flags and the draw an instruction writes as it retires (R24, R96, R105). -/
def writeFx (x : Fx) : Eff Unit := do
  if x.fl = 0 then pure () else raiseFlags x.fl
  if x.draw then modTh (fun t => { t with srctr := t.srctr + 1 }) else pure ()

/-- Retires the current instruction, of len bytes without its prefix. -/
def retire (len : Nat) : Eff Unit := modTh (fun t => t.retired len)

/-- Retires the current instruction with what it writes besides its destination. -/
def retireFx (len : Nat) (x : Fx) : Eff Unit := do
  writeFx x
  retire len

/-- An instruction whose full buffer meets the end of its endpoint traps; keep words stay in the buffer (R56, R136). -/
def State.endOffer (s : State) (b : Fin 2) (keep : Nat) (c : Cause) : State :=
  let t := s.th
  (s.setTh { t with sbuf := t.sbuf.set b.val ((t.sbuf.get b).take keep) b.isLt }).trapSync c (qCode (6 + BitVec.ofNat 3 b.val))
    (t.pc + if t.pfx.isSome then 4 else 0)

/-- The end of an instruction that has written send buffer b (R56, R286): a full buffer is put on its channel where there is room;
else the thread waits in PARK_Q and the instruction has not retired. An endpoint that has ended while the thread was out of its slot
ends the offer. -/
def offer (b : Fin 2) (len : Nat) (x : Fx) (redo : Bool) : Eff Unit := do
  let s ← gets id
  let buf := s.th.sbuf.get b
  let ep := s.cc.ep.get ⟨2 + b.val, by omega⟩
  if buf.length < 4 then retireFx len x
  else if ep.broken then mods (fun s => s.endOffer b 3 .broken)
  else if !ep.bound || ep.closed then mods (fun s => s.endOffer b 0 .qMisuse)
  else if s.maySend ep then do
    modTh (fun t => { t with sbuf := t.sbuf.set b.val [] b.isLt })
    mods (fun s => { s with net := s.net ++ [.slot s.cur.core ep.peer ep.peerEp (slotOf buf)] })
    retireFx len x
  else mods (fun s => s.parkTh .parkQ (.send (BitVec.ofNat 1 b.val) len x redo))

/-- The end of an instruction that has written d. -/
def endDst (d : Dst) (len : Nat) (x : Fx) (redo : Bool) : Eff Unit :=
  match d with
  | .g _ => retireFx len x
  | .q6 => offer 0 len x redo
  | .q7 => offer 1 len x redo

/-- Whether a destination is a send buffer that is full: its instruction has been resumed, its word stands in the buffer, and only the
offer is made again (R56). -/
def Thread.resuming (t : Thread) (d : Dst) : Bool :=
  match d with
  | .g _ => false
  | .q6 => (t.sbuf.get 0).length == 4
  | .q7 => (t.sbuf.get 1).length == 4

/-- The hazard of a destination register. -/
def useDst (d : Dst) : Eff Unit :=
  match d with
  | .g r => useG r
  | .q6 | .q7 => pure ()

/-- An instruction that changes nothing but its destination, its sources' queues and what it writes as it retires: the value of body,
then retirement. Resumed, it takes its sources again; its word is already in the buffer. -/
def withFx (d : Dst) (len : Nat) (body : Eff (Word × Fx)) : Eff Unit := do
  useDst d
  let t ← gets State.th
  let v ← body
  if t.resuming d then pure () else writeDst d v.1
  endDst d len v.2 true

/-- The same without flags or a draw. -/
def withD (d : Dst) (len : Nat) (body : Eff Word) : Eff Unit :=
  withFx d len (do
    let v ← body
    pure (v, Fx.none))

/-- An instruction that changes more than its destination. Resumed, it has had its effect. -/
def withEffect (d : Dst) (len : Nat) (body : Eff (Word × Fx)) : Eff Unit := do
  useDst d
  let t ← gets State.th
  if t.resuming d then endDst d len Fx.none false
  else do
    let v ← body
    writeDst d v.1
    endDst d len v.2 false

def withEff (d : Dst) (len : Nat) (body : Eff Word) : Eff Unit :=
  withEffect d len (do
    let v ← body
    pure (v, Fx.none))

/-- The current thread waits for a result: what its instruction has popped stays popped, and goes back if the wait is withdrawn. -/
def waitIn (st : TState) (w : Wait) : Eff Unit := mods (fun s => s.parkTh st w)

/-- The current thread waits for a result that goes to d. -/
def waitFor (d : Dst) (st : TState) (w : Wait) : Eff Unit := do
  dstCheck d
  waitIn st w

/-- A waiting instruction that writes d: body writes the result itself with finish, or waits. -/
def withWait (d : Dst) (len : Nat) (body : Eff Unit) : Eff Unit := do
  useDst d
  let t ← gets State.th
  if t.resuming d then endDst d len Fx.none false else body

/-- The result of an instruction, and its retirement. -/
def finish (d : Dst) (len : Nat) (v : Word) : Eff Unit := do
  writeDst d v
  endDst d len Fx.none false

/-- Whether the release the current instruction made has missed, and its message has yet to come (R261). -/
def Thread.missOpen (t : Thread) : Bool := match t.miss with | some m => !m.counted | none => false

/-- The end of an instruction that may have released (R261): the message of a miss comes before it retires. -/
def conclude (d : Option Dst) (len : Nat) (v : Word) (x : Fx) : Eff Unit := do
  let t ← gets State.th
  if t.missOpen then waitIn .waitMem (.missed d len v x)
  else match d with
    | some d => do
        writeDst d v
        endDst d len x false
    | none => retireFx len x

/-- Status codes (R118). -/
def stOk : Word := 0
def stBroken : Word := 1
def stTimeout : Word := 2
def stMode : Word := 3
def stFull : Word := 4
def stHole : Word := 5
def stCancelled : Word := 6

/-- Pack (R118). -/
def pack (st : Word) (v : Word) : Word := (st <<< 60) ||| (v &&& 0x0FFFFFFFFFFFFFFF)

/-- A status BROKEN received by a thread is noted for its stage (R289). -/
def noteBroken : Eff Unit := mods (fun s => s.noteFsum s.cur.core 4)

/-- The lengths of an instruction with one or two source operands (R52). -/
def len1 (s : Src) : Nat := 4 + s.litBytes
def len2 (s t : Src) : Nat := 4 + s.litBytes + t.litBytes

/-- The address of the instruction word (R61): after the prefix. -/
def Thread.wordAt (t : Thread) : Addr := t.pc + if t.pfx.isSome then 4 else 0

end Sys2Proof.Machine
end

