-- ==== Sys2Proof/Machine/Integer.lean ====
section
/-! DEFINITION. Integer instructions (R85-R94). -/

namespace Sys2Proof.Machine

/-- Dst(d, f(Src(s), Src(t))). -/
def alu2 (d : Dst) (s t : Src) (f : Word → Word → Word) : Eff Unit :=
  withD d (len2 s t) do
    let a ← readSrc s
    let b ← readSrc t
    pure (f a b)

/-- Dst(d, f(Src(s))). -/
def alu1 (d : Dst) (s : Src) (f : Word → Word) : Eff Unit :=
  withD d (len1 s) do
    let a ← readSrc s
    pure (f a)

/-- An instruction that reads its destination register as a source first: sel, bfi, fma (R83). -/
def alu3 (d : BitVec 5) (s t : Src) (f : Word → Word → Word → Word) : Eff Unit :=
  withD (.g d) (len2 s t) do
    let c ← readG d
    let a ← readSrc s
    let b ← readSrc t
    pure (f c a b)

def bit (p : Bool) : Word := if p then 1 else 0

/-- Logic and arithmetic (R85). -/
def execAdd (d : Dst) (p t : Src) (s : State) : Res := (alu2 d p t (fun a b => a + b)).go s
def execSub (d : Dst) (p t : Src) (s : State) : Res := (alu2 d p t (fun a b => a - b)).go s
def execAnd (d : Dst) (p t : Src) (s : State) : Res := (alu2 d p t (fun a b => a &&& b)).go s
def execOr (d : Dst) (p t : Src) (s : State) : Res := (alu2 d p t (fun a b => a ||| b)).go s
def execXor (d : Dst) (p t : Src) (s : State) : Res := (alu2 d p t (fun a b => a ^^^ b)).go s
def execAndn (d : Dst) (p t : Src) (s : State) : Res := (alu2 d p t (fun a b => a &&& ~~~b)).go s
def execOrn (d : Dst) (p t : Src) (s : State) : Res := (alu2 d p t (fun a b => a ||| ~~~b)).go s
def execMin (d : Dst) (p t : Src) (s : State) : Res := (alu2 d p t (fun a b => if a.slt b then a else b)).go s
def execMax (d : Dst) (p t : Src) (s : State) : Res := (alu2 d p t (fun a b => if a.slt b then b else a)).go s
def execMinu (d : Dst) (p t : Src) (s : State) : Res := (alu2 d p t (fun a b => if a.ult b then a else b)).go s
def execMaxu (d : Dst) (p t : Src) (s : State) : Res := (alu2 d p t (fun a b => if a.ult b then b else a)).go s

/-- sel (R86). -/
def execSel (d : BitVec 5) (p t : Src) (s : State) : Res := (alu3 d p t (fun c a b => if c ≠ 0 then a else b)).go s

/-- mov (R87). -/
def execMov (d : Dst) (p : Src) (s : State) : Res := (alu1 d p (fun a => a)).go s

/-- The shift count (R88). -/
def shiftBy (b : Word) : Nat := (b.extractLsb' 0 6).toNat

def execShl (d : Dst) (p t : Src) (s : State) : Res := (alu2 d p t (fun a b => a <<< shiftBy b)).go s
def execShr (d : Dst) (p t : Src) (s : State) : Res := (alu2 d p t (fun a b => a >>> shiftBy b)).go s
def execSar (d : Dst) (p t : Src) (s : State) : Res := (alu2 d p t (fun a b => a.sshiftRight (shiftBy b))).go s
def execRotl (d : Dst) (p t : Src) (s : State) : Res := (alu2 d p t (fun a b => a.rotateLeft (shiftBy b))).go s

/-- Zero bits above the highest one bit among the lowest n (R89). -/
def leadingZeros (a : Word) : Nat → Nat
  | 0 => 0
  | n + 1 => if a.getLsbD n then 0 else leadingZeros a n + 1

/-- Zero bits below the lowest one bit, from bit 64 - n up. -/
def trailingZeros (a : Word) : Nat → Nat
  | 0 => 0
  | n + 1 => if a.getLsbD (63 - n) then 0 else trailingZeros a n + 1

/-- One bits among the lowest n. -/
def onesOf {w : Nat} (a : BitVec w) : Nat → Nat
  | 0 => 0
  | n + 1 => (if a.getLsbD n then 1 else 0) + onesOf a n

def execClz (d : Dst) (p : Src) (s : State) : Res := (alu1 d p (fun a => BitVec.ofNat 64 (leadingZeros a 64))).go s
def execCtz (d : Dst) (p : Src) (s : State) : Res := (alu1 d p (fun a => BitVec.ofNat 64 (trailingZeros a 64))).go s
def execPopc (d : Dst) (p : Src) (s : State) : Res := (alu1 d p (fun a => BitVec.ofNat 64 (onesOf a 64))).go s

/-- Extension (R90). -/
def execSextB (d : Dst) (p : Src) (s : State) : Res := (alu1 d p (fun a => (a.extractLsb' 0 8).signExtend 64)).go s
def execSextH (d : Dst) (p : Src) (s : State) : Res := (alu1 d p (fun a => (a.extractLsb' 0 16).signExtend 64)).go s
def execSextW (d : Dst) (p : Src) (s : State) : Res := (alu1 d p (fun a => (a.extractLsb' 0 32).signExtend 64)).go s
def execZextB (d : Dst) (p : Src) (s : State) : Res := (alu1 d p (fun a => (a.extractLsb' 0 8).zeroExtend 64)).go s
def execZextH (d : Dst) (p : Src) (s : State) : Res := (alu1 d p (fun a => (a.extractLsb' 0 16).zeroExtend 64)).go s
def execZextW (d : Dst) (p : Src) (s : State) : Res := (alu1 d p (fun a => (a.extractLsb' 0 32).zeroExtend 64)).go s

/-- The position and the mask of a field specifier (R91). -/
def fieldPos (spec : Word) : Nat := (spec.extractLsb' 0 6).toNat
def fieldMask (spec : Word) : Word := BitVec.ofNat 64 (2 ^ Nat.min (spec.extractLsb' 8 7).toNat 64 - 1)

def execBfx (d : Dst) (p t : Src) (s : State) : Res :=
  (alu2 d p t (fun a spec => (a >>> fieldPos spec) &&& fieldMask spec)).go s
def execBfi (d : BitVec 5) (p t : Src) (s : State) : Res :=
  (alu3 d p t (fun old v spec =>
    (old &&& ~~~(fieldMask spec <<< fieldPos spec)) ||| ((v &&& fieldMask spec) <<< fieldPos spec))).go s

/-- Multiply (R92). -/
def execMul (d : Dst) (p t : Src) (s : State) : Res := (alu2 d p t (fun a b => a * b)).go s
def execMulh (d : Dst) (p t : Src) (s : State) : Res :=
  (alu2 d p t (fun a b => (a.signExtend 128 * b.signExtend 128).extractLsb' 64 64)).go s
def execMulhu (d : Dst) (p t : Src) (s : State) : Res :=
  (alu2 d p t (fun a b => (a.zeroExtend 128 * b.zeroExtend 128).extractLsb' 64 64)).go s

/-- Divide (R93): the quotient truncated toward zero, all ones for a division by zero; the remainder has the dividend's sign. -/
def divS (a b : Word) : Word := if b = 0 then BitVec.allOnes 64 else a.sdiv b
def divU (a b : Word) : Word := if b = 0 then BitVec.allOnes 64 else a.udiv b
def remS (a b : Word) : Word := if b = 0 then a else a.srem b
def remU (a b : Word) : Word := if b = 0 then a else a.umod b

def execDiv (d : Dst) (p t : Src) (s : State) : Res := (alu2 d p t divS).go s
def execDivu (d : Dst) (p t : Src) (s : State) : Res := (alu2 d p t divU).go s
def execRem (d : Dst) (p t : Src) (s : State) : Res := (alu2 d p t remS).go s
def execRemu (d : Dst) (p t : Src) (s : State) : Res := (alu2 d p t remU).go s

/-- Compare and set (R94). -/
def execSeq (d : Dst) (p t : Src) (s : State) : Res := (alu2 d p t (fun a b => bit (a == b))).go s
def execSne (d : Dst) (p t : Src) (s : State) : Res := (alu2 d p t (fun a b => bit (a != b))).go s
def execSlt (d : Dst) (p t : Src) (s : State) : Res := (alu2 d p t (fun a b => bit (a.slt b))).go s
def execSltu (d : Dst) (p t : Src) (s : State) : Res := (alu2 d p t (fun a b => bit (a.ult b))).go s
def execSle (d : Dst) (p t : Src) (s : State) : Res := (alu2 d p t (fun a b => bit (a.sle b))).go s
def execSleu (d : Dst) (p t : Src) (s : State) : Res := (alu2 d p t (fun a b => bit (a.ule b))).go s

end Sys2Proof.Machine
end

