-- ==== Sys2Proof/Machine/CapOps.lean ====
section
/-! DEFINITION. Capability instructions (R106-R112). -/

namespace Sys2Proof

/-- A capability with its cursor, its bounds, or its permissions replaced (R15). -/
def Cap.withCur (c : Cap) (x : BitVec 48) : Cap := { c with bits := c.bits.extractLsb' 48 80 ++ x }
def Cap.withBounds (c : Cap) (b t : BitVec 24) (e : BitVec 5) : Cap :=
  { c with bits := c.bits.extractLsb' 101 27 ++ e ++ t ++ b ++ c.bits.extractLsb' 0 48 }
def Cap.withPerms (c : Cap) (m : BitVec 6) : Cap :=
  { c with bits := c.bits.extractLsb' 107 21 ++ m ++ c.bits.extractLsb' 0 101 }

/-- A result with non-zero reserved bits has its tag cleared (R106). -/
def Cap.clean (c : Cap) : Cap := { c with tag := c.tag && c.res == 0 }

end Sys2Proof

namespace Sys2Proof.Machine

/-- An instruction that computes a capability from another and an operand. -/
def capOp (d s : BitVec 4) (t : Src) (f : Cap → Word → Eff Cap) : Eff Unit := do
  let c ← readA s
  let b ← readSrc t
  let r ← f c b
  writeA d r.clean
  retire (len1 t)

/-- cadd and cset (R107). -/
def execCadd (d p : BitVec 4) (t : Src) (s : State) : Res :=
  (capOp d p t (fun c b => pure (c.withCur (c.cur + b.extractLsb' 0 48)))).go s
def execCset (d p : BitVec 4) (t : Src) (s : State) : Res :=
  (capOp d p t (fun c b => pure (c.withCur (b.extractLsb' 0 48)))).go s

/-- The exponent cbnd chooses (R108): the first from e up whose top mantissa fits, and 24 where none does. -/
def bndExp (top : Nat) : Nat → Nat → Nat
  | 0, e => e
  | n + 1, e => if (top + 2 ^ e - 1) / 2 ^ e ≤ 0xFFFFFF then e else bndExp top n (e + 1)

/-- The bounds cbnd gives a capability (R108): base, top mantissa and exponent. -/
def setBounds (c : Cap) (len : Nat) : Cap :=
  let base := c.cur.toNat
  let top := base + len
  let e := bndExp top 24 0
  let tm := (top + 2 ^ e - 1) / 2 ^ e
  c.withBounds (BitVec.ofNat 24 (base / 2 ^ e)) (if tm ≤ 0xFFFFFF then BitVec.ofNat 24 tm else 0) (BitVec.ofNat 5 e)

/-- cbnd (R108). -/
def execCbnd (d p : BitVec 4) (t : Src) (s : State) : Res :=
  (capOp d p t (fun c b => do
    let n := setBounds c b.toNat
    let bad := decide (2 ^ 48 < c.cur.toNat + b.toNat ∨ 24 < c.e ∨ c.top < c.base ∨ n.base < c.base ∨ c.top < n.top)
    demand (!(c.tag && bad)) .capBound (c.cur.zeroExtend 64)
    pure n)).go s

/-- cperm (R109): the mask holds R, W, RC, WC, X and A from bit 0 up. -/
def execCperm (d p : BitVec 4) (t : Src) (s : State) : Res :=
  (capOp d p t (fun c b => pure (c.withPerms (c.perms &&& b.extractLsb' 0 6)))).go s

/-- cmov (R110): all 128 bits and the tag; a tag stays only with reserved bits zero (R106). -/
def execCmov (d p : BitVec 4) (s : State) : Res :=
  (do let c ← readA p
      writeA d c.clean
      retire 4 : Eff Unit).go s

/-- An instruction that writes a property of a capability. -/
def capGet (d : Dst) (p : BitVec 4) (f : State → Cap → Word) : Eff Unit :=
  withD d 4 do
    let c ← readA p
    gets (fun s => f s c)

/-- ctag (R111). -/
def execCtag (d : Dst) (p : BitVec 4) (s : State) : Res :=
  (capGet d p (fun s c =>
    bit (c.tag && c.res == 0 && c.ten == s.cc.tenant && decide (c.e ≤ 24 ∧ c.base ≤ c.top)))).go s

/-- cget (R112). -/
def execCgetCur (d : Dst) (p : BitVec 4) (s : State) : Res := (capGet d p (fun _ c => c.cur.zeroExtend 64)).go s
def execCgetBase (d : Dst) (p : BitVec 4) (s : State) : Res := (capGet d p (fun _ c => BitVec.ofNat 64 c.base)).go s
def execCgetTop (d : Dst) (p : BitVec 4) (s : State) : Res := (capGet d p (fun _ c => BitVec.ofNat 64 c.top)).go s
def execCgetLen (d : Dst) (p : BitVec 4) (s : State) : Res := (capGet d p (fun _ c => BitVec.ofNat 64 (c.top - c.base))).go s
def execCgetPerm (d : Dst) (p : BitVec 4) (s : State) : Res := (capGet d p (fun _ c => c.perms.zeroExtend 64)).go s
def execCgetTen (d : Dst) (p : BitVec 4) (s : State) : Res := (capGet d p (fun _ c => c.ten.zeroExtend 64)).go s
def execCgetKind (d : Dst) (p : BitVec 4) (s : State) : Res := (capGet d p (fun _ c => c.kind.zeroExtend 64)).go s
def execCgetTag (d : Dst) (p : BitVec 4) (s : State) : Res := (capGet d p (fun _ c => bit c.tag)).go s

end Sys2Proof.Machine
end

