-- ==== Sys2Proof/Machine/Fetch.lean ====
section
/-! DEFINITION. Instruction fetch and the order of checks (R17, R52, R53, R57, R66-R68), and the choice of the thread that issues (R27,
R157, R280, R281). -/

namespace Sys2Proof.Machine

/-- One word fetched through PCC by the current thread (R17, R57). -/
def fetchWord (a : Addr) : Eff (BitVec 32) := do
  let s ← gets id
  match capFault s.cc.tenant s.th.pcc a.toNat 4 permX kindCode 4 with
  | some f => trapWith f (a.zeroExtend 64)
  | none =>
      match s.windowFault s.agent a.toNat 4 with
      | some f => trapWith f (a.zeroExtend 64)
      | none => do
          let t ← home a.toNat .read
          let bs ← fetchBytes t 4
          pure (BitVec.ofNat 32 (ofBytes bs))

/-- Privilege, then the literal words, of a decoded instruction (R68 steps 4 and 5). -/
def fetchRest (w : BitVec 32) (i : Instr) : Eff Instr := do
  let t ← gets State.th
  demand (!i.sOnly || t.cprv) .priv (w.zeroExtend 64)
  if i.length = 4 then pure i
  else do
    let lo ← fetchWord (t.wordAt + 4)
    let hi ← if i.length = 8 then pure 0 else fetchWord (t.wordAt + 8)
    match decodeWord w (hi ++ lo) with
    | .ok j => pure j
    | .error _ => trapWith .illegal (w.zeroExtend 64)

/-- The instruction the current thread issues next: an ORD prefix, or the instruction word after it with its literal (R68). -/
def fetch : Eff Instr := do
  let t ← gets State.th
  let w ← fetchWord t.wordAt
  match t.pfx with
  | none => do
      if w.extractLsb' 26 6 = 0x3E then do
        let _ ← fetchWord (t.pc + 4)
        pure ()
      else pure ()
      match decodeWord w 0 with
      | .error _ => trapWith .illegal (w.zeroExtend 64)
      | .ok i => fetchRest w i
  | some p =>
      match decodeWord w 0 with
      | .error _ => trapWith .illegal (w.zeroExtend 64)
      | .ok i => do
          demand (legalPair p.order i) .illegal (w.zeroExtend 64)
          fetchRest w i

/-- The TIMER condition at a boundary the thread stands at (R27). -/
def State.timerDue (s : State) (t : Thread) : Bool :=
  t.tie && !t.cprv && t.pfx.isNone && (t.state == .ready) && t.miss.isNone && decide (t.tmcmp.toNat ≤ s.cycle)

/-- Whether a pre-emption request is to be taken at the boundary the thread stands at (R369): after what comes before it there. -/
def State.preDue (s : State) (t : Thread) : Bool :=
  t.pre.isSome && t.pfx.isNone && t.miss.isNone && !s.timerDue t && (t.state == .ready || t.state == .handler)

/-- Whether a thread could issue, its interval aside (R157, R280). -/
def State.canIssue (s : State) (t : Thread) : Bool :=
  (t.state == .ready || t.state == .handler) && t.yld.isNone && t.miss.isNone && !s.timerDue t && !s.preDue t

/-- The slots after p in round-robin order (R281). -/
def slotsAfter (p : Fin 8) : List (Fin 8) := (List.finRange 8).map (fun i => i + p + 1)

/-- The slots of a core that are eligible. Where more than one could issue, which have passed their interval is free. -/
def State.eligible (s : State) (n : Nat) : List (Fin 8) :=
  let all := (List.finRange 8).filter (fun k => s.canIssue (s.thAt n k))
  match all with
  | [k] => [k]
  | _ => all.filter (fun k => Config.eligible s.tick (8 * n + k.val))

/-- The thread a core issues from (R281). -/
def State.chooseThread (s : State) (n : Nat) : Option (Fin 8) :=
  let c := s.core n
  let el := s.eligible n
  let h := fun k => (s.thAt n k).state == .handler
  let barred := c.lastH && el.any (fun k => !h k)
  let hs := (slotsAfter c.hptr).find? (fun k => el.contains k && h k)
  let ns := (slotsAfter c.nptr).find? (fun k => el.contains k && !h k)
  match barred, hs with
  | false, some k => some k
  | _, _ => ns

/-- Every thread of a core changed. -/
def mapTh (v : Vector Thread 8) (f : Thread → Thread) : Vector Thread 8 := Vector.ofFn (fun i => f (v.get i))

/-- The bookkeeping of an issue: the pointer of its class, and the siblings whose yield waits for it (R157, R281). -/
def State.issuing (s : State) (n : Nat) (k : Fin 8) : State :=
  let c := s.core n
  let h := (c.th.get k).state == .handler
  let c1 := if h then { c with hptr := k, lastH := true } else { c with nptr := k, lastH := false }
  let c2 := { c1 with th := mapTh c1.th (fun t =>
    match t.yld with
    | some (end_, l) => { t with yld := if l.filter (· != k) = [] then none else some (end_, l.filter (· != k)) }
    | none => t) }
  (s.setCore n c2).at_ n k

/-- Whether a thread has issued a prefix whose instruction word comes next: the two are one issue (R52). -/
def Thread.prefixed (t : Thread) : Bool := t.pfx.isSome && (t.state == .ready || t.state == .handler)

/-- A waiting thread whose instruction issues again (R120): the instruction itself looks at its condition. -/
def Thread.retries (t : Thread) : Bool :=
  match t.wait with
  | .reissue | .room | .ewait _ | .vecs | .monFull _ | .popq _ | .qwait _ _ _ _ | .trecv => t.state != .hold
  | _ => false

/-- What a step can do. -/
inductive Move where
  | issue (core : Nat) (slot : Fin 8)
  | retry (core : Nat) (slot : Fin 8)
  | event (c : Cur) (i : Instr)
  deriving DecidableEq, Repr

/-- The move of a core's issue stage: the word after a prefix that has issued, else a new issue. -/
def State.issueOf (s : State) (n : Nat) : Option Move :=
  match (List.finRange 8).find? (fun k => (s.thAt n k).prefixed) with
  | some k => some (.retry n k)
  | none => (s.chooseThread n).map (Move.issue n)

/-- The issues open to a step, at most one per core. -/
def State.issues (s : State) : List Move := s.cores.filterMap (fun (n, _) => s.issueOf n)

/-- The waiting instructions that may issue again; one whose access a stage-2 fault holds waits until that is over (R394). -/
def State.retriesOf (s : State) : List Move :=
  s.cores.flatMap (fun (n, c) => (List.finRange 8).filterMap (fun k =>
    if (c.th.get k).retries && !s.holds (.thread n k) then some (Move.retry n k) else none))

end Sys2Proof.Machine
end

