-- ==== Sys2Proof/Machine/FloatOps.lean ====
section
/-! DEFINITION. Scalar floating instructions (R95-R105). -/

namespace Sys2Proof.Machine

/-- A two-source floating instruction: the result of f in the mode read at issue, and its flags. -/
def float2 (d : Dst) (s t : Src) (f : BitVec 3 → Nat → Nat → Fr) : Eff Unit :=
  withFx d (len2 s t) do
    let a ← readSrc s
    let b ← readSrc t
    let rm ← gets (fun s => arithMode s.th.rm)
    let r := f rm a.toNat b.toNat
    pure (BitVec.ofNat 64 r.bits, { fl := r.fl, draw := false })

def execFadd (y : FTy) (d : Dst) (p t : Src) (s : State) : Res := (float2 d p t y.fmt.add).go s
def execFsub (y : FTy) (d : Dst) (p t : Src) (s : State) : Res := (float2 d p t y.fmt.sub).go s
def execFmul (y : FTy) (d : Dst) (p t : Src) (s : State) : Res := (float2 d p t y.fmt.mul).go s
def execFdiv (y : FTy) (d : Dst) (p t : Src) (s : State) : Res := (float2 d p t y.fmt.div).go s

/-- fsqrt (R97). -/
def execFsqrt (y : FTy) (d : Dst) (p : Src) (s : State) : Res :=
  (withFx d (len1 p) do
    let a ← readSrc p
    let rm ← gets (fun s => arithMode s.th.rm)
    let r := y.fmt.sqrt rm a.toNat
    pure (BitVec.ofNat 64 r.bits, { fl := r.fl, draw := false })).go s

/-- fmin and fmax (R99). -/
def execFmin (y : FTy) (d : Dst) (p t : Src) (s : State) : Res := (float2 d p t (fun _ => y.fmt.pick false)).go s
def execFmax (y : FTy) (d : Dst) (p t : Src) (s : State) : Res := (float2 d p t (fun _ => y.fmt.pick true)).go s

/-- fsgn (R100): no flags. -/
def execFsgn (y : FTy) (d : Dst) (p t : Src) (s : State) : Res :=
  (alu2 d p t (fun a b => BitVec.ofNat 64 (y.fmt.withSign a.toNat b.toNat))).go s

/-- A comparison: 1 where the relation holds (R101). -/
def relRes (f : Fmt) (any : Bool) (holds : FRel → Bool) (a b : Nat) : Fr :=
  { bits := if holds (f.rel a b) then 1 else 0, fl := f.relFl any a b }

def execFeq (y : FTy) (d : Dst) (p t : Src) (s : State) : Res :=
  (float2 d p t (fun _ => relRes y.fmt false (fun r => r == .eq))).go s
def execFlt (y : FTy) (d : Dst) (p t : Src) (s : State) : Res :=
  (float2 d p t (fun _ => relRes y.fmt true (fun r => r == .lt))).go s
def execFle (y : FTy) (d : Dst) (p t : Src) (s : State) : Res :=
  (float2 d p t (fun _ => relRes y.fmt true (fun r => r == .lt || r == .eq))).go s

/-- fcls (R102). -/
def execFcls (y : FTy) (d : Dst) (p : Src) (s : State) : Res :=
  (alu1 d p (fun a => BitVec.ofNat 64 (2 ^ y.fmt.classBit a.toNat))).go s

/-- fma (R98): the destination is the addend, read first. -/
def execFma (y : FTy) (d : BitVec 5) (p t : Src) (s : State) : Res :=
  (withFx (.g d) (len2 p t) do
    let c ← readG d
    let a ← readSrc p
    let b ← readSrc t
    let rm ← gets (fun s => arithMode s.th.rm)
    let r := y.fmt.fma rm a.toNat b.toNat c.toNat
    pure (BitVec.ofNat 64 r.bits, { fl := r.fl, draw := false })).go s

/-- The bits of a converted element in a 64-bit register: sign-extended for a signed integer type (R103). -/
def LaneTy.inWord (t : LaneTy) (bits : Nat) : Word :=
  if t.isSigned then (BitVec.ofNat t.width bits).signExtend 64 else BitVec.ofNat 64 bits

/-- fcvt (R103-R105): under SR one draw, exact or not. -/
def execFcvt (dty sty : LaneTy) (d : Dst) (p : Src) (s : State) : Res :=
  (withFx d (len1 p) do
    let a ← readSrc p
    let s ← gets id
    let t := s.th
    let draw := srField t.jseed t.lcore t.srstrm t.srctr 0
    let r := convert dty sty t.rm draw (a.toNat % 2 ^ sty.width)
    pure (LaneTy.inWord dty r.bits, { fl := r.fl, draw := t.rm == 5 })).go s

end Sys2Proof.Machine
end

