-- ==== Sys2Proof/Machine/Memory.lean ====
section
/-! DEFINITION. Loads and stores, relaxed accesses, full/empty operations, atomics, monitor and wait, fence, and scope misses
(R118-R132, R255-R264). -/

namespace Sys2Proof.Machine

/-! ## Orders and scopes (R66, R257, R260-R262) -/

/-- The order and scope of the current instruction; plain without a prefix. -/
def prefixOf : Eff Pfx := gets (fun s => s.th.pfx.getD { order := .plain, scope := .thread })

def scopeRank : Scope → Nat
  | .thread => 0 | .core => 1 | .cluster => 2 | .die => 3 | .module => 4 | .system => 5

/-- The scope of the home of an address, as seen from an agent on a core (R257). -/
def State.homeScope (s : State) (ag : Agent) (core : Nat) (x : Nat) : Nat :=
  match s.rowOf ag x with
  | .slice c _ => if c = core then 1 else if clusterOf c = clusterOf core then 2 else if dieOf c = dieOf core then 3 else 4
  | .hbm | .control => 4
  | .host _ _ | .peer _ _ => 5
  | .nothing => 4

def isRelease : Order → Bool
  | .release | .acqRel => true
  | _ => false

/-- What a release does before its access issues (R260): it waits for the outstanding relaxed accesses whose home scope it covers,
and a recorded fault is delivered (R124). -/
def beforeAccess (p : Pfx) : Eff Unit := do
  if isRelease p.order then do
    let s ← gets id
    let t := s.th
    let awaited := if p.scope = .thread then []
      else t.rel.filter (fun x => decide (s.homeScope s.agent s.cur.core x.addr.toNat ≤ scopeRank p.scope))
    match awaited with
    | _ :: _ => parkWith (if awaited.all (·.stage == .held) then .parkXl else .waitMem) .reissue
    | [] =>
        match t.dfr with
        | d :: _ => stop (.deferred d.addr d.pc)
        | [] => pure ()
  else pure ()

/-- A release whose target lies outside its scope is a miss (R261): its message has yet to come. rewrite names what the default
handling writes again: none, a store of n bytes, or a store that sets the word full (R262). -/
def noteMiss (p : Pfx) (addr : Addr) (size : Nat) (value : Word) (rewrite : Option Bool) : Eff Unit := do
  let s ← gets id
  let r := scopeRank p.scope
  if isRelease p.order && decide (1 ≤ r ∧ r ≤ 3 ∧ r < s.homeScope s.agent s.cur.core addr.toNat) then
    modTh (fun t => { t with miss := some { addr := addr, size := size, value := value, rewrite := rewrite, counted := false } })
  else pure ()

/-- The address of format M (R60, EA). -/
def ea (k : Cap) (off : BitVec 14) : Addr := k.cur + off.signExtend 48

/-- The n-byte value v widened to 64 bits (Ext). -/
def ext (n v : Nat) (signed : Bool) : Word := if signed then (BitVec.ofNat (8 * n) v).signExtend 64 else BitVec.ofNat 64 v

/-- Bytes of a size code. -/
def szBytes (sz : BitVec 2) : Nat := 2 ^ sz.toNat

/-- Whether an address lies in the host and peer window (R19). -/
def inHostWindow (addr : Addr) : Bool := decide (0x600000000000 ≤ addr.toNat ∧ addr.toNat < 0x700000000000)

/-! ## Relaxed accesses (R123, R124) -/

/-- A relaxed access joins the outstanding ones, at most four, and its instruction retires. -/
def issueRelaxed (x : RelAcc) (len : Nat) : Eff Unit := do
  modTh (fun t => { t with rel := t.rel ++ [x] })
  retire len

/-- What every relaxed access does first: a fifth waits for one of the four (R123). -/
def roomForRelaxed : Eff Unit := do
  let t ← gets State.th
  if t.rel.length < 4 then pure () else parkWith .waitMem .room

/-- The destination register of a relaxed access; a queue is ILLEGAL (R123). -/
def relaxedDst (i : Instr) : Dst → Eff (BitVec 6)
  | .g r => pure (r.zeroExtend 6)
  | .q6 | .q7 => trapWith .illegal ((encodeWord i).zeroExtend 64)

/-- An outstanding relaxed access of the current thread, as it issues now. -/
def newRelaxed (op : RelOp) (reg fn : BitVec 6) (addr : Addr) (val exp : Word) (cap : Cap) : Eff RelAcc :=
  gets (fun s => { op := op, reg := reg, fn := fn, addr := addr, val := val, exp := exp, rm := arithMode s.th.rm, cap := cap,
                   pc := s.th.pc, order := s.tick, stage := .issued, res := 0, rcap := Cap.null })

/-! ## Loads and stores (R121, R122) -/

/-- ld in both forms (R121). -/
def load (i : Instr) (d : Dst) (a : BitVec 4) (off : BitVec 14) (sz : BitVec 2) (signed : Bool) : Eff Unit := do
  let p ← prefixOf
  let n := szBytes sz
  if p.order = .relaxed then do
    let reg ← relaxedDst i d
    useDst d
    roomForRelaxed
    let k ← readA a
    let addr := ea k off
    capCheck k addr.toNat n permR kindMem n
    let x ← newRelaxed .ld reg ((if signed then 0#4 else 1#4) ++ sz) addr 0 0 Cap.null
    issueRelaxed x 4
  else
    withEff d 4 do
      let k ← readA a
      let addr := ea k off
      capCheck k addr.toNat n permR kindMem n
      let t ← home addr.toNat .read
      let bs ← fetchBytes t n
      pure (ext n (ofBytes bs) signed)

def execLd (d : Dst) (a : BitVec 4) (off : BitVec 14) (sz : BitVec 2) (s : State) : Res :=
  (load (.ld d a off sz) d a off sz true).go s
def execLdZext (d : Dst) (a : BitVec 4) (off : BitVec 14) (sz : BitVec 2) (s : State) : Res :=
  (load (.ldZext d a off sz) d a off sz false).go s

/-- st (R121). -/
def execSt (v : Src) (a : BitVec 4) (off : BitVec 14) (sz : BitVec 2) (s : State) : Res :=
  (do
    let p ← prefixOf
    beforeAccess p
    let n := szBytes sz
    if p.order = .relaxed then roomForRelaxed else pure ()
    let x ← readSrc v
    let k ← readA a
    let addr := ea k off
    capCheck k addr.toNat n permW kindMem n
    if p.order = .relaxed then do
      let r ← newRelaxed .st 0 (0#4 ++ sz) addr x 0 Cap.null
      issueRelaxed r (len1 v)
    else do
      let t ← home addr.toNat .write
      storeBytes t (bytesOf n x.toNat) 0x01
      noteMiss p addr n x (some false)
      conclude none (len1 v) 0 Fx.none : Eff Unit).go s

/-- A capability read at its home (R122): the tag is that of the granule, where the register admits it. -/
def State.capAt (s : State) (tenant : BitVec 6) (t : Tgt) (rc : Bool) : Cap :=
  { bits := BitVec.ofNat 128 (ofBytes (s.readAt tenant t 16)), tag := s.tagAt t && rc }

/-- A capability written at its home. -/
def State.putCap (s : State) (ag : Agent) (t : Tgt) (c : Cap) : State :=
  (s.writeAt ag t (bytesOf 16 c.bits.toNat) 0x02).setTag t c.tag

/-- ldc (R122). -/
def execLdc (c a : BitVec 4) (off : BitVec 14) (s : State) : Res :=
  (do
    let p ← prefixOf
    if p.order = .relaxed then roomForRelaxed else pure ()
    let k ← readA a
    let addr := ea k off
    capCheck k addr.toNat 16 permR kindMem 16
    if p.order = .relaxed then do
      hazard (fun x => x.setsA c || x.keepsA c) (true, c.zeroExtend 6)
      let r ← newRelaxed .ldc (c.zeroExtend 6) 0 addr 0 0 { bits := 0, tag := (k.perms &&& permRC) != 0 }
      issueRelaxed r 4
    else do
      let t ← home addr.toNat .read
      let v ← gets (fun s => s.capAt s.cc.tenant t ((k.perms &&& permRC) != 0))
      writeA c v
      retire 4 : Eff Unit).go s

/-- stc (R122). -/
def execStc (c a : BitVec 4) (off : BitVec 14) (s : State) : Res :=
  (do
    let p ← prefixOf
    beforeAccess p
    if p.order = .relaxed then roomForRelaxed else pure ()
    let v ← readA c
    let k ← readA a
    let addr := ea k off
    capCheck k addr.toNat 16 permW kindMem 16
    demand (!(v.tag && (k.perms &&& permWC) == 0)) .capPerm (addr.zeroExtend 64)
    if p.order = .relaxed then do
      let r ← newRelaxed .stc (c.zeroExtend 6) 0 addr 0 0 v
      issueRelaxed r 4
    else do
      let t ← home addr.toNat .write
      mods (fun s => s.putCap s.agent t v)
      noteMiss p addr 16 0 none
      conclude none 4 0 Fx.none : Eff Unit).go s

/-! ## Full/empty operations (R125-R128) -/

/-- Runs an effect for another thread, and comes back to the current one. -/
def State.onThread (s : State) (core : Nat) (slot : Fin 8) (m : Eff Unit) : State :=
  match m.go (s.at_ core slot) with
  | .next t => { t with cur := s.cur }
  | _ => s

/-- Whether a request's condition holds (R125): stef needs an empty word, ldf and ldfe a full one. -/
def State.feReady (s : State) (q : FeReq) : Bool := s.full q.key != (q.op == 2)

/-- The slice and offset of a key of a slice. -/
def sramOf (key : Nat) : Tgt := .sram ((key - 2 ^ 48) / 0x10000) ((key - 2 ^ 48) % 0x10000)

/-- The F/E bit of a word changed by a full/empty operation, which counts as a write of its line (R131). -/
def State.flipFe (s : State) (key : Nat) (full : Bool) : State := (s.setFull key full).hitWatches (key / 64)

/-- The effect of a request that proceeds, and its result (R125). -/
def State.feApply (s : State) (q : FeReq) : Word × State :=
  let w := BitVec.ofNat 64 (Memory.num s.mem q.key 8)
  match q.op.toNat with
  | 0 => (w, s)
  | 1 => (w, s.flipFe q.key false)
  | _ => (0, (s.writeAt (s.agentOf q.core q.slot) (sramOf q.key) (bytesOf 8 q.val.toNat) 0x04).setFull q.key true)

/-- The result of a served request goes to the thread that waits for it. -/
def State.feAnswer (s : State) (q : FeReq) (v : Word) : State :=
  match (s.thAt q.core q.slot).wait with
  | .fe d len | .feRef _ _ d len => s.onThread q.core q.slot (conclude d len v Fx.none)
  | _ => s

/-- The home serves a word's FIFO from its head for as long as the head's condition holds (R127). -/
def State.feServe (s : State) (owner key : Nat) : Nat → State
  | 0 => s
  | n + 1 =>
      let c := s.core owner
      match c.feWait.find? (·.key == key) with
      | none => s
      | some q =>
          if s.feReady q then
            let s1 := s.setCore owner { c with feWait := c.feWait.erase q }
            let (v, s2) := s1.feApply q
            (s2.feAnswer q v).feServe owner key n
          else s

/-- A change of the bit is followed by service of the FIFO. -/
def State.feServeAll (s : State) (owner key : Nat) : State := s.feServe owner key 33

/-- The place a full/empty operation works on: a doubleword of a slice, or PAGE (R125). -/
def feTarget (k : Cap) (addr : Addr) (need : BitVec 6) : Eff (Nat × Nat) := do
  capCheck k addr.toNat 8 need kindMem 8
  let s ← gets id
  match s.rowOf s.agent addr.toNat with
  | .slice c off => pure (c, sramKey c off)
  | _ => trapWith .page (addr.zeroExtend 64)

/-- A request arrives at the home (R127): it proceeds, joins the FIFO, or is refused by a full table. -/
def feRequest (owner key : Nat) (op : BitVec 2) (val : Word) (d : Option Dst) (len : Nat) : Eff Unit := do
  let s ← gets id
  let q : FeReq := { key := key, core := s.cur.core, slot := s.cur.slot, op := op, val := val }
  if s.feReady q then do
    let (v, s1) := s.feApply q
    mods (fun _ => s1)
    conclude d len v Fx.none
    mods (fun s => s.feServeAll owner key)
  else do
    match d with
    | some d => dstCheck d
    | none => pure ()
    if (s.core owner).feWait.length < 32 then do
      mods (fun s => s.setCore owner { s.core owner with feWait := (s.core owner).feWait ++ [q] })
      waitIn .parkFe (.fe d len)
    else waitIn .parkFe (.feRef owner q d len)

/-- ldf and ldfe. -/
def feLoad (d : Dst) (a : BitVec 4) (off : BitVec 14) (op : BitVec 2) : Eff Unit :=
  withWait d 4 do
    let k ← readA a
    let (owner, key) ← feTarget k (ea k off) (permR ||| permA)
    feRequest owner key op 0 (some d) 4

def execLdf (d : Dst) (a : BitVec 4) (off : BitVec 14) (s : State) : Res := (feLoad d a off 0).go s
def execLdfe (d : Dst) (a : BitVec 4) (off : BitVec 14) (s : State) : Res := (feLoad d a off 1).go s

/-- stef. -/
def execStef (v : Src) (a : BitVec 4) (off : BitVec 14) (s : State) : Res :=
  (do
    let p ← prefixOf
    beforeAccess p
    let x ← readSrc v
    let k ← readA a
    let (owner, key) ← feTarget k (ea k off) (permW ||| permA)
    noteMiss p (ea k off) 8 x none
    feRequest owner key 2 x none (len1 v) : Eff Unit).go s

/-- stf. -/
def execStf (v : Src) (a : BitVec 4) (off : BitVec 14) (s : State) : Res :=
  (do
    let p ← prefixOf
    beforeAccess p
    let x ← readSrc v
    let k ← readA a
    let (owner, key) ← feTarget k (ea k off) (permW ||| permA)
    mods (fun s => (s.writeAt s.agent (sramOf key) (bytesOf 8 x.toNat) 0x03).setFull key true)
    noteMiss p (ea k off) 8 x (some true)
    conclude none (len1 v) 0 Fx.none
    mods (fun s => s.feServeAll owner key) : Eff Unit).go s

/-- empt. -/
def execEmpt (a : BitVec 4) (off : BitVec 14) (s : State) : Res :=
  (do
    let p ← prefixOf
    beforeAccess p
    let k ← readA a
    let (owner, key) ← feTarget k (ea k off) (permW ||| permA)
    mods (fun s => (s.flipFe key false).trace s.agent owner (key - sramKey owner 0) 8 0x05)
    noteMiss p (ea k off) 8 0 none
    conclude none 4 0 Fx.none
    mods (fun s => s.feServeAll owner key) : Eff Unit).go s

/-- fes. -/
def execFes (d : Dst) (a : BitVec 4) (off : BitVec 14) (s : State) : Res :=
  (withD d 4 do
    let k ← readA a
    let (_, key) ← feTarget k (ea k off) (permR ||| permA)
    gets (fun s => bit (s.full key))).go s

/-- A refused request is sent again (R127). -/
def execFeResend (s : State) : Res :=
  match s.th.wait with
  | .feRef owner q d len => (feRequest owner q.key q.op q.val d len).go s
  | _ => .next s

/-! ## Atomics (R129, R263) -/

/-- Op of an amo on n bytes: the new value and the flags. -/
def amoOp (fn : BitVec 4) (dbl : Bool) (rm : BitVec 3) (old b : Word) : Word × Fl :=
  let sx := fun v : Word => if dbl then v else (v.extractLsb' 0 32).signExtend 64
  let zx := fun v : Word => if dbl then v else (v.extractLsb' 0 32).zeroExtend 64
  match fn.toNat with
  | 0 => (old + b, 0)
  | 1 => (old &&& b, 0)
  | 2 => (old ||| b, 0)
  | 3 => (old ^^^ b, 0)
  | 4 => (if (sx b).slt (sx old) then b else old, 0)
  | 5 => (if (sx old).slt (sx b) then b else old, 0)
  | 6 => (if (zx b).ult (zx old) then b else old, 0)
  | 7 => (if (zx old).ult (zx b) then b else old, 0)
  | 8 => (b, 0)
  | _ => let r := fp32.add rm (old.toNat % 2 ^ 32) (b.toNat % 2 ^ 32); (BitVec.ofNat 64 r.bits, r.fl)

/-- Whether the old value is sign-extended: min and max. -/
def amoSigned (fn : BitVec 4) : Bool := fn == 4 || fn == 5

/-- The step of an atomic at its home: the old value, the state after, and the flags. exp is the expected value of a cas. -/
def State.atomicAt (s : State) (ag : Agent) (t : Tgt) (fn : BitVec 4) (dbl : Bool) (rm : BitVec 3) (val : Word) (exp : Option Word) :
    Word × State × Fl :=
  let n := if dbl then 8 else 4
  let old := ofBytes (s.readAt ag.tenant t n)
  match exp with
  | none =>
      let (new, fl) := amoOp fn dbl rm (BitVec.ofNat 64 old) val
      (ext n old (amoSigned fn), s.writeAt ag t (bytesOf n new.toNat) 0x06, fl)
  | some e =>
      (ext n old false, if old = e.toNat % 2 ^ (8 * n) then s.writeAt ag t (bytesOf n val.toNat) 0x07 else s, 0)

/-- The checks of an atomic (R129). -/
def atomicCheck (k : Cap) (n : Nat) : Eff Unit := do
  capCheck k k.cur.toNat n (permR ||| permW ||| permA) kindMem n
  demand (!inHostWindow k.cur) .page (k.cur.zeroExtend 64)

/-- amo (R129). -/
def amo (i : Instr) (fn : BitVec 4) (d : Dst) (a : BitVec 4) (t : Src) (dbl : Bool) : Eff Unit := do
  let p ← prefixOf
  beforeAccess p
  let n := if dbl then 8 else 4
  if p.order = .relaxed then do
    let reg ← relaxedDst i d
    useDst d
    roomForRelaxed
    let b ← readSrc t
    let k ← readA a
    atomicCheck k n
    let x ← newRelaxed .amo reg (0#1 ++ BitVec.ofBool dbl ++ fn) k.cur b 0 Cap.null
    issueRelaxed x (len1 t)
  else
    withWait d (len1 t) do
      let b ← readSrc t
      let k ← readA a
      atomicCheck k n
      let tg ← home k.cur.toNat .atomic
      let s ← gets id
      let (old, s1, fl) := s.atomicAt s.agent tg fn dbl (arithMode s.th.rm) b none
      mods (fun _ => s1)
      noteMiss p k.cur n 0 none
      conclude (some d) (len1 t) old { fl := fl, draw := false }

def execAmoAdd (d : Dst) (a : BitVec 4) (t : Src) (dbl : Bool) (s : State) : Res := (amo (.amoAdd d a t dbl) 0 d a t dbl).go s
def execAmoAnd (d : Dst) (a : BitVec 4) (t : Src) (dbl : Bool) (s : State) : Res := (amo (.amoAnd d a t dbl) 1 d a t dbl).go s
def execAmoOr (d : Dst) (a : BitVec 4) (t : Src) (dbl : Bool) (s : State) : Res := (amo (.amoOr d a t dbl) 2 d a t dbl).go s
def execAmoXor (d : Dst) (a : BitVec 4) (t : Src) (dbl : Bool) (s : State) : Res := (amo (.amoXor d a t dbl) 3 d a t dbl).go s
def execAmoMin (d : Dst) (a : BitVec 4) (t : Src) (dbl : Bool) (s : State) : Res := (amo (.amoMin d a t dbl) 4 d a t dbl).go s
def execAmoMax (d : Dst) (a : BitVec 4) (t : Src) (dbl : Bool) (s : State) : Res := (amo (.amoMax d a t dbl) 5 d a t dbl).go s
def execAmoMinu (d : Dst) (a : BitVec 4) (t : Src) (dbl : Bool) (s : State) : Res := (amo (.amoMinu d a t dbl) 6 d a t dbl).go s
def execAmoMaxu (d : Dst) (a : BitVec 4) (t : Src) (dbl : Bool) (s : State) : Res := (amo (.amoMaxu d a t dbl) 7 d a t dbl).go s
def execAmoSwap (d : Dst) (a : BitVec 4) (t : Src) (dbl : Bool) (s : State) : Res := (amo (.amoSwap d a t dbl) 8 d a t dbl).go s
def execAmoFaddS (d : Dst) (a : BitVec 4) (t : Src) (s : State) : Res := (amo (.amoFaddS d a t) 9 d a t false).go s

/-- cas (R129): the destination holds the expected value, read first. -/
def execCas (d : BitVec 5) (a : BitVec 4) (t : Src) (dbl : Bool) (s : State) : Res :=
  (do
    let p ← prefixOf
    beforeAccess p
    let n := if dbl then 8 else 4
    if p.order = .relaxed then roomForRelaxed else pure ()
    let e ← readG d
    let b ← readSrc t
    let k ← readA a
    atomicCheck k n
    if p.order = .relaxed then do
      let x ← newRelaxed .cas (d.zeroExtend 6) (0#1 ++ BitVec.ofBool dbl ++ 0#4) k.cur b e Cap.null
      issueRelaxed x (len1 t)
    else do
      let tg ← home k.cur.toNat .atomic
      let s ← gets id
      let (old, s1, _) := s.atomicAt s.agent tg 0 dbl 0 b (some e)
      mods (fun _ => s1)
      noteMiss p k.cur n 0 none
      conclude (some (.g d)) (len1 t) old Fx.none : Eff Unit).go s

/-! ## Relaxed accesses at their homes (R255, R259) -/

/-- Bytes a relaxed access touches. -/
def RelAcc.size (x : RelAcc) : Nat :=
  match x.op with
  | .ld | .st => 2 ^ (x.fn.toNat % 4)
  | .ldc | .stc => 16
  | .amo | .cas => if x.fn.getLsbD 4 then 8 else 4

def RelAcc.kind (x : RelAcc) : Acc :=
  match x.op with
  | .ld | .ldc => .read
  | .st | .stc => .write
  | .amo | .cas => .atomic

/-- Whether n bytes at a and m bytes at b overlap. -/
def overlap (a n b m : Nat) : Bool := decide (a < b + m ∧ b < a + n)

/-- The memory key of a relaxed access of an agent, where its address translates. -/
def State.relKey (s : State) (ag : Agent) (x : RelAcc) : Option Nat :=
  match s.resolve ag x.addr.toNat x.kind with
  | .ok (t, _) => some t.key
  | .error _ => none

/-- Whether two relaxed accesses of an agent touch the same bytes, by their addresses or at their home (R123). -/
def State.relClash (s : State) (ag : Agent) (x y : RelAcc) : Bool :=
  overlap x.addr.toNat x.size y.addr.toNat y.size
  || (match s.relKey ag x, s.relKey ag y with
      | some a, some b => overlap a x.size b y.size
      | _, _ => false)

/-- Whether an earlier relaxed access of the thread to overlapping bytes has yet to take effect (R123, R259). -/
def State.relBlocked (s : State) (ag : Agent) (x : RelAcc) (l : List RelAcc) : Bool :=
  l.any (fun y => decide (y.order < x.order) && y.stage != .applied && s.relClash ag x y)

/-- The relaxed access i of a thread changed. -/
def State.setRel (s : State) (core : Nat) (slot : Fin 8) (i : Nat) (f : RelAcc → RelAcc) : State :=
  let t := s.thAt core slot
  s.setThAt core slot { t with rel := listSet t.rel i f }

/-- The destination of a relaxed access, where it has one. -/
def RelAcc.dest (x : RelAcc) : Option (Bool × BitVec 6) :=
  match x.op with
  | .ldc => some (true, x.reg)
  | .st | .stc => none
  | _ => if x.reg = 0 then none else some (false, x.reg)

/-- A recorded fault takes its place in program order. -/
def addDfr (l : List Dfr) (d : Dfr) : List Dfr := l.filter (fun x => x.order < d.order) ++ [d] ++ l.filter (fun x => d.order ≤ x.order)

/-- A relaxed access reaches its home: it takes effect, records a stage-1 fault (R124), or is held on a stage-2 fault. -/
def State.relApply (s : State) (core : Nat) (slot : Fin 8) (i : Nat) (x : RelAcc) : State :=
  let ag := s.agentOf core slot
  let done := fun (s : State) (res : Word) (rcap : Cap) => s.setRel core slot i (fun y => { y with stage := .applied, res := res, rcap := rcap })
  let rowGone := (s.windowFault ag x.addr.toNat x.size).isSome
  match (if rowGone then .error .stage1 else s.resolve ag x.addr.toNat x.kind) with
  | .error .stage1 =>
      let t := s.thAt core slot
      s.setThAt core slot
        { t with rel := t.rel.eraseIdx i
                 dfr := addDfr t.dfr { dest := x.dest, addr := x.addr, pc := x.pc, order := x.order } }
  | .error (.stage2 ipa k) => (s.logFault ag.tenant ipa k (some (.relaxed core slot x.order))).setRel core slot i (fun y => { y with stage := .held })
  | .ok (t, s1) =>
      match x.op with
      | .ld => done s1 (ext x.size (ofBytes (s1.readAt ag.tenant t x.size)) (!x.fn.getLsbD 2)) Cap.null
      | .st => done (s1.writeAt ag t (bytesOf x.size x.val.toNat) 0x01) 0 Cap.null
      | .ldc => done s1 0 (s1.capAt ag.tenant t x.cap.tag)
      | .stc => done (s1.putCap ag t x.cap) 0 Cap.null
      | .amo =>
          let (old, s2, fl) := s1.atomicAt ag t (x.fn.extractLsb' 0 4) (x.fn.getLsbD 4) x.rm x.val none
          (done s2 old Cap.null).onThread core slot (raiseFlags fl)
      | .cas =>
          let (old, s2, _) := s1.atomicAt ag t 0 (x.fn.getLsbD 4) 0 x.val (some x.exp)
          done s2 old Cap.null

/-- Whether a relaxed access of a thread has yet to take effect, and may take effect now: no earlier one to the same bytes is
outstanding, and no stage-2 fault holds it. -/
def State.relReady (s : State) (core : Nat) (slot : Fin 8) (x : RelAcc) : Bool :=
  x.stage != .applied && !s.holds (.relaxed core slot x.order) && !s.relBlocked (s.agentOf core slot) x (s.thAt core slot).rel

/-- HOME_REQUEST (R255): a plain relaxed access of the cur thread takes effect. -/
def execHomeRequest (s : State) : Res :=
  match s.th.rel[s.cur.idx]? with
  | some x =>
      .next (if s.relReady s.cur.core s.cur.slot x && x.kind != .atomic then s.relApply s.cur.core s.cur.slot s.cur.idx x else s)
  | none => .next s

/-- RESERVATION_GRANT (R263): a relaxed atomic of the cur thread takes effect, the grant and the return together. -/
def execReservationGrant (s : State) : Res :=
  match s.th.rel[s.cur.idx]? with
  | some x =>
      .next (if s.relReady s.cur.core s.cur.slot x && x.kind == .atomic then s.relApply s.cur.core s.cur.slot s.cur.idx x else s)
  | none => .next s

/-- ACCESS_REPLY (R119, R123): the reply of a relaxed access arrives, its result is written, and it is no longer outstanding. -/
def execAccessReply (s : State) : Res :=
  match s.th.rel[s.cur.idx]? with
  | some x =>
      if x.stage = .applied then
        let t := { s.th with rel := s.th.rel.eraseIdx s.cur.idx }
        .next (s.setTh (match x.op with
          | .ld | .amo | .cas => t.setG (x.reg.extractLsb' 0 5) x.res
          | .ldc => t.setA (x.reg.extractLsb' 0 4) x.rcap
          | .st | .stc => t))
      else .next s
  | none => .next s

/-! ## Scope misses (R261, R262) -/

/-- The message of a miss counted: SMCOUNT rises (R261). -/
def State.countMiss (s : State) (core : Nat) (slot : Fin 8) : State :=
  let t := s.thAt core slot
  if t.missOpen then
    let s1 := s.setThAt core slot { t with miss := t.miss.map (fun m => { m with counted := true }) }
    s1.setCore core { s1.core core with smcount := (s1.core core).smcount + 1 }
  else s

/-- SCOPE_MISS_MESSAGE: the message reaches the core, SMCOUNT rises, and the acknowledgement behind it ends the release's wait. -/
def execScopeMissMessage (s : State) : Res :=
  let s1 := s.countMiss s.cur.core s.cur.slot
  match s1.th.wait with
  | .missed d len v x => (conclude d len v x).go s1
  | _ => .next s1

/-- Whether the miss of a thread is handled now: at the boundary after the instruction, or while its handling waits. -/
def Thread.missDue (t : Thread) : Bool :=
  match t.miss with
  | some m => m.counted && t.pfx.isNone && (t.wait == .handling || (t.wait == .none && (t.state == .ready || t.state == .handler)))
  | none => false

/-- The scope-miss routine of the region, 0 for none (R276). -/
def State.smissOf (s : State) (core : Nat) : Addr :=
  match s.region? (s.core core).rid with
  | some r => r.smiss
  | none => 0

/-- The default handling (R262): as fence.m, then the write again as a release at module scope. Where the fence delivers a recorded
fault, or the write meets a stage-1 fault, the thread traps and the write is not made again: DESIGN CHOICE (entry 99). -/
def missDefault (m : Miss) : Eff Unit := do
  let t ← gets State.th
  match t.rel with
  | _ :: _ => mods (fun s => s.parkTh (if t.rel.all (·.stage == .held) then .parkXl else .waitMem) .handling)
  | [] =>
      match t.dfr with
      | d :: _ => stop (.deferred d.addr d.pc)
      | [] => do
          match m.rewrite with
          | none => pure ()
          | some fullBit => do
              let tg ← home m.addr.toNat .write
              storeBytes tg (bytesOf m.size m.value.toNat) (if fullBit then 0x03 else 0x01)
              match fullBit, tg with
              | true, .sram c _ => mods (fun s => (s.setFull tg.key true).feServeAll c tg.key)
              | _, _ => pure ()
          modTh (fun t => { t with miss := none, wait := .none, state := t.active })

/-- SCOPE_MISS_HANDLING: SCOPEMISS where the region names a routine and the release was issued in U, else the default handling. A
stage-2 fault of the write leaves the thread in PARK_XL and the handling is made again; for a recorded or a stage-1 fault, entry 99. -/
def execScopeMissHandling (s : State) : Res :=
  match s.th.miss with
  | some m =>
      if s.th.missDue && !s.holds (.thread s.cur.core s.cur.slot) then
        if s.smissOf s.cur.core ≠ 0 && !s.th.cprv then
          .next ((s.setTh { s.th with miss := none, wait := .none }).trapAsync .scopeMiss (m.addr.zeroExtend 64))
        else
          match (missDefault m) s with
          | .ok (_, t) => .next t
          | .error (.held t ipa k) =>
              .next ((s.logFault t ipa k (some (.thread s.cur.core s.cur.slot))).parkTh .parkXl .handling)
          | .error (.deferred a pc) => .next ((s.setTh { s.th with miss := none, dfr := [] }).trapSync .defer (a.zeroExtend 64) pc)
          | .error x => x.finish (s.setTh { s.th with miss := none })
      else .next s
  | none => .next s

/-! ## Monitor, wait and fence (R130-R132) -/

/-- The store that holds watches on a line: a core's port, or a die's gateway table, after the cores; the control port's last. -/
def watchHome : Tgt → Nat
  | .sram c _ => c
  | .hbm pa => Config.cores + pa / 4096 % 16
  | _ => Config.cores + 16

/-- The entries a watch store holds (R130). -/
def watchRoom (home : Nat) : Nat := if home < Config.cores then 64 else 4096

/-- The watch of a thread is dropped. -/
def State.dropWatch (s : State) (core : Nat) (slot : Fin 8) : State :=
  { (s.setThAt core slot { s.thAt core slot with watch := none }) with
    watches := s.watches.filter (fun w => !(w.core == core && w.slot == slot)) }

/-- A full store whose oldest entry has been resident for 8,192 cycles evicts it; the watcher's next mwait returns OK (R130, R131). -/
def State.evictWatch (s : State) (home : Nat) : State :=
  match s.watches.find? (·.home == home) with
  | some w =>
      if watchRoom home ≤ (s.watches.filter (·.home == home)).length ∧ w.since + 8192 ≤ s.cycle then
        let s1 := { s with watches := s.watches.erase w }
        s1.setThAt w.core w.slot { s1.thAt w.core w.slot with watch := (s1.thAt w.core w.slot).watch.map (fun x => { x with hit := true }) }
      else s
  | none => s

/-- mon (R130). -/
def execMon (a : BitVec 4) (s : State) : Res :=
  (do
    let k ← readA a
    let addr := k.cur.toNat
    capCheck k addr 1 permR kindMem 1
    demand (!inHostWindow k.cur) .page (k.cur.zeroExtend 64)
    let t ← home addr .read
    let h := watchHome t
    mods (fun s => s.dropWatch s.cur.core s.cur.slot)
    let s ← gets id
    if (s.watches.filter (·.home == h)).length < watchRoom h then do
      mods (fun s => { s with watches := s.watches ++
        [{ home := h, line := t.key / 64, core := s.cur.core, slot := s.cur.slot, since := s.cycle }] })
      modTh (fun th => { th with watch := some { line := t.key / 64, hit := false } })
      retire 4
    else waitIn .waitMem (.monFull h) : Eff Unit).go s

/-- WATCH_EVICT (R130): cur.idx is the store. -/
def execWatchEvict (s : State) : Res := .next (s.evictWatch s.cur.idx)

/-- The end of an mwait: its status, and the watch is dropped (R131). -/
def mwaitEnd (d : Dst) (len : Nat) (st : Word) : Eff Unit := do
  mods (fun s => s.dropWatch s.cur.core s.cur.slot)
  finish d len st

/-- mwait (R131). -/
def execMwait (d : Dst) (t : Src) (s : State) : Res :=
  (withWait d (len1 t) do
    let k ← readSrc t
    let s ← gets id
    match s.th.watch with
    | none => finish d (len1 t) stMode
    | some w =>
        if w.hit then mwaitEnd d (len1 t) stOk
        else waitFor d .parkMon (.mwait d (len1 t) (if k = 0 then none else some (s.cycle + k.toNat)))).go s

/-- MWAIT_WAKE (R131). -/
def execMwaitWake (s : State) : Res :=
  match s.th.wait, s.th.watch with
  | .mwait d len _, some w => if w.hit then (mwaitEnd d len stOk).go s else .next s
  | _, _ => .next s

/-- MWAIT_TIMEOUT (R131). -/
def execMwaitTimeout (s : State) : Res :=
  match s.th.wait with
  | .mwait d len (some e) => if e ≤ s.cycle then (mwaitEnd d len stTimeout).go s else .next s
  | _ => .next s

/-- fence (R132): every scope waits for the same event. -/
def execFence (_sc : Scope) (s : State) : Res :=
  (do settle
      retire 4 : Eff Unit).go s

/-! ## When the events of this file are due -/

/-- Threads of every core. -/
def State.threads (s : State) : List (Nat × Fin 8 × Thread) :=
  s.cores.flatMap (fun (n, c) => (List.finRange 8).map (fun k => (n, k, c.th.get k)))

def curOf (core : Nat) (slot : Fin 8) (idx : Nat) : Cur := { core := core, slot := slot, idx := idx, sub := 0, val := 0 }

/-- An event of a thread, where its condition holds. -/
def evIf (p : Bool) (core : Nat) (slot : Fin 8) (idx : Nat) (i : Instr) : List Move := if p then [.event (curOf core slot idx) i] else []

def State.dueMemory (s : State) : List Move :=
  s.threads.flatMap (fun (n, k, t) =>
    (List.range t.rel.length).flatMap (fun i =>
      match t.rel[i]? with
      | some x =>
          if x.stage = .applied then [Move.event (curOf n k i) .accessReply]
          else if s.relReady n k x then [Move.event (curOf n k i) (if x.kind = .atomic then .reservationGrant else .homeRequest)]
          else []
      | none => [])
    ++ evIf (match t.wait with | .feRef _ _ _ _ => true | _ => false) n k 0 .feResend
    ++ evIf t.missOpen n k 0 .scopeMissMessage
    ++ evIf (t.missDue && !s.holds (.thread n k)) n k 0 .scopeMissHandling
    ++ evIf (match t.wait, t.watch with | .mwait _ _ _, some w => w.hit | _, _ => false) n k 0 .mwaitWake
    ++ evIf (match t.wait with | .mwait _ _ (some e) => decide (e ≤ s.cycle) | _ => false) n k 0 .mwaitTimeout
    ++ (match t.wait with
        | .monFull h =>
            match s.watches.find? (·.home == h) with
            | some w => evIf (decide (watchRoom h ≤ (s.watches.filter (·.home == h)).length ∧ w.since + 8192 ≤ s.cycle)) n k h .watchEvict
            | none => []
        | _ => []))

end Sys2Proof.Machine
end

