-- ==== Sys2Proof/Machine/Xbar.lean ====
section
/-! DEFINITION. The event crossbar of a core (R171-R173). -/

namespace Sys2Proof.Machine

/-- Fields of XBCFGi (R172). -/
def xbReload (x : Word) : BitVec 16 := x.extractLsb' 48 16
def xbCin (x : Word) : Nat := (x.extractLsb' 44 4).toNat
def xbOmask (x : Word) : BitVec 8 := x.extractLsb' 32 8
def xbCmask (x : Word) : BitVec 8 := x.extractLsb' 24 8
def xbImask (x : Word) : BitVec 16 := x.extractLsb' 8 16
def xbBsel (x : Word) : Nat := (x.extractLsb' 1 5).toNat
def xbCen (x : Word) : Bool := x.getLsbD 0

/-- The sources of a term, as its latches stand: inputs below, counters above. -/
def xbNeeds (x : Word) : BitVec 24 := xbCmask x ++ xbImask x

/-- Bits of a register that a write of XBCFGi leaves (R172, R174): BSEL is of XBCFG0 alone. -/
def xbMask (i : Fin 8) : Word := if i = 0 then 0xFFFFF0FFFFFFFF3F else 0xFFFFF0FFFFFFFF01

/-- A pulse of input j as counters and terms of some numbers see it (R171, R172): the counters that count it, their events, which every
term sees, and the latches. -/
def Core.pulseFor (c : Core) (j : Fin 16) (who : Fin 8 → Bool) : Core :=
  let counts := fun i : Fin 8 => who i && xbCen (c.xbcfg.get i) && xbCin (c.xbcfg.get i) == j.val
  let event := fun i : Fin 8 => counts i && c.xbcount.get i == 1
  let ev : BitVec 8 := (List.finRange 8).foldl (fun m i => if event i then m ||| (1#8 <<< i.val) else m) 0
  { c with
    xbcount := Vector.ofFn (fun i =>
      if event i then xbReload (c.xbcfg.get i) else if counts i then c.xbcount.get i - 1 else c.xbcount.get i)
    xblatch := Vector.ofFn (fun i =>
      c.xblatch.get i ||| ((ev ++ if who i then 1#16 <<< j.val else 0) &&& xbNeeds (c.xbcfg.get i))) }

/-- A pulse of input j. -/
def Core.pulse (c : Core) (j : Fin 16) : Core := c.pulseFor j (fun _ => true)

def State.pulse (s : State) (core : Nat) (j : Fin 16) : State := s.setCore core ((s.core core).pulse j)

/-- Whether term i has all it needs (R172). -/
def Core.termReady (c : Core) (i : Fin 8) : Bool :=
  let n := xbNeeds (c.xbcfg.get i)
  n != 0 && (c.xblatch.get i &&& n) == n

/-- The outputs that name term i in OMASK. -/
def Core.outputsOf (c : Core) (i : Fin 8) : BitVec 8 :=
  (List.finRange 8).foldl (fun m o => if (xbOmask (c.xbcfg.get o)).getLsbD i.val then m ||| (1#8 <<< o.val) else m) 0

/-- XBAR_TERM_FIRE (R172): every term that has all it needs fires in the one cycle. -/
def execXbarTermFire (s : State) : Res :=
  let c := s.cc
  .next (s.setCc { c with
    xbfired := (List.finRange 8).foldl (fun m i => if c.termReady i then m ||| c.outputsOf i else m) c.xbfired
    xblatch := Vector.ofFn (fun i => if c.termReady i then 0 else c.xblatch.get i) })

/-- XBAR_OUTPUT_PENDING (R172): in the cycle after, every output that names a term that fired is pending. -/
def execXbarOutputPending (s : State) : Res :=
  let c := s.cc
  .next (s.setCc { c with xbfired := 0, xbpend := c.xbpend ||| c.xbfired })

/-- Whether a counter or a term of the core looks at input j. -/
def Core.usesInput (c : Core) (j : Fin 16) : Bool :=
  (List.finRange 8).any (fun i =>
    let x := c.xbcfg.get i
    (xbCen x && xbCin x == j.val) || (xbImask x).getLsbD j.val)

/-- XBAR_TICK_PULSE (R171): input 6 for one multiple of 1,024 cycles that has passed. -/
def execXbarTickPulse (s : State) : Res :=
  let c := s.cc
  if c.xbtick < s.cycle / 1024 then .next (s.setCc ({ c with xbtick := c.xbtick + 1 }.pulse 6)) else .next s

/-- A write of XBCFGi (R172): COUNTi is reloaded, the latches of term i and the pending bit of output i are cleared. A pulse of input 6
in the cycle of the write counts against the new configuration (R23): it is still to come where nothing looked at input 6, and counts
again for i where it has come. -/
def Core.setXbcfg (c : Core) (i : Fin 8) (v : Word) (cycle : Nat) : Core :=
  let x := v &&& xbMask i
  let now := cycle % 1024 == 0
  let tick := if c.usesInput 6 then c.xbtick else if now then cycle / 1024 - 1 else cycle / 1024
  let c1 := { c with
    xbcfg := c.xbcfg.set i.val x i.isLt, xbcount := c.xbcount.set i.val (xbReload x) i.isLt
    xblatch := c.xblatch.set i.val 0 i.isLt, xbpend := c.xbpend &&& ~~~(1#8 <<< i.val), xbtick := tick }
  if now && c.usesInput 6 && c.xbtick == cycle / 1024 then c1.pulseFor 6 (· == i) else c1

/-- XBCFG_WRITE: cur.idx is the register, cur.val the word. -/
def execXbcfgWrite (s : State) : Res :=
  .next (s.setCc (s.cc.setXbcfg ⟨s.cur.idx % 8, Nat.mod_lt _ (by decide)⟩ s.cur.val s.cycle))

/-- xbset (R173). -/
def execXbset (p : Src) (s : State) : Res :=
  (do
    let u ← readSrc p
    let i : Fin 8 := (u.extractLsb' 0 3).toFin
    modCc (fun c =>
      let c1 := { c with xbcount := c.xbcount.set i.val (u.extractLsb' 16 16) i.isLt }
      let c2 := if u.getLsbD 8 then { c1 with xblatch := c1.xblatch.set i.val 0 i.isLt } else c1
      if u.getLsbD 9 then { c2 with xbpend := c2.xbpend &&& ~~~(1#8 <<< i.val) } else c2)
    retire (len1 p) : Eff Unit).go s

/-- xbp (R173). -/
def execXbp (p : Src) (s : State) : Res :=
  (do
    let u ← readSrc p
    modCc (fun c => c.pulse ⟨7 + (u.extractLsb' 0 2).toNat, by have := (u.extractLsb' 0 2).isLt; omega⟩)
    retire (len1 p) : Eff Unit).go s

/-- The crossbar's steps that are due: what has fired becomes pending before more fires. -/
def State.dueXbar (s : State) : List Move :=
  s.cores.flatMap (fun (n, c) =>
    (if c.xbfired ≠ 0 then [Move.event (curOf n 0 0) .xbarOutputPending]
     else if (List.finRange 8).any c.termReady then [Move.event (curOf n 0 0) .xbarTermFire] else [])
    ++ (if c.usesInput 6 ∧ c.xbtick < s.cycle / 1024 then [Move.event (curOf n 0 0) .xbarTickPulse] else []))

end Sys2Proof.Machine
end

