-- ==== Sys2Proof/Machine/Barrier.lean ====
section
/-! DEFINITION. Cluster barrier slots (R139-R142, R216, R288). -/

namespace Sys2Proof.Machine

/-- Slot n of a cluster changed. -/
def State.modBar (s : State) (cl : Nat) (n : Fin 32) (f : Bar → Bar) : State :=
  let c := s.cluster cl
  s.setCluster cl { c with bars := c.bars.set n.val (f (c.bars.get n)) n.isLt }

def State.bar (s : State) (cl : Nat) (n : Fin 32) : Bar := (s.cluster cl).bars.get n

/-- The threads of a cluster parked in barw on a slot. -/
def State.barWaiters (s : State) (cl : Nat) (n : Fin 32) : List (Nat × Fin 8 × Dst × Nat) :=
  s.threads.filterMap (fun (m, k, t) =>
    match t.wait with
    | .barw x d len => if x = n ∧ clusterOf m = cl then some (m, k, d, len) else none
    | _ => none)

/-- Every thread parked in barw on a slot wakes with a status. -/
def State.wakeBar (s : State) (cl : Nat) (n : Fin 32) (st : Word) : State :=
  (s.barWaiters cl n).foldl (fun s (m, k, d, len) =>
    let s := if st = stBroken then s.noteFsum m 4 else s
    s.onThread m k (finish d len st)) s

/-- The node of the completion tree whose SYS slot has released records it (R288). -/
def State.nodeReleased (s : State) (cl : Nat) (n : Fin 32) : State :=
  match (s.bar cl n).owner with
  | some (rid, st) =>
      s.modRegion rid (fun r => { r with stages := listSet r.stages st (fun g =>
        { g with nodes := g.nodes.map (fun x => if x.cluster = cl then { x with released := true } else x) }) })
  | none => s

/-- Release (R140): PH toggles, ARR is cleared, barw waiters wake with OK, and crossbar input 11 pulses where XBCFG0 names the slot. -/
def State.barRelease (s : State) (cl : Nat) (n : Fin 32) : State :=
  let s1 := s.modBar cl n (fun b => { b with ph := !b.ph, arr := 0 })
  let s2 := s1.wakeBar cl n stOk
  let s3 := s2.cores.foldl (fun s (m, c) => if clusterOf m = cl ∧ xbBsel (c.xbcfg.get 0) = n.val then s.pulse m 11 else s) s2
  if (s.bar cl n).sys then s3.nodeReleased cl n else s3

/-- A slot is released when ARR = EXP and PB = 0 (R140). -/
def State.barCheck (s : State) (cl : Nat) (n : Fin 32) : State :=
  let b := s.bar cl n
  if b.arr = b.exp ∧ b.pb = 0 then s.barRelease cl n else s

/-- A slot in use by a region (R139); used, where it was named by bini, barv or bexp (R382). -/
def State.useBar (s : State) (cl : Nat) (n : Fin 32) (rid : Nat) (used : Bool) : State :=
  s.modBar cl n (fun b => { b with users := setAdd b.users rid, armed := if used then setAdd b.armed rid else b.armed })

/-- Bytes retired against a slot (R140, R216). -/
def State.barBytes (s : State) (cl : Nat) (n : Fin 32) (bytes : Nat) : State :=
  (s.modBar cl n (fun b => { b with pb := b.pb - BitVec.ofNat 48 bytes })).barCheck cl n

/-- Bytes of a command retired against a slot; a broken slot discards them (R216). -/
def State.retireBytes (s : State) (cl : Nat) (n : Fin 32) (bytes : Nat) : State :=
  if (s.bar cl n).brk || bytes == 0 then s else s.barBytes cl n bytes

/-- One core's done, or a thread's arrivals. -/
def State.barArrive (s : State) (cl : Nat) (n : Fin 32) (t : Nat) : State :=
  (s.modBar cl n (fun b => { b with arr := b.arr + BitVec.ofNat 16 t })).barCheck cl n

/-- A slot breaks (R382): BRK, and its waiters wake with BROKEN. -/
def State.barBreak (s : State) (cl : Nat) (n : Fin 32) : State := (s.modBar cl n (fun b => { b with brk := true })).wakeBar cl n stBroken

/-- The phase bit as a value. -/
def phBit (b : Bar) : Word := bit b.ph

/-- A barrier instruction: the slot is read, then t; a slot above 31 gives MODE (R141). -/
def barrierOp (d : Dst) (p t : Src) (used : Bool) (f : Nat → Fin 32 → Word → Bar → Eff Word) : Eff Unit :=
  withEff d (len2 p t) do
    let n ← readSrc p
    let x ← readSrc t
    if h : n.toNat < 32 then do
      let s ← gets id
      let cl := clusterOf s.cur.core
      mods (fun s => s.useBar cl ⟨n.toNat, h⟩ s.cc.rid used)
      f cl ⟨n.toNat, h⟩ x (s.bar cl ⟨n.toNat, h⟩)
    else pure stMode

/-- barv (R141). -/
def execBarv (d : Dst) (p t : Src) (s : State) : Res :=
  (barrierOp d p t true (fun cl n x b =>
    if b.sys then pure stMode
    else if b.brk then do
      noteBroken
      pure (pack stBroken (phBit b))
    else if x = 0 then pure (pack stMode (phBit b))
    else if b.exp.toNat < b.arr.toNat + x.toNat then pure (pack stFull (phBit b))
    else do
      mods (fun s => s.barArrive cl n x.toNat)
      pure (pack stOk (phBit b)))).go s

/-- bexp (R141). -/
def execBexp (d : Dst) (p t : Src) (s : State) : Res :=
  (barrierOp d p t true (fun cl n x b =>
    if b.sys then pure stMode
    else if 2 ^ 48 ≤ x.toNat then pure stMode
    else if b.brk then do
      noteBroken
      pure stBroken
    else do
      mods (fun s => (s.modBar cl n (fun b => { b with pb := b.pb + x.extractLsb' 0 48 })).barCheck cl n)
      pure stOk)).go s

/-- bini (R141). -/
def execBini (d : Dst) (p t : Src) (s : State) : Res :=
  (barrierOp d p t true (fun cl n x b =>
    if b.sys || x == 0 || decide (65535 < x.toNat) then pure stMode
    else do
      mods (fun s => (s.modBar cl n (fun b =>
        { b with exp := x.extractLsb' 0 16, arr := 0, pb := 0, ph := false, brk := false })).wakeBar cl n stCancelled)
      pure stOk)).go s

/-- barw (R141): it may wait on a SYS slot. -/
def execBarw (d : Dst) (p t : Src) (s : State) : Res :=
  (withWait d (len2 p t) do
    let n ← readSrc p
    let x ← readSrc t
    if h : n.toNat < 32 then do
      let s ← gets id
      let cl := clusterOf s.cur.core
      let b := s.bar cl ⟨n.toNat, h⟩
      mods (fun s => s.useBar cl ⟨n.toNat, h⟩ s.cc.rid false)
      if b.brk then do
        noteBroken
        finish d (len2 p t) stBroken
      else if b.ph != x.getLsbD 0 then finish d (len2 p t) stOk
      else waitFor d .parkBar (.barw ⟨n.toNat, h⟩ d (len2 p t))
    else finish d (len2 p t) stMode).go s

end Sys2Proof.Machine
end

