-- ==== Sys2Proof/Machine/Engine.lean ====
section
/-! DEFINITION. The matrix and copy engines: enqueue, gates, the checks of accesses, completion, ewait, and the Drogue (R33, R169, R170,
R208-R217, R237, R320, R323, R324). -/

namespace Sys2Proof.Machine

/-! ## Queues -/

def Core.engQ (c : Core) (e : Eng) : List Cmd :=
  match e with
  | .matrix => c.mq
  | .copy => c.cq

def Core.setEngQ (c : Core) (e : Eng) (l : List Cmd) : Core :=
  match e with
  | .matrix => { c with mq := l }
  | .copy => { c with cq := l }

def engIdx : Eng → Nat
  | .matrix => 0
  | .copy => 1

def engOf (n : Nat) : Eng := if n = 0 then .matrix else .copy

/-- The stage a core is bound to. -/
def State.stageOf (s : State) (core : Nat) : Option Stage :=
  match s.region? (s.core core).rid with
  | some r => if (s.core core).bound then r.stages[(s.core core).stage]? else none
  | none => none

/-- The stage of a core changed. -/
def State.modStage (s : State) (rid st : Nat) (f : Stage → Stage) : State :=
  s.modRegion rid (fun r => { r with stages := listSet r.stages st f })

/-- Whether vector instructions of a thread have been accepted and are not complete (R184). -/
def State.vecBusy (s : State) (core : Nat) (slot : Fin 8) : Bool :=
  (s.core core).vq.any (·.slot == slot) || (s.core core).vrun.any (·.slot == slot)

/-! ## Slot ownership (R33) -/

def ownField (w : Word) (i : BitVec 2) : BitVec 16 := w.extractLsb' (16 * i.toNat) 16

def setOwnField (w : Word) (i : BitVec 2) (f : BitVec 16) : Word :=
  (w &&& ~~~(0xFFFF#64 <<< (16 * i.toNat))) ||| (f.zeroExtend 64 <<< (16 * i.toNat))

/-- The ownership check of R33 for a slot: a claim, an access by the owner, or the trap ACCOWN. -/
def claimSlot (i : BitVec 2) : Eff Unit := do
  let s ← gets id
  if s.th.cprv then pure ()
  else
    let f := ownField s.cc.accown i
    let mine : BitVec 16 := 0b10#2 ++ BitVec.ofNat 3 s.cur.slot.val ++ s.th.ctxid
    if !f.getLsbD 15 || f.extractLsb' 0 11 == s.th.ctxid then modCc (fun c => { c with accown := setOwnField c.accown i mine })
    else trapWith .accOwn (i.zeroExtend 64)

/-- The accumulator slot a command names. -/
def cmdSlot : Instr → Option (BitVec 2)
  | .mzero _ s => some s
  | .mmulF64 _ f | .mmulF32 _ f | .mmulBf16 _ f | .mmulF16 _ f | .mmulE4m3 _ f | .mmulE5m2 _ f | .mmulE4e5 _ f | .mmulNq4e4 _ f
  | .mmulNq4b _ f | .mmulI8 _ f => some f.slot
  | .mstore _ _ _ _ _ s | .mspill _ _ s | .mfill _ _ s => some s
  | _ => none

/-- Pre-emption of a context (R320): ORPH in the fields it owns whose slot a queued or running matrix command of it names. -/
def Core.orphan (c : Core) (ctx : BitVec 11) : Core :=
  (List.range 4).foldl (fun c i =>
    let n := BitVec.ofNat 2 i
    let f := ownField c.accown n
    let used := c.mq.any (fun x => x.ctxid == ctx && (match rawCmd x.word with | some y => cmdSlot y == some n | none => false))
    if f.getLsbD 15 && f.extractLsb' 0 11 == ctx && used then { c with accown := setOwnField c.accown n (f ||| 0x4000) } else c) c

/-! ## Enqueue (R81, R169, R237) -/

/-- The capability registers a command names and the permissions it needs, from the lowest field up; its completion word is apart. -/
def cmdCaps : Instr → List (BitVec 4 × BitVec 6)
  | .mmulF64 _ f | .mmulF32 _ f | .mmulBf16 _ f | .mmulF16 _ f | .mmulE4m3 _ f | .mmulE5m2 _ f | .mmulE4e5 _ f | .mmulNq4e4 _ f
  | .mmulNq4b _ f | .mmulI8 _ f => [(f.a.cap, permR)]
  | .mlatch _ f | .mtrans _ f => if f.nq then [(f.sc.cap, permR), (f.b.cap, permR)] else [(f.b.cap, permR)]
  | .mstore _ d _ _ _ _ => [(d.cap, permW)]
  | .mspill _ m _ => [(m.cap, permW)]
  | .mfill _ m _ => [(m.cap, permR)]
  | .ccopy _ s d t _ _ => [(t.cap, permR), (d.cap, permW), (s.cap, permR)]
  | .cgath _ f | .cscat _ f => [(f.i.cap, permR), (f.d.cap, permW), (f.s.cap, permR)]
  | .cscata _ f => [(f.i.cap, permR), (f.d.cap, permR ||| permW ||| permA), (f.s.cap, permR)]
  | .cmerge _ x y o _ _ _ _ => [(o.cap, permW), (y.cap, permR), (x.cap, permR)]
  | .cred _ s _ => [(s.cap, permR)]
  | .cfill _ d t _ _ => [(t.cap, permR), (d.cap, permW)]
  | .cstrm _ s t _ _ => [(t.cap, permR), (s.cap, permR)]
  | .cbcast _ s dcap _ _ _ => [(dcap, permW), (s.cap, permR)]
  | .cquant _ s k v _ => [(v.cap, permW), (k.cap, permW), (s.cap, permR)]
  | _ => []

/-- What of R81 steps 3 and 4 depends on the machine: the slot of the header, and the rules of the body, each with its lowest bit. -/
def State.sysSlot (s : State) (h : CmdHdr) : Bool := h.cmode.getLsbD 1 && (s.bar (clusterOf s.cur.core) h.bslot.toFin).sys

def State.stageChecks (s : State) (w : BitVec 256) : List (Bool × Nat) :=
  match rawCmd w with
  | some (.mrot _ _ _) => [(s.cc.ringed, Config.unringedBit)]
  | some (.cbcast _ _ _ _ _ sc) => [(sc != 0 || s.cc.ringed, 0)]
  | some (.cred _ _ r) => [((match s.stageOf s.cur.core with | some g => decide (r.toNat < g.red.length) | none => false), 0)]
  | _ => []

/-- The lowest bit of the first offending field (R81 steps 2 to 4). -/
def State.cmdReject (s : State) (e : Eng) (w : BitVec 256) : Option Nat :=
  if (rawCmd w).isNone || matrixOp (w.extractLsb' 248 8).toNat != (e == .matrix) then some 248
  else
    let hdr := (hdrChecks w).map (fun c => if c.2 = 224 then (c.1 && !s.sysSlot (hdrOf w), 224) else c)
    ((hdr ++ bodyChecks w ++ s.stageChecks w).find? (fun c => !c.1)).map Prod.snd

/-- The first three steps of R17 on a capability register that a command names (R81 step 5). -/
def cmdCapCheck (i : BitVec 4) (need : BitVec 6) : Eff Unit := do
  let c ← readA i
  let s ← gets id
  if !c.tag || c.res != 0 then trapWith .capTag (i.zeroExtend 64)
  else if c.ten != s.cc.tenant then trapWith .capTenant (i.zeroExtend 64)
  else if c.kind != kindMem || need &&& ~~~c.perms != 0 then trapWith .capPerm (i.zeroExtend 64)
  else pure ()

def cmdCapChecks : List (BitVec 4 × BitVec 6) → Eff Unit
  | [] => pure ()
  | (i, need) :: r => do
      cmdCapCheck i need
      cmdCapChecks r

/-- The side of the square or oblong tile of an accumulator type (R224). -/
def accSide (sty : BitVec 4) : Nat := if sty = 0 then 16 else 32

/-- Draws a converting mstore or ccopy takes under SR (R217). -/
def cmdDraws (i : Instr) (rm : BitVec 3) : Nat :=
  match i with
  | .mstore _ _ _ sty dty _ => if rm = 5 ∧ sty ≠ dty then accSide sty * accSide sty / 4 else 0
  | .ccopy _ _ _ _ sty dty => if rm = 5 ∧ sty ≠ dty then 2 ^ 24 else 0
  | _ => 0

/-- Bytes a command declares, where its word alone says so (R237); the cores of a cbcast are given. -/
def cmdDeclared (i : Instr) (cores : Nat) : Option Nat :=
  match i with
  | .mrot _ _ _ => some 2048
  | .mstore _ _ _ sty dty _ => some (accSide sty * accSide sty * codeBytes dty)
  | .mspill _ _ _ => some 4096
  | .cgath _ f | .cscat _ f | .cscata _ f => some (f.count.toNat * codeBytes f.ety)
  | .cmerge _ _ _ _ na nb _ _ => some (8 * (na.toNat + nb.toNat))
  | .cbcast _ _ _ _ len _ => some (len.toNat * cores)
  | .cquant _ _ _ _ n => some (33 * n.toNat + 4)
  | .ccopy _ _ _ _ _ _ | .cfill _ _ _ _ _ => none
  | _ => some 0

/-- The cores a cbcast writes (R235), as physical numbers: its ring, or the cores of its cluster and stage. -/
def State.bcastCores (s : State) (core : Nat) (sc : BitVec 1) : List Nat :=
  let c := s.core core
  (s.cores.filter (fun (n, x) => x.bound && x.rid == c.rid && x.stage == c.stage
    && (if sc = 0 then x.sidx / 16 == c.sidx / 16 else clusterOf n == clusterOf core))).map Prod.fst

/-- The threads that wait on an engine's queue. -/
def Core.engWaiters (c : Core) (e : Eng) : List (Fin 8 × Nat × Cmd × Nat) :=
  (List.finRange 8).filterMap (fun k =>
    match (c.th.get k).wait with
    | .engq x cmd len => if x = e then some (k, (c.th.get k).parkAt, cmd, len) else none
    | _ => none)

/-- A checked command enters its queue: the counters of its draws are snapshot, and the instruction retires (R169, R217). -/
def acceptCmd (e : Eng) (cmd : Cmd) (len : Nat) : Eff Unit := do
  let s ← gets id
  let t := s.th
  let i := (rawCmd cmd.word).getD .nop
  let h := hdrOf cmd.word
  let cores := match i with | .cbcast _ _ _ _ _ sc => (s.bcastCores s.cur.core sc).length | _ => 0
  let c1 := { cmd with uid := s.fresh, jseed := t.jseed, srstrm := t.srstrm, srctr := t.srctr
                       declared := (cmdDeclared i cores).getD (Config.undeclared s.tick % 2 ^ 48) }
  mods (fun s => { s with fresh := s.fresh + 1 })
  modTh (fun t => { t with cmds := t.cmds ++ [(c1.uid, e)], srctr := t.srctr + BitVec.ofNat 64 (cmdDraws i h.rms) })
  modCc (fun c => c.setEngQ e (c.engQ e ++ [c1]))
  if h.cmode.getLsbD 1 then mods (fun s => s.useBar (clusterOf s.cur.core) h.bslot.toFin s.cc.rid false) else pure ()
  retire len

/-- The word with RMS written by the core (R79, R169). -/
def withRms (w : BitVec 256) (rm : BitVec 3) : BitVec 256 := w.extractLsb' 232 24 ++ rm ++ w.extractLsb' 0 229

/-- A command as its thread enqueues it. -/
def State.newCmd (s : State) (w : BitVec 256) : Cmd :=
  let t := s.th
  { word := withRms w t.rm, uid := 0, slot := s.cur.slot, caps := t.a, lcore := t.lcore, tenant := s.cc.tenant, sup := t.cprv
    ctxid := t.ctxid, jseed := 0, srstrm := 0, srctr := 0, running := false, finished := false, status := 0, flags := 0, cursor := 0
    aux := 0, declared := 0, retired := 0, left := 0, desc := none, elems := [] }

/-- enqm and enqc (R169). -/
def enqueue (e : Eng) (v : BitVec 4) : Eff Unit := do
  let s ← gets id
  if s.vecBusy s.cur.core s.cur.slot then parkWith .waitMem .vecs
  else
    let w := s.th.vr v
    match s.cmdReject e w, rawCmd w with
    | none, some i => do
        let h := hdrOf w
        cmdCapChecks (cmdCaps i ++ if h.cmode.getLsbD 0 then [(h.ccap, permW ||| permA)] else [])
        match cmdSlot i with
        | some n => claimSlot n
        | none => pure ()
        let s ← gets id
        if (s.cc.engQ e).length < 2 ∧ (s.cc.engWaiters e).isEmpty then acceptCmd e (s.newCmd w) 4
        else waitIn .parkEngq (.engq e (s.newCmd w) 4)
    | b, _ =>
        trapWith .engCmd ((w.extractLsb' 248 8).zeroExtend 64 ||| ((BitVec.ofNat 8 (b.getD 248)).zeroExtend 64 <<< 8))

def execEnqm (v : BitVec 4) (s : State) : Res := (enqueue .matrix v).go s
def execEnqc (v : BitVec 4) (s : State) : Res := (enqueue .copy v).go s

/-- The head of a queue leaves it, and the thread that has waited longest is accepted (R211). -/
def State.popHead (s : State) (core : Nat) (e : Eng) : State :=
  let s1 := s.setCore core ((s.core core).setEngQ e ((s.core core).engQ e).tail)
  match oldest (fun x => x.2.1) ((s1.core core).engWaiters e) with
  | some (k, _, cmd, len) => s1.onThread core k (acceptCmd e cmd len)
  | none => s1

/-! ## Running a command -/

/-- Why a command stops. -/
inductive EngStop where
  | status (b : BitVec 8)
  | held (ipa kind : Nat)
  deriving DecidableEq, Repr

abbrev EngM := StateT State (Except EngStop)

def estop {α : Type} (x : EngStop) : EngM α := fun _ => .error x
def egets {α : Type} (f : State → α) : EngM α := fun s => .ok (f s, s)
def emods (f : State → State) : EngM Unit := fun s => .ok ((), f s)

/-- The statuses of R213. -/
def csBroken : BitVec 8 := 1
def csCancelled : BitVec 8 := 2
def csMode : BitVec 8 := 3
def csCapBound : BitVec 8 := 4
def csAlign : BitVec 8 := 5
def csWindow : BitVec 8 := 6
def csPriv : BitVec 8 := 7
def csPage : BitVec 8 := 8
def csIndex : BitVec 8 := 9
def csSort : BitVec 8 := 10

/-- The agent of an engine running a command of a core (R255, R270). -/
def Cmd.agent (c : Cmd) (s : State) (core : Nat) (e : Eng) : Agent :=
  { tenant := c.tenant, top := (s.core core).top, own := some core, die := dieOf core, sup := c.sup, lcore := c.lcore, slot := c.slot.val
    kind := match e with | .matrix => 1 | .copy => 3 }

/-- The snapshot of a capability register, and Base (R208). -/
def Cmd.cap (c : Cmd) (i : BitVec 4) : Cap := c.caps.get i.toFin
def Cmd.base (c : Cmd) (a : AOp) : Addr := (c.cap a.cap).cur + a.off.signExtend 48

/-- What an engine reaches (R210): the matrix engine slices and HBM, the copy engine every row. -/
def engReach (e : Eng) : Row → Bool
  | .slice _ _ | .hbm => true
  | _ => e == .copy

/-- EngCheck (R210) and the homes of the access, of which it may reach some. indexed: the address comes from an index. A row that admits
nothing of the tenant gives PAGE (R413, R414). -/
def engCheckIn (reach : Row → Bool) (e : Eng) (c : Cmd) (k : Cap) (addr size align : Nat) (a : Acc) (indexed : Bool) : EngM Spans := do
  let s ← egets id
  let ag := c.agent s s.cur.core e
  if 24 < k.e ∨ addr < k.base ∨ k.top < addr + size then estop (.status (if indexed then csIndex else csCapBound))
  else if addr % align ≠ 0 then estop (.status csAlign)
  else if !s.rowSame ag addr size then estop (.status csWindow)
  else if 0x7F0000000000 ≤ addr ∧ !c.sup then estop (.status csPriv)
  else if !reach (s.rowOf ag addr) then estop (.status csWindow)
  else if !s.hostOk c.tenant (s.rowOf ag addr) then estop (.status csPage)
  else
    match s.resolveAll ag a (s.pageParts ag addr size) with
    | .error .stage1 => estop (.status csPage)
    | .error (.stage2 ipa kind) => estop (.held ipa kind)
    | .ok (l, s1) => do
        emods (fun _ => s1)
        pure l

/-- EngCheck for what the engine reaches. -/
def engCheck (e : Eng) (c : Cmd) (k : Cap) (addr size align : Nat) (a : Acc) (indexed : Bool) : EngM Spans :=
  engCheckIn (engReach e) e c k addr size align a indexed

/-- A checked read of size bytes, as a number. -/
def engRead (e : Eng) (c : Cmd) (k : Cap) (addr size align : Nat) : EngM Nat := do
  let t ← engCheck e c k addr size align .read false
  egets (fun s => ofBytes (s.readSpans c.tenant t))

/-- Bytes of a command that have landed are retired against its barrier slot (R216), up to what it declared. -/
def landed (c : Cmd) (n : Nat) : EngM Cmd := do
  let h := hdrOf c.word
  let r := Nat.min n (c.declared - c.retired)
  if h.cmode.getLsbD 1 then emods (fun s => s.retireBytes (clusterOf s.cur.core) h.bslot.toFin r) else pure ()
  pure { c with retired := c.retired + r }

/-- Bytes written at a checked place. -/
def engPut (e : Eng) (c : Cmd) (t : Spans) (size v : Nat) : EngM Cmd := do
  emods (fun s => s.writeSpans (c.agent s s.cur.core e) (bytesOf size v) 0x09 t)
  landed c size

/-- A checked write. -/
def engWrite (e : Eng) (c : Cmd) (k : Cap) (addr size align v : Nat) : EngM Cmd := do
  let t ← engCheck e c k addr size align .write false
  engPut e c t size v

/-- The command at the head of an engine's queue. -/
def Core.engHead (c : Core) (e : Eng) : Option Cmd := (c.engQ e).head?

/-- The head of an engine's queue replaced. -/
def Core.setHead (c : Core) (e : Eng) (x : Cmd) : Core := c.setEngQ e (x :: (c.engQ e).tail)
def State.setHead (s : State) (core : Nat) (e : Eng) (x : Cmd) : State := s.setCore core ((s.core core).setHead e x)

/-- The command that an engine of the cur core runs, where it is this instruction and has work left. -/
def State.runningCmd (s : State) (e : Eng) (i : Instr) : Option Cmd :=
  match s.cc.engHead e with
  | some c => if c.running && !c.finished && decodeCmd c.word == some i then some c else none
  | none => none

/-- One piece of the work of the command at the head. A failing status ends it (R214); a stage-2 fault holds it (R210). -/
def runCmd (e : Eng) (i : Instr) (f : Cmd → EngM Cmd) (s : State) : Res :=
  match s.runningCmd e i with
  | none => .next s
  | some c =>
      match f c s with
      | .ok (c1, s1) => .next (s1.setHead s1.cur.core e c1)
      | .error (.status b) => .next (s.setHead s.cur.core e { c with finished := true, status := b, left := 0 })
      | .error (.held ipa k) => .next (s.logFault c.tenant ipa k (some (.engine s.cur.core (engIdx e))))

/-! ## Elements in no specified order (R211) -/

/-- Whether element k has been written. -/
def Cmd.written (c : Cmd) (k : Nat) : Bool :=
  decide (k < c.cursor) || c.elems.any (fun x => x.1 == k && x.2.isNone)

/-- The element taken next: any one that has not been written. -/
def Cmd.pickElem (c : Cmd) (total tick : Nat) : Nat :=
  let k0 := c.cursor + Config.element tick % (total - c.cursor)
  (((List.range (c.elems.length + 1)).map (k0 + ·)).find? (fun k => decide (k < total) && !c.written k)).getD c.cursor

/-- The cursor moves over the elements that have been written (R228). -/
def Cmd.settle (c : Cmd) : Nat → Cmd
  | 0 => c
  | n + 1 =>
      match c.elems with
      | (k, none) :: r => if k = c.cursor then { c with cursor := k + 1, elems := r }.settle n else c
      | _ => c

/-- Element k has been written. -/
def Cmd.wrote (c : Cmd) (k : Nat) : Cmd :=
  let l := insert c.elems k none
  { c with elems := l }.settle l.length

/-- One element of a command of total elements: it is read, or, once it has been read, written. -/
def elemStep (total : Nat) (read : Nat → EngM (Nat × Fl)) (write : Cmd → Nat → Nat → EngM Cmd) (c : Cmd) : EngM Cmd := do
  if total ≤ c.cursor then pure { c with finished := true }
  else do
    let tick ← egets State.tick
    let k := c.pickElem total tick
    match c.elems.find? (fun x => x.1 == k) with
    | some (_, some bits) => do
        let c1 ← write c k bits
        let c2 := c1.wrote k
        pure { c2 with finished := decide (total ≤ c2.cursor) }
    | _ => do
        let (bits, fl) ← read k
        pure { c with elems := insert c.elems k (some bits), flags := c.flags ||| fl }

/-! ## The Drogue (R323, R324, R418) -/

/-- The budget a grant gives with the module's factor (R418). -/
def State.budgetOf (s : State) (grant : Nat) : Nat :=
  Nat.max 1024 (Nat.min 65536 (Nat.max 1024 grant) * s.fw.f / 65536)

/-- The next window of a cluster, with used units in the one before. -/
def State.nextWindow (s : State) (c : Cluster) (w used : Nat) : Cluster :=
  let b := s.budgetOf c.grantB
  { c with window := w, budget := b, slew := c.grantS, used := 0
           allow := if c.grantS = 0 then b else Nat.min b (used + c.grantS) }

/-- The cluster in window w (R323): a window that has passed without an mmul has used nothing. -/
def State.rollTo (s : State) (c : Cluster) (w : Nat) : Cluster :=
  if w ≤ c.window then c else s.nextWindow c w (if w = c.window + 1 then c.used else 0)

/-- The engines of a cluster with an mmul in progress, and the cycles each has left. -/
def State.asking (s : State) (cl : Nat) : List (Nat × Nat) :=
  s.cores.filterMap (fun (n, c) =>
    match c.mq with
    | x :: _ => if clusterOf n = cl ∧ x.running ∧ x.left ≠ 0 then some (n, x.left) else none
    | [] => none)

/-- A cycle of grants. -/
structure Grant where
  left  : List (Nat × Nat)
  free  : Nat
  last  : Nat
  stall : Nat
  deriving DecidableEq, Repr

/-- One cycle (R324): every asking engine is granted, or those the remaining units reach, in order after the last one granted. -/
def Grant.cycle (g : Grant) : Grant :=
  let ask := g.left.filter (fun x => x.2 != 0)
  if ask.length ≤ g.free then
    { g with left := g.left.map (fun x => (x.1, x.2 - 1)), free := g.free - ask.length }
  else
    let order := ask.filter (fun x => decide (g.last < x.1)) ++ ask.filter (fun x => decide (x.1 ≤ g.last))
    let won := (order.take g.free).map Prod.fst
    { left := g.left.map (fun x => if won.contains x.1 then (x.1, x.2 - 1) else x), free := 0
      last := won.getLast?.getD g.last, stall := g.stall + (ask.length - g.free) }

/-- n cycles of a cluster from cycle t on, window by window. -/
def State.grants (s : State) : Nat → Nat → Cluster × List (Nat × Nat) → Cluster × List (Nat × Nat)
  | 0, _, x => x
  | n + 1, t, (c, l) =>
      let c1 := s.rollTo c (t / 1024)
      let g := ({ left := l, free := c1.allow - c1.used, last := c1.lastGrant, stall := 0 } : Grant).cycle
      s.grants n (t + 1)
        ({ c1 with used := c1.allow - g.free, drgstat := c1.drgstat + BitVec.ofNat 48 g.stall, lastGrant := g.last }, g.left)

/-- The cycles of an mmul that is in progress have been granted. -/
def State.setLeft (s : State) (core left : Nat) : State :=
  match (s.core core).mq with
  | x :: r => s.setCore core { s.core core with mq := { x with left := left } :: r }
  | [] => s

/-- The grants of a cluster up to now (R323, R324): cycle by cycle while an mmul is in progress. -/
def State.settleDrogue (s : State) (cl : Nat) : State :=
  let c := s.cluster cl
  let x := match s.asking cl with
    | [] => (c, [])
    | l => s.grants (s.cycle - c.drgAt) c.drgAt (c, l)
  x.2.foldl (fun (s : State) y => s.setLeft y.1 y.2) (s.setCluster cl { s.rollTo x.1 (s.cycle / 1024) with drgAt := s.cycle })

/-- Every cluster's grants up to now. -/
def State.settleAll (s : State) : State := (s.clusters.map Prod.fst).foldl State.settleDrogue s

/-- DROGUE_WINDOW (R323, R324): cluster cur.idx. -/
def execDrogueWindow (s : State) : Res := .next (s.settleDrogue s.cur.idx)

/-! ## Gates and completion -/

/-- Whether the head of a queue can start (R172, R211). -/
def Core.canStart (c : Core) (e : Eng) : Bool :=
  match c.engHead e with
  | some x =>
      let g := (hdrOf x.word).gate
      !x.running && (g == 0xF || c.xbpend.getLsbD g.toNat)
  | none => false

/-- A word of a command's report: written where its place is in a slice and passes EngCheck; false where it is suppressed (R215). -/
def State.report (s : State) (core : Nat) (e : Eng) (c : Cmd) (off : Nat) (v : Word) (stf : Bool) : Bool × State :=
  let h := hdrOf c.word
  let k := c.cap h.ccap
  let addr := (k.cur + h.coff.signExtend 48).toNat + off
  let ag := c.agent s core e
  match s.rowOf ag addr with
  | .slice o f =>
      if 24 < k.e ∨ addr < k.base ∨ k.top < addr + 8 ∨ addr % 8 ≠ 0 then (false, s)
      else
        let s1 := s.writeAt ag (.sram o f) (bytesOf 8 v.toNat) 0x09
        (true, if stf then (s1.setFull (sramKey o f) true).feServeAll o (sramKey o f) else s1)
  | _ => (false, s)

/-- The cursor a command records (R237): 0 for those that have none. -/
def Cmd.shownCursor (c : Cmd) : Nat :=
  match decodeCmd c.word with
  | some (.ccopy ..) | some (.cgath ..) | some (.cscat ..) | some (.cscata ..) | some (.cmerge ..) | some (.cfill ..) | some (.cstrm ..)
  | some (.cquant ..) => c.cursor
  | _ => 0

/-- The completion of a command (R215). Its flags reach CFLAGS at once, of the 8 cycles of R246: DESIGN CHOICE (entry 108). -/
def State.completeCmd (s : State) (core : Nat) (e : Eng) (c : Cmd) : State :=
  let h := hdrOf c.word
  let s := if h.cmode.getLsbD 1 then s.retireBytes (clusterOf core) h.bslot.toFin (c.declared - c.retired) else s
  let mail := h.cmode.getLsbD 0
  let s := if mail && h.smode == 2 then (s.report core e c 8 c.aux false).2 else s
  let word : Word := c.status ++ 0#2 ++ (if h.smode = 0 then 0#6 else c.flags) ++ (if h.smode = 2 then BitVec.ofNat 48 c.shownCursor else 0#48)
  let (told, s) := if mail then s.report core e c 0 word true else (true, s)
  let s := s.pulse core (match e with | .matrix => 0 | .copy => 2)
  let s := if c.status = 0 ∧ told then s else { s with failed := c.uid :: s.failed }
  let cl := clusterOf core
  let s := s.setCluster cl { s.cluster cl with cflags := withFlags (s.cluster cl).cflags c.flags }
  let s := s.noteNode core (fun n => { n with fpf := n.fpf ||| c.flags })
  if c.status = csBroken then s.noteFsum core 4 else s

/-- The cycles the command at the head still needs now. -/
def State.leftNow (s : State) (core : Nat) (e : Eng) : Nat :=
  match ((s.settleDrogue (clusterOf core)).core core).engHead e with
  | some x => x.left
  | none => 0

/-- Whether the command at the head has ended; an mmul has when it has been granted all its cycles. -/
def State.ended (s : State) (core : Nat) (e : Eng) : Bool :=
  match (s.core core).engHead e with
  | some x => x.running && x.finished && (x.left == 0 || s.leftNow core e == 0)
  | none => false

/-- COMMAND_COMPLETE (R215): cur.idx is the engine. -/
def execCommandComplete (s : State) : Res :=
  let e := engOf s.cur.idx
  match s.cc.engHead e with
  | some x =>
      if s.ended s.cur.core e then
        .next (((s.settleDrogue (clusterOf s.cur.core)).completeCmd s.cur.core e x).popHead s.cur.core e)
      else .next s
  | none => .next s

/-! ## ewait (R170) -/

/-- Whether a command has yet to complete. -/
def State.cmdOpen (s : State) (uid : Nat) : Bool :=
  s.cores.any (fun (_, c) => c.mq.any (·.uid == uid) || c.cq.any (·.uid == uid) || c.strms.any (·.cmd.uid == uid))

/-- Whether a thread's commands on an engine are selected by a mask. -/
def selects (m : BitVec 3) : Eng → Bool
  | .matrix => m.getLsbD 0
  | .copy => m.getLsbD 2

/-- The mask of an ewait: its operand, read once. -/
def ewaitMask (p : Src) : Eff (BitVec 3) := do
  let s ← gets id
  match s.th.wait with
  | .ewait m => pure m
  | _ => do
      let w ← readSrc p
      pure (w.extractLsb' 0 3)

def execEwait (d : Dst) (p : Src) (s : State) : Res :=
  (withWait d (len1 p) do
    let m ← ewaitMask p
    let s ← gets id
    let mine := s.th.cmds.filter (fun x => selects m x.2)
    if mine.any (fun x => s.cmdOpen x.1) || (m.getLsbD 1 && s.vecBusy s.cur.core s.cur.slot) then waitFor d .waitMem (.ewait m)
    else do
      let bad := fun e : Eng => mine.any (fun x => x.2 == e && s.failed.contains x.1)
      modTh (fun t => { t with cmds := t.cmds.filter (fun x => !selects m x.2) })
      mods (fun s => { s with failed := s.failed.filter (fun u => !mine.any (fun x => x.1 == u)) })
      finish d (len1 p) (bit (bad .matrix) ||| (bit (bad .copy) <<< 2))).go s

end Sys2Proof.Machine
end

