-- ==== Sys2Proof/Machine/Queue.lean ====
section
/-! DEFINITION. Queue registers and channels: state, waiting, closing, arrivals and breaks (R134-R138, R286, R291). -/

namespace Sys2Proof.Machine

/-! ## The state of a queue register (R134) -/

/-- What an instruction sees of qN: whether it is bound, closed, broken and drained, the words of its buffer, what is pending (arrived
elements, whole slots, or free slots), and the allowance. -/
structure QView where
  bound  : Bool
  closed : Bool
  broken : Bool
  buf    : Nat
  pend   : Nat
  allow  : Nat
  deriving DecidableEq, Repr

def QView.drained (v : QView) : Bool := v.closed && v.pend == 0 && v.buf == 0

/-- qN as the cur thread sees it. -/
def State.view (s : State) (i : BitVec 3) : QView :=
  if h : i.toNat < 4 then
    let q := s.th.strm.get ⟨i.toNat, h⟩
    { bound := q.bound, closed := q.closed, broken := q.broken, buf := 0, pend := q.elems.length, allow := 0 }
  else
    let ep := s.cc.ep.get (epOf i)
    let recv := i = 4 ∨ i = 5
    { bound := ep.bound, closed := ep.closed, broken := ep.broken
      buf := (if recv then s.th.rbuf.get (bufOf i) else s.th.sbuf.get (bufOf i)).length
      pend := if recv then ep.slots.length else s.freeSlots ep
      allow := ep.allow }

/-- Whether the thread's next read or write of qN would complete without parking (R135): of the slots at a receive endpoint, those owed
to siblings that parked before are not its own. -/
def State.polls (s : State) (i : BitVec 3) : Bool :=
  let v := s.view i
  let ep := s.cc.ep.get (epOf i)
  if i.toNat < 4 then v.bound && v.pend != 0
  else if i = 4 ∨ i = 5 then v.bound && (v.buf != 0 || (!ep.tether && decide (s.aheadIn (popsFrom (epOf i)) < v.pend)))
  else v.bound && !v.closed && !v.broken && !(ep.tether && v.buf == 0) && (decide (v.buf < 3) || s.maySend ep)

/-- qstat (R134). -/
def execQstat (d : Dst) (q : BitVec 3) (s : State) : Res :=
  (withD d 4 (do
    let s ← gets id
    let v := s.view q
    pure (if v.bound then
      0#16 ++ BitVec.ofNat 16 v.allow ++ BitVec.ofNat 16 v.pend ++ BitVec.ofNat 8 v.buf ++ 0#4 ++ BitVec.ofBool v.drained
        ++ BitVec.ofBool v.broken ++ BitVec.ofBool v.closed ++ 1#1
      else 0))).go s

/-- qpoll (R135). -/
def execQpoll (d : Dst) (q : BitVec 3) (s : State) : Res := (withD d 4 (gets (fun s => bit (s.polls q)))).go s

/-- qcnt (R135). -/
def execQcnt (d : Dst) (q : BitVec 3) (s : State) : Res :=
  (withD d 4 (gets (fun s =>
    let v := s.view q
    if !v.bound then 0 else BitVec.ofNat 64 (if q = 4 ∨ q = 5 then v.buf + 4 * v.pend else v.pend)))).go s

/-- The status with which a qwait ends now, if it ends (R138). -/
def State.qwaitEnd (s : State) (q : BitVec 3) : Option Word :=
  let v := s.view q
  if !v.bound then some stMode
  else if s.polls q then some stOk
  else if v.drained then some stCancelled
  else if v.broken then some stBroken
  else none

/-- The end of a qwait. -/
def qwaitDone (d : Dst) (len : Nat) (st : Word) : Eff Unit := do
  if st = stBroken then noteBroken else pure ()
  finish d len st

/-- The limit of a qwait: from its operand, read once, when it first waits. -/
def qwaitLimit (t : Src) : Eff (Option Nat) := do
  let s ← gets id
  match s.th.wait with
  | .qwait _ _ _ e => pure e
  | _ => do
      let k ← readSrc t
      pure (if k = 0 then none else some (s.cycle + k.toNat))

/-- qwait (R138). -/
def execQwait (d : Dst) (q : BitVec 3) (t : Src) (s : State) : Res :=
  (withWait d (len1 t) do
    let e ← qwaitLimit t
    let s ← gets id
    match s.qwaitEnd q with
    | some st => qwaitDone d (len1 t) st
    | none => waitFor d (if q.toNat < 4 then .waitMem else .parkQ) (.qwait q d (len1 t) e)).go s

/-- QWAIT_TIMEOUT (R138). -/
def execQwaitTimeout (s : State) : Res :=
  match s.th.wait with
  | .qwait q d len (some e) =>
      if e ≤ s.cycle then (qwaitDone d len ((s.qwaitEnd q).getD stTimeout)).go s else .next s
  | _ => .next s

/-! ## Closing (R136) -/

/-- A stream job of a core ends: its command completes with a status (R234). -/
def State.endStream (s : State) (core num : Nat) (status : BitVec 8) : State :=
  match (s.core core).strms.find? (·.num == num) with
  | some j =>
      let c := s.core core
      let s1 := s.setCore core { c with strms := c.strms.filter (·.num != num) }
      s1.completeCmd core .copy { j.cmd with status := status, cursor := j.next, finished := true }
  | none => s

/-- A send buffer of a thread replaced. -/
def Thread.setSbuf (t : Thread) (b : Fin 2) (l : List Word) : Thread := { t with sbuf := t.sbuf.set b.val l b.isLt }

/-- Whether a thread is parked on the fourth word of a send endpoint. -/
def sendsOn (b : Fin 2) : Wait → Bool
  | .send e _ _ _ => e.toFin == b
  | _ => false

/-- A thread meets the end of a send endpoint: parked on its fourth word, it traps, and keep words stay in the buffer; a full buffer that it
has yet to offer again stays, and its offer ends so (R56, R136). -/
def State.endSend (s : State) (core : Nat) (slot : Fin 8) (b : Fin 2) (keep : Nat) (c : Cause) : State :=
  let t := s.thAt core slot
  if sendsOn b t.wait then { (s.at_ core slot).endOffer b keep c with cur := s.cur }
  else if (t.sbuf.get b).length = 4 then s
  else s.setThAt core slot (t.setSbuf b ((t.sbuf.get b).take keep))

/-- qclose (R136). -/
def execQclose (d : Dst) (q : BitVec 3) (s : State) : Res :=
  (withEff d 4 (do
    let s ← gets id
    if h : q.toNat < 4 then
      let st := s.th.strm.get ⟨q.toNat, h⟩
      if st.bound then do
        mods (fun s => if st.closed || st.broken then s else s.endStream st.src st.num csCancelled)
        modTh (fun t => { t with strm := t.strm.set q.toNat Stream.none h })
        pure stOk
      else pure stMode
    else if q = 6 ∨ q = 7 then
      let b := bufOf q
      let ep := s.cc.ep.get (epOf q)
      let v := s.view q
      if v.bound && v.broken then do
        noteBroken
        pure stBroken
      else if v.bound && v.buf != 0 then pure stFull
      else if v.bound && !v.closed then do
        modCc (fun c => c.setEp (epOf q) (fun p => { p with closed := true }))
        mods (fun s => { s with net := s.net ++ [.close s.cur.core ep.peer ep.peerEp] })
        mods (fun s => (List.finRange 8).foldl (fun s k => if k = s.cur.slot then s else s.endSend s.cur.core k b 0 .qMisuse) s)
        pure stOk
      else pure stMode
    else pure stMode)).go s

/-! ## Messages (R137, R286, R333) -/

/-- The link a message travels on. -/
def Msg.link : Msg → Option (Nat × Nat × BitVec 1)
  | .slot a d e _ | .close a d e | .announce a d e _ => some (a, d, e)
  | .tile _ _ _ _ _ _ => none

def Msg.dst : Msg → Nat
  | .slot _ d _ _ | .close _ d _ | .announce _ d _ _ | .tile _ d _ _ _ _ => d

/-- Message i, where it is the first of its link and its core has not executed done. -/
def State.arriving (s : State) (i : Nat) : Option Msg :=
  match s.net[i]? with
  | some m =>
      if (s.net.take i).all (fun x => x.link != m.link || m.link.isNone) && !(s.core m.dst).done then some m else none
  | none => none

/-- A receive endpoint, q4 or q5. -/
def recvEp (e : BitVec 1) : Fin 4 := ⟨e.toNat, by omega⟩
/-- A send endpoint, q6 or q7. -/
def sendEp (e : BitVec 1) : Fin 4 := ⟨2 + e.toNat, by omega⟩

/-- SLOT_ARRIVAL (R286): message cur.idx reaches its endpoint, and crossbar input 4 or 5 pulses (R171). -/
def execSlotArrival (s : State) : Res :=
  match s.arriving s.cur.idx with
  | some (.slot _ d e w) =>
      let s1 := { s with net := s.net.eraseIdx s.cur.idx }
      let s2 := s1.setCore d ((s1.core d).setEp (recvEp e) (fun p => { p with slots := p.slots ++ [w] }))
      .next (s2.pulse d (if e = 0 then 4 else 5))
  | _ => .next s

/-- CLOSE_MARKER_ARRIVAL (R137, R333): the channel is closed once every sender has closed; the bound of a Tether link has no limit
any more. -/
def execCloseMarkerArrival (s : State) : Res :=
  match s.arriving s.cur.idx with
  | some (.close _ d e) =>
      let s1 := { s with net := s.net.eraseIdx s.cur.idx }
      .next (s1.setCore d ((s1.core d).setEp (recvEp e) (fun p =>
        { p with senders := p.senders - 1, closed := p.closed || decide (p.senders ≤ 1), bnd := BitVec.allOnes 64 })))
  | _ => .next s

/-- CHANNEL_SLOT_FREED (R56, R266, R286): the cur thread is parked on its fourth word and its channel takes the slot. -/
def execChannelSlotFreed (s : State) : Res :=
  match s.th.wait with
  | .send e len x redo => (offer e.toFin len x redo).go s
  | _ => .next s

/-! ## Breaks (R56, R137, R338, R382) -/

/-- The send endpoints wired to a receive endpoint. -/
def State.feeders (s : State) (dst : Nat) (e : BitVec 1) : List (Nat × Fin 2) :=
  s.cores.flatMap (fun (n, c) =>
    (List.finRange 2).filterMap (fun b =>
      let p := c.ep.get ⟨2 + b.val, by omega⟩
      if p.bound ∧ p.peer = dst ∧ p.peerEp = e then some (n, b) else none))

/-- A channel breaks at both ends. What is on its way is lost; a channel that has closed has ended and does not break. -/
def State.breakChannel (s : State) (dst : Nat) (e : BitVec 1) : State :=
  if ((s.core dst).ep.get (recvEp e)).closed then s
  else
    let s1 := { s with net := s.net.filter (fun m => match m.link with | some (_, d, x) => !(d == dst && x == e) | none => true) }
    let s2 := s1.setCore dst ((s1.core dst).setEp (recvEp e) (fun p => { p with broken := true }))
    (s2.feeders dst e).foldl (fun s (n, b) =>
      let s := s.setCore n ((s.core n).setEp ⟨2 + b.val, by omega⟩ (fun p => { p with broken := true }))
      (List.finRange 8).foldl (fun s k => s.endSend n k b 3 .broken) s) s2

/-- The channel behind a send endpoint breaks. -/
def State.breakSend (s : State) (core : Nat) (b : Fin 2) : State :=
  let p := (s.core core).ep.get ⟨2 + b.val, by omega⟩
  if p.bound then s.breakChannel p.peer p.peerEp else s

/-- The Tether send links a core leaves open when it executes done break (R338). -/
def State.breakDone (s : State) (core : Nat) : State :=
  (List.finRange 2).foldl (fun (s : State) b =>
    let p := (s.core core).ep.get ⟨2 + b.val, by omega⟩
    if p.bound && p.tether && !p.closed then s.breakSend core b else s) s

/-- Every channel of a core breaks; only its Tether links where tetherOnly is set. -/
def State.breakCore (s : State) (core : Nat) (tetherOnly : Bool) : State :=
  let c := s.core core
  let hit := fun i : Fin 4 => (c.ep.get i).bound && (!tetherOnly || (c.ep.get i).tether)
  let s1 := (List.finRange 2).foldl (fun s b => if hit ⟨2 + b.val, by omega⟩ then s.breakSend core b else s) s
  [0#1, 1#1].foldl (fun s e => if hit (recvEp e) then s.breakChannel core e else s) s1

/-- MSG_TO_DONE (R291, R319, R380): message cur.idx reaches a core that has executed done. -/
def State.toDone (s : State) (i : Nat) : Option Msg :=
  match s.net[i]? with
  | some m => if (s.core m.dst).done && (s.core m.dst).bound then some m else none
  | none => none

/-! ## When the events of this file are due -/

def State.dueQueue (s : State) : List Move :=
  (List.range s.net.length).flatMap (fun i =>
    match s.arriving i with
    | some (.slot _ d _ _) => [Move.event (curOf d 0 i) .slotArrival]
    | some (.close _ d _) => [Move.event (curOf d 0 i) .closeMarkerArrival]
    | _ => [])
  ++ s.threads.flatMap (fun (n, k, t) =>
    evIf (match t.wait with | .send e _ _ _ => (s.at_ n k).maySend ((s.core n).ep.get (sendEp e)) | _ => false) n k 0 .channelSlotFreed
    ++ evIf (match t.wait with | .qwait _ _ _ (some e) => decide (e ≤ s.cycle) | _ => false) n k 0 .qwaitTimeout)

end Sys2Proof.Machine
end

