-- ==== Sys2Proof/Machine/Tether.lean ====
section
/-! DEFINITION. Tether mode (R163-R168, R329-R338). -/

namespace Sys2Proof.Machine

/-! ## Local virtual time (R163, R330) -/

def minOf (l : List Nat) : Option Nat := oldest id l

/-- The inbound Tether links of a core: 0 for q4, 1 for q5. -/
def Core.inLinks (c : Core) : List (BitVec 1) := [0#1, 1#1].filter (fun e => (c.ep.get (recvEp e)).bound && (c.ep.get (recvEp e)).tether)

/-- TSAFE: the least bound of the inbound links; all ones where there is none. -/
def Core.tsafe (c : Core) : Nat := (minOf (c.inLinks.map (fun e => (c.ep.get (recvEp e)).bnd.toNat))).getD (2 ^ 64 - 1)

/-- The timestamp of the head of an inbound link. -/
def Core.headTime (c : Core) (e : BitVec 1) : Option Nat := (c.ep.get (recvEp e)).slots.head?.map (fun w => (w.extractLsb' 0 64).toNat)

def Core.heads (c : Core) : List Nat := c.inLinks.filterMap c.headTime

/-- The timestamps of the events a core holds: those of its slots, and those of its pre-empted threads (R337). -/
def Core.heldTimes (c : Core) : List Nat :=
  (List.finRange 8).filterMap (fun k => (c.held.get k).map (fun h => h.time.toNat)) ++ c.heldOut.map (fun x => x.2.time.toNat)

/-- VT (R163). -/
def Core.vt (c : Core) : Nat :=
  match minOf c.heldTimes with
  | some t => t
  | none => (minOf (c.tsafe :: c.heads)).getD 0

/-- LB (R330). -/
def Core.lb (c : Core) : Nat := (minOf (c.tsafe :: c.heads ++ c.heldTimes)).getD 0

/-- A clock plus a lookahead, no larger than 2^64 - 1 (R330). -/
def satAdd (a : Nat) (l : Word) : Nat := Nat.min (2 ^ 64 - 1) (a + l.toNat)

/-! ## trecv (R164, R336) -/

/-- The earliest safe head; q4 before q5. -/
def Core.safeHead (c : Core) : Option (BitVec 1) :=
  (oldest (fun x : BitVec 1 × Nat => x.2) (c.inLinks.filterMap (fun e => (c.headTime e).map (fun t => (e, t))))).bind (fun x =>
    if x.2 < c.tsafe then some x.1 else none)

def isTrecv : Wait → Bool
  | .trecv => true
  | _ => false

/-- The two results of trecv, and its retirement. -/
def trecvEnd (d : Dst) (e : BitVec 5) (t ge : Word) : Eff Unit := do
  writeG e ge
  finish d 4 t

def execTrecv (d : Dst) (e : BitVec 5) (s : State) : Res :=
  (withWait d 4 do
    useG e
    let s ← gets id
    let c := s.cc
    let t := s.th
    if !c.tether || (c.held.get s.cur.slot).isSome || (t.rbuf.get 0).length != 0 || (t.rbuf.get 1).length != 0 then
      trecvEnd d e 0 (pack stMode 0)
    else
      let ends := c.inLinks.all (fun x => (c.ep.get (recvEp x)).closed && (c.ep.get (recvEp x)).slots.isEmpty)
      match c.safeHead with
      | some x =>
          if s.aheadIn isTrecv ≠ 0 then parkWith .parkTether .trecv
          else
            match (c.ep.get (recvEp x)).slots with
            | w :: r => do
                let ts := w.extractLsb' 0 64
                modCc (fun c => { c.setEp (recvEp x) (fun p => { p with slots := r }) with
                  held := c.held.set s.cur.slot.val (some { time := ts, ep := x }) s.cur.slot.isLt })
                modTh (fun t => { t with rbuf := t.rbuf.set x.toNat ((slotWords w).drop 1) (by omega) })
                trecvEnd d e ts (pack stOk (x.zeroExtend 64))
            | [] => pure ()
      | none =>
          if ends then trecvEnd d e 0 (pack stCancelled 0)
          else match c.inLinks.find? (fun x => (c.ep.get (recvEp x)).broken) with
            | some x => do
                noteBroken
                trecvEnd d e 0 (pack stBroken (x.zeroExtend 64))
            | none => parkWith .parkTether .trecv).go s

/-! ## tsend, tann, tlah and tdone (R165-R168) -/

/-- The outbound Tether link behind a queue register: QMISUSE where there is none; body where it is open and whole. A link that is
closed is no link to write any more (R136). -/
def onLink (d : Dst) (q : BitVec 3) (t : Src) (body : Word → Ep → Eff Word) : Eff Unit :=
  withEff d (len1 t) do
    let v ← readSrc t
    let s ← gets id
    let ep := s.cc.ep.get (epOf q)
    if !s.cc.tether then pure stMode
    else if !(q = 6 ∨ q = 7) || !ep.bound || !ep.tether then trapWith .qMisuse (qCode q)
    else if ep.broken then do
      noteBroken
      pure stBroken
    else if ep.closed then trapWith .qMisuse (qCode q)
    else body v ep

/-- tsend (R165). -/
def execTsend (d : Dst) (q : BitVec 3) (t : Src) (s : State) : Res :=
  (onLink d q t (fun ts ep => do
    let s ← gets id
    let buf := s.th.sbuf.get (bufOf q)
    if buf.length ≠ 0 then pure stMode
    else
      let ref := match s.cc.held.get s.cur.slot with | some h => h.time.toNat | none => s.cc.vt
      if ts.toNat < ref + ep.lout.toNat ∨ ts.toNat < ep.floor.toNat then trapWith .lAhead ts
      else do
        modTh (fun x => x.setSbuf (bufOf q) [ts])
        pure stOk)).go s

/-- A bound is announced on an outbound link (R166, R332). -/
def State.announce (s : State) (core : Nat) (i : Fin 4) (b : Nat) : State :=
  let c := s.core core
  let ep := c.ep.get i
  let w := BitVec.ofNat 64 b
  { s.setCore core (c.setEp i (fun p => { p with floor := w })) with net := s.net ++ [.announce core ep.peer ep.peerEp w] }

/-- tann (R166). -/
def execTann (d : Dst) (q : BitVec 3) (t : Src) (s : State) : Res :=
  (onLink d q t (fun a ep => do
    let b := satAdd a.toNat ep.lout
    if b ≤ ep.floor.toNat then pure stOk
    else do
      mods (fun s => s.announce s.cur.core (epOf q) b)
      pure stOk)).go s

/-- tlah (R167). -/
def execTlah (d : Dst) (q : BitVec 3) (t : Src) (s : State) : Res :=
  (onLink d q t (fun l ep =>
    if l = 0 ∧ !ep.cert then trapWith .zeroLa (qCode q)
    else if 2 ^ 63 ≤ l.toNat then pure stMode
    else do
      modCc (fun c => c.setEp (epOf q) (fun p => { p with lout := l }))
      pure stOk)).go s

/-- tdone (R168). -/
def execTdone (d : Dst) (s : State) : Res :=
  (withEff d 4 (do
    let s ← gets id
    match s.cc.held.get s.cur.slot with
    | some h =>
        if s.cc.tether then do
          modCc (fun c => { c with held := c.held.set s.cur.slot.val none s.cur.slot.isLt })
          modTh (fun t => { t with rbuf := t.rbuf.set h.ep.toNat [] (by omega) })
          pure stOk
        else pure stMode
    | none => pure stMode)).go s

/-! ## Announcements (R332, R333) -/

/-- Whether every thread of a core that counts waits in PARK_TETHER. -/
def Core.allWait (c : Core) : Bool :=
  (List.finRange 8).all (fun k =>
    match (c.th.get k).state with
    | .empty | .idleW | .hold | .parkTether => true
    | _ => false)

/-- Whether a parked trecv is about to take a head. -/
def Core.handing (c : Core) : Bool := c.safeHead.isSome && (List.finRange 8).any (fun k => isTrecv (c.th.get k).wait)

/-- Whether the network interface announces on a send link now. -/
def Core.announces (c : Core) (e : BitVec 1) : Bool :=
  let p := c.ep.get (sendEp e)
  let b := satAdd c.lb p.lout
  c.bound && c.tether && p.bound && p.tether && !p.closed && !p.broken && !c.handing
  && ((c.allWait && decide (p.floor.toNat < b)) || decide (p.floor.toNat + 2 ^ c.qlog ≤ b))

/-- TETHER_ANNOUNCE (R332): cur.idx is 0 for q6 and 1 for q7. -/
def execTetherAnnounce (s : State) : Res :=
  let e := BitVec.ofNat 1 s.cur.idx
  let c := s.cc
  if c.announces e then .next (s.announce s.cur.core (sendEp e) (satAdd c.lb (c.ep.get (sendEp e)).lout)) else .next s

/-- TETHER_ANNOUNCE_ARRIVAL (R333): message cur.idx. -/
def execTetherAnnounceArrival (s : State) : Res :=
  match s.arriving s.cur.idx with
  | some (.announce _ d e b) =>
      let s1 := { s with net := s.net.eraseIdx s.cur.idx }
      .next (s1.setCore d ((s1.core d).setEp (recvEp e) (fun p => { p with bnd := if p.bnd.ult b then b else p.bnd })))
  | _ => .next s

def State.dueTether (s : State) : List Move :=
  s.cores.flatMap (fun (n, c) => [0#1, 1#1].flatMap (fun e => evIf (c.announces e) n 0 e.toNat .tetherAnnounce))
  ++ (List.range s.net.length).flatMap (fun i =>
    match s.arriving i with
    | some (.announce _ d _ _) => [Move.event (curOf d 0 i) .tetherAnnounceArrival]
    | _ => [])

end Sys2Proof.Machine
end

