-- ==== Sys2Proof/Machine/Matrix.lean ====
section
/-! DEFINITION. The matrix commands (R218-R226, R240, R247-R249, R315-R319). -/

namespace Sys2Proof.Machine

/-! ## Tiles as bits -/

/-- n elements of w bits, the first lowest. -/
def elemsOf (w n v : Nat) : List Nat := (List.range n).map (fun i => v / 2 ^ (w * i) % 2 ^ w)

/-- The bits of elements of w bits. -/
def ofElems (w : Nat) : List Nat → Nat
  | [] => 0
  | x :: r => x % 2 ^ w + 2 ^ w * ofElems w r

def Core.slotBits (c : Core) (i : BitVec 2) : Nat := (c.acc.get i.toFin).toNat
def Core.setSlot (c : Core) (i : BitVec 2) (v : Nat) : Core := { c with acc := c.acc.set i.toNat (BitVec.ofNat 32768 v) i.isLt }
def Core.latchBits (c : Core) (i : BitVec 1) : Nat := (c.latch.get i.toFin).toNat
def Core.setLatch (c : Core) (i : BitVec 1) (v : Nat) : Core := { c with latch := c.latch.set i.toNat (BitVec.ofNat 16384 v) i.isLt }
def Core.setScale (c : Core) (i : BitVec 1) (v : BitVec 544) : Core := { c with scale := c.scale.set i.toNat v i.isLt }

def emodCc (f : Core → Core) : EngM Unit := emods (fun s => s.setCc (f s.cc))

/-- The results of an effect for each of some numbers, in order. -/
def forRows {α : Type} (f : Nat → EngM α) : List Nat → EngM (List α)
  | [] => pure []
  | i :: r => do
      let x ← f i
      let l ← forRows f r
      pure (x :: l)

/-! ## mzero, mspill and mfill (R219, R225) -/

def execMzero (h : CmdHdr) (slot : BitVec 2) (s : State) : Res :=
  runCmd .matrix (.mzero h slot) (fun c => do
    emodCc (fun x => x.setSlot slot 0)
    pure { c with finished := true }) s

/-- A slot moves in 128 accesses of 32 bytes, 32-aligned. -/
def execMspill (h : CmdHdr) (m : AOp) (slot : BitVec 2) (s : State) : Res :=
  runCmd .matrix (.mspill h m slot)
    (elemStep 128
      (fun k => egets (fun s => (s.cc.slotBits slot / 2 ^ (256 * k) % 2 ^ 256, 0)))
      (fun c k v => engWrite .matrix c (c.cap m.cap) ((c.base m).toNat + 32 * k) 32 32 v)) s

def execMfill (h : CmdHdr) (m : AOp) (slot : BitVec 2) (s : State) : Res :=
  runCmd .matrix (.mfill h m slot)
    (fun c => elemStep 128
      (fun k => do
        let v ← engRead .matrix c (c.cap m.cap) ((c.base m).toNat + 32 * k) 32 32
        pure (v, 0))
      (fun c k v => do
        emodCc (fun x =>
          let old := x.slotBits slot
          x.setSlot slot (old - (old / 2 ^ (256 * k) % 2 ^ 256) * 2 ^ (256 * k) + v * 2 ^ (256 * k)))
        pure c) c) s

/-! ## mmul (R220, R221, R247-R249) -/

/-- A mode of mmul: M = N, K_t, the bits of an A and of a B element, the bytes of an A row, the bits of an accumulator element, the
cycles, and the sum of one element from the mode RMS, the column, the scale store, the accumulator and the operands. -/
structure MulMode where
  side   : Nat
  kt     : Nat
  aw     : Nat
  bw     : Nat
  row    : Nat
  accw   : Nat
  cycles : Nat
  dot    : BitVec 3 → Nat → Nat → Nat → List Nat → List Nat → Fr

/-- One fused rounding per product (FP64 and FP32). -/
def fusedDot (f : Fmt) (rm : BitVec 3) (acc : Nat) (as bs : List Nat) : Fr :=
  (as.zip bs).foldl (fun r x => let y := f.fma (arithMode rm) x.1 x.2 r.bits; { y with fl := y.fl ||| r.fl }) { bits := acc, fl := 0 }

/-- Groups of g products, each with one rounding (R248). -/
def groupDot (fa fb : Fmt) (g : Nat) (rm : BitVec 3) (acc : Nat) (as bs : List Nat) : Fr :=
  let ps := (as.zip bs).map (fun x => (fa.decode x.1).mul (fb.decode x.2))
  (List.range (ps.length / g)).foldl
    (fun r i => let y := groupSum rm (fp32.decode r.bits) ((ps.drop (g * i)).take g); { y with fl := y.fl ||| r.fl })
    { bits := acc, fl := 0 }

/-- The magnitudes of the NQ4 codebook in units of 2^-12 (R240). -/
def nq4Mag (m : Nat) : Nat :=
  match m with
  | 0 => 173 | 1 => 520 | 2 => 884 | 3 => 1272 | 4 => 1712 | 5 => 2224 | 6 => 2896 | _ => 4096

/-- CB(c) times n, times 2^-8 (R240, R241). -/
def nq4Value (c n : Nat) : Fv := .fin (decide (8 ≤ c % 16)) (nq4Mag (c % 8) * n) (-20)

def Fv.isFin : Fv → Bool
  | .fin _ _ _ => true
  | _ => false

/-- The sum T of an NQ4 element whose operands are numbers; none is an invalid sum. -/
def nq4Total (l : List Fv) : Option Fv :=
  match l.contains (.inf false), l.contains (.inf true) with
  | true, true => none
  | true, false => some (.inf false)
  | false, true => some (.inf true)
  | false, false => let (v, e) := exactSum (Fv.terms l); some (.fin (decide (v < 0)) v.natAbs e)

/-- NQ4Sum with operands that are not all finite (R249): with a NaN among them, what GroupSum's first lines meet, an infinity of A having
the sign of its product; without one, S meets T as in IEEE multiplication. -/
def nq4Special (c sv : Fv) (l : List Fv) : Fr :=
  let nans := l.filter Fv.isNan ++ if sv.isNan then [sv] else []
  let infs := (l.filter (fun v => !v.isNan && !v.isFin)).map (fun v => if sv.isNan then some v else v.mul sv)
  let ts := if c.isNan || !nans.isEmpty then infs ++ nans.map some else [(nq4Total l).bind (fun v => v.mul sv)]
  (sumSpecial fp32 c ts).getD (fp32.nanRes 0)

/-- NQ4Sum (R249): the column j and the scale store sc. -/
def nq4Dot (fa : Fmt) (rm : BitVec 3) (j sc acc : Nat) (as bs : List Nat) : Fr :=
  let sv := fp32.decode (sc % 2 ^ 32)
  let blk := fun b => sc / 2 ^ (32 + 8 * (2 * j + b)) % 256 + 1
  let ps := ((as.zip bs).mapIdx (fun k x => (fa.decode x.1).mul (nq4Value x.2 (blk (k / 64)))))
  let c := fp32.decode acc
  if sv.isFin && ps.all (fun p => match p with | some v => v.isFin | none => false) then
    nq4Sum rm c (ps.map (fun p => p.bind (fun v => v.mul sv)))
  else nq4Special c sv (ps.filterMap id)

/-- INT8 sums modulo 2^32. -/
def int8Dot (acc : Nat) (as bs : List Nat) : Fr :=
  let sx := fun v : Nat => ((BitVec.ofNat 8 v).toInt)
  { bits := intBits 32 ((as.zip bs).foldl (fun r x => r + sx x.1 * sx x.2) (acc : Int)), fl := 0 }

def modeF64 : MulMode :=
  { side := 16, kt := 16, aw := 64, bw := 64, row := 128, accw := 64, cycles := 4096, dot := fun rm _ _ => fusedDot fp64 rm }
def modeF32 : MulMode :=
  { side := 32, kt := 16, aw := 32, bw := 32, row := 64, accw := 32, cycles := 4096, dot := fun rm _ _ => fusedDot fp32 rm }
def modeNarrow (fa fb : Fmt) (g kt : Nat) : MulMode :=
  { side := 32, kt := kt, aw := fa.w, bw := fb.w, row := 64, accw := 32, cycles := 2048, dot := fun rm _ _ => groupDot fa fb g rm }
def modeNq4 (fa : Fmt) (row cycles : Nat) : MulMode :=
  { side := 32, kt := 128, aw := fa.w, bw := 4, row := row, accw := 32, cycles := cycles, dot := nq4Dot fa }
def modeI8 : MulMode :=
  { side := 32, kt := 64, aw := 8, bw := 8, row := 64, accw := 32, cycles := 2048, dot := fun _ _ _ => int8Dot }

/-- The elements of an accumulator after a tile, row by row, with their flags. -/
def MulMode.tile (m : MulMode) (rm : BitVec 3) (acc lt sc : Nat) (rows : List Nat) : List Fr :=
  let cols := (List.range m.side).map (fun j => (List.range m.kt).map (fun k => lt / 2 ^ (m.bw * (k * m.side + j)) % 2 ^ m.bw))
  (rows.mapIdx (fun i a =>
    let as := elemsOf m.aw m.kt a
    cols.mapIdx (fun j bs => m.dot rm j sc (acc / 2 ^ (m.accw * (i * m.side + j)) % 2 ^ m.accw) as bs))).flatten

/-- Whether a row of R19 is a core's slice. -/
def inSlice (n : Nat) : Row → Bool
  | .slice c _ => c == n
  | _ => false

/-- mmul: the rows of A are read from the core's own slice, and every sum is formed. -/
def mmul (m : MulMode) (f : MmulF) (c : Cmd) : EngM Cmd := do
  let rows ← forRows (fun i => do
    let n ← egets (fun s => s.cur.core)
    let t ← engCheckIn (inSlice n) .matrix c (c.cap f.a.cap) ((c.base f.a).toNat + i * f.str.toNat) m.row 32 .read false
    egets (fun s => ofBytes (s.readSpans c.tenant t))) (List.range m.side)
  let x ← egets State.cc
  let l := m.tile (hdrOf c.word).rms (x.slotBits f.slot) (x.latchBits f.latch) (x.scale.get f.latch.toFin).toNat rows
  let used := m.accw * (m.side * m.side)
  emodCc (fun x => x.setSlot f.slot (ofElems m.accw (l.map Fr.bits) + x.slotBits f.slot / 2 ^ used * 2 ^ used))
  pure { c with finished := true, flags := l.foldl (fun a r => a ||| r.fl) c.flags }

def execMmulF64 (h : CmdHdr) (f : MmulF) (s : State) : Res := runCmd .matrix (.mmulF64 h f) (mmul modeF64 f) s
def execMmulF32 (h : CmdHdr) (f : MmulF) (s : State) : Res := runCmd .matrix (.mmulF32 h f) (mmul modeF32 f) s
def execMmulBf16 (h : CmdHdr) (f : MmulF) (s : State) : Res := runCmd .matrix (.mmulBf16 h f) (mmul (modeNarrow bf16 bf16 4 32) f) s
def execMmulF16 (h : CmdHdr) (f : MmulF) (s : State) : Res := runCmd .matrix (.mmulF16 h f) (mmul (modeNarrow fp16 fp16 4 32) f) s
def execMmulE4m3 (h : CmdHdr) (f : MmulF) (s : State) : Res := runCmd .matrix (.mmulE4m3 h f) (mmul (modeNarrow e4m3 e4m3 8 64) f) s
def execMmulE5m2 (h : CmdHdr) (f : MmulF) (s : State) : Res := runCmd .matrix (.mmulE5m2 h f) (mmul (modeNarrow e5m2 e5m2 8 64) f) s
def execMmulE4e5 (h : CmdHdr) (f : MmulF) (s : State) : Res := runCmd .matrix (.mmulE4e5 h f) (mmul (modeNarrow e4m3 e5m2 8 64) f) s
def execMmulNq4e4 (h : CmdHdr) (f : MmulF) (s : State) : Res := runCmd .matrix (.mmulNq4e4 h f) (mmul (modeNq4 e4m3 128 2048) f) s
def execMmulNq4b (h : CmdHdr) (f : MmulF) (s : State) : Res := runCmd .matrix (.mmulNq4b h f) (mmul (modeNq4 bf16 256 8192) f) s
def execMmulI8 (h : CmdHdr) (f : MmulF) (s : State) : Res := runCmd .matrix (.mmulI8 h f) (mmul modeI8 f) s

/-- The cycles for which the matrix engine runs a command under the Drogue (R220, R323): none but an mmul's. -/
def mmulCycles : Instr → Nat
  | .mmulF64 _ _ => modeF64.cycles
  | .mmulF32 _ _ => modeF32.cycles
  | .mmulNq4b _ _ => (modeNq4 bf16 256 8192).cycles
  | .mmulBf16 _ _ | .mmulF16 _ _ | .mmulE4m3 _ _ | .mmulE5m2 _ _ | .mmulE4e5 _ _ | .mmulNq4e4 _ _ | .mmulI8 _ _ => 2048
  | _ => 0

/-! ## mlatch and mtrans (R222) -/

/-- Bits of an element, K_t and N of a tile of a type. -/
def tileShape (fmt : BitVec 4) (nq : Bool) : Nat × Nat × Nat :=
  if nq then (4, 128, 32)
  else match fmt.toNat with
    | 0 => (64, 16, 16)
    | 1 => (32, 16, 32)
    | 2 | 3 => (16, 32, 32)
    | _ => (8, 64, 32)

/-- A latch with the memory rows that have been read in it: rows of B, or columns of B. -/
def fillLatch (w kt n old : Nat) (cols : Bool) (rows : List (Option Nat)) : Nat :=
  ofElems w ((List.range (kt * n)).map (fun x =>
    let k := x / n
    let j := x % n
    let (i, p) := if cols then (j, k) else (k, j)
    match rows[i]? with
    | some (some r) => r / 2 ^ (w * p) % 2 ^ w
    | _ => old / 2 ^ (w * x) % 2 ^ w))

/-- Rows read: those that can be read, and the status of the first that cannot. A stage-2 fault holds the command, unless a row before
it has failed. -/
def readRows (f : Nat → EngM Nat) : List Nat → Option (BitVec 8) → EngM (List (Option Nat) × Option (BitVec 8))
  | [], bad => pure ([], bad)
  | i :: r, bad => fun s =>
      let put := fun (x : Option Nat) (y : Except EngStop ((List (Option Nat) × Option (BitVec 8)) × State)) =>
        match y with
        | .ok ((l, e), s2) => .ok ((x :: l, e), s2)
        | .error z => .error z
      match f i s, bad with
      | .ok (x, s1), _ => put (some x) (readRows f r bad s1)
      | .error (.status b), _ => put none (readRows f r (bad.orElse (fun _ => some b)) s)
      | .error (.held _ _), some _ => put none (readRows f r bad s)
      | .error z, none => .error z

/-- mlatch and mtrans. Where a row fails, or the scales, which of the others have reached the latch is left open (R211, R214; entry 25). -/
def latchTile (cols : Bool) (row : Nat) (f : MlatchF) (c : Cmd) : EngM Cmd := do
  let (w, kt, n) := tileShape f.fmt f.nq
  let count := if cols then n else kt
  let (rows, bad) ← readRows (fun i =>
    engRead .matrix c (c.cap f.b.cap) ((c.base f.b).toNat + i * f.str.toNat) row 16) (List.range count) none
  let (sc, bad) ← (if f.nq then readRows (fun _ => engRead .matrix c (c.cap f.sc.cap) (c.base f.sc).toNat 68 4) [0] bad
    else pure ([], bad))
  let s ← egets id
  let kept := (rows ++ sc).mapIdx (fun i r => if bad.isSome && !Config.partialRow s.tick i then none else r)
  emodCc (fun x =>
    let x1 := x.setLatch f.latch (fillLatch w kt n (x.latchBits f.latch) cols (kept.take count))
    match (kept.drop count).head? with
    | some (some v) => x1.setScale f.latch (BitVec.ofNat 544 v)
    | _ => x1)
  pure { c with finished := true, status := bad.getD 0 }

def execMlatch (h : CmdHdr) (f : MlatchF) (s : State) : Res := runCmd .matrix (.mlatch h f) (latchTile false (latchRow f.fmt f.nq) f) s
def execMtrans (h : CmdHdr) (f : MlatchF) (s : State) : Res := runCmd .matrix (.mtrans h f) (latchTile true (transRow f.fmt f.nq) f) s

/-! ## mrot (R223, R319) -/

/-- The core at the next position of a core's ring. -/
def State.ringNext (s : State) (core : Nat) : Option Nat :=
  let c := s.core core
  (s.cores.find? (fun (_, x) => x.bound && x.rid == c.rid && x.stage == c.stage
    && x.sidx == c.sidx / 16 * 16 + (c.sidx + 1) % 16)).map Prod.fst

/-- mrot sends the tile; the command is at its end when the tile is in place. -/
def execMrot (h : CmdHdr) (sl dl : BitVec 1) (s : State) : Res :=
  runCmd .matrix (.mrot h sl dl) (fun c =>
    match c.elems with
    | [] => do
        let s ← egets id
        match s.ringNext s.cur.core with
        | some d => do
            emods (fun s => { s with net := s.net ++
              [.tile s.cur.core d c.uid dl (s.cc.latch.get sl.toFin) (s.cc.scale.get sl.toFin)] })
            pure { c with elems := [(0, none)] }
        | none => pure { c with finished := true }
    | _ => pure c) s

/-- Whether the running command of a core's matrix engine reads a latch. -/
def Core.readsLatch (c : Core) (l : BitVec 1) : Bool :=
  match c.mq with
  | x :: _ =>
      x.running && (match rawCmd x.word with
        | some (.mmulF64 _ f) | some (.mmulF32 _ f) | some (.mmulBf16 _ f) | some (.mmulF16 _ f) | some (.mmulE4m3 _ f)
        | some (.mmulE5m2 _ f) | some (.mmulE4e5 _ f) | some (.mmulNq4e4 _ f) | some (.mmulNq4b _ f) | some (.mmulI8 _ f) => f.latch == l
        | some (.mrot _ sl _) => sl == l && x.elems.isEmpty
        | _ => false)
  | [] => false

/-- Whether a message is a tile that can be written where it is going. -/
def State.tileReady (s : State) : Msg → Bool
  | .tile _ d _ dl _ _ => !(s.core d).done && (s.core d).bound && !(s.core d).readsLatch dl
  | _ => false

/-- MROT_TILE_ARRIVE (R223): message cur.idx is written whole, and the command that sent it has ended. -/
def execMrotTileArrive (s : State) : Res :=
  match s.net[s.cur.idx]? with
  | some (.tile src d uid dl lt sc) =>
      if s.tileReady (.tile src d uid dl lt sc) then
        let s1 := { s with net := s.net.eraseIdx s.cur.idx }
        let s2 := s1.setCore d (((s1.core d).setLatch dl lt.toNat).setScale dl sc)
        let c := s2.core src
        .next (s2.setCore src { c with mq := c.mq.map (fun x => if x.uid = uid then { x with finished := true } else x) })
      else .next s
  | _ => .next s

/-! ## mstore (R224) -/

/-- An element converted, or copied where the types are equal (R224, R228). Element k of a command draws field k under SR (R217). -/
def Cmd.convert (c : Cmd) (dty sty : BitVec 4) (k bits : Nat) : Nat × Fl :=
  match LaneTy.ofCode dty, LaneTy.ofCode sty with
  | some d, some y =>
      if d = y then (bits, 0)
      else
        let rm := (hdrOf c.word).rms
        let r := Sys2Proof.Machine.convert d y rm (if rm = 5 then srField c.jseed c.lcore c.srstrm c.srctr k else 0) bits
        (r.bits, r.fl)
  | _, _ => (bits, 0)

def execMstore (h : CmdHdr) (d : AOp) (str : BitVec 16) (sty dty : BitVec 4) (slot : BitVec 2) (s : State) : Res :=
  let n := accSide sty
  let sw := 8 * codeBytes sty
  let db := codeBytes dty
  runCmd .matrix (.mstore h d str sty dty slot)
    (fun c => elemStep (n * n)
      (fun k => egets (fun s => c.convert dty sty k (s.cc.slotBits slot / 2 ^ (sw * k) % 2 ^ sw)))
      (fun c k v => engWrite .matrix c (c.cap d.cap) ((c.base d).toNat + (k / n * str.toNat + k % n * db)) db db v) c) s

end Sys2Proof.Machine
end

