-- ==== Sys2Proof/Machine/Vector.lean ====
section
/-! DEFINITION. The vector engine: issue, acceptance, start and completion, and what each vector and mask instruction computes
(R183-R207). -/

namespace Sys2Proof.Machine

/-! ## Lanes (R188, R190) -/

/-- What an instruction writes when it completes: a vector register, a mask register, the value of a g register, and its flags. -/
structure VOut where
  v  : Option (BitVec 4 × BitVec 256)
  k  : Option (BitVec 3 × BitVec 32)
  g  : Option Word
  fl : Fl
  deriving DecidableEq, Repr

def VOut.none : VOut := { v := .none, k := .none, g := .none, fl := 0 }

/-- The lanes of a register. -/
def lanesOf (ty : LaneTy) (x : BitVec 256) : List Nat := elemsOf ty.width ty.lanes x.toNat

/-- A register from its lanes. -/
def ofLanes (ty : LaneTy) (l : List Nat) : BitVec 256 := BitVec.ofNat 256 (ofElems ty.width l)

/-- Lane i of a list. -/
def laneAt (l : List Nat) (i : Nat) : Nat := (l[i]?).getD 0

def orFlags (l : List Fr) : Fl := l.foldl (fun a r => a ||| r.fl) 0

/-- The signed or unsigned number of a lane. -/
def laneInt (ty : LaneTy) (x : Nat) : Int := if ty.isSigned && decide (2 ^ (ty.width - 1) ≤ x) then (x : Int) - 2 ^ ty.width else x

/-- A result without flags. -/
def bare (x : Nat) : Fr := { bits := x, fl := 0 }

/-- A lane operation: one for the floating types, one for the integer types. -/
def byType (ty : LaneTy) (rm : BitVec 3) (f : Fmt → BitVec 3 → Fr) (i : Int) : Fr :=
  match ty.fmt with
  | some y => f y (arithMode rm)
  | .none => bare (intBits ty.width i)

/-- vd with each active lane replaced by the result of f on its number and on the lanes of vs, vt and the old vd. -/
def eachLane (t : Thread) (vd vs vt : BitVec 4) (km : BitVec 3) (ty : LaneTy) (f : Nat → Nat → Nat → Nat → Fr) : VOut :=
  let a := lanesOf ty (t.vr vs)
  let b := lanesOf ty (t.vr vt)
  let c := lanesOf ty (t.vr vd)
  let m := t.kr km
  let l := (List.range ty.lanes).map (fun i => if m.getLsbD i then f i (laneAt a i) (laneAt b i) (laneAt c i) else bare (laneAt c i))
  { VOut.none with v := some (vd, ofLanes ty (l.map Fr.bits)), fl := orFlags l }

/-- vcmp (R193): a whole mask; NV for any NaN, or for a signalling one alone. -/
def compareLanes (t : Thread) (kd : BitVec 3) (vs vt : BitVec 4) (km : BitVec 3) (ty : LaneTy) (any : Bool)
    (hf : FRel → Bool) (hi : Int → Int → Bool) : VOut :=
  let a := lanesOf ty (t.vr vs)
  let b := lanesOf ty (t.vr vt)
  let m := t.kr km
  let l := (List.range ty.lanes).map (fun i =>
    if m.getLsbD i then
      match ty.fmt with
      | some f => relRes f any hf (laneAt a i) (laneAt b i)
      | .none => bare (if hi (laneInt ty (laneAt a i)) (laneInt ty (laneAt b i)) then 1 else 0)
    else bare 0)
  { VOut.none with k := some (kd, BitVec.ofNat 32 (ofElems 1 (l.map Fr.bits))), fl := orFlags l }

/-- The active lanes below a lane. -/
def activeBelow (m : BitVec 32) (i : Nat) : Nat := ((List.range i).filter m.getLsbD).length

/-- vcvt (R196, R197): the lanes of part p. Active lanes are numbered for their draws. -/
def convertLanes (o : VOp) (t : Thread) (vd vs p : BitVec 4) (km : BitVec 3) (d y : LaneTy) : VOut :=
  let src := lanesOf y (t.vr vs)
  let old := lanesOf d (t.vr vd)
  let m := t.kr km
  let from_ := fun j : Nat =>
    if y.lanes < d.lanes then (if p.toNat * y.lanes ≤ j ∧ j < (p.toNat + 1) * y.lanes then some (j - p.toNat * y.lanes) else .none)
    else some (p.toNat * d.lanes * (if d.lanes < y.lanes then 1 else 0) + j)
  let lo := if y.lanes < d.lanes then p.toNat * y.lanes else 0
  let l := (List.range d.lanes).map (fun j =>
    match from_ j with
    | some i =>
        if m.getLsbD j then
          convert d y o.rm (if o.rm = 5 then srField o.jseed o.lcore o.srstrm o.srctr (activeBelow m j - activeBelow m lo) else 0) (laneAt src i)
        else bare (laneAt old j)
    | .none => bare (laneAt old j))
  { VOut.none with v := some (vd, ofLanes d (l.map Fr.bits)), fl := orFlags l }

/-- The destination lanes of a vcvt that are active: the count A of R197. -/
def convertActive (m : BitVec 32) (p : BitVec 4) (d y : LaneTy) : Nat :=
  if y.lanes < d.lanes then activeBelow m ((p.toNat + 1) * y.lanes) - activeBelow m (p.toNat * y.lanes) else activeBelow m d.lanes

/-- vred (R199). -/
def reduceLanes (o : VOp) (t : Thread) (vd vs : BitVec 4) (km : BitVec 3) (ty : LaneTy) : VOut :=
  let m := t.kr km
  let on := ((lanesOf ty (t.vr vs)).mapIdx (fun i x => (i, x))).filter (fun x => m.getLsbD x.1)
  let r := match on with
    | [] => bare 0
    | (_, x) :: rest => rest.foldl (fun (s : Fr) (y : Nat × Nat) =>
        let z := byType ty o.rm (fun f rm => f.add rm s.bits y.2) ((s.bits : Int) + y.2)
        { z with fl := z.fl ||| s.fl }) (bare x)
  { VOut.none with v := some (vd, ofLanes ty (r.bits :: (lanesOf ty (t.vr vd)).drop 1)), fl := r.fl }

/-- The accumulator width of vdot (R199). -/
def dotWidth (ty : LaneTy) : Nat := if ty.width = 64 then 64 else 32

/-- vdot (R199). -/
def dotLanes (o : VOp) (t : Thread) (vd vs vt : BitVec 4) (km : BitVec 3) (ty : LaneTy) : VOut :=
  let m := t.kr km
  let w := dotWidth ty
  let old := (t.vr vd).toNat
  let on := (((lanesOf ty (t.vr vs)).zip (lanesOf ty (t.vr vt))).mapIdx (fun i x => (i, x))).filter (fun x => m.getLsbD x.1)
  let r := on.foldl (fun (s : Fr) (y : Nat × Nat × Nat) =>
    match ty.fmt with
    | some f =>
        let g := if w = 64 then fp64 else fp32
        let z := g.fmaV (arithMode o.rm) (f.decode y.2.1) (f.decode y.2.2) (g.decode s.bits)
        { z with fl := z.fl ||| s.fl }
    | .none => bare (intBits w ((s.bits : Int) + laneInt ty y.2.1 * laneInt ty y.2.2))) (bare (old % 2 ^ w))
  { VOut.none with v := some (vd, BitVec.ofNat 256 (old / 2 ^ w * 2 ^ w + r.bits)), fl := r.fl }

/-! ## What each instruction computes -/

/-- vadd (R191). -/
def vaddOf (o : VOp) (t : Thread) (vd vs vt : BitVec 4) (km : BitVec 3) (ty : LaneTy) : VOut :=
  eachLane t vd vs vt km ty (fun _ a b _ => byType ty o.rm (fun f rm => f.add rm a b) ((a : Int) + b))

/-- vsub (R191). -/
def vsubOf (o : VOp) (t : Thread) (vd vs vt : BitVec 4) (km : BitVec 3) (ty : LaneTy) : VOut :=
  eachLane t vd vs vt km ty (fun _ a b _ => byType ty o.rm (fun f rm => f.sub rm a b) ((a : Int) - b))

/-- vmul (R191). -/
def vmulOf (o : VOp) (t : Thread) (vd vs vt : BitVec 4) (km : BitVec 3) (ty : LaneTy) : VOut :=
  eachLane t vd vs vt km ty (fun _ a b _ => byType ty o.rm (fun f rm => f.mul rm a b) ((a : Int) * b))

/-- vfma (R191). -/
def vfmaOf (o : VOp) (t : Thread) (vd vs vt : BitVec 4) (km : BitVec 3) (ty : LaneTy) : VOut :=
  eachLane t vd vs vt km ty (fun _ a b c => byType ty o.rm (fun f rm => f.fma rm a b c) ((a : Int) * b + c))

/-- vmin (R191). -/
def vminOf (o : VOp) (t : Thread) (vd vs vt : BitVec 4) (km : BitVec 3) (ty : LaneTy) : VOut :=
  eachLane t vd vs vt km ty (fun _ a b _ => byType ty o.rm (fun f _ => f.pick false a b) (min (laneInt ty a) (laneInt ty b)))

/-- vmax (R191). -/
def vmaxOf (o : VOp) (t : Thread) (vd vs vt : BitVec 4) (km : BitVec 3) (ty : LaneTy) : VOut :=
  eachLane t vd vs vt km ty (fun _ a b _ => byType ty o.rm (fun f _ => f.pick true a b) (max (laneInt ty a) (laneInt ty b)))

/-- vabs (R191). -/
def vabsOf (_o : VOp) (t : Thread) (vd vs : BitVec 4) (km : BitVec 3) (ty : LaneTy) : VOut :=
  eachLane t vd vs vs km ty (fun _ a _ _ => match ty.fmt with
    | some f => bare (a % f.signBit)
    | .none => bare (intBits ty.width (laneInt ty a).natAbs))

/-- vneg (R191). -/
def vnegOf (_o : VOp) (t : Thread) (vd vs : BitVec 4) (km : BitVec 3) (ty : LaneTy) : VOut :=
  eachLane t vd vs vs km ty (fun _ a _ _ => match ty.fmt with
    | some f => bare (a % f.signBit + (1 - a / f.signBit) * f.signBit)
    | .none => bare (intBits ty.width (-(a : Int))))

/-- vsclb (R191). -/
def vsclbOf (o : VOp) (t : Thread) (vd vs vt : BitVec 4) (km : BitVec 3) (ty : LaneTy) : VOut :=
  eachLane t vd vs vt km ty (fun _ a b _ =>
    byType ty o.rm (fun f rm => f.scale rm a (if 2 ^ (ty.width - 1) ≤ b then (b : Int) - 2 ^ ty.width else b)) a)

/-- vand (R192). -/
def vandOf (_o : VOp) (t : Thread) (vd vs vt : BitVec 4) (km : BitVec 3) (ty : LaneTy) : VOut :=
  eachLane t vd vs vt km ty (fun _ a b _ => bare (a &&& b))

/-- vor (R192). -/
def vorOf (_o : VOp) (t : Thread) (vd vs vt : BitVec 4) (km : BitVec 3) (ty : LaneTy) : VOut :=
  eachLane t vd vs vt km ty (fun _ a b _ => bare (a ||| b))

/-- vxor (R192). -/
def vxorOf (_o : VOp) (t : Thread) (vd vs vt : BitVec 4) (km : BitVec 3) (ty : LaneTy) : VOut :=
  eachLane t vd vs vt km ty (fun _ a b _ => bare (a ^^^ b))

/-- vshl (R192). -/
def vshlOf (_o : VOp) (t : Thread) (vd vs vt : BitVec 4) (km : BitVec 3) (ty : LaneTy) : VOut :=
  eachLane t vd vs vt km ty (fun _ a b _ => bare (a * 2 ^ (b % ty.width) % 2 ^ ty.width))

/-- vshr (R192). -/
def vshrOf (_o : VOp) (t : Thread) (vd vs vt : BitVec 4) (km : BitVec 3) (ty : LaneTy) : VOut :=
  eachLane t vd vs vt km ty (fun _ a b _ => bare (a / 2 ^ (b % ty.width)))

/-- vsar (R192): copies of the top bit fill, whatever the signedness. -/
def vsarOf (_o : VOp) (t : Thread) (vd vs vt : BitVec 4) (km : BitVec 3) (ty : LaneTy) : VOut :=
  eachLane t vd vs vt km ty (fun _ a b _ =>
    bare (intBits ty.width ((if 2 ^ (ty.width - 1) ≤ a then (a : Int) - 2 ^ ty.width else a) / 2 ^ (b % ty.width))))

/-- vsel (R193): km chooses, lane by lane, and every lane is written. -/
def vselOf (_o : VOp) (t : Thread) (vd vs vt : BitVec 4) (km : BitVec 3) (ty : LaneTy) : VOut :=
  let a := lanesOf ty (t.vr vs)
  let b := lanesOf ty (t.vr vt)
  let m := t.kr km
  { VOut.none with v := some (vd, ofLanes ty ((List.range ty.lanes).map (fun i => if m.getLsbD i then laneAt a i else laneAt b i))) }

/-- vcls (R194). -/
def vclsOf (_o : VOp) (t : Thread) (vd vs : BitVec 4) (km : BitVec 3) (ty : LaneTy) : VOut :=
  eachLane t vd vs vs km ty (fun _ a _ _ => bare (match ty.fmt with | some f => 2 ^ f.classBit a | .none => 0))

/-- vexp2 (R198). -/
def vexp2Of (o : VOp) (t : Thread) (vd vs : BitVec 4) (km : BitVec 3) (ty : LaneTy) : VOut :=
  eachLane t vd vs vs km ty (fun _ a _ _ => byType ty o.rm (fun f rm => f.exp2 rm a) a)

/-- vlog2 (R198). -/
def vlog2Of (o : VOp) (t : Thread) (vd vs : BitVec 4) (km : BitVec 3) (ty : LaneTy) : VOut :=
  eachLane t vd vs vs km ty (fun _ a _ _ => byType ty o.rm (fun f rm => f.log2 rm a) a)

/-- vrcp (R198). -/
def vrcpOf (o : VOp) (t : Thread) (vd vs : BitVec 4) (km : BitVec 3) (ty : LaneTy) : VOut :=
  eachLane t vd vs vs km ty (fun _ a _ _ => byType ty o.rm (fun f rm => f.rcp rm a) a)

/-- vrsq (R198). -/
def vrsqOf (o : VOp) (t : Thread) (vd vs : BitVec 4) (km : BitVec 3) (ty : LaneTy) : VOut :=
  eachLane t vd vs vs km ty (fun _ a _ _ => byType ty o.rm (fun f rm => f.rsq rm a) a)

/-- vbc (R200). -/
def vbcOf (o : VOp) (t : Thread) (vd : BitVec 4) (km : BitVec 3) (ty : LaneTy) : VOut :=
  eachLane t vd vd vd km ty (fun _ _ _ _ => bare (o.gs.toNat % 2 ^ ty.width))

/-- vmovg (R200). -/
def vmovgOf (o : VOp) (t : Thread) (vs : BitVec 4) (ty : LaneTy) : VOut :=
  { VOut.none with g := some (BitVec.ofInt 64 (laneInt ty (laneAt (lanesOf ty (t.vr vs)) (o.gt.toNat % ty.lanes)))) }

/-- vins (R200). -/
def vinsOf (o : VOp) (t : Thread) (vd : BitVec 4) (ty : LaneTy) : VOut :=
  let i := o.gt.toNat % ty.lanes
  { VOut.none with v := some (vd, ofLanes ty ((lanesOf ty (t.vr vd)).mapIdx (fun j x => if j = i then o.gs.toNat % 2 ^ ty.width else x))) }

/-- vperm (R200). -/
def vpermOf (_o : VOp) (t : Thread) (vd vs vt : BitVec 4) (km : BitVec 3) (ty : LaneTy) : VOut :=
  eachLane t vd vs vt km ty (fun _ _ b _ => bare (laneAt (lanesOf ty (t.vr vs)) (b % ty.lanes)))

/-- vrot (R200). -/
def vrotOf (o : VOp) (t : Thread) (vd vs : BitVec 4) (km : BitVec 3) (ty : LaneTy) : VOut :=
  eachLane t vd vs vs km ty (fun i _ _ _ => bare (laneAt (lanesOf ty (t.vr vs)) ((i + o.gt.toNat) % ty.lanes)))

/-- A mask register written. -/
def maskOut (kd : BitVec 3) (m : BitVec 32) : VOut := { VOut.none with k := some (kd, m) }

/-- What a register instruction writes, from the registers as they stand; none for the memory and accumulator instructions. -/
def vEval (o : VOp) (t : Thread) : Option VOut :=
  match o.instr with
  | .vadd vd vs vt km ty => some (vaddOf o t vd vs vt km ty)
  | .vsub vd vs vt km ty => some (vsubOf o t vd vs vt km ty)
  | .vmul vd vs vt km ty => some (vmulOf o t vd vs vt km ty)
  | .vfma vd vs vt km ty => some (vfmaOf o t vd vs vt km ty)
  | .vmin vd vs vt km ty => some (vminOf o t vd vs vt km ty)
  | .vmax vd vs vt km ty => some (vmaxOf o t vd vs vt km ty)
  | .vabs vd vs km ty => some (vabsOf o t vd vs km ty)
  | .vneg vd vs km ty => some (vnegOf o t vd vs km ty)
  | .vsclb vd vs vt km ty => some (vsclbOf o t vd vs vt km ty)
  | .vand vd vs vt km ty => some (vandOf o t vd vs vt km ty)
  | .vor vd vs vt km ty => some (vorOf o t vd vs vt km ty)
  | .vxor vd vs vt km ty => some (vxorOf o t vd vs vt km ty)
  | .vshl vd vs vt km ty => some (vshlOf o t vd vs vt km ty)
  | .vshr vd vs vt km ty => some (vshrOf o t vd vs vt km ty)
  | .vsar vd vs vt km ty => some (vsarOf o t vd vs vt km ty)
  | .vcmpEq kd vs vt km ty => some (compareLanes t kd vs vt km ty false (· == .eq) (fun a b => a == b))
  | .vcmpNe kd vs vt km ty => some (compareLanes t kd vs vt km ty false (· != .eq) (fun a b => a != b))
  | .vcmpLt kd vs vt km ty => some (compareLanes t kd vs vt km ty true (· == .lt) (fun a b => decide (a < b)))
  | .vcmpLe kd vs vt km ty => some (compareLanes t kd vs vt km ty true (fun r => r == .lt || r == .eq) (fun a b => decide (a ≤ b)))
  | .vcmpGt kd vs vt km ty => some (compareLanes t kd vs vt km ty true (· == .gt) (fun a b => decide (b < a)))
  | .vcmpGe kd vs vt km ty => some (compareLanes t kd vs vt km ty true (fun r => r == .gt || r == .eq) (fun a b => decide (b ≤ a)))
  | .vsel vd vs vt km ty => some (vselOf o t vd vs vt km ty)
  | .vcls vd vs km ty => some (vclsOf o t vd vs km ty)
  | .vcvt vd vs p km d y => some (convertLanes o t vd vs p km d y)
  | .vbc vd _ km ty => some (vbcOf o t vd km ty)
  | .vmovg _ vs _ ty => some (vmovgOf o t vs ty)
  | .vins vd _ _ ty => some (vinsOf o t vd ty)
  | .vperm vd vs vt km ty => some (vpermOf o t vd vs vt km ty)
  | .vrot vd vs _ km ty => some (vrotOf o t vd vs km ty)
  | .vred vd vs km ty => some (reduceLanes o t vd vs km ty)
  | .vdot vd vs vt km ty => some (dotLanes o t vd vs vt km ty)
  | .vexp2 vd vs km ty => some (vexp2Of o t vd vs km ty)
  | .vlog2 vd vs km ty => some (vlog2Of o t vd vs km ty)
  | .vrcp vd vs km ty => some (vrcpOf o t vd vs km ty)
  | .vrsq vd vs km ty => some (vrsqOf o t vd vs km ty)
  | .kand kd ks kt => some (maskOut kd (t.kr ks &&& t.kr kt))
  | .kor kd ks kt => some (maskOut kd (t.kr ks ||| t.kr kt))
  | .kxor kd ks kt => some (maskOut kd (t.kr ks ^^^ t.kr kt))
  | .knot kd ks => some (maskOut kd (~~~(t.kr ks)))
  | .kmovKk kd ks => some (maskOut kd (t.kr ks))
  | .kmovKg kd _ => some (maskOut kd (o.gs.extractLsb' 0 32))
  | .kmovGk _ ks => some { VOut.none with g := some ((t.kr ks).zeroExtend 64) }
  | .kpop _ ks => some { VOut.none with g := some (BitVec.ofNat 64 (onesOf (t.kr ks) 32)) }
  | _ => none

/-! ## Registers an instruction reads and writes (R183) -/

/-- Vector register i is i, mask register i is 16 + i. -/
def vn (i : BitVec 4) : Nat := i.toNat
def kn (i : BitVec 3) : Nat := 16 + i.toNat

/-- The registers an instruction writes, and those it reads besides them. -/
def vWrites : Instr → List Nat
  | .vadd d _ _ _ _ | .vsub d _ _ _ _ | .vmul d _ _ _ _ | .vfma d _ _ _ _ | .vmin d _ _ _ _ | .vmax d _ _ _ _ | .vabs d _ _ _
  | .vneg d _ _ _ | .vsclb d _ _ _ _ | .vand d _ _ _ _ | .vor d _ _ _ _ | .vxor d _ _ _ _ | .vshl d _ _ _ _ | .vshr d _ _ _ _
  | .vsar d _ _ _ _ | .vsel d _ _ _ _ | .vcls d _ _ _ | .vcvt d _ _ _ _ _ | .vld d _ _ _ _ | .vldx d _ _ _ _ | .vbc d _ _ _
  | .vins d _ _ _ | .vperm d _ _ _ _ | .vrot d _ _ _ _ | .vred d _ _ _ | .vdot d _ _ _ _ | .vexp2 d _ _ _ | .vlog2 d _ _ _
  | .vrcp d _ _ _ | .vrsq d _ _ _ | .vacr d _ _ _ => [vn d]
  | .vcmpEq d _ _ _ _ | .vcmpNe d _ _ _ _ | .vcmpLt d _ _ _ _ | .vcmpLe d _ _ _ _ | .vcmpGt d _ _ _ _ | .vcmpGe d _ _ _ _
  | .kand d _ _ | .kor d _ _ | .kxor d _ _ | .knot d _ | .kmovKk d _ | .kmovKg d _ => [kn d]
  | _ => []

def vReads : Instr → List Nat
  | .vadd _ a b m _ | .vsub _ a b m _ | .vmul _ a b m _ | .vfma _ a b m _ | .vmin _ a b m _ | .vmax _ a b m _ | .vsclb _ a b m _
  | .vand _ a b m _ | .vor _ a b m _ | .vxor _ a b m _ | .vshl _ a b m _ | .vshr _ a b m _ | .vsar _ a b m _ | .vcmpEq _ a b m _
  | .vcmpNe _ a b m _ | .vcmpLt _ a b m _ | .vcmpLe _ a b m _ | .vcmpGt _ a b m _ | .vcmpGe _ a b m _ | .vsel _ a b m _
  | .vperm _ a b m _ | .vdot _ a b m _ => [vn a, vn b, kn m]
  | .vabs _ a m _ | .vneg _ a m _ | .vcls _ a m _ | .vcvt _ a _ m _ _ | .vrot _ a _ m _ | .vred _ a m _ | .vexp2 _ a m _
  | .vlog2 _ a m _ | .vrcp _ a m _ | .vrsq _ a m _ | .vst a _ _ m _ | .vacw a _ m _ => [vn a, kn m]
  | .vldx _ _ x m _ => [vn x, kn m]
  | .vstx a _ x m _ => [vn a, vn x, kn m]
  | .vld _ _ _ m _ | .vbc _ _ m _ | .vacr _ _ m _ => [kn m]
  | .vmovg _ a _ _ => [vn a]
  | .kand _ a b | .kor _ a b | .kxor _ a b => [kn a, kn b]
  | .knot _ a | .kmovKk _ a | .kmovGk _ a | .kpop _ a => [kn a]
  | _ => []

/-- Whether an instruction works on memory or on an accumulator slot, whose accesses take effect in queue order (R203). -/
def vMem : Instr → Bool
  | .vld _ _ _ _ _ | .vst _ _ _ _ _ | .vldx _ _ _ _ _ | .vstx _ _ _ _ _ | .vacr _ _ _ _ | .vacw _ _ _ _ => true
  | _ => false

def meets (a b : List Nat) : Bool := a.any b.contains

/-! ## Issue and acceptance (R183, R184) -/

/-- The g register an instruction writes. -/
def vDest : Instr → Option (BitVec 4)
  | .vmovg d _ _ _ | .kmovGk d _ | .kpop d _ => some d
  | _ => none

/-- Draws a vcvt takes from its issue on (R197). -/
def vDraws (t : Thread) (o : VOp) : Nat :=
  match o.instr with
  | .vcvt _ _ p km d y => if o.rm = 5 then (convertActive (t.kr km) p d y + 3) / 4 else 0
  | _ => 0

/-- An instruction enters the queue; the thread retires it, or waits for its result. -/
def acceptVec (o : VOp) (len : Nat) : Eff Unit := do
  let s ← gets id
  let o1 := { o with uid := s.fresh }
  mods (fun s => { s with fresh := s.fresh + 1 })
  modCc (fun c => { c with vq := c.vq ++ [o1] })
  modTh (fun t => { t with srctr := t.srctr + BitVec.ofNat 64 (vDraws t o) })
  match vDest o.instr with
  | some g => waitIn .waitMem (.vres g len)
  | none => retire len

/-- The threads parked on the vector engine's queue. -/
def Core.vecWaiters (c : Core) : List (Fin 8 × Nat × VOp × Nat) :=
  (List.finRange 8).filterMap (fun k =>
    match (c.th.get k).wait with
    | .vengq o len => some (k, (c.th.get k).parkAt, o, len)
    | _ => none)

/-- The matrix commands that a vacr or vacw on a slot starts after (R205). -/
def Core.namesSlot (c : Core) (n : BitVec 2) : List Nat :=
  (c.mq.filter (fun x => match rawCmd x.word with | some i => cmdSlot i == some n | none => false)).map (·.uid)

/-- Acceptance of a checked instruction with what it reads outside the engine. -/
def vIssue (i : Instr) (gs gt : Word) (k : Cap) (after : List Nat) : Eff Unit := do
  match vDest i with
  | some g => useG (0#1 ++ g)
  | none => pure ()
  let s ← gets id
  let t := s.th
  let o : VOp := { instr := i, uid := 0, after := after, slot := s.cur.slot, rm := t.rm, gs := gs, gt := gt, cap := k, tenant := s.cc.tenant
                   lcore := t.lcore, sup := t.cprv, jseed := t.jseed, srstrm := t.srstrm, srctr := t.srctr }
  if s.cc.vq.length < 2 ∧ s.cc.vecWaiters.isEmpty then acceptVec o 4 else waitIn .parkEngq (.vengq o 4)

/-- The wait of R184 before issue. -/
def vecIdle : Eff Unit := do
  let s ← gets id
  if s.vecBusy s.cur.core s.cur.slot then parkWith .waitMem .vecs else pure ()

/-- An instruction that reads vector and mask registers alone. -/
def vPlain (i : Instr) (s : State) : Res := (vIssue i 0 0 Cap.null []).go s

def execVadd (vd vs vt : BitVec 4) (km : BitVec 3) (ty : LaneTy) (s : State) : Res := vPlain (.vadd vd vs vt km ty) s
def execVsub (vd vs vt : BitVec 4) (km : BitVec 3) (ty : LaneTy) (s : State) : Res := vPlain (.vsub vd vs vt km ty) s
def execVmul (vd vs vt : BitVec 4) (km : BitVec 3) (ty : LaneTy) (s : State) : Res := vPlain (.vmul vd vs vt km ty) s
def execVfma (vd vs vt : BitVec 4) (km : BitVec 3) (ty : LaneTy) (s : State) : Res := vPlain (.vfma vd vs vt km ty) s
def execVmin (vd vs vt : BitVec 4) (km : BitVec 3) (ty : LaneTy) (s : State) : Res := vPlain (.vmin vd vs vt km ty) s
def execVmax (vd vs vt : BitVec 4) (km : BitVec 3) (ty : LaneTy) (s : State) : Res := vPlain (.vmax vd vs vt km ty) s
def execVsclb (vd vs vt : BitVec 4) (km : BitVec 3) (ty : LaneTy) (s : State) : Res := vPlain (.vsclb vd vs vt km ty) s
def execVand (vd vs vt : BitVec 4) (km : BitVec 3) (ty : LaneTy) (s : State) : Res := vPlain (.vand vd vs vt km ty) s
def execVor (vd vs vt : BitVec 4) (km : BitVec 3) (ty : LaneTy) (s : State) : Res := vPlain (.vor vd vs vt km ty) s
def execVxor (vd vs vt : BitVec 4) (km : BitVec 3) (ty : LaneTy) (s : State) : Res := vPlain (.vxor vd vs vt km ty) s
def execVshl (vd vs vt : BitVec 4) (km : BitVec 3) (ty : LaneTy) (s : State) : Res := vPlain (.vshl vd vs vt km ty) s
def execVshr (vd vs vt : BitVec 4) (km : BitVec 3) (ty : LaneTy) (s : State) : Res := vPlain (.vshr vd vs vt km ty) s
def execVsar (vd vs vt : BitVec 4) (km : BitVec 3) (ty : LaneTy) (s : State) : Res := vPlain (.vsar vd vs vt km ty) s
def execVsel (vd vs vt : BitVec 4) (km : BitVec 3) (ty : LaneTy) (s : State) : Res := vPlain (.vsel vd vs vt km ty) s
def execVperm (vd vs vt : BitVec 4) (km : BitVec 3) (ty : LaneTy) (s : State) : Res := vPlain (.vperm vd vs vt km ty) s
def execVdot (vd vs vt : BitVec 4) (km : BitVec 3) (ty : LaneTy) (s : State) : Res := vPlain (.vdot vd vs vt km ty) s
def execVabs (vd vs : BitVec 4) (km : BitVec 3) (ty : LaneTy) (s : State) : Res := vPlain (.vabs vd vs km ty) s
def execVneg (vd vs : BitVec 4) (km : BitVec 3) (ty : LaneTy) (s : State) : Res := vPlain (.vneg vd vs km ty) s
def execVcls (vd vs : BitVec 4) (km : BitVec 3) (ty : LaneTy) (s : State) : Res := vPlain (.vcls vd vs km ty) s
def execVred (vd vs : BitVec 4) (km : BitVec 3) (ty : LaneTy) (s : State) : Res := vPlain (.vred vd vs km ty) s
def execVexp2 (vd vs : BitVec 4) (km : BitVec 3) (ty : LaneTy) (s : State) : Res := vPlain (.vexp2 vd vs km ty) s
def execVlog2 (vd vs : BitVec 4) (km : BitVec 3) (ty : LaneTy) (s : State) : Res := vPlain (.vlog2 vd vs km ty) s
def execVrcp (vd vs : BitVec 4) (km : BitVec 3) (ty : LaneTy) (s : State) : Res := vPlain (.vrcp vd vs km ty) s
def execVrsq (vd vs : BitVec 4) (km : BitVec 3) (ty : LaneTy) (s : State) : Res := vPlain (.vrsq vd vs km ty) s
def execVcmpEq (kd : BitVec 3) (vs vt : BitVec 4) (km : BitVec 3) (ty : LaneTy) (s : State) : Res := vPlain (.vcmpEq kd vs vt km ty) s
def execVcmpNe (kd : BitVec 3) (vs vt : BitVec 4) (km : BitVec 3) (ty : LaneTy) (s : State) : Res := vPlain (.vcmpNe kd vs vt km ty) s
def execVcmpLt (kd : BitVec 3) (vs vt : BitVec 4) (km : BitVec 3) (ty : LaneTy) (s : State) : Res := vPlain (.vcmpLt kd vs vt km ty) s
def execVcmpLe (kd : BitVec 3) (vs vt : BitVec 4) (km : BitVec 3) (ty : LaneTy) (s : State) : Res := vPlain (.vcmpLe kd vs vt km ty) s
def execVcmpGt (kd : BitVec 3) (vs vt : BitVec 4) (km : BitVec 3) (ty : LaneTy) (s : State) : Res := vPlain (.vcmpGt kd vs vt km ty) s
def execVcmpGe (kd : BitVec 3) (vs vt : BitVec 4) (km : BitVec 3) (ty : LaneTy) (s : State) : Res := vPlain (.vcmpGe kd vs vt km ty) s
def execKand (kd ks kt : BitVec 3) (s : State) : Res := vPlain (.kand kd ks kt) s
def execKor (kd ks kt : BitVec 3) (s : State) : Res := vPlain (.kor kd ks kt) s
def execKxor (kd ks kt : BitVec 3) (s : State) : Res := vPlain (.kxor kd ks kt) s
def execKnot (kd ks : BitVec 3) (s : State) : Res := vPlain (.knot kd ks) s
def execKmovKk (kd ks : BitVec 3) (s : State) : Res := vPlain (.kmovKk kd ks) s
def execKmovGk (gd : BitVec 4) (ks : BitVec 3) (s : State) : Res := vPlain (.kmovGk gd ks) s
def execKpop (gd : BitVec 4) (ks : BitVec 3) (s : State) : Res := vPlain (.kpop gd ks) s

/-- kmov from g (R206). -/
def execKmovKg (kd : BitVec 3) (gs : BitVec 4) (s : State) : Res :=
  (do let x ← readG (0#1 ++ gs)
      vIssue (.kmovKg kd gs) x 0 Cap.null [] : Eff Unit).go s

/-- vcvt (R195-R197): under SR it waits for the thread's earlier vector work. -/
def execVcvt (vd vs p : BitVec 4) (km : BitVec 3) (dty sty : LaneTy) (s : State) : Res :=
  (do let t ← gets State.th
      if t.rm = 5 then vecIdle else pure ()
      vIssue (.vcvt vd vs p km dty sty) 0 0 Cap.null [] : Eff Unit).go s

def execVbc (vd gs : BitVec 4) (km : BitVec 3) (ty : LaneTy) (s : State) : Res :=
  (do let x ← readG (0#1 ++ gs)
      vIssue (.vbc vd gs km ty) x 0 Cap.null [] : Eff Unit).go s

def execVmovg (gd vs gt : BitVec 4) (ty : LaneTy) (s : State) : Res :=
  (do let x ← readG (0#1 ++ gt)
      vIssue (.vmovg gd vs gt ty) 0 x Cap.null [] : Eff Unit).go s

def execVins (vd gs gt : BitVec 4) (ty : LaneTy) (s : State) : Res :=
  (do let x ← readG (0#1 ++ gs)
      let y ← readG (0#1 ++ gt)
      vIssue (.vins vd gs gt ty) x y Cap.null [] : Eff Unit).go s

def execVrot (vd vs gt : BitVec 4) (km : BitVec 3) (ty : LaneTy) (s : State) : Res :=
  (do let x ← readG (0#1 ++ gt)
      vIssue (.vrot vd vs gt km ty) 0 x Cap.null [] : Eff Unit).go s

/-! ## Memory (R201, R202) -/

/-- The checks of a vector access of n bytes: those of R17 and R20, then that it is in a slice, or in the core's own. -/
def vecCheck (k : Cap) (addr n : Nat) (need : BitVec 6) (own : Bool) : Eff Unit := do
  let s ← gets id
  match capFault s.cc.tenant k addr n need kindMem n with
  | some f => trapWith f (BitVec.ofNat 64 addr)
  | none =>
      match s.windowFault s.agent addr n with
      | some f => trapWith f (BitVec.ofNat 64 addr)
      | none =>
          match s.rowOf s.agent addr with
          | .slice c _ => demand (!own || c == s.cur.core) .page (BitVec.ofNat 64 addr)
          | _ => trapWith .page (BitVec.ofNat 64 addr)

/-- The address of vld and vst. -/
def vecAddr (k : Cap) (off : BitVec 11) : Nat := (k.cur + 32 * off.signExtend 48).toNat

def vecMem (i : Instr) (a : BitVec 4) (off : BitVec 11) (need : BitVec 6) : Eff Unit := do
  let k ← readA a
  vecCheck k (vecAddr k off) 32 need false
  vIssue i 0 0 k []

def execVld (vd a : BitVec 4) (off : BitVec 11) (km : BitVec 3) (ty : LaneTy) (s : State) : Res :=
  (vecMem (.vld vd a off km ty) a off permR).go s
def execVst (vd a : BitVec 4) (off : BitVec 11) (km : BitVec 3) (ty : LaneTy) (s : State) : Res :=
  (vecMem (.vst vd a off km ty) a off permW).go s

/-- The address of lane i of vldx and vstx. -/
def laneAddr (k : Cap) (ty : LaneTy) (x : Nat) : Nat := (k.cur + BitVec.ofNat 48 (x * (ty.width / 8))).toNat

/-- The active lanes of a mask, with their indices. -/
def activeLanes (t : Thread) (vt : BitVec 4) (km : BitVec 3) (ty : LaneTy) : List (Nat × Nat) :=
  ((lanesOf ty (t.vr vt)).mapIdx (fun i x => (i, x))).filter (fun x => (t.kr km).getLsbD x.1)

def vecChecks (k : Cap) (ty : LaneTy) (need : BitVec 6) : List (Nat × Nat) → Eff Unit
  | [] => pure ()
  | x :: r => do
      vecCheck k (laneAddr k ty x.2) (ty.width / 8) need true
      vecChecks k ty need r

def vecIndexed (i : Instr) (a vt : BitVec 4) (km : BitVec 3) (ty : LaneTy) (need : BitVec 6) : Eff Unit := do
  vecIdle
  let k ← readA a
  let t ← gets State.th
  vecChecks k ty need (activeLanes t vt km ty)
  vIssue i 0 0 k []

def execVldx (vd a vt : BitVec 4) (km : BitVec 3) (ty : LaneTy) (s : State) : Res :=
  (vecIndexed (.vldx vd a vt km ty) a vt km ty permR).go s
def execVstx (vd a vt : BitVec 4) (km : BitVec 3) (ty : LaneTy) (s : State) : Res :=
  (vecIndexed (.vstx vd a vt km ty) a vt km ty permW).go s

/-! ## Accumulator access (R204, R205) -/

/-- The slot and the chunk that x names. -/
def accSlot (x : Word) : BitVec 2 := x.extractLsb' 7 2
def accChunk (x : Word) : Nat := (x.extractLsb' 0 7).toNat

def vecAcc (i : Instr) (gt : BitVec 4) : Eff Unit := do
  let x ← readG (0#1 ++ gt)
  claimSlot (accSlot x)
  let c ← gets State.cc
  vIssue i 0 x Cap.null (c.namesSlot (accSlot x))

def execVacr (vd gt : BitVec 4) (km : BitVec 3) (ty : LaneTy) (s : State) : Res := (vecAcc (.vacr vd gt km ty) gt).go s
def execVacw (vs gt : BitVec 4) (km : BitVec 3) (ty : LaneTy) (s : State) : Res := (vecAcc (.vacw vs gt km ty) gt).go s

/-! ## Start and completion (R183, R185) -/

/-- Whether the head of the vector queue can start: no earlier instruction still has to write a register it reads or writes, and the
matrix commands it starts after have completed. -/
def State.vecCanStart (s : State) (n : Nat) : Bool :=
  let c := s.core n
  match c.vq with
  | o :: _ =>
      c.vrun.all (fun x => x.slot != o.slot || !meets (vWrites x.instr) (vReads o.instr ++ vWrites o.instr))
      && o.after.all (fun u => !s.cmdOpen u)
  | [] => false

/-- VECTOR_START (R183): the head starts and gives up its entry, and the thread that has waited longest is accepted. -/
def execVectorStart (s : State) : Res :=
  let n := s.cur.core
  match s.cc.vq with
  | o :: r =>
      if s.vecCanStart n then
        let s1 := s.setCc { s.cc with vq := r, vrun := s.cc.vrun ++ [o] }
        match oldest (fun x => x.2.1) s1.cc.vecWaiters with
        | some (k, _, w, len) => .next (s1.onThread n k (acceptVec w len))
        | none => .next s1
      else .next s
  | [] => .next s

/-- Whether started instruction i can complete before those started earlier: it writes nothing they read or write, and memory is
accessed in order. -/
def Core.vecCanEnd (c : Core) (i : Nat) : Bool :=
  match c.vrun[i]? with
  | some o => (c.vrun.take i).all (fun x =>
      (x.slot != o.slot || !meets (vReads x.instr ++ vWrites x.instr) (vWrites o.instr)) && !(vMem x.instr && vMem o.instr))
  | none => false

/-- The vector engine's agent. -/
def VOp.agent (o : VOp) (s : State) (core : Nat) : Agent :=
  { tenant := o.tenant, top := (s.core core).top, own := some core, die := dieOf core, sup := o.sup, lcore := o.lcore
    slot := o.slot.val, kind := 2 }

/-- A lane written to a slice. -/
def State.vecPut (s : State) (core : Nat) (o : VOp) (addr n v : Nat) : State :=
  match s.rowOf (o.agent s core) addr with
  | .slice c off => s.writeAt (o.agent s core) (.sram c off) (bytesOf n v) 0x08
  | _ => s

/-- A lane read from a slice. -/
def State.vecGet (s : State) (core : Nat) (o : VOp) (addr n : Nat) : Nat :=
  match s.rowOf (o.agent s core) addr with
  | .slice c off => ofBytes (s.readAt o.tenant (.sram c off) n)
  | _ => 0

/-- Lanes of w bytes at offsets of one aligned block of 32 bytes, written in one step (R201, R256) and recorded once (R270). -/
def State.vecBlock (s : State) (core : Nat) (o : VOp) (addr w : Nat) (l : List (Nat × Nat)) : State :=
  match s.rowOf (o.agent s core) addr with
  | .slice c off =>
      let s1 := l.foldl (fun s x => s.put o.tenant (.sram c (off + x.1)) (bytesOf w x.2)) s
      if l.any (fun x => (s.core c).traced (off + x.1) w) then s1.record (o.agent s core) c off 32 0x08 else s1
  | _ => s

/-- Lanes of v in order written to memory, each where its address says. -/
def State.vecStore (s : State) (core : Nat) (o : VOp) (w : Nat) (l : List (Nat × Nat)) : State :=
  l.foldl (fun s x => s.vecPut core o x.1 w x.2) s

/-- The effect of an instruction on memory, the accumulators and its registers (R199-R206). -/
def State.vecApply (s : State) (core : Nat) (o : VOp) : VOut × State :=
  let t := s.thAt core o.slot
  match o.instr with
  | .vld vd _ off km ty =>
      let b := ty.width / 8
      (eachLane t vd vd vd km ty (fun i _ _ _ => bare (s.vecGet core o (vecAddr o.cap off + i * b) b)), s)
  | .vst vs _ off km ty =>
      let b := ty.width / 8
      let l := ((lanesOf ty (t.vr vs)).mapIdx (fun i v => (i, v))).filter (fun x => (t.kr km).getLsbD x.1)
      (VOut.none, s.vecBlock core o (vecAddr o.cap off) b (l.map (fun x => (x.1 * b, x.2))))
  | .vldx vd _ vt km ty =>
      let x := lanesOf ty (t.vr vt)
      (eachLane t vd vd vd km ty (fun i _ _ _ => bare (s.vecGet core o (laneAddr o.cap ty (laneAt x i)) (ty.width / 8))), s)
  | .vstx vs _ vt km ty =>
      let v := lanesOf ty (t.vr vs)
      (VOut.none, s.vecStore core o (ty.width / 8) ((activeLanes t vt km ty).map (fun x => (laneAddr o.cap ty x.2, laneAt v x.1))))
  | .vacr vd _ km ty =>
      let a := lanesOf ty (BitVec.ofNat 256 ((s.core core).slotBits (accSlot o.gt) / 2 ^ (256 * accChunk o.gt)))
      (eachLane t vd vd vd km ty (fun i _ _ _ => bare (laneAt a i)), s)
  | .vacw vs _ km ty =>
      let c := s.core core
      let p := 2 ^ (256 * accChunk o.gt)
      let old := c.slotBits (accSlot o.gt) / p % 2 ^ 256
      let a := lanesOf ty (BitVec.ofNat 256 old)
      let new := (ofLanes ty ((lanesOf ty (t.vr vs)).mapIdx (fun i v => if (t.kr km).getLsbD i then v else laneAt a i))).toNat
      (VOut.none, s.setCore core (c.setSlot (accSlot o.gt) (c.slotBits (accSlot o.gt) - old * p + new * p)))
  | _ => ((vEval o t).getD VOut.none, s)

/-- The registers and flags of a completed instruction (R185). -/
def Thread.vecWrite (t : Thread) (r : VOut) : Thread :=
  let t1 := match r.v with | some (d, x) => t.setV d x | none => t
  let t2 := match r.k with | some (d, x) => t1.setK d x | none => t1
  { t2 with fpcsr := withFlags t2.fpcsr r.fl }

/-- VECTOR_COMPLETE (R185): started instruction cur.idx. A vst or vstx pulses crossbar input 1, and a thread that waits for the
result of its instruction retires it (R184). Its flags reach CFLAGS at once, of the 8 cycles of R246: DESIGN CHOICE (entry 108). -/
def execVectorComplete (s : State) : Res :=
  let n := s.cur.core
  match s.cc.vrun[s.cur.idx]? with
  | some o =>
      if s.cc.vecCanEnd s.cur.idx then
        let (r, s1) := s.vecApply n o
        let c := s1.core n
        let s2 := s1.setCore n { c with vrun := c.vrun.eraseIdx s.cur.idx }
        let s3 := s2.setThAt n o.slot ((s2.thAt n o.slot).vecWrite r)
        let cl := clusterOf n
        let s4 := s3.setCluster cl { s3.cluster cl with cflags := withFlags (s3.cluster cl).cflags r.fl }
        let s5 := match o.instr with
          | .vst _ _ _ _ _ | .vstx _ _ _ _ _ => s4.pulse n 1
          | _ => s4
        match r.g, (s5.thAt n o.slot).wait with
        | some v, .vres g len =>
            .next (s5.onThread n o.slot (do
              modTh (fun t => t.setG (0#1 ++ g) v)
              retire len))
        | _, _ => .next s5
      else .next s
  | none => .next s

def State.dueVector (s : State) : List Move :=
  s.cores.flatMap (fun (n, c) =>
    evIf (s.vecCanStart n) n 0 0 .vectorStart
    ++ (List.range c.vrun.length).flatMap (fun i => evIf (c.vecCanEnd i) n 0 i .vectorComplete))

end Sys2Proof.Machine
end

