-- ==== Sys2Proof/Machine/System.lean ====
section
/-! DEFINITION. System registers, and the instructions that enter and leave a trap (R21-R34, R174-R178). -/

namespace Sys2Proof.Machine

/-! ## Access to system registers (R21, R22) -/

/-- The numbers of the map. -/
def sysAssigned (n : Nat) : Bool :=
  decide (n ≤ 0x010 ∨ (0x020 ≤ n ∧ n ≤ 0x027) ∨ (0x040 ≤ n ∧ n ≤ 0x047) ∨ (0x050 ≤ n ∧ n ≤ 0x052) ∨ (0x058 ≤ n ∧ n ≤ 0x05B))

/-- What U may write. -/
def sysUserWrites (n : Nat) : Bool := decide ((0x008 ≤ n ∧ n ≤ 0x00A) ∨ (0x020 ≤ n ∧ n ≤ 0x027))

/-- What S may write. -/
def sysWrites (n : Nat) : Bool :=
  sysUserWrites n || n == 0x007 || n == 0x00B || n == 0x00F || n == 0x010 || (decide (0x040 ≤ n) && sysAssigned n && n != 0x051)

/-- The trap of an access (R21), if any. -/
def sysFault (sys : BitVec 10) (cprv write : Bool) : Option Cause :=
  let n := sys.toNat
  if 0x200 ≤ n then some .illegal
  else if n < 0x040 ∧ !sysAssigned n then some .illegal
  else if 0x040 ≤ n ∧ !cprv then some .priv
  else if !sysAssigned n then some .illegal
  else if write ∧ !sysWrites n then some .illegal
  else if write ∧ !cprv ∧ !sysUserWrites n then some .priv
  else none

def sysCheck (i : Instr) (sys : BitVec 10) (write : Bool) : Eff Unit := do
  let t ← gets State.th
  match sysFault sys t.cprv write with
  | some c => trapWith c ((encodeWord i).zeroExtend 64)
  | none => pure ()

/-- TSTATUS with NREL (R29). -/
def Thread.statusWord (t : Thread) : Word := 0#57 ++ BitVec.ofNat 3 t.rel.length ++ t.tstatus

/-- TRCLEN and TRCRNG bits that are not reserved (R34). -/
def rngMask : Word := 0x803FFFFFFFFFFFFF
def trcBaseMask : Word := 0x0000FFFFFFFFFFE0

/-- The value of a system register of the cur thread (R22-R34). -/
def State.sysValue (s : State) (n : Nat) : Word :=
  let t := s.th
  let c := s.cc
  let cl := s.ccl
  if 0x020 ≤ n ∧ n ≤ 0x027 then c.xbcfg.get ⟨(n - 0x020) % 8, Nat.mod_lt _ (by decide)⟩
  else match n with
  | 0x000 => BitVec.ofNat 64 s.cur.slot.val
  | 0x001 => BitVec.ofNat 64 t.lcore
  | 0x002 => BitVec.ofNat 64 c.sidx
  | 0x003 => BitVec.ofNat 64 c.scnt
  | 0x004 => if c.ringed then BitVec.ofNat 64 (c.sidx / 16) else BitVec.allOnes 64
  | 0x005 => if c.ringed then BitVec.ofNat 64 (c.sidx % 16) else BitVec.allOnes 64
  | 0x006 => c.tenant.zeroExtend 64
  | 0x007 => t.ctxid.zeroExtend 64
  | 0x008 => t.fpcsr.zeroExtend 64
  | 0x009 => t.srstrm
  | 0x00A => t.srctr
  | 0x00B => t.jseed
  | 0x00C => BitVec.ofNat 64 s.cycle
  | 0x00D => if c.tether then BitVec.ofNat 64 c.vt else 0
  | 0x00E => if c.tether then BitVec.ofNat 64 c.tsafe else BitVec.allOnes 64
  | 0x00F => c.smcount.zeroExtend 64
  | 0x010 => cl.drgstat.zeroExtend 64
  | 0x040 => t.tcause.zeroExtend 64
  | 0x041 => t.tval
  | 0x042 => t.tepc
  | 0x043 => t.tfpc
  | 0x044 => t.tvec
  | 0x045 => t.statusWord
  | 0x046 => t.hscr
  | 0x047 => t.tmcmp
  | 0x050 => c.accown
  | 0x051 => BitVec.ofNat 16 0 ++ BitVec.ofNat 16 cl.slew ++ BitVec.ofNat 32 cl.budget
  | 0x052 => cl.cflags.zeroExtend 64
  | 0x058 => c.trcbase
  | 0x059 => c.trclen
  | 0x05A => c.trcrng0
  | 0x05B => c.trcrng1
  | _ => 0

/-- FPCSR written (R24). -/
def Thread.setFpcsr (t : Thread) (v : Word) : Thread := { t with fpcsr := v.extractLsb' 0 9 }

/-- Whether a word may be written to FPCSR. -/
def fpcsrOk (v : Word) : Bool := decide (v.extractLsb' 0 3 < 6#3)

/-- ACCOWN written (R33). -/
def Core.setAccown (c : Core) (v : Word) : Core := { c with accown := v }

/-- CFLAGS bits written as 1 are cleared (R22). -/
def Cluster.clearFlags (c : Cluster) (v : Word) : Cluster := { c with cflags := c.cflags &&& ~~~(v.extractLsb' 0 9 &&& 0x1F8) }

/-- A system register of the cur thread written, field by field (R174). -/
def State.sysWrite (s : State) (n : Nat) (v : Word) : State :=
  if 0x020 ≤ n ∧ n ≤ 0x027 then s.setCc (s.cc.setXbcfg ⟨(n - 0x020) % 8, Nat.mod_lt _ (by decide)⟩ v s.cycle)
  else
    let th := fun f : Thread → Thread => s.setTh (f s.th)
    let cc := fun f : Core → Core => s.setCc (f s.cc)
    match n with
    | 0x007 => th (fun t => { t with ctxid := v.extractLsb' 0 11 })
    | 0x008 => th (fun t => t.setFpcsr v)
    | 0x009 => th (fun t => { t with srstrm := v })
    | 0x00A => th (fun t => { t with srctr := v })
    | 0x00B => th (fun t => { t with jseed := v })
    | 0x00F => cc (fun c => { c with smcount := v.extractLsb' 0 32 })
    | 0x010 => s.setCcl { s.ccl with drgstat := v.extractLsb' 0 48 }
    | 0x040 => th (fun t => { t with tcause := v.extractLsb' 0 8 })
    | 0x041 => th (fun t => { t with tval := v })
    | 0x042 => th (fun t => { t with tepc := v })
    | 0x043 => th (fun t => { t with tfpc := v })
    | 0x044 => th (fun t => { t with tvec := v &&& ~~~3#64 })
    | 0x045 => th (fun t => { t with tstatus := v.extractLsb' 1 3 ++ t.tstatus.extractLsb' 0 1 })
    | 0x046 => th (fun t => { t with hscr := v })
    | 0x047 => th (fun t => { t with tmcmp := v })
    | 0x050 => cc (fun c => c.setAccown v)
    | 0x052 => s.setCcl (s.ccl.clearFlags v)
    | 0x058 => cc (fun c => { c with trcbase := v &&& trcBaseMask })
    | 0x059 => cc (fun c => { c with trclen := c.trclen.extractLsb' 32 32 ++ v.extractLsb' 0 32 })
    | 0x05A => cc (fun c => { c with trcrng0 := v &&& rngMask })
    | 0x05B => cc (fun c => { c with trcrng1 := v &&& rngMask })
    | _ => s

/-- Whether a system register is one the Drogue changes as cycles pass: DRGSTAT and DRGBUD (R324, R418). -/
def sysDrogue (sys : BitVec 10) : Bool := sys == 0x010 || sys == 0x051

/-- srd (R174). The Drogue's grants up to now come before its registers are read. -/
def execSrd (d : Dst) (sys : BitVec 10) (s : State) : Res :=
  (withD d 4 do
    sysCheck (.srd d sys) sys false
    if sys = 0x008 then vecIdle else pure ()
    mods (fun s => if sysDrogue sys then s.settleDrogue (clusterOf s.cur.core) else s)
    gets (fun s => s.sysValue sys.toNat)).go s

/-- swr (R174). -/
def execSwr (sys : BitVec 10) (v : Src) (s : State) : Res :=
  (do
    sysCheck (.swr sys v) sys true
    if sys = 0x008 then vecIdle else pure ()
    let x ← readSrc v
    demand (sys != 0x008 || fpcsrOk x) .illegal ((encodeWord (.swr sys v)).zeroExtend 64)
    mods (fun s => if sysDrogue sys then s.settleDrogue (clusterOf s.cur.core) else s)
    mods (fun s => s.sysWrite sys.toNat x)
    retire (len1 v) : Eff Unit).go s

/-- FPCSR_WRITE (R24, R25): cur.val is the word. -/
def execFpcsrWrite (s : State) : Res :=
  .next (if fpcsrOk s.cur.val && !s.vecBusy s.cur.core s.cur.slot then s.setTh (s.th.setFpcsr s.cur.val) else s)

/-- ACCOWN_WRITE (R33): cur.val is the word. -/
def execAccownWrite (s : State) : Res := .next (s.setCc (s.cc.setAccown s.cur.val))

/-- CFLAGS_CLEAR (R34): cur.val is the word. -/
def execCflagsClear (s : State) : Res := .next (s.setCcl (s.ccl.clearFlags s.cur.val))

/-! ## Traps (R27, R175-R178) -/

/-- ebrk and scall (R176): they retire, and trap at the boundary that follows. -/
def callTrap (c : Cause) (p : Src) : Eff Unit := do
  let v ← readSrc p
  retire (len1 p)
  mods (fun s => s.trapSync c v s.th.pc)

def execEbrk (p : Src) (s : State) : Res := (callTrap .brk p).go s
def execScall (p : Src) (s : State) : Res := (callTrap .scall p).go s

/-- trap (R178): the region's unhandled fault, with the trap registers as they stand. -/
def execTrap (p : Src) (s : State) : Res :=
  (do
    let v ← readSrc p
    mods (fun s => s.regionFault s.cur.core s.cur.slot s.th.tcause 0 v) : Eff Unit).go s

/-- tret (R177). -/
def execTret (s : State) : Res := (modTh Thread.trapReturn).go s

/-- TIMER (R27): the trap at the boundary the cur thread stands at. -/
def execTimer (s : State) : Res := .next (if s.timerDue s.th then s.trapAsync .timer (BitVec.ofNat 64 s.cycle) else s)

def State.dueSystem (s : State) : List Move := s.threads.flatMap (fun (n, k, t) => evIf (s.timerDue t) n k 0 .timer)

end Sys2Proof.Machine
end

