-- ==== Sys2Proof/Machine/Bridle.lean ====
section
/-! DEFINITION. The Bridle counting network (R143-R150, R296-R311). -/

namespace Sys2Proof.Machine

/-! ## Networks (R299) -/

/-- A network as it is built: the next free wire, and the balancers in order of number, each with its two inputs and two outputs. -/
structure Net where
  next : Nat
  bals : List (Nat × Nat × Nat × Nat)
  deriving DecidableEq, Repr

/-- Bal: one balancer, and its top and bottom outputs. -/
def Net.bal (n : Net) (x y : Nat) : (Nat × Nat) × Net :=
  ((n.next, n.next + 1), { next := n.next + 2, bals := n.bals ++ [(x, y, n.next, n.next + 1)] })

def evens : List Nat → List Nat
  | [] => []
  | [x] => [x]
  | x :: _ :: r => x :: evens r

def odds : List Nat → List Nat
  | [] => []
  | [_] => []
  | _ :: y :: r => y :: odds r

/-- A row of balancers over pairs of wires. -/
def Net.row (n : Net) : List (Nat × Nat) → List Nat × Net
  | [] => ([], n)
  | (x, y) :: r =>
      let ((p, q), n1) := n.bal x y
      let (l, n2) := n1.row r
      (p :: q :: l, n2)

/-- Merger on two lists of 2^k wires. -/
def merger : Nat → List Nat → List Nat → Net → List Nat × Net
  | 0, a, b, n => n.row (a.zip b)
  | k + 1, a, b, n =>
      let (c, n1) := merger k (evens a) (odds b) n
      let (d, n2) := merger k (odds a) (evens b) n1
      n2.row (c.zip d)

/-- Bitonic on a list of 2^k wires. -/
def bitonic : Nat → List Nat → Net → List Nat × Net
  | 0, xs, n => (xs, n)
  | k + 1, xs, n =>
      let (a, n1) := bitonic k (xs.take (2 ^ k)) n
      let (b, n2) := bitonic k (xs.drop (2 ^ k)) n1
      merger k a b n2

/-- The network of width 2^k: its balancers, and the wires of its exits. -/
def network (k : Nat) : List (Nat × Nat × Nat × Nat) × List Nat :=
  let (e, n) := bitonic k (List.range (2 ^ k)) { next := 2 ^ k, bals := [] }
  (n.bals, e)

/-- What a wire leads to: a balancer by its number, or an exit. -/
inductive Cell where
  | balancer (j : Nat)
  | exit (i : Nat)
  deriving DecidableEq, Repr

def cellOf (k wire : Nat) : Cell :=
  let (bals, exits) := network k
  match bals.findIdx? (fun b => b.1 == wire || b.2.1 == wire) with
  | some j => .balancer j
  | none => .exit ((exits.findIdx? (· == wire)).getD 0)

/-- The output of balancer j. -/
def outOf (k j : Nat) (bottom : Bool) : Nat :=
  match (network k).1[j]? with
  | some (_, _, p, q) => if bottom then q else p
  | none => 0

/-- The place of a flit that has come to a wire. -/
def placeOn (k wire : Nat) : FlitAt :=
  match cellOf k wire with
  | .balancer _ => .wire wire
  | .exit i => .exit i

/-! ## Counters (R144) -/

def State.ctr (s : State) (id : Nat) : Counter := lookup Counter.fresh s.counters id
def State.setCtr (s : State) (id : Nat) (c : Counter) : State := { s with counters := insert s.counters id c }

/-- A counter as bcfg leaves it. -/
def freshCounter (mode : BMode) (lw param : Nat) (owner : Option Nat) : Counter :=
  { mode := mode, lw := lw, param := param, bal := List.replicate (network lw).1.length false, cnt := List.replicate (2 ^ lw) 0
    holes := List.replicate (2 ^ lw) [], gen := 0, broken := false, owner := owner, pending := false, cfg := none }

def Counter.width (c : Counter) : Nat := 2 ^ c.lw
def Counter.count (c : Counter) (i : Nat) : Nat := (c.cnt[i]?).getD 0
def Counter.hole (c : Counter) (i : Nat) : List Nat := (c.holes[i]?).getD []
def Counter.bit (c : Counter) (j : Nat) : Bool := (c.bal[j]?).getD false

/-- The quota of an exit (R149). -/
def Counter.quota (c : Counter) (i : Nat) : Nat := if i < c.param then (c.param - i + c.width - 1) / c.width else 0

/-- Every exit of a BARRIER counter has reached its quota. -/
def Counter.full (c : Counter) : Bool := (List.range c.width).all (fun i => decide (c.quota i ≤ c.count i))

/-- Whether a flit is a token or an antitoken. -/
def FlitKind.counted : FlitKind → Bool
  | .token | .barToken | .anti => true
  | _ => false

/-- Whether tokens or antitokens of a counter are in its network. -/
def State.inNet (s : State) (id : Nat) : Bool :=
  s.flits.any (fun f => f.ctr == id && f.kind.counted && (match f.at_ with | .wire _ | .exit _ => true | _ => false))

def State.modFlit (s : State) (n : Nat) (f : Flit → Flit) : State := { s with flits := s.flits.map (fun x => if x.id = n then f x else x) }

/-- The result of a flit, on its way back. -/
def State.answer (s : State) (n : Nat) (v : Word) : State := s.modFlit n (fun f => { f with at_ := .result v })

/-- A flit that is counted enters its network, or leaves it (R309): INJ and EXT of its tenant. -/
def State.entered (s : State) (t : BitVec 6) : State := s.modPart t.toNat (fun p => { p with inj := (p.inj + 1) % 2 ^ 48 })
def State.exited (s : State) (t : BitVec 6) : State := s.modPart t.toNat (fun p => { p with ext := (p.ext + 1) % 2 ^ 48 })

/-- The result of a flit on a broken counter (R143, R307). -/
def brokenResult (k : FlitKind) : Word := if k.counted then pack stBroken 0 else stBroken

/-- A flit reaches its counter: it is held while a bcfg drains the counter or a release is pending; a token that the counter does not
take is answered; every other flit goes to its first cell (R143-R149, R301, R306). -/
def State.inject (s : State) (f : Flit) : State :=
  let c := s.ctr f.ctr
  if c.pending || c.cfg.isSome then s.modFlit f.id (fun f => { f with at_ := .injection })
  else match f.kind with
    | .token | .anti | .barToken =>
        if c.broken then s.answer f.id (brokenResult f.kind)
        else if (f.kind == .barToken) != (c.mode == .barrier) then s.answer f.id (pack stMode 0)
        else (s.entered f.tenant).modFlit f.id
          (fun f => { f with at_ := placeOn c.lw (f.wire % c.width) })
    | .cancel => s.modFlit f.id (fun x => { x with at_ := .exit (f.arg.toNat % c.width) })
    | .peek => s.modFlit f.id (fun x => { x with at_ := .exit f.arg.toNat })
    | .wait => s.modFlit f.id (fun x => { x with at_ := .exit 0 })
    | .configure => (s.setCtr f.ctr { c with cfg := some f.arg }).modFlit f.id (fun x => { x with at_ := .exit 0 })

/-- The flits held at a counter's injection points, in the order in which they came. -/
def State.releaseHeld (s : State) (id : Nat) : State :=
  (s.flits.filter (fun f => f.ctr == id && f.at_ == .injection)).foldl State.inject s

/-- Threads parked in bbw on a counter. -/
def State.bbwWaiters (s : State) (id : Nat) : List (Nat × Fin 8 × BitVec 16 × Dst × Nat) :=
  s.threads.filterMap (fun (n, k, t) =>
    match t.wait with
    | .bbw x g d len => if x = id then some (n, k, g, d, len) else none
    | _ => none)

/-- Threads parked in bbw wake with a status: those of a generation, or all. -/
def State.wakeBbw (s : State) (id : Nat) (gen : Option (BitVec 16)) (st : Word) : State :=
  (s.bbwWaiters id).foldl (fun s (n, k, g, d, len) =>
    if gen.isNone || gen == some g then
      let s := if st = stBroken then s.noteFsum n 4 else s
      s.onThread n k (finish d len st)
    else s) s

/-- A counter breaks (R307). -/
def State.breakCtr (s : State) (id : Nat) : State :=
  let s1 := s.setCtr id { s.ctr id with broken := true, pending := false }
  (s1.wakeBbw id none stBroken).releaseHeld id

/-! ## Exit cells (R145-R150) -/

/-- A token at exit i: its value, and the counter after it (R145). -/
def Counter.token (c : Counter) (i : Nat) : Nat × Counter :=
  let f := i + c.width * c.count i
  let c1 := { c with cnt := listSet c.cnt i (fun n => (n + 1) % 2 ^ 48) }
  match c.hole i with
  | [] => (f, c1)
  | h :: r => (h, { c1 with holes := listSet c1.holes i (fun _ => f :: r) })

/-- A value as the counter's mode gives it. -/
def Counter.value (c : Counter) (st : Word) (v : Nat) : Word :=
  pack st (BitVec.ofNat 64 (if c.mode = .spread then v % c.param else v))

/-- An antitoken at exit i (R146). -/
def Counter.anti (c : Counter) (i : Nat) : Word × Counter :=
  if c.count i = 0 then (pack stMode 0, c)
  else
    let t := i + c.width * (c.count i - 1)
    let c1 := { c with cnt := listSet c.cnt i (· - 1) }
    if (c.hole i).contains t then (c.value stHole t, { c1 with holes := listSet c1.holes i (fun l => l.erase t) })
    else (c.value stOk t, c1)

/-- A cancel of v (R147). -/
def Counter.cancel (c : Counter) (v : Nat) : Word × Counter :=
  let i := v % c.width
  if c.broken then (stBroken, c)
  else if c.mode ≠ .count then (stMode, c)
  else if i + c.width * c.count i ≤ v ∨ (c.hole i).contains v then (stMode, c)
  else if 4 ≤ (c.hole i).length then (stFull, c)
  else (stOk, { c with holes := listSet c.holes i (fun l => v :: l) })

def BMode.code : BMode → BitVec 2
  | .count => 0
  | .spread => 1
  | .barrier => 2

/-- The snapshot of bpeek (R150). -/
def Counter.peek (c : Counter) (i : Nat) : Word :=
  if c.width ≤ i then stMode <<< 60
  else 0#4 ++ BitVec.ofBool c.broken ++ BitVec.ofNat 3 (c.hole i).length ++ c.mode.code ++ 0#6 ++ BitVec.ofNat 48 (c.count i)

/-- A token of bbar at exit i (R149, R306). -/
def Counter.arrive (c : Counter) (i : Nat) : Word × Counter :=
  let g : Word := c.gen.zeroExtend 64
  if c.count i < c.quota i then
    let c1 := { c with cnt := listSet c.cnt i (· + 1) }
    (pack stOk g, { c1 with pending := c1.full })
  else (pack stFull g, c)

/-- EXIT_CELL_SERVE (R302): flit cur.idx at its exit cell. -/
def execExitCellServe (s : State) : Res :=
  match s.flits.find? (·.id == s.cur.idx) with
  | some f =>
      match f.at_ with
      | .exit i =>
          let c := s.ctr f.ctr
          match f.kind with
          | .token =>
              let s1 := s.exited f.tenant
              if c.broken then .next (s1.answer f.id (brokenResult f.kind))
              else let (v, c1) := c.token i; .next ((s1.setCtr f.ctr c1).answer f.id (c.value stOk v))
          | .anti =>
              let s1 := s.exited f.tenant
              if c.broken then .next (s1.answer f.id (brokenResult f.kind))
              else let (v, c1) := c.anti i; .next ((s1.setCtr f.ctr c1).answer f.id v)
          | .barToken =>
              let s1 := s.exited f.tenant
              if c.broken then .next (s1.answer f.id (brokenResult f.kind))
              else let (v, c1) := c.arrive i; .next ((s1.setCtr f.ctr c1).answer f.id v)
          | .cancel => let (v, c1) := c.cancel f.arg.toNat; .next ((s.setCtr f.ctr c1).answer f.id v)
          | .peek => .next (s.answer f.id (c.peek i))
          | .wait =>
              if c.broken then .next (s.answer f.id stBroken)
              else if c.mode ≠ .barrier then .next (s.answer f.id stMode)
              else if c.gen ≠ f.arg.extractLsb' 0 16 then .next (s.answer f.id stOk)
              else
                let t := s.thAt f.core f.slot
                match t.wait with
                | .bridle n d len =>
                    if n ≠ f.id then .next { s with flits := s.flits.filter (·.id != f.id) }
                    else .next { s.setThAt f.core f.slot { t with state := .parkBar, wait := .bbw f.ctr (f.arg.extractLsb' 0 16) d len, parkAt := s.tick } with
                      flits := s.flits.filter (·.id != f.id) }
                | _ => .next { s with flits := s.flits.filter (·.id != f.id) }
          | .configure => .next s
      | _ => .next s
  | none => .next s

/-- BALANCER_SERVE (R145, R146, R302): flit cur.idx passes the balancer its wire leads to. -/
def execBalancerServe (s : State) : Res :=
  match s.flits.find? (·.id == s.cur.idx) with
  | some f =>
      match f.at_ with
      | .wire w =>
          let c := s.ctr f.ctr
          match cellOf c.lw w with
          | .balancer j =>
              let b := c.bit j
              let out := if f.kind = .anti then !b else b
              .next ((s.setCtr f.ctr { c with bal := listSet c.bal j (fun _ => !b) }).modFlit f.id
                (fun f => { f with at_ := placeOn c.lw (outOf c.lw j out) }))
          | .exit i => .next (s.modFlit f.id (fun f => { f with at_ := .exit i }))
      | _ => .next s
  | none => .next s

/-- The core a thief asks (R154), from the result of its steal counter. -/
def State.victim (s : State) (core : Nat) (r : Word) : Nat :=
  let c := s.core core
  let v := (if r >>> 60 = stOk then r.toNat % 2 ^ 60 else c.sidx + 1) % c.scnt
  let v := if v = c.sidx then (v + 1) % c.scnt else v
  match s.cores.find? (fun (_, x) => x.bound && x.rid == c.rid && x.stage == c.stage && x.sidx == v) with
  | some (n, _) => n
  | none => core

/-- BRIDLE_RESULT (R301): the result of flit cur.idx reaches its thread, whose instruction retires. -/
def execBridleResult (s : State) : Res :=
  match s.flits.find? (·.id == s.cur.idx) with
  | some f =>
      match f.at_ with
      | .result v =>
          let s1 := { s with flits := s.flits.filter (·.id != f.id) }
          let broke := match f.kind with
            | .token | .anti | .barToken => v >>> 60 == stBroken
            | .cancel | .wait => v == stBroken
            | .peek | .configure => false
          let s2 := if broke then s1.noteFsum f.core 4 else s1
          match (s2.thAt f.core f.slot).wait with
          | .bridle n d len => if n = f.id then .next (s2.onThread f.core f.slot (finish d len v)) else .next s1
          | .steal n none d blk len =>
              let w := Wait.steal n (some (s2.victim f.core v)) d blk len
              if n = f.id then .next (s2.setThAt f.core f.slot { s2.thAt f.core f.slot with wait := w }) else .next s1
          | _ => .next s1
      | _ => .next s
  | none => .next s

/-! ## bcfg and the release of a barrier (R148, R306) -/

def modeOf (w : Word) : BMode :=
  match (w.extractLsb' 4 2).toNat with
  | 0 => .count
  | 1 => .spread
  | _ => .barrier

/-- Whether a configuration word is valid. -/
def cfgOk (w : Word) : Bool :=
  let m := w.extractLsb' 4 2
  w.extractLsb' 56 8 == 0 && w.extractLsb' 6 2 == 0 && !w.getLsbD 3 && m != 3 && w.extractLsb' 0 3 != 7
  && (if m = 0 then w.extractLsb' 8 48 == 0 else w.extractLsb' 8 48 != 0)

/-- Whether a counter is of the block its tenant reserves for the front end: steal counters, which have no owner (R296, R297, R307). -/
def State.reserved (s : State) (id : Nat) : Bool := s.parts.any (fun p => decide (p.blimit - 256 ≤ id ∧ id < p.blimit))

/-- The front end configures a counter, as by bcfg (R297). -/
def State.feConfigure (s : State) (t : BitVec 6) (id : Nat) (w : Word) : State :=
  let f : Flit := { id := s.fresh, kind := .configure, tenant := t, fe := true, ctr := id, core := 0, slot := 0, wire := 0, arg := w
                    at_ := .injection }
  { s with fresh := s.fresh + 1, flits := s.flits ++ [f] }.inject f

/-- BCFG_DRAIN_DONE (R148): counter cur.idx has drained. -/
def execBcfgDrainDone (s : State) : Res :=
  let id := s.cur.idx
  let c := s.ctr id
  match c.cfg with
  | some w =>
      if s.inNet id then .next s
      else
        let f? := s.flits.find? (fun f => f.ctr == id && f.kind == .configure && f.at_ == .exit 0)
        let owner := f?.bind (fun f =>
          if f.fe || s.reserved id || !(s.core f.core).bound then none else some (s.core f.core).rid)
        let s1 := s.wakeBbw id none stCancelled
        let s2 := s1.setCtr id (freshCounter (modeOf w) (w.extractLsb' 0 3).toNat (w.extractLsb' 8 48).toNat owner)
        let s3 := match f? with
          | some f => if f.fe then { s2 with flits := s2.flits.filter (·.id != f.id) } else s2.answer f.id stOk
          | none => s2
        .next (s3.releaseHeld id)
  | none => .next s

/-- BRIDLE_BARRIER_RELEASE (R149, R306): counter cur.idx is pending and nothing is in flight. -/
def execBridleBarrierRelease (s : State) : Res :=
  let id := s.cur.idx
  let c := s.ctr id
  if c.pending && !s.inNet id then
    let c1 := { c with bal := c.bal.map (fun _ => false), cnt := c.cnt.map (fun _ => 0), gen := c.gen + 1, pending := false }
    .next (((s.setCtr id c1).wakeBbw id (some c.gen) stOk).releaseHeld id)
  else .next s

/-! ## The instructions -/

/-- CapCheck of a Bridle access (R143), then the tenant's current range (R296). -/
def bridleCheck (k : Cap) (need : BitVec 6) : Eff Nat := do
  let id := k.cur.toNat
  capCheck k id 1 need kindBridle 1
  let s ← gets id_
  match s.part? s.cc.tenant.toNat with
  | some p =>
      let hi := if s.th.cprv then p.blimit else p.blimit - 256
      if p.bbase ≤ id ∧ id < hi then pure id else trapWith .capBound (BitVec.ofNat 64 id)
  | none => trapWith .capBound (BitVec.ofNat 64 id)
where id_ (s : State) : State := s

/-- The input wire (R143): by LCORE where the t field is 0. -/
def wireOf (t : Src) (v : Word) (lcore : Nat) : Nat := if t = .g 0 then lcore else (v.extractLsb' 0 6).toNat

/-- A Bridle instruction sends its flit and waits for the reply. -/
def sendFlit (k : FlitKind) (d : Dst) (a : BitVec 4) (t : Src) (need : BitVec 6) : Eff Unit :=
  withWait d (len1 t) do
    let v ← readSrc t
    let c ← readA a
    let id ← bridleCheck c need
    if k = .configure ∧ !cfgOk v then finish d (len1 t) stMode
    else do
      let s ← gets (fun s => s)
      let f : Flit := { id := s.fresh, kind := k, tenant := s.cc.tenant, fe := false, ctr := id, core := s.cur.core, slot := s.cur.slot
                        wire := wireOf t v s.th.lcore, arg := v, at_ := .injection }
      waitFor d .waitMem (.bridle f.id d (len1 t))
      mods (fun s => { s with fresh := s.fresh + 1, flits := s.flits ++ [f] }.inject f)

/-- binc and bdec with release order inject only after every earlier access of the thread is complete. -/
def bridleOrder : Eff Unit := do
  let p ← prefixOf
  if isRelease p.order then settle else pure ()

def execBinc (d : Dst) (a : BitVec 4) (t : Src) (s : State) : Res :=
  (do bridleOrder
      sendFlit .token d a t permA : Eff Unit).go s
def execBdec (d : Dst) (a : BitVec 4) (t : Src) (s : State) : Res :=
  (do bridleOrder
      sendFlit .anti d a t permA : Eff Unit).go s
def execBcan (d : Dst) (a : BitVec 4) (t : Src) (s : State) : Res := (sendFlit .cancel d a t permA).go s
def execBbar (d : Dst) (a : BitVec 4) (t : Src) (s : State) : Res := (sendFlit .barToken d a t permA).go s
def execBbw (d : Dst) (a : BitVec 4) (t : Src) (s : State) : Res := (sendFlit .wait d a t permR).go s
def execBcfg (d : Dst) (a : BitVec 4) (t : Src) (s : State) : Res := (sendFlit .configure d a t (permW ||| permA)).go s
def execBpeek (d : Dst) (a : BitVec 4) (t : Src) (s : State) : Res := (sendFlit .peek d a t permR).go s

def State.dueBridle (s : State) : List Move :=
  s.flits.flatMap (fun f =>
    match f.at_ with
    | .wire _ => [Move.event (curOf f.core f.slot f.id) .balancerServe]
    | .exit _ => if f.kind = .configure then [] else [Move.event (curOf f.core f.slot f.id) .exitCellServe]
    | .result _ => [Move.event (curOf f.core f.slot f.id) .bridleResult]
    | .injection => [])
  ++ s.counters.flatMap (fun (id, c) =>
    evIf (c.cfg.isSome && !s.inNet id) 0 0 id .bcfgDrainDone ++ evIf (c.pending && !s.inNet id) 0 0 id .bridleBarrierRelease)

end Sys2Proof.Machine
end

