-- ==== Sys2Proof/Machine/Task.lean ====
section
/-! DEFINITION. Tasks: entries, deques, the dispenser, stealing, and the end of a core's part in its stage (R151-R161, R283, R284, R288,
R291, R322). -/

namespace Sys2Proof.Machine

/-! ## Entries and register blocks (R151) -/

def entKind (e : BitVec 256) : Bool := e.getLsbD 63
def entPc (e : BitVec 256) : Addr := e.extractLsb' 0 48
def entLo (e : BitVec 256) : Word := e.extractLsb' 64 64
def entHi (e : BitVec 256) : Word := e.extractLsb' 128 64
def entArg (e : BitVec 256) : Word := e.extractLsb' 192 64

/-- An entry from its fields; bits 62:48 are zero. -/
def entryOf (range : Bool) (pc : Addr) (w1 w2 w3 : Word) : BitVec 256 := w3 ++ w2 ++ w1 ++ BitVec.ofBool range ++ 0#15 ++ pc

/-- The range [lo, hi) of a range entry. -/
def entRange (e : BitVec 256) (lo hi : Word) : BitVec 256 := entArg e ++ hi ++ lo ++ e.extractLsb' 0 64

/-- Block(b) read. -/
def readBlock (b : BitVec 5) : Eff (BitVec 256) := do
  let w0 ← readG b
  let w1 ← readG (b + 1)
  let w2 ← readG (b + 2)
  let w3 ← readG (b + 3)
  pure (w3 ++ w2 ++ w1 ++ w0)

/-- Block(b) written. -/
def writeBlock (b : BitVec 5) (e : BitVec 256) : Eff Unit := do
  writeG b (e.extractLsb' 0 64)
  writeG (b + 1) (entLo e)
  writeG (b + 2) (entHi e)
  writeG (b + 3) (entArg e)

/-- The registers of Block(b) as destinations (R123). -/
def useBlock (b : BitVec 5) : Eff Unit := do
  useG b
  useG (b + 1)
  useG (b + 2)
  useG (b + 3)

/-- Deliver (R152). -/
def deliver (e : BitVec 256) : Eff Unit :=
  modTh (fun t => { (((t.retired 0).setG 1 (entLo e)).setG 2 (entHi e)).setG 3 (entArg e) with pc := entPc e })

/-! ## The deque and the dispenser (R151, R153) -/

/-- A deque's top entry, its last, taken by a thief (R154): what the thief gets, and the deque after it. -/
def takeTop : List (BitVec 256) → Option (BitVec 256) × List (BitVec 256)
  | [] => (none, [])
  | [e] =>
      let n := (entHi e).toNat - (entLo e).toNat
      if entKind e ∧ 1 < n then
        let m := entLo e + BitVec.ofNat 64 (n / 2)
        (some (entRange e m (entHi e)), [entRange e (entLo e) m])
      else (some e, [])
  | e :: r => let (x, r1) := takeTop r; (x, e :: r1)

/-- Whether a dispenser entry is of the stage of a core. -/
def DispEntry.of (x : DispEntry) (c : Core) : Bool := x.rid == c.rid && x.stage == c.stage

/-- The entries a dispenser holds, with those it keeps reserved (R151, R373). -/
def Cluster.dispUsed (c : Cluster) : Nat := c.disp.length + c.kept.length

/-- Whether the dispenser takes an entry: room freed while an upcall waits is the upcall's (R346). -/
def Cluster.room (c : Cluster) : Bool := decide (c.dispUsed < 256) && c.upcalls.isEmpty

/-- An entry of the stage of the cur core appended to its dispenser. -/
def State.dispense (s : State) (e : BitVec 256) : State :=
  s.setCcl { s.ccl with disp := s.ccl.disp ++ [{ rid := s.cc.rid, stage := s.cc.stage, words := e }] }

/-! ## The search and stealing (R154, R155) -/

def isIdle : Wait → Bool
  | .idle _ => true
  | _ => false

def Thread.idles (t : Thread) : Bool := t.state == .idleW && isIdle t.wait

/-- Whether a thread in IDLEW is the one its core's deque serves: the lowest slot. -/
def State.dequeTurn (s : State) (core : Nat) (slot : Fin 8) : Bool :=
  ((List.finRange 8).find? (fun k => (s.thAt core k).idles)) == some slot

/-- Whether a thread in IDLEW is the one its dispenser serves: none of its stage in the cluster has been idle for longer. -/
def State.dispTurn (s : State) (core : Nat) (slot : Fin 8) : Bool :=
  let c := s.core core
  s.threads.all (fun (n, k, t) =>
    let x := s.core n
    !(t.idles && clusterOf n == clusterOf core && x.rid == c.rid && x.stage == c.stage)
    || (n == core && k == slot) || decide ((s.thAt core slot).parkAt ≤ t.parkAt))

/-- The end of a steal: a search delivers or idles; steal writes its block and its status. -/
def stealEnd (d : Option Dst) (blk : BitVec 5) (len : Nat) (st : Word) (e : Option (BitVec 256)) : Eff Unit :=
  match d, e with
  | none, some e => deliver e
  | none, none => do
      let s ← gets id
      waitIn .idleW (.idle s.cycle)
  | some d, some e => do
      writeBlock blk e
      finish d len st
  | some d, none => finish d len st

/-- The steal counter of the cur core's stage (R297). -/
def State.stealCounter (s : State) : Nat :=
  let serial := match s.stageOf s.cur.core with | some g => g.serial | none => 0
  match s.part? s.cc.tenant.toNat with
  | some p => p.blimit - 256 + serial % 256
  | none => 0

/-- Steal (R154) begins: a token for the stage's steal counter, on the wire of the core's number. -/
def beginSteal (st : TState) (d : Option Dst) (blk : BitVec 5) (len : Nat) : Eff Unit := do
  let s ← gets id
  if s.cc.scnt = 1 then stealEnd d blk len stMode none
  else do
    let f : Flit := { id := s.fresh, kind := .token, tenant := s.cc.tenant, fe := false, ctr := s.stealCounter, core := s.cur.core
                      slot := s.cur.slot, wire := s.th.lcore, arg := 0, at_ := .injection }
    match d with
    | some d => waitFor d st (.steal f.id none (some d) blk len)
    | none => waitIn st (.steal f.id none none blk len)
    mods (fun s => { s with fresh := s.fresh + 1, flits := s.flits ++ [f] }.inject f)

/-- The three tries of R155; st is the state the thread waits in for a steal. -/
def search (st : TState) (own disp : Bool) : Eff Unit := do
  let s ← gets id
  match s.cc.deque, s.ccl.disp.find? (fun x => x.of s.cc), own, disp with
  | e :: r, _, true, _ => do
      modCc (fun c => { c with deque := r })
      deliver e
  | _, some x, _, true => do
      modCcl (fun c => { c with disp := c.disp.erase x })
      deliver x.words
  | _, _, _, _ => beginSteal st none 0 4

/-- waitw, tend and done in S are ILLEGAL. -/
def userOnly (i : Instr) : Eff Unit := do
  let t ← gets State.th
  demand (!t.cprv) .illegal ((encodeWord i).zeroExtend 64)

/-- The registers a delivery writes as destinations (R123, R124, R152). -/
def useDelivery : Eff Unit := do
  useG 1
  useG 2
  useG 3

/-- waitw (R155). -/
def execWaitw (s : State) : Res :=
  (do userOnly .waitw
      useDelivery
      search .waitMem true true : Eff Unit).go s

/-- tend (R156): it retires when its search begins. -/
def execTend (s : State) : Res :=
  (do userOnly .tend
      settle
      modTh (fun t => t.retired 4)
      search .waitMem true true : Eff Unit).go s

/-- STEAL_REQUEST (R154): the deque unit of the victim answers the cur thread. A core that has executed done answers as an empty one
(R291). -/
def execStealRequest (s : State) : Res :=
  match s.th.wait with
  | .steal _ (some v) d blk len =>
      let c := s.core v
      let (e, r) := if c.done then (none, c.deque) else takeTop c.deque
      (stealEnd d blk len (if e.isSome then stOk else stCancelled) e).go (s.setCore v { c with deque := r })
  | _ => .next s

/-- Whether a thread in IDLEW repeats its search now (R155). -/
def State.idleDue (s : State) (core : Nat) (slot : Fin 8) : Bool :=
  let c := s.core core
  match (s.thAt core slot).wait with
  | .idle since =>
      (s.thAt core slot).state == .idleW && ((!c.deque.isEmpty && s.dequeTurn core slot)
      || ((s.cluster (clusterOf core)).disp.any (fun x => x.of c) && s.dispTurn core slot)
      || decide (since + 512 ≤ s.cycle))
  | _ => false

/-- IDLEW_RETRY (R155). -/
def execIdlewRetry (s : State) : Res :=
  if s.idleDue s.cur.core s.cur.slot then
    (search .idleW (s.dequeTurn s.cur.core s.cur.slot) (s.dispTurn s.cur.core s.cur.slot)).go s
  else .next s

/-- steal (R161): one steal, into the block. -/
def execSteal (d : Dst) (p : BitVec 5) (s : State) : Res :=
  (withWait d 4 do
    useBlock p
    beginSteal .waitMem (some d) p 4).go s

/-! ## yield (R157) -/

def execYield (s : State) : Res :=
  (do
    retire 4
    mods (fun s =>
      let others := (List.finRange 8).filter (fun k => k != s.cur.slot && (s.thAt s.cur.core k).state == .ready)
      if others = [] then s else s.setTh { s.th with yld := some (s.cycle + 16, others) }) : Eff Unit).go s

/-- YIELD_EXPIRE (R157). -/
def execYieldExpire (s : State) : Res :=
  match s.th.yld with
  | some (e, _) => .next (if e ≤ s.cycle then s.setTh { s.th with yld := none } else s)
  | none => .next s

/-! ## fork, pushr and dsp (R158) -/

/-- A push is ordered as a release at module scope. -/
def pushOrder : Eff Unit := beforeAccess { order := .release, scope := .module }

/-- An entry pushed at the bottom of the own deque, where it has room. -/
def pushOwn (e : BitVec 256) : Eff Bool := do
  let s ← gets id
  if s.cc.deque.length < 16 then do
    modCc (fun c => { c with deque := e :: c.deque })
    pure true
  else pure false

/-- The block of a push as an entry. -/
def pushBlock (b : BitVec 5) (range : Bool) : Eff (BitVec 256) := do
  pushOrder
  let w ← readBlock b
  let e := entryOf range (entPc w) (entLo w) (entHi w) (entArg w)
  demand (e.extractLsb' 0 2 == 0) .align ((entPc e).zeroExtend 64)
  pure e

def execFork (d : Dst) (p : BitVec 5) (s : State) : Res :=
  (withEff d 4 do
    let e ← pushBlock p false
    let ok ← pushOwn e
    pure (if ok then stOk else stFull)).go s

def execPushr (d : Dst) (p : BitVec 5) (s : State) : Res :=
  (withEff d 4 do
    let e ← pushBlock p true
    if (entHi e).toNat ≤ (entLo e).toNat then pure stMode
    else do
      let ok ← pushOwn e
      pure (if ok then stOk else stFull)).go s

def execDsp (d : Dst) (p : BitVec 5) (s : State) : Res :=
  (withEff d 4 do
    let e ← pushBlock p false
    let s ← gets id
    if s.ccl.room then do
      mods (fun s => s.dispense e)
      pure stOk
    else pure stFull).go s

/-! ## jdec (R160) -/

/-- jdec. DESIGN CHOICE (entry 49): its write of COUNT is traced as an amo's. -/
def execJdec (d : Dst) (a : BitVec 4) (s : State) : Res :=
  (withEff d 4 do
    beforeAccess { order := .acqRel, scope := .module }
    let k ← readA a
    let addr := k.cur.toNat
    capCheck k addr 32 (permR ||| permW ||| permA) kindMem 32
    demand (!inHostWindow k.cur) .page (k.cur.zeroExtend 64)
    let t ← home addr .atomic
    let bs ← fetchBytes t 32
    let w : BitVec 256 := BitVec.ofNat 256 (ofBytes bs)
    let old : Word := w.extractLsb' 0 64
    if old = 0 then pure (pack stMode 0)
    else do
      storeBytes t (bytesOf 8 (old - 1).toNat) 0x06
      if old ≠ 1 then pure (pack stOk (old - 1))
      else do
        let ok ← pushOwn (entryOf false (w.extractLsb' 64 48) (w.extractLsb' 128 64) (k.cur.zeroExtend 64) (w.extractLsb' 192 64))
        pure (if ok then pack stOk 0 else pack stFull 0)).go s

/-! ## popr and splitr (R161) -/

/-- The bottom range of the own deque, or at most g elements of it, into a block. -/
def takeBottom (b : BitVec 5) (g : Option Word) : Eff Word := do
  let s ← gets id
  match s.cc.deque with
  | [] => pure stCancelled
  | e :: r =>
      if !entKind e then pure stMode
      else
        let n := entHi e - entLo e
        match g with
        | some g =>
            if n.toNat ≤ g.toNat then do
              modCc (fun c => { c with deque := r })
              writeBlock b e
              pure stOk
            else do
              modCc (fun c => { c with deque := entRange e (entLo e + g) (entHi e) :: r })
              writeBlock b (entRange e (entLo e) (entLo e + g))
              pure stOk
        | none => do
            modCc (fun c => { c with deque := r })
            writeBlock b e
            pure stOk

def execPopr (d : Dst) (p : BitVec 5) (s : State) : Res :=
  (withEff d 4 do
    useBlock p
    takeBottom p none).go s

def execSplitr (d : Dst) (p : BitVec 5) (t : Src) (s : State) : Res :=
  (withEff d (len1 t) do
    useBlock p
    let g ← readSrc t
    if g = 0 then pure stMode else takeBottom p (some g)).go s

/-! ## done (R159) -/

/-- done: the thread waits for its relaxed accesses, then for what DONE_PROCEED looks at, step by step. -/
def execDone (s : State) : Res :=
  (do userOnly .done
      settle
      waitIn .waitMem .done : Eff Unit).go s

/-- The streams a core feeds, and a cstrm that waits for a thread in no slot, end with CANCELLED (R212, R234). -/
def State.endStreams (s : State) (core : Nat) : State :=
  let s1 := (s.core core).strms.foldl (fun (s : State) j =>
    let s := s.endStream core j.num csCancelled
    s.threads.foldl (fun (s : State) (x : Nat × Fin 8 × Thread) =>
      let q := x.2.2.strm.get j.q
      if q.bound ∧ !q.closed ∧ !q.broken ∧ q.src = core ∧ q.num = j.num then
        s.setThAt x.1 x.2.1 { s.thAt x.1 x.2.1 with strm := (s.thAt x.1 x.2.1).strm.set j.q.val Stream.none j.q.isLt }
      else s) s) s
  match (s1.core core).cq with
  | c :: r =>
      match decodeCmd c.word with
      | some (.cstrm _ _ _ _ _) =>
          if c.running && !c.finished && !(s1.threads.any (fun (_, _, t) => t.state != .empty && t.cmds.any (·.1 == c.uid))) then
            s1.setCore core { s1.core core with cq := { c with finished := true, status := csCancelled } :: r }
          else s1
      | _ => s1
  | [] => s1

/-- Whether a core's open streams are to end before its done goes on. -/
def State.hasStreams (s : State) (core : Nat) : Bool :=
  !(s.core core).strms.isEmpty ||
  (match (s.core core).cq with
   | c :: _ => c.running && !c.finished && (match decodeCmd c.word with | some (.cstrm _ _ _ _ _) => true | _ => false)
      && !(s.threads.any (fun (_, _, t) => t.state != .empty && t.cmds.any (·.1 == c.uid)))
   | [] => false)

/-- Step 1 of done: every command and vector instruction is complete and no sibling is in S. -/
def Core.quiet (c : Core) (slot : Fin 8) : Bool :=
  c.mq.isEmpty && c.cq.isEmpty && c.vq.isEmpty && c.vrun.isEmpty
  && (List.finRange 8).all (fun k => k == slot || (c.th.get k).state == .empty || !(c.th.get k).cprv)

/-- Whether a pre-emption withdraws what a thread waits for: its instruction has not retired and issues again (R120, R187). -/
def Thread.withdrawn (t : Thread) : Bool :=
  match t.state with
  | .parkFe | .parkQ | .parkMon | .parkEngq | .parkBar | .parkTether => true
  | .parkXl => (match t.wait with | .handling | .pth _ _ | .back => false | _ => true)
  | .waitMem => (match t.wait with | .vecs | .room | .ewait _ => true | _ => false)
  | _ => false

/-- Whether every relaxed access of a thread is one a stage-2 fault holds: nothing else is waited for (R120). -/
def Thread.onlyHeld (t : Thread) : Bool := t.rel.all (fun x => x.stage == .held)

/-- A sibling that asked for a pre-emption with pth learns its result (R370). -/
def State.ackPth (s : State) (core : Nat) (by_ : Fin 8) (st : Word) : State :=
  match (s.thAt core by_).wait with
  | .pth d len => s.onThread core by_ (finish d len st)
  | _ => s

/-- A thread goes to EMPTY without an image; a pth that waits for it gets MODE (R370). -/
def State.emptyOut (s : State) (core : Nat) (slot : Fin 8) : State :=
  let s1 := ((s.countMiss core slot).takeBack core slot).dropWaits core slot
  let t := s1.thAt core slot
  let s2 := s1.setThAt core slot { t.emptied with pre := none, cmds := [] }
  match t.pre with
  | some (.pth b _) => s2.ackPth core b stMode
  | _ => s2

/-- Whether a thread waits in one of done's steps. -/
def Wait.inDone : Wait → Bool
  | .done | .doneRoom | .doneEnd => true
  | _ => false

/-- Whether a thread that is to go to EMPTY without an image can go now (R159): it stands at a boundary or its wait is withdrawn, and
no relaxed access of it is still to take effect (R259). -/
def Thread.endable (t : Thread) : Bool :=
  t.onlyHeld && (t.withdrawn || t.state == .hold || isIdle t.wait || t.wait.inDone
    || ((t.state == .ready || t.state == .handler) && t.pfx.isNone && t.miss.isNone))

/-- Step 3 of done: every sibling goes to EMPTY, at once where it can. -/
def State.endSiblings (s : State) (core : Nat) (slot : Fin 8) : State :=
  (List.finRange 8).foldl (fun (s : State) k =>
    let t := s.thAt core k
    if k = slot ∨ t.state = .empty then s
    else if t.endable then s.emptyOut core k
    else
      let s1 := match t.pre with | some (.pth b _) => s.ackPth core b stMode | _ => s
      s1.setThAt core k { s1.thAt core k with pre := some .ended }) s

/-- Steps 2 and 3 of done. -/
def State.doneMove (s : State) (core : Nat) (slot : Fin 8) : State :=
  let c := s.core core
  let cl := clusterOf core
  let moved : List DispEntry := c.deque.map (fun e => { rid := c.rid, stage := c.stage, words := e })
  let s1 := s.setCluster cl { s.cluster cl with disp := (s.cluster cl).disp ++ moved }
  let s2 := (s1.setCore core { c with deque := [] }).endSiblings core slot
  s2.setThAt core slot { s2.thAt core slot with wait := .doneEnd }

/-- Steps 4 and 5 of done. -/
def State.doneNow (s : State) (core : Nat) (slot : Fin 8) : State :=
  let c := s.core core
  let s3 := s.emptyOut core slot
  let s4 := s3.setCore core { s3.core core with accown := 0, done := true }
  let s5 := s4.breakDone core
  let s6 := if c.smcount = 0 then s5 else s5.noteFsum core 2
  match s6.stageOf core with
  | some g =>
      let s7 := s6.noteNode core (fun n => { n with done := n.done + 1 })
      match g.slotIn (clusterOf core) with
      | some k => s7.barArrive (clusterOf core) k 1
      | none => s7
  | none => s6

/-- Whether the dispenser takes a core's deque. -/
def State.roomForDeque (s : State) (core : Nat) : Bool :=
  let cl := s.cluster (clusterOf core)
  (s.core core).deque.isEmpty || (decide (cl.dispUsed + (s.core core).deque.length ≤ 256) && cl.upcalls.isEmpty)

/-- Whether every sibling of a thread is EMPTY. -/
def Core.alone (c : Core) (slot : Fin 8) : Bool := (List.finRange 8).all (fun k => k == slot || (c.th.get k).state == .empty)

/-- Whether DONE_PROCEED has something to do for a thread that waits in done. -/
def State.doneDue (s : State) (core : Nat) (slot : Fin 8) : Bool :=
  let c := s.core core
  match (s.thAt core slot).wait with
  | .done => s.hasStreams core || c.quiet slot
  | .doneRoom => s.roomForDeque core
  | .doneEnd => c.alone slot
  | _ => false

/-- DONE_PROCEED (R159): streams end first (R212); each step follows in the cycle in which its condition holds. -/
def execDoneProceed (s : State) : Res :=
  let n := s.cur.core
  let k := s.cur.slot
  if s.doneDue n k then
    match s.th.wait with
    | .done =>
        .next (if s.hasStreams n then s.endStreams n
          else if s.roomForDeque n then s.doneMove n k
          else s.setTh { s.th with wait := .doneRoom })
    | .doneRoom => .next (s.doneMove n k)
    | _ => .next (s.doneNow n k)
  else .next s

/-- done goes on in the cycle in which its condition holds. -/
def State.dueDone (s : State) : List Move := s.threads.flatMap (fun (n, k, _) => evIf (s.doneDue n k) n k 0 .doneProceed)

/-! ## When the events of this file are due -/

def State.dueTask (s : State) : List Move :=
  s.threads.flatMap (fun (n, k, t) =>
    evIf (match t.wait with | .steal _ (some _) _ _ _ => true | _ => false) n k 0 .stealRequest
    ++ evIf (s.idleDue n k) n k 0 .idlewRetry
    ++ evIf (match t.yld with | some (e, _) => decide (e ≤ s.cycle) | none => false) n k 0 .yieldExpire)

end Sys2Proof.Machine
end

