-- ==== Sys2Proof/Machine/Spool.lean ====
section
/-! DEFINITION. Pre-emption, context images, the Spool and its instructions (R120, R153, R179-R182, R187, R320, R368-R379). -/

namespace Sys2Proof.Machine

/-! ## The context image in memory (R371, R372) -/

def w8 (v : Word) : List Byte := bytesOf 8 v.toNat
def capBytes (c : Cap) : List Byte := bytesOf 16 c.bits.toNat
def wordsUpTo (n : Nat) (l : List Word) : List Byte := (List.range n).flatMap (fun i => w8 ((l[i]?).getD 0))

def RelOp.code : RelOp → BitVec 3
  | .ld => 0
  | .st => 1
  | .ldc => 2
  | .stc => 3
  | .amo => 4
  | .cas => 5

/-- An XLREC entry (R372). -/
def xlrec : Option RelAcc → List Byte
  | some x => w8 (1#1 ++ x.op.code ++ x.reg ++ x.fn ++ x.addr) ++ w8 x.val
  | none => bytesOf 16 0

/-- A QSTATE entry. -/
def qstate (flags : BitVec 3) (buf elems log2 : Nat) : List Byte :=
  bytesOf 4 (flags.toNat + buf % 8 * 8 + elems % 16 * 64 + log2 % 4 * 1024)

def Stream.flags (q : Stream) : BitVec 3 := BitVec.ofBool q.broken ++ BitVec.ofBool q.closed ++ BitVec.ofBool q.bound

def Resume.code : Resume → Nat
  | .run => 0
  | .idlew => 1
  | .reissue => 2

/-- RSTATE. -/
def Image.rstate (x : Image) : Word :=
  x.seq ++ BitVec.ofNat 20 x.th.lcore ++ 0#1 ++ BitVec.ofNat 3 x.tslot.val ++ 0#3 ++ BitVec.ofBool (!x.th.rel.isEmpty) ++ BitVec.ofNat 4 x.resume.code

/-- The destination of a recorded fault as an operand code: capability register i as 32 + i, DESIGN CHOICE (entry 103); 0 for none. -/
def dfrCode : Option (Bool × BitVec 6) → BitVec 6
  | some (true, r) => 32 + r
  | some (false, r) => r
  | none => 0

def dfrDest (c : BitVec 6) : Option (Bool × BitVec 6) :=
  if c = 0 then none else if c < 32#6 then some (false, c) else some (true, c - 32)

/-- The recorded fault. -/
def dfrWords : List Dfr → List Byte
  | d :: _ => w8 (1#1 ++ 0#1 ++ dfrCode d.dest ++ 0#8 ++ d.addr) ++ w8 (d.pc.zeroExtend 64)
  | [] => bytesOf 16 0

/-- The 2,048 bytes of an image. -/
def Image.bytes (x : Image) : List Byte :=
  let t := x.th
  let q := fun i : Fin 4 => t.strm.get i
  (List.finRange 32).flatMap (fun i => w8 (if i = 0 then 0 else t.g.get i))
  ++ (List.finRange 16).flatMap (fun i => capBytes (t.a.get i))
  ++ (List.finRange 16).flatMap (fun i => bytesOf 32 (t.v.get i).toNat)
  ++ (List.finRange 8).flatMap (fun i => bytesOf 4 (if i = 0 then 2 ^ 32 - 1 else (t.k.get i).toNat))
  ++ capBytes t.pcc ++ capBytes t.epcc ++ w8 (t.pc.zeroExtend 64) ++ w8 x.rstate
  ++ w8 (t.ctxid.zeroExtend 64) ++ w8 (t.fpcsr.zeroExtend 64) ++ w8 t.srstrm ++ w8 t.srctr ++ w8 t.jseed ++ w8 (t.tcause.zeroExtend 64)
  ++ w8 t.tval ++ w8 t.tepc ++ w8 t.tfpc ++ w8 t.tvec ++ w8 (t.tstatus.zeroExtend 64) ++ w8 t.hscr ++ w8 t.tmcmp
  ++ dfrWords t.dfr ++ w8 0 ++ (List.range 4).flatMap (fun i => xlrec t.rel[i]?) ++ bytesOf 16 0
  ++ (List.finRange 4).flatMap (fun i => qstate (q i).flags 0 (q i).elems.length (Nat.log2 (q i).width))
  ++ qstate (x.eps.get 0) (t.rbuf.get 0).length 0 0 ++ qstate (x.eps.get 1) (t.rbuf.get 1).length 0 0
  ++ qstate (x.eps.get 2) (t.sbuf.get 0).length 0 0 ++ qstate (x.eps.get 3) (t.sbuf.get 1).length 0 0
  ++ (List.finRange 4).flatMap (fun i => bytesOf 8 (q i).pos ++ bytesOf 8 ((q i).src % 2 ^ 20 + (q i).num % 16 * 2 ^ 20))
  ++ wordsUpTo 4 (t.rbuf.get 0) ++ wordsUpTo 4 (t.rbuf.get 1) ++ wordsUpTo 4 (t.sbuf.get 0) ++ wordsUpTo 4 (t.sbuf.get 1)
  ++ (List.finRange 4).flatMap (fun i => wordsUpTo 8 (q i).elems)
  ++ (List.range 16).flatMap (fun i => bytesOf 16 (((t.inbox[i]?).getD 0)).toNat)

/-- The granules of an image that hold capabilities, and whether each is tagged. -/
def Image.tags (x : Image) : List (Nat × Bool) :=
  (List.finRange 16).map (fun i => (16 + i.val, (x.th.a.get i).tag)) ++ [(0x42, x.th.pcc.tag), (0x43, x.th.epcc.tag)]

/-- A word at a byte offset of an image. -/
def imgW (v o : Nat) : Word := BitVec.ofNat 64 (v / 2 ^ (8 * o))
def imgWords (v o n : Nat) : List Word := (List.range n).map (fun i => imgW v (o + 8 * i))

def relOpOf (n : Nat) : RelOp :=
  match n with
  | 0 => .ld
  | 1 => .st
  | 2 => .ldc
  | 3 => .stc
  | 4 => .amo
  | _ => .cas

/-- A relaxed access as an image holds it (R372). -/
def xlAccess (op : RelOp) (reg fn : BitVec 6) (addr : Addr) (val : Word) (i : Nat) : RelAcc :=
  { op := op, reg := reg, fn := fn, addr := addr, val := val, exp := 0, rm := 0, cap := Cap.null, pc := 0, order := i + 1
    stage := .issued, res := 0, rcap := Cap.null }

/-- The relaxed access of an XLREC entry, where it is valid. -/
def xlread (v i : Nat) : Option RelAcc :=
  let w := imgW v (0x4D0 + 16 * i)
  if w.getLsbD 63 then
    some (xlAccess (relOpOf (w.extractLsb' 60 3).toNat) (w.extractLsb' 54 6) (w.extractLsb' 48 6) (w.extractLsb' 0 48)
      (imgW v (0x4D8 + 16 * i)) i)
  else none

/-- A relaxed access of an image issued again on a thread (R371, R372): what its entry does not hold comes from the registers, or is
free (entry 102). -/
def RelAcc.again (x : RelAcc) (t : Thread) (tick i : Nat) : RelAcc :=
  { x with
    exp := t.g.get ⟨x.reg.toNat % 32, Nat.mod_lt _ (by decide)⟩
    rm := arithMode t.rm
    cap := if x.op = .stc then t.a.get ⟨x.reg.toNat % 16, Nat.mod_lt _ (by decide)⟩ else { bits := 0, tag := Config.xlRc tick i }
    pc := Config.xlPc tick i
    order := i + 1, stage := .issued }

/-- An image read back from its bytes and tags. -/
def imageRead (v : Nat) (tag : Nat → Bool) : Image :=
  let cap := fun o => ({ bits := BitVec.ofNat 128 (v / 2 ^ (8 * o)), tag := tag (o / 16) } : Cap)
  let g : Vector Word 32 := Vector.ofFn (fun i => if i.val = 0 then 0 else imgW v (8 * i.val))
  let a : Vector Cap 16 := Vector.ofFn (fun i => cap (0x100 + 16 * i.val))
  let qs := fun i => imgW v (0x520 + 4 * i)
  let buf := fun i o => (imgWords v o 4).take ((qs i).extractLsb' 3 3).toNat
  let strm : Vector Stream 4 := Vector.ofFn (fun i =>
    let w := qs i.val
    let p := imgW v (0x548 + 16 * i.val)
    { bound := w.getLsbD 0, closed := w.getLsbD 1, broken := w.getLsbD 2
      elems := (imgWords v (0x600 + 64 * i.val) 8).take (w.extractLsb' 6 4).toNat
      width := if w.getLsbD 0 then 2 ^ (w.extractLsb' 10 2).toNat else 0
      pos := (imgW v (0x540 + 16 * i.val)).toNat, src := (p.extractLsb' 0 20).toNat, num := (p.extractLsb' 20 4).toNat })
  let da := imgW v 0x4B8
  let rs := imgW v 0x448
  let tslot : Fin 8 := (rs.extractLsb' 8 3).toFin
  let t : Thread := { Thread.fresh tslot with
    lcore := (rs.extractLsb' 12 20).toNat
    g := g, a := a
    v := Vector.ofFn (fun i => BitVec.ofNat 256 (v / 2 ^ (8 * (0x200 + 32 * i.val))))
    k := Vector.ofFn (fun i => BitVec.ofNat 32 (v / 2 ^ (8 * (0x400 + 4 * i.val))))
    pcc := cap 0x420, epcc := cap 0x430, pc := (imgW v 0x440).extractLsb' 0 48
    ctxid := (imgW v 0x450).extractLsb' 0 11, fpcsr := (imgW v 0x458).extractLsb' 0 9, srstrm := imgW v 0x460, srctr := imgW v 0x468
    jseed := imgW v 0x470, tcause := (imgW v 0x478).extractLsb' 0 8, tval := imgW v 0x480, tepc := imgW v 0x488, tfpc := imgW v 0x490
    tvec := imgW v 0x498 &&& ~~~3#64, tstatus := (imgW v 0x4A0).extractLsb' 0 4, hscr := imgW v 0x4A8, tmcmp := imgW v 0x4B0
    dfr := if da.getLsbD 63 then [{ dest := dfrDest (da.extractLsb' 56 6), addr := da.extractLsb' 0 48, pc := (imgW v 0x4C0).extractLsb' 0 48, order := 0 }] else []
    rel := (List.range 4).filterMap (xlread v)
    inbox := ((List.range 16).map (fun i => BitVec.ofNat 128 (v / 2 ^ (8 * (0x700 + 16 * i))))).filter (· != 0)
    strm := strm
    rbuf := Vector.ofFn (fun i => buf (4 + i.val) (0x580 + 32 * i.val))
    sbuf := Vector.ofFn (fun i => buf (6 + i.val) (0x5C0 + 32 * i.val)) }
  let kind := rs.extractLsb' 0 4
  { th := t, resume := if kind = 1 then .idlew else if kind = 2 then .reissue else .run, tslot := tslot, seq := rs.extractLsb' 32 32
    eps := Vector.ofFn (fun i => (qs (4 + i.val)).extractLsb' 0 3) }

/-! ## Frames and entries (R179, R374) -/

def State.modFrame (s : State) (cl : Nat) (k : Fin 64) (f : Option Frame) : State :=
  let c := s.cluster cl
  s.setCluster cl { c with frames := c.frames.set k.val f k.isLt }

/-- A region's quota of frames in a cluster: its cores there. -/
def State.quota (s : State) (rid cl : Nat) : Nat := (s.cores.filter (fun (n, c) => c.bound && c.rid == rid && clusterOf n == cl)).length

/-- The frames of a region in a cluster. -/
def Cluster.framesOf (c : Cluster) (rid : Nat) : List Frame :=
  (List.finRange 64).filterMap (fun k => match c.frames.get k with | some f => if f.rid = rid then some f else none | none => none)

def Cluster.freeFrame (c : Cluster) : Option (Fin 64) := (List.finRange 64).find? (fun k => (c.frames.get k).isNone)
def Cluster.freeCount (c : Cluster) : Nat := ((List.finRange 64).filter (fun k => (c.frames.get k).isNone)).length

/-- A frame for a save of a region: within the quota, and FREE. -/
def State.frameFor (s : State) (rid cl : Nat) : Option (Fin 64) :=
  let c := s.cluster cl
  if (c.framesOf rid).length < s.quota rid cl then c.freeFrame else none

/-- What an entry index names. -/
inductive Entry where
  | free
  | frame (k : Fin 64) (f : Frame)
  | out (e : Evicted)
  deriving DecidableEq, Repr

def State.entry (s : State) (cl : Nat) (i : Fin 64) : Entry :=
  let c := s.cluster cl
  match (List.finRange 64).find? (fun k => match c.frames.get k with | some f => f.index == some i | none => false) with
  | some k => match c.frames.get k with | some f => .frame k f | none => .free
  | none =>
      match c.evicted.find? (fun e => e.index == some i) with
      | some e => .out e
      | none => .free

/-- Whether an entry holds an image of another region. -/
def Entry.foreign (e : Entry) (rid : Nat) : Bool :=
  match e with
  | .free => false
  | .frame _ f => f.rid != rid
  | .out x => x.rid != rid

def Entry.isOut : Entry → Bool
  | .out _ => true
  | _ => false

/-! ## Saving and loading a context -/

/-- BOUND, CLOSED and BROKEN of a core's endpoints. -/
def Core.epFlags (c : Core) : Vector (BitVec 3) 4 :=
  Vector.ofFn (fun i => let p := c.ep.get i; BitVec.ofBool p.broken ++ BitVec.ofBool p.closed ++ BitVec.ofBool p.bound)

/-- The image of a thread as it stands (R371): what the layout does not hold is not kept. -/
def State.imageOf (s : State) (core : Nat) (slot : Fin 8) (resume : Resume) : Image :=
  let t := s.thAt core slot
  let c := s.core core
  { th := { t with
      wait := .none, pfx := none, watch := none, undo := [], yld := none, miss := none, pre := none, state := .empty, parkAt := 0, cmds := []
      dfr := (t.dfr.take 1).map (fun d => { d with order := 0 })
      rel := t.rel.mapIdx (fun i x => xlAccess x.op x.reg x.fn x.addr x.val i) }
    resume := resume, tslot := slot
    seq := match s.region? c.rid with | some r => r.seq | none => 0
    eps := c.epFlags }

/-- An image stored in a frame. -/
def State.storeFrame (s : State) (core : Nat) (k : Fin 64) (index : Option (Fin 64)) (img : Image) (cmds : List (Nat × Eng)) : State :=
  s.modFrame (clusterOf core) k (some { st := .held, rid := (s.core core).rid, index := index, core := core, img := img, order := s.tick
                                        due := false, cmds := cmds, key := s.tick })

/-- The event a thread slot holds goes with its context, under a key (R337). -/
def State.stowEvent (s : State) (core : Nat) (slot : Fin 8) (key : Nat) : State :=
  let c := s.core core
  match c.held.get slot with
  | some h => s.setCore core { c with held := c.held.set slot.val none slot.isLt, heldOut := c.heldOut ++ [(key, h)] }
  | none => s

/-- Whether a core keeps an event under a key. -/
def Core.keepsEvent (c : Core) (key : Nat) : Bool := c.heldOut.any (·.1 == key)

/-- The event under a key comes back with its context. -/
def State.takeEvent (s : State) (core : Nat) (slot : Fin 8) (key : Nat) : State :=
  let c := s.core core
  match c.heldOut.find? (·.1 == key) with
  | some (_, h) => s.setCore core { c with held := c.held.set slot.val (some h) slot.isLt, heldOut := c.heldOut.filter (·.1 != key) }
  | none => s

/-! ### The inbox (R373) -/

/-- The entries of an inbox: a delivery from the dispenser, and a slot of q4 or q5. -/
def inboxDelivery (i : Nat) : BitVec 128 := BitVec.ofNat 64 i ++ 1#64
def inboxSlot (e : BitVec 1) (i : Nat) : BitVec 128 := BitVec.ofNat 64 i ++ BitVec.ofNat 64 (2 + (52 + e.toNat) * 256)

/-- The lowest number that is no key of a list. -/
def freeKey {α : Type} (l : List (Nat × α)) : Nat := ((List.range (l.length + 1)).find? (fun i => l.all (·.1 != i))).getD 0

/-- How many waiters of a core parked for an endpoint before a thread did. -/
def Core.before (c : Core) (slot : Fin 8) (e : Fin 4) : Nat :=
  ((List.finRange 8).filter (fun k => k != slot && popsFrom e (c.th.get k).wait && decide ((c.th.get k).parkAt < (c.th.get slot).parkAt))).length

/-- What is on its way to a thread as it leaves its slot becomes its inbox: a slot its parked read is owed, or an entry of the dispenser
for its search. The endpoint and the dispenser keep them reserved. -/
def State.fillInbox (s : State) (core : Nat) (slot : Fin 8) : State :=
  let c := s.core core
  let t := s.thAt core slot
  match t.wait with
  | .popq e =>
      let p := c.ep.get e
      match p.slots[c.before slot e]? with
      | some w =>
          let i := freeKey p.kept
          let s1 := s.setCore core (c.setEp e (fun p => { p with slots := p.slots.eraseIdx (c.before slot e), kept := p.kept ++ [(i, w)] }))
          s1.setThAt core slot { s1.thAt core slot with inbox := t.inbox ++ [inboxSlot (BitVec.ofNat 1 e.val) i] }
      | none => s
  | .idle _ =>
      let cl := s.cluster (clusterOf core)
      match cl.disp.find? (fun x => x.of c) with
      | some x =>
          if s.dispTurn core slot then
            let i := freeKey cl.kept
            let s1 := s.setCluster (clusterOf core) { cl with disp := cl.disp.erase x, kept := cl.kept ++ [(i, x)] }
            s1.setThAt core slot { s1.thAt core slot with inbox := t.inbox ++ [inboxDelivery i] }
          else s
      | none => s
  | _ => s

/-- A slot that an endpoint of a core keeps reserved is taken. -/
def State.takeKept (s : State) (core : Nat) (e : Fin 4) (i : Nat) : Option (BitVec 256) × State :=
  let c := s.core core
  ((((c.ep.get e).kept.find? (·.1 == i)).map Prod.snd), s.setCore core (c.setEp e (fun p => { p with kept := p.kept.filter (·.1 != i) })))

/-- The endpoint an inbox entry names: operand code 52 or 53. -/
def inboxEp (x : BitVec 128) : Fin 4 := if x.getLsbD 8 then 1 else 0
def inboxIdx (x : BitVec 128) : Nat := (x.extractLsb' 64 64).toNat

/-- An inbox entry of a context that has left core src is delivered to a thread: a slot into its receive buffer on the same core, back to
the head of its endpoint from another core; a delivery begins its task. -/
def State.giveInbox (s : State) (core : Nat) (slot : Fin 8) (src : Nat) (x : BitVec 128) : State :=
  if x.extractLsb' 0 8 = 2 then
    let e := inboxEp x
    match s.takeKept src e (inboxIdx x) with
    | (some w, s1) =>
        if src = core then
          let t := s1.thAt core slot
          let b : Fin 2 := ⟨e.val % 2, Nat.mod_lt _ (by decide)⟩
          s1.setThAt core slot { t with rbuf := t.rbuf.set b.val (t.rbuf.get b ++ slotWords w) b.isLt }
        else s1.setCore src ((s1.core src).setEp e (fun p => { p with slots := w :: p.slots }))
    | (none, s1) => s1
  else
    let cl := clusterOf core
    let c := s.cluster cl
    match c.kept.find? (·.1 == inboxIdx x) with
    | some (i, y) => (s.setCluster cl { c with kept := c.kept.filter (·.1 != i) }).onThread core slot (deliver y.words)
    | none => s

/-- An inbox whose context will not come back: a slot returns to the head of its endpoint, a delivery to the head of its dispenser. -/
def State.returnInbox (s : State) (src : Nat) (l : List (BitVec 128)) : State :=
  l.foldr (fun x (s : State) =>
    if x.extractLsb' 0 8 = 2 then
      match s.takeKept src (inboxEp x) (inboxIdx x) with
      | (some w, s1) => s1.setCore src ((s1.core src).setEp (inboxEp x) (fun p => { p with slots := w :: p.slots }))
      | (none, s1) => s1
    else
      let c := s.cluster (clusterOf src)
      match c.kept.find? (·.1 == inboxIdx x) with
      | some (i, y) => s.setCluster (clusterOf src) { c with kept := c.kept.filter (·.1 != i), disp := y :: c.disp }
      | none => s) s

/-- A frame that is freed with its image. DESIGN CHOICE (entry 104): what its inbox names goes back where it came from. -/
def State.freeFrameOf (s : State) (cl : Nat) (k : Fin 64) : State :=
  match (s.cluster cl).frames.get k with
  | some f => (s.modFrame cl k none).returnInbox f.core f.img.th.inbox
  | none => s

/-! ### Loading -/

/-- Whether a thread has a full send buffer. -/
def Thread.fullSend (t : Thread) : Bool := (t.sbuf.get 0).length == 4 || (t.sbuf.get 1).length == 4

/-- A partial buffer for a send endpoint that has closed while the thread was out is discarded (R136). -/
def Core.fitSend (c : Core) (t : Thread) (b : Fin 2) : Thread :=
  let p := c.ep.get ⟨2 + b.val, by omega⟩
  if (t.sbuf.get b).length < 4 && (!p.bound || p.closed) then t.setSbuf b [] else t

/-- Whether the slice of a core's region has ended. -/
def State.pausedAt (s : State) (core : Nat) : Bool := match s.region? (s.core core).rid with | some r => r.paused | none => false

/-- The request that still stands for a thread of a core once another has been answered: its slice may have ended meanwhile. -/
def State.nextPre (s : State) (core : Nat) : Option PreReq := if s.pausedAt core then some .slice else none

/-- A context that left core src comes into a slot (R371, R373): withdrawn relaxed accesses are issued again in order, its inbox is
delivered, a search begins again unless it has been answered; everything else issues from the saved PC. A full send buffer is offered
before the thread stands at a boundary (R56). -/
def State.loadImage (s : State) (core : Nat) (slot : Fin 8) (src key : Nat) (cmds : List (Nat × Eng)) (img : Image) : State :=
  let c := s.core core
  let t := { img.th with
    pre := s.nextPre core, parkAt := s.tick, cmds := cmds, inbox := []
    rel := img.th.rel.mapIdx (fun i x => x.again img.th s.tick i)
    state := img.th.active }
  let t := c.fitSend (c.fitSend t 0) 1
  let t := match img.resume with
    | .idlew => { t with state := .idleW, wait := .idle s.cycle }
    | .reissue => if t.fullSend then { t with state := .parkQ, wait := .reissue } else t
    | .run => t
  let s1 := img.th.inbox.foldl (fun s x => s.giveInbox core slot src x) ((s.setThAt core slot t).takeEvent core slot key)
  if (s1.thAt core slot).state = .idleW then
    s1.onThread core slot (search .idleW (s1.dequeTurn core slot) (s1.dispTurn core slot))
  else s1

/-! ## Pre-emption (R369, R370, R374-R377) -/

/-- Whether a thread waits for the home of a full/empty operation. -/
def Wait.isFe : Wait → Bool
  | .fe _ _ | .feRef _ _ _ _ => true
  | _ => false

/-- Whether a pre-emption request of a thread can be taken now (R120, R369, R370). A missed release is handled first; a full/empty
operation that misses has yet to retire. -/
def State.takeable (s : State) (core : Nat) (slot : Fin 8) : Bool :=
  let t := s.thAt core slot
  t.pre.isSome && t.onlyHeld && !s.vecBusy core slot && (t.miss.isNone || t.wait.isFe)
  && (s.preDue t || t.withdrawn || t.idles)

/-- A thread parked on its fourth word whose instruction has had its effect: what that instruction popped stays popped, and what it writes
as it retires is written now, since only the offer is made again. -/
def State.keepEffect (s : State) (core : Nat) (slot : Fin 8) : State :=
  match (s.thAt core slot).wait with
  | .send _ _ x false =>
      let s1 := s.onThread core slot (writeFx x)
      s1.setThAt core slot { s1.thAt core slot with undo := [] }
  | _ => s

/-- The thread leaves its wait: the request is withdrawn, what its instruction popped goes back, and the message of a miss it has caused
is counted. -/
def State.withdraw (s : State) (core : Nat) (slot : Fin 8) : State :=
  let s1 := (((s.countMiss core slot).keepEffect core slot).takeBack core slot).dropWaits core slot
  let t := s1.thAt core slot
  s1.setThAt core slot { t with
    watch := none, miss := none, pfx := none, yld := none, wait := if isIdle t.wait || t.wait == .none then t.wait else .reissue }

/-- How the image of a thread resumes. -/
def Thread.resume (t : Thread) : Resume :=
  if isIdle t.wait then .idlew else if t.wait == .none then .run else .reissue

/-- A thread is saved into a frame and its slot becomes EMPTY (R320, R370). -/
def State.saveOut (s : State) (core : Nat) (slot : Fin 8) (k : Fin 64) (index : Option (Fin 64)) : State :=
  let r := (s.thAt core slot).resume
  let s1 := ((s.fillInbox core slot).withdraw core slot).stowEvent core slot s.tick
  let img := s1.imageOf core slot r
  let s2 := (s1.freeFrameOf (clusterOf core) k).storeFrame core k index img (s1.thAt core slot).cmds
  let s3 := s2.setCore core ((s2.core core).orphan img.th.ctxid)
  s3.setThAt core slot { (s3.thAt core slot).emptied with pre := none, cmds := [], inbox := [] }

/-- The save area of a region; 0 for none (R425). -/
def State.saveArea (s : State) (rid : Nat) : Addr := match s.region? rid with | some r => r.save | none => 0

/-- Whether no frame can be given (R375, R376). -/
def State.deferred (s : State) (rid cl : Nat) : Bool :=
  let fs := (s.cluster cl).framesOf rid
  (!fs.isEmpty && fs.all (fun f => f.st == .pinned)) || (s.saveArea rid == 0 && fs.all (fun f => f.st != .evicting))

/-- The frame a save into an entry uses, or the status it ends with. An entry that has been evicted comes back before its use. -/
def State.entryFrame (s : State) (rid cl : Nat) (i : Fin 64) : Except Word (Fin 64) :=
  match s.entry cl i with
  | .frame k f => if f.rid = rid then .ok k else .error stMode
  | .out _ => .error stMode
  | .free => match s.frameFor rid cl with | some k => .ok k | none => .error stFull

/-- A thread in HOLD goes on (R376). -/
def Thread.unhold (t : Thread) : Thread :=
  if t.state = .hold then
    if isIdle t.wait then { t with state := .idleW, pre := none }
    else if t.fullSend && t.wait == .reissue then { t with state := .parkQ, pre := none }
    else { t with state := t.active, wait := .none, pre := none }
  else if t.pre = some .slice then { t with pre := none } else t

/-- An entry index as a pth keeps it. -/
def entryIdx (i : Nat) : Fin 64 := ⟨i % 64, Nat.mod_lt _ (by decide)⟩

/-- Whether the entry that a pth saves a thread into has been evicted since, and comes back first (R179). -/
def State.pthRefill (s : State) (core : Nat) (slot : Fin 8) : Bool :=
  match (s.thAt core slot).pre with
  | some (.pth _ i) =>
      (match s.entry (clusterOf core) (entryIdx i) with | .out e => e.rid == (s.core core).rid | _ => false)
  | _ => false

/-- PREEMPT_THREAD (R370): the request of the cur thread is taken, or ends with FAULTED where the thread has stopped on an unhandled
fault. -/
def execPreemptThread (s : State) : Res :=
  let n := s.cur.core
  let k := s.cur.slot
  let t := s.th
  let rid := s.cc.rid
  let cl := clusterOf n
  if t.state = .empty then
    match t.pre with
    | some (.pth b _) => .next (((s.setTh { t with pre := none }).noteFsum n 4).ackPth n b stBroken)
    | _ => .next s
  else if !(s.takeable n k || t.state == .hold) then .next s
  else match t.pre with
  | none => .next s
  | some .ended => .next (s.emptyOut n k)
  | some (.pth b i) =>
      if s.pthRefill n k then .next s
      else match s.entryFrame rid cl (entryIdx i) with
      | .ok f => .next ((s.saveOut n k f (some (entryIdx i))).ackPth n b stOk)
      | .error st => .next ((s.setTh { t with pre := s.nextPre n }).ackPth n b st)
  | some p =>
      match s.frameFor rid cl with
      | some f => .next (s.saveOut n k f none)
      | none =>
          if s.deferred rid cl then
            if p = .slice then
              let s1 := s.withdraw n k
              .next (s1.setTh { s1.th with state := .hold, pre := none })
            else .next (s.setTh { t.unhold with pre := s.nextPre n })
          else if t.state = .hold then .next s
          else
            let s1 := s.withdraw n k
            .next (s1.setTh { s1.th with state := .hold })

/-- Whether PREEMPT_THREAD has something to do for a thread. -/
def State.preemptDue (s : State) (core : Nat) (slot : Fin 8) : Bool :=
  let t := s.thAt core slot
  let c := s.core core
  (s.takeable core slot && !s.pthRefill core slot)
  || (t.state == .empty && (match t.pre with | some (.pth _ _) => true | _ => false))
  || (t.state == .hold && t.pre.isSome
      && ((s.frameFor c.rid (clusterOf core)).isSome || s.deferred c.rid (clusterOf core)))

/-- A request on every thread of a core that is in a slot. -/
def Core.askAll (c : Core) (p : PreReq) : Core :=
  { c with th := mapTh c.th (fun t =>
    if t.wait = .back then { t.emptied with pre := none }
    else if t.state = .empty || t.pre.isSome then t else { t with pre := some p }) }

/-- Every bound core of a region changed. -/
def State.modCores (s : State) (rid : Nat) (f : Core → Core) : State :=
  { s with cores := s.cores.map (fun (n, c) => (n, if c.bound ∧ c.rid = rid then f c else c)) }

/-- Cycles in a microsecond. -/
def cyclesPerUs : Nat := 800

/-- Whether a region's time slice is over. A slice of 0 has no end. -/
def State.sliceOver (s : State) (r : Region) : Bool :=
  r.phase == .running && !r.paused && r.slice != 0 && decide (r.sliceAt + r.slice * cyclesPerUs ≤ s.cycle)

/-- The slice of one region ends: every thread of it is to be pre-empted, one whose request another has made once that is answered. An
image that was to come back stays out. -/
def State.endSliceOf (s : State) (rid : Nat) : State :=
  let s1 := (s.modCores rid (fun c => c.askAll .slice)).modRegion rid (fun r => { r with paused := true })
  { s1 with clusters := s1.clusters.map (fun (n, c) => (n, { c with
      evicted := c.evicted.map (fun e => if e.rid = rid then { e with due := false } else e)
      frames := Vector.ofFn (fun i => (c.frames.get i).map (fun f => if f.rid = rid then { f with due := false } else f)) })) }

/-- The sub-launch that runs under a Ballast region (R348). -/
def State.subOf (s : State) (rid : Nat) : Option Nat :=
  match s.region? rid with
  | some r => match r.loop with
      | some l => l.sub
      | none => none
  | none => none

/-- The slice of a region ends, with that of its current sub-launch (R377, R348). -/
def State.endSlice (s : State) (rid : Nat) : State :=
  match s.subOf rid with
  | some k => (s.endSliceOf rid).endSliceOf k
  | none => s.endSliceOf rid

/-- SLICE_END (R377): region cur.idx. -/
def execSliceEnd (s : State) : Res :=
  match s.region? s.cur.idx with
  | some r => .next (if s.sliceOver r then s.endSlice r.rid else s)
  | none => .next s

/-- HYPERVISOR_PREEMPT (R379): a request on the cur thread. -/
def execHypervisorPreempt (s : State) : Res :=
  .next (if s.th.state = .empty || s.th.wait = .back || s.th.pre.isSome then s else s.setTh { s.th with pre := some .hypervisor })

/-- A context comes back into its slot; a core that has executed done has no use for it. -/
def State.bringBack (s : State) (core : Nat) (slot : Fin 8) (key : Nat) (cmds : List (Nat × Eng)) (img : Image) : State :=
  if (s.core core).done then s.returnInbox core img.th.inbox else s.loadImage core slot core key cmds img

/-- Images without an index of a region that stand in HELD frames come back into their slots. -/
def State.restoreFrames (s : State) (rid : Nat) : State :=
  (s.clusters.map Prod.fst).foldl (fun (s : State) cl =>
    (List.finRange 64).foldl (fun (s : State) k =>
      match (s.cluster cl).frames.get k with
      | some f =>
          if f.rid = rid ∧ f.index = none then
            if f.st = .held ∧ (s.thAt f.core f.img.tslot).state = .empty then
              (s.modFrame cl k none).bringBack f.core f.img.tslot f.key f.cmds f.img
            else s.modFrame cl k (some { f with due := true })
          else s
      | none => s) s) s

/-- Whether a Ballast region whose current sub-launch a region is stands pre-empted (R348). -/
def State.parentPaused (s : State) (rid : Nat) : Bool :=
  s.regions.any (fun p => p.paused && (match p.loop with | some l => l.sub == some rid | none => false))

/-- Whether a region's slice can resume: its threads are out or held; a sub-launch resumes with its Ballast region, whose loop context has
been saved (R348). -/
def State.canResume (s : State) (r : Region) : Bool :=
  let stopped := match s.part? r.tenant.toNat with | some p => p.tstate == 2 || (p.stopping && !p.drains) | none => false
  (r.phase == .running || r.phase == .binding) && !stopped && !s.parentPaused r.rid
  && (match r.loop with | some l => !r.paused || l.saved || r.save == 0 | none => true)
  && (r.paused || (s.clusters.any (fun (_, c) => (c.framesOf r.rid).any (fun f => f.index.isNone && !f.due)
                    || c.evicted.any (fun e => e.rid == r.rid && e.index.isNone && !e.due))))
  && s.cores.all (fun (_, c) => !(c.bound && c.rid == r.rid)
      || (List.finRange 8).all (fun k => (c.th.get k).pre != some .slice || (c.th.get k).state == .hold))

/-- The slice of one region resumes. -/
def State.resumeSliceOf (s : State) (rid : Nat) : State :=
  let s1 := s.modRegion rid (fun r => { r with paused := false, sliceAt := s.cycle })
  let s2 := s1.modCores rid (fun c => { c with th := mapTh c.th Thread.unhold })
  let mark := fun e : Evicted => if e.rid = rid ∧ e.index = none then { e with due := true } else e
  ({ s2 with clusters := s2.clusters.map (fun (n, c) => (n, { c with evicted := c.evicted.map mark })) } : State).restoreFrames rid

/-- The slice of a region resumes, with that of its current sub-launch (R377, R348). -/
def State.resumeSlice (s : State) (rid : Nat) : State :=
  match s.subOf rid with
  | some k => (s.resumeSliceOf rid).resumeSliceOf k
  | none => s.resumeSliceOf rid

/-- SLICE_RESUME (R377): region cur.idx. -/
def execSliceResume (s : State) : Res :=
  match s.region? s.cur.idx with
  | some r => .next (if s.canResume r then s.resumeSlice r.rid else s)
  | none => .next s

/-! ## Eviction and refill (R375, R376) -/

/-- The place of a cluster among a region's clusters, by the lowest logical core each holds. -/
def State.clusterOrdinal (s : State) (rid cl : Nat) : Nat :=
  let low := fun c => minOf (s.cores.filterMap (fun (n, x) => if x.bound && x.rid == rid && clusterOf n == c then some x.lcore else none))
  let cls := (s.cores.filterMap (fun (n, x) => if x.bound && x.rid == rid then some (clusterOf n) else none)).eraseDups
  (cls.filter (fun c => match low c, low cl with | some a, some b => decide (a < b) | _, _ => false)).length

/-- Where an image goes. -/
def State.saveAddr (s : State) (f : Frame) : Addr :=
  match s.region? f.rid with
  | some r =>
      let off := match f.index with
        | none => 8 * (f.img.th.lcore - r.first) + f.img.tslot.val
        | some i => 8 * r.cores + 64 * s.clusterOrdinal f.rid (clusterOf f.core) + i.val
      r.save + BitVec.ofNat 48 (2048 * off)
  | none => 0

/-- The leaf controller's agent for a region in a cluster. -/
def State.leafAgent (s : State) (core : Nat) : Agent :=
  { tenant := (s.core core).tenant, top := (s.core core).top, own := none, die := dieOf core, sup := false, lcore := 0, slot := 0, kind := 4 }

/-- The homes of the 128 granules of an image, or the fault of one of them. -/
def State.granules (s : State) (ag : Agent) (addr : Nat) (a : Acc) : Nat → Except XErr (List Tgt × State)
  | 0 => .ok ([], s)
  | n + 1 =>
      match s.granules ag addr a n with
      | .error e => .error e
      | .ok (l, s1) =>
          let x := (addr + 16 * n) % 2 ^ 48
          if !s1.rowOk ag x 16 then .error .stage1
          else match s1.resolve ag x a with
            | .error e => .error e
            | .ok (t, s2) => .ok (l ++ [t], s2)

/-- The bytes and the tags of an image written to its homes. -/
def State.writeImage (s : State) (ag : Agent) (img : Image) (ts : List Tgt) : State :=
  let bs := img.bytes
  (List.range 128).foldl (fun (s : State) i =>
    match ts[i]? with
    | some t =>
        let s1 := s.writeAt ag t ((bs.drop (16 * i)).take 16) 0x09
        match img.tags.find? (·.1 == i) with
        | some (_, b) => s1.setTag t b
        | none => s1
    | none => s) s

/-- SPOOL_EVICT (R375): frame cur.idx of the cluster of cur.core. -/
def State.evictDue (s : State) (cl : Nat) (k : Fin 64) : Bool :=
  let c := s.cluster cl
  match c.frames.get k with
  | some f =>
      let held := (List.finRange 64).filterMap (fun k => match c.frames.get k with
        | some f => if f.st = .held ∧ s.saveArea f.rid ≠ 0 then some f.order else none
        | none => none)
      let past := match s.region? f.rid with | some r => r.paused | none => false
      f.st == .held && s.saveArea f.rid != 0 && (past || (decide (c.freeCount < 8) && held.all (fun o => decide (f.order ≤ o))))
  | none => false

def frameIdx (s : State) : Fin 64 := ⟨s.cur.idx % 64, Nat.mod_lt _ (by decide)⟩

def execSpoolEvict (s : State) : Res :=
  let cl := clusterOf s.cur.core
  let k := frameIdx s
  match (s.cluster cl).frames.get k with
  | some f => .next (if s.evictDue cl k then s.modFrame cl k (some { f with st := .evicting }) else s)
  | none => .next s

/-- EVICTION_DONE (R375, R376): the write takes effect and the frame is FREE; a fault pins it. -/
def execEvictionDone (s : State) : Res :=
  let cl := clusterOf s.cur.core
  let k := frameIdx s
  match (s.cluster cl).frames.get k with
  | some f =>
      if f.st = .evicting then
        let addr := s.saveAddr f
        let ag := s.leafAgent f.core
        match s.granules ag addr.toNat .write 128 with
        | .ok (ts, s1) =>
            let s2 := (s1.writeImage ag f.img ts).modFrame cl k none
            let e : Evicted := { rid := f.rid, index := f.index, core := f.core, slot := f.img.tslot, addr := addr, due := f.due
                                 cmds := f.cmds, key := f.key }
            .next (s2.setCluster cl { s2.cluster cl with evicted := (s2.cluster cl).evicted ++ [e] })
        | .error (.stage2 ipa kind) => .next ((s.logFault ag.tenant ipa kind (some (.frame cl k))).modFrame cl k (some { f with st := .pinned }))
        | .error .stage1 => .next (s.modFrame cl k (some { f with st := .pinned }))
      else .next s
  | none => .next s

/-- Whether the fault that pins a frame is resolved. A stage-1 fault, which no ring records, pins it until the write goes through:
DESIGN CHOICE (entry 49). -/
def State.pinResolved (s : State) (cl : Nat) (k : Fin 64) (f : Frame) : Bool :=
  let ag := s.leafAgent f.core
  f.st == .pinned && !s.holds (.frame cl k) && (match s.granules ag (s.saveAddr f).toNat .write 128 with
    | .error .stage1 => false
    | _ => true)

/-- FRAME_PIN_RESOLVED (R376): the write of frame cur.idx resumes. -/
def execFramePinResolved (s : State) : Res :=
  let cl := clusterOf s.cur.core
  let k := frameIdx s
  match (s.cluster cl).frames.get k with
  | some f => .next (if s.pinResolved cl k f then s.modFrame cl k (some { f with st := .evicting }) else s)
  | none => .next s

/-- An evicted image read back, or the fault of the read (R179). -/
def State.refill (s : State) (e : Evicted) : Except XErr (Image × State) :=
  let ag := s.leafAgent e.core
  match s.granules ag e.addr.toNat .read 128 with
  | .error x => .error x
  | .ok (ts, s1) =>
      let v := ofBytes (ts.flatMap (fun t => s1.readAt ag.tenant t 16))
      .ok (imageRead v (fun g => match ts[g]? with | some t => s1.tagAt t | none => false), s1)

/-- An image in memory is no longer there. -/
def State.dropEvicted (s : State) (e : Evicted) : State :=
  let cl := clusterOf e.core
  s.setCluster cl { s.cluster cl with evicted := (s.cluster cl).evicted.erase e }

/-- The evicted image under an index, where a frame is FREE for it. -/
def Cluster.refillable (c : Cluster) (i : Fin 64) : Option Evicted :=
  if c.freeFrame.isSome then c.evicted.find? (fun e => e.index == some i) else none

/-- The evicted image a thread in a slot waits for, itself or for the entry of its pth, or the one whose slice has resumed and whose slot
is EMPTY or waits for it. A refill that a stage-2 fault holds waits until that is over. -/
def State.refillFor (s : State) (core : Nat) (slot : Fin 8) : Option Evicted :=
  let c := s.cluster (clusterOf core)
  let t := s.thAt core slot
  if s.holds (.refill core slot) then none
  else match t.wait with
    | .refill i => c.refillable i
    | .pth _ _ =>
        ((List.finRange 8).find? (fun m => s.takeable core m && s.pthRefill core m
          && (match (s.thAt core m).pre with | some (.pth b _) => b == slot | _ => false))).bind (fun m =>
            match (s.thAt core m).pre with
            | some (.pth _ i) => c.refillable (entryIdx i)
            | _ => none)
    | _ => if t.state = .empty || t.wait = .back then c.evicted.find? (fun e => e.due && e.core == core && e.slot == slot) else none

/-- The frame whose slice has resumed and whose slot has since become EMPTY. -/
def State.frameBack (s : State) (core : Nat) (slot : Fin 8) : Option (Fin 64) :=
  if (s.thAt core slot).state = .empty then
    (List.finRange 64).find? (fun i => match (s.cluster (clusterOf core)).frames.get i with
      | some f => f.due && f.st == .held && f.core == core && f.img.tslot == slot
      | none => false)
  else none

/-- SPOOL_REFILL_DONE (R179, R377): the image the cur thread waits for comes into a frame, or the one of the cur slot comes back. A
stage-2 fault holds the thread in PARK_XL, and the refill is made again. DESIGN CHOICE (entry 49): a stage-1 fault does so too, without
a record. -/
def execSpoolRefillDone (s : State) : Res :=
  let n := s.cur.core
  let k := s.cur.slot
  match s.refillFor n k, s.frameBack n k with
  | none, some i =>
      match (s.cluster (clusterOf n)).frames.get i with
      | some f => .next ((s.modFrame (clusterOf n) i none).bringBack n k f.key f.cmds f.img)
      | none => .next s
  | none, none => .next s
  | some e, _ =>
      match s.refill e with
      | .error x =>
          let s1 := match x with | .stage2 ipa kind => s.logFault (s.core n).tenant ipa kind (some (.refill n k)) | .stage1 => s
          .next (s1.setTh { s1.th with state := .parkXl, wait := if e.index.isSome then s1.th.wait else .back })
      | .ok (img, s1) =>
          let s2 := s1.dropEvicted e
          match e.index with
          | some i =>
              match (s2.cluster (clusterOf n)).freeFrame with
              | some f =>
                  let s3 := s2.modFrame (clusterOf n) f
                    (some { st := .held, rid := e.rid, index := some i, core := e.core, img := img, order := s.tick, due := false
                            cmds := e.cmds, key := e.key })
                  .next (s3.setTh { s3.th with wait := (match s3.th.wait with | .refill _ => .reissue | w => w), state := .waitMem })
              | none => .next s
          | none => .next (s2.bringBack n k e.key e.cmds img)

/-! ## The Spool instructions (R179-R182) -/

/-- Every register read or written: the waits of R123. -/
def useNext (n : Nat) : Eff Unit := do
  useG (BitVec.ofNat 5 n)
  if n < 16 then hazard (fun x => x.setsA (BitVec.ofNat 4 n) || x.keepsA (BitVec.ofNat 4 n)) (true, BitVec.ofNat 6 n) else pure ()

def useAll : Nat → Eff Unit
  | 0 => pure ()
  | n + 1 => do
      useAll n
      useNext n

/-- An entry for a Spool instruction: none for an index above 63 or another region's image. One that has been evicted is refilled
first, with the thread in WAITMEM. -/
def useEntry (x : Word) : Eff (Option (Fin 64 × Entry)) := do
  let s ← gets id
  if h : x.toNat < 64 then
    let i : Fin 64 := ⟨x.toNat, h⟩
    let e := s.entry (clusterOf s.cur.core) i
    if e.foreign s.cc.rid then pure none
    else if e.isOut then parkWith .waitMem (.refill i)
    else pure (some (i, e))
  else pure none

/-- spsave (R180). -/
def execSpsave (d : Dst) (p : Src) (s : State) : Res :=
  (withWait d (len1 p) do
    vecIdle
    useAll 32
    let x ← readSrc p
    match ← useEntry x with
    | none => finish d (len1 p) stMode
    | some (i, _) => do
        let s ← gets id
        match s.entryFrame s.cc.rid (clusterOf s.cur.core) i with
        | .error st => finish d (len1 p) st
        | .ok k => do
            finish d (len1 p) stOk
            mods (fun s =>
              let img := s.imageOf s.cur.core s.cur.slot s.th.resume
              (s.freeFrameOf (clusterOf s.cur.core) k).storeFrame s.cur.core k (some i) { img with th := { img.th with rel := [] } } [])).go s

/-- The U part of an image over a live thread (R180). -/
def Thread.takeUser (t u : Thread) : Thread :=
  { t with g := u.g, a := u.a, v := u.v, k := u.k, ctxid := u.ctxid, fpcsr := u.fpcsr, srstrm := u.srstrm, srctr := u.srctr
           tmcmp := u.tmcmp, epcc := u.epcc }

/-- spload (R180). -/
def execSpload (d : Dst) (p t : Src) (s : State) : Res :=
  (withWait d (len2 p t) do
    useAll 32
    let x ← readSrc p
    let y ← readSrc t
    match ← useEntry x with
    | some (_, .frame k f) => do
        modTh (fun t => t.takeUser f.img.th)
        if y.getLsbD 0 then mods (fun s => s.freeFrameOf (clusterOf s.cur.core) k) else pure ()
        finish d (len2 p t) stOk
    | _ => finish d (len2 p t) stMode).go s

/-- Only accesses that a stage-2 fault holds are outstanding (R370). -/
def onlyHeld : Eff Unit := do
  let t ← gets State.th
  if t.onlyHeld then pure () else parkWith .waitMem .reissue

/-- Whether the image of a frame holds a Tether event, and the core that keeps it is another than the cur one (R337). -/
def State.eventElsewhere (s : State) (f : Frame) : Bool := f.core != s.cur.core && (s.core f.core).keepsEvent f.key

/-- swapctx (R181): the live context goes into entry Src(s), and the image of entry Src(t) comes. -/
def execSwapctx (d : Dst) (p t : Src) (s : State) : Res :=
  (withWait d (len2 p t) do
    vecIdle
    onlyHeld
    let x ← readSrc p
    let y ← readSrc t
    let e ← useEntry x
    let f ← useEntry y
    match e, f with
    | some (i, _), some (_, .frame kj fj) => do
        let s ← gets id
        if s.eventElsewhere fj then finish d (len2 p t) stMode else
        let cl := clusterOf s.cur.core
        match (if x = y then .ok kj else (s.modFrame cl kj none).entryFrame s.cc.rid cl i) with
        | .error st => finish d (len2 p t) st
        | .ok k => do
            finish d (len2 p t) stOk
            mods (fun s =>
              let img := s.imageOf s.cur.core s.cur.slot s.th.resume
              let s1 := ((s.modFrame cl kj none).freeFrameOf cl k).storeFrame s.cur.core k (some i) img s.th.cmds
              let s2 := (s1.setCc (s1.cc.orphan img.th.ctxid)).stowEvent s.cur.core s.cur.slot s.tick
              (s2.dropWatch s.cur.core s.cur.slot).loadImage s.cur.core s.cur.slot fj.core fj.key fj.cmds fj.img)
    | _, _ => finish d (len2 p t) stMode).go s

/-- pth (R182). -/
def execPth (d : Dst) (p t : Src) (s : State) : Res :=
  (withWait d (len2 p t) do
    let x ← readSrc p
    let y ← readSrc t
    let m : Fin 8 := (x.extractLsb' 0 3).toFin
    match ← useEntry y with
    | none => finish d (len2 p t) stMode
    | some (i, _) => do
        let s ← gets id
        let v := s.thAt s.cur.core m
        if m = s.cur.slot ∨ v.state = .empty ∨ v.cprv then finish d (len2 p t) stMode
        else match s.entryFrame s.cc.rid (clusterOf s.cur.core) i with
          | .error st => finish d (len2 p t) st
          | .ok _ =>
              if v.pre.isSome ∨ v.state = .hold then parkWith .waitMem .reissue
              else do
                mods (fun s => s.setThAt s.cur.core m { s.thAt s.cur.core m with pre := some (.pth s.cur.slot i.val) })
                waitFor d .waitMem (.pth d (len2 p t))).go s

/-- rth (R182). -/
def execRth (d : Dst) (p t : Src) (s : State) : Res :=
  (withWait d (len2 p t) do
    let x ← readSrc p
    let y ← readSrc t
    let m : Fin 8 := (x.extractLsb' 0 3).toFin
    match ← useEntry y with
    | some (_, .frame k f) => do
        let s ← gets id
        if s.eventElsewhere f then finish d (len2 p t) stMode
        else if (s.thAt s.cur.core m).state = .empty then do
          mods (fun s => (s.modFrame (clusterOf s.cur.core) k none).loadImage s.cur.core m f.core f.key f.cmds f.img)
          finish d (len2 p t) stOk
        else finish d (len2 p t) stMode
    | _ => finish d (len2 p t) stMode).go s

/-! ## When the events of this file are due -/

def State.dueSpool (s : State) : List Move :=
  s.threads.flatMap (fun (n, k, _) =>
    evIf (s.preemptDue n k) n k 0 .preemptThread
    ++ evIf ((s.refillFor n k).isSome || (s.frameBack n k).isSome) n k 0 .spoolRefillDone)
  ++ s.regions.flatMap (fun r =>
    evIf (s.sliceOver r) 0 0 r.rid .sliceEnd ++ evIf (s.canResume r) 0 0 r.rid .sliceResume)
  ++ s.clusters.flatMap (fun (cl, c) =>
    (List.finRange 64).flatMap (fun k =>
      match c.frames.get k with
      | some f =>
          evIf (s.evictDue cl k) (64 * cl) 0 k.val .spoolEvict
          ++ evIf (f.st == .evicting) (64 * cl) 0 k.val .evictionDone
          ++ evIf (s.pinResolved cl k f) (64 * cl) 0 k.val .framePinResolved
      | none => []))

end Sys2Proof.Machine
end

