-- ==== Sys2Proof/Machine/FrontEnd.lean ====
section
/-! DEFINITION. The command front end: its own accesses, command queues, dispatch, completion records, and the blocks that bind
nothing (R272, R355-R357, R366, R367, R395, R400). -/

namespace Sys2Proof.Machine

/-! ## The front end's accesses (R272, R347, R394) -/

/-- Why the front end does not go on with a block. -/
inductive FeStop where
  /-- The block ends with REJECT and a reason (R295, R366). -/
  | reject (reason : Nat)
  /-- The block ends with CANCELLED (R367). -/
  | cancel
  /-- A front-end access meets a stage-1 fault where the rule names what follows (R347). -/
  | page
  /-- A stage-2 fault holds the access (R394). -/
  | held (tenant : BitVec 6) (ipa kind : Nat)
  deriving DecidableEq, Repr

abbrev FeM := StateT State (Except FeStop)

def feStop {α : Type} (x : FeStop) : FeM α := fun _ => .error x
def feGets {α : Type} (f : State → α) : FeM α := fun s => .ok (f s, s)
def feMods (f : State → State) : FeM Unit := fun s => .ok ((), f s)

/-- FORMAT, the reason of every breach of a layout (R295). -/
def badFormat : FeStop := .reject 8

/-- The front end as an agent of a tenant, with the numbering of a top-level region for slice windows (R367, R391). -/
def feAgent (tenant : BitVec 6) (top : Nat) : Agent :=
  { tenant := tenant, top := top, own := none, die := 0, sup := false, lcore := 0, slot := 0, kind := 4 }

/-- An access in pieces that do not cross a 64-byte line. -/
def pieces : Nat → Nat → Nat → List (Nat × Nat)
  | 0, _, _ => []
  | fuel + 1, a, n =>
      let m := Nat.min n (64 - a % 64)
      if n = 0 then [] else (a, m) :: pieces fuel (a + m) (n - m)

def piecesOf (a n : Nat) : List (Nat × Nat) := pieces (n / 64 + 2) a n

/-- The home of a piece; bad is what a stage-1 fault, or an address that reaches nothing, means. -/
def fePlace (ag : Agent) (a n : Nat) (acc : Acc) (bad : FeStop) : FeM Tgt := fun s =>
  if !s.rowOk ag a n then .error bad
  else match s.resolve ag a acc with
    | .ok x => .ok x
    | .error .stage1 => .error bad
    | .error (.stage2 ipa k) => .error (.held ag.tenant ipa k)

/-- n bytes read by the front end. -/
def feReadList (ag : Agent) (bad : FeStop) : List (Nat × Nat) → FeM (List Byte)
  | [] => pure []
  | (a, n) :: r => do
      let t ← fePlace ag a n .read bad
      let bs ← feGets (fun s => s.readAt ag.tenant t n)
      let rest ← feReadList ag bad r
      pure (bs ++ rest)

def feRead (ag : Agent) (a n : Nat) (bad : FeStop) : FeM (List Byte) := feReadList ag bad (piecesOf a n)

/-- Bytes written by the front end; kind is the trace record's (R270). -/
def feWriteList (ag : Agent) (kind : Nat) (bad : FeStop) : List (Nat × Nat) → List Byte → FeM Unit
  | [], _ => pure ()
  | (a, n) :: r, bs => do
      let t ← fePlace ag a n .write bad
      feMods (fun s => s.writeAt ag t (bs.take n) kind)
      feWriteList ag kind bad r (bs.drop n)

/-- Bytes written by the front end, with the trace kind of a store: DESIGN CHOICE (entry 49), R270 names none for the front end. -/
def feWrite (ag : Agent) (a : Nat) (bs : List Byte) (bad : FeStop) : FeM Unit := feWriteList ag 0x01 bad (piecesOf a bs.length) bs

/-- A doubleword stored as by stf at a slice address, and plainly elsewhere (R357, R367). The trace kinds are those of stf and of a store:
DESIGN CHOICE (entry 49). -/
def feStf (ag : Agent) (a : Nat) (v : Word) (bad : FeStop) : FeM Unit := do
  let s ← feGets id
  match s.rowOf ag a with
  | .slice _ _ => do
      let t ← fePlace ag a 8 .write bad
      match t with
      | .sram c _ => feMods (fun s => ((s.writeAt ag t (bytesOf 8 v.toNat) 0x03).setFull t.key true).feServeAll c t.key)
      | _ => pure ()
  | _ => feWrite ag a (bytesOf 8 v.toNat) bad

/-- An access whose stage-1 fault drops it (R367). -/
def feTry (m : FeM Unit) : FeM Unit := fun s =>
  match m s with
  | .ok x => .ok x
  | .error (.held t i k) => .error (.held t i k)
  | .error _ => .ok ((), s)

/-- Bytes of host memory, reached through a host port (R388, R411). -/
def State.hostPoke (s : State) (bus : Nat) (bs : List Byte) : State := s.poke (hostKey bus) bs
def State.hostPeek (s : State) (bus n : Nat) : List Byte := Memory.readN s.mem (hostKey bus) n

/-! ## Queues (R355) -/

def State.queue (s : State) (n : Nat) : Queue := lookup (Queue.fresh n) s.queues n
def State.setQueue (s : State) (n : Nat) (q : Queue) : State := { s with queues := insert s.queues n q }

def Queue.en (q : Queue) : Bool := q.qcfg.getLsbD 31
def Queue.log2n (q : Queue) : Nat := (q.qcfg.extractLsb' 0 5).toNat
def Queue.prio (q : Queue) : Nat := (q.qcfg.extractLsb' 8 4).toNat
def Queue.sizeOk (q : Queue) : Bool := decide (4 ≤ q.log2n ∧ q.log2n ≤ 16)

/-- Entries from HEAD up to TAIL (R355). -/
def Queue.pending (q : Queue) : Nat := (q.tail - q.head).toNat

/-- The address of the entry at HEAD (R355). -/
def Queue.entry (q : Queue) : Nat := (q.qbase.extractLsb' 0 48).toNat + 128 * (q.head.toNat % 2 ^ q.log2n)
def Queue.inHost (q : Queue) : Bool := q.qbase.getLsbD 48

/-- The queue at a function's local index (R355): by its record, or the PF's own numbers where nothing has moved the queue. -/
def State.queueAt (s : State) (fn lidx : Nat) : Option Nat :=
  match s.queues.find? (fun (_, q) => q.fn == fn && q.lidx == lidx) with
  | some (n, _) => some n
  | none => if fn = 0 ∧ lidx < 4096 ∧ !(s.queues.any (·.1 == lidx)) then some lidx else none

/-! ## Blocks (R356, R357) -/

def fld (raw : BitVec 1024) (off : Nat) : Word := raw.extractLsb' (8 * off) 64
def fldA (raw : BitVec 1024) (off : Nat) : Nat := (fld raw off).toNat
def blockOf (bs : List Byte) : BitVec 1024 := BitVec.ofNat 1024 (ofBytes bs)
def typeOf (raw : BitVec 1024) : Nat := (raw.extractLsb' 0 8).toNat
def fenced (raw : BitVec 1024) : Bool := raw.getLsbD 8 || typeOf raw == 2
/-- NSTG of a LAUNCH and OP of a PART. -/
def headOp (raw : BitVec 1024) : Nat := (raw.extractLsb' 16 8).toNat

def BSrc.isSub : BSrc → Bool
  | .ballast _ => true
  | _ => false

def BSrc.isDevice : BSrc → Bool
  | .device _ _ _ _ => true
  | _ => false

/-- Blocks are told apart by SEQ; a sub-launch carries its BALLAST block's (R366). -/
def Block.same (a b : Block) : Bool := a.seq == b.seq && a.src.isSub == b.src.isSub

def State.block? (s : State) (seq : Nat) (isSub : Bool) : Option Block :=
  s.blocks.find? (fun b => b.seq.toNat == seq && b.src.isSub == isSub)
def State.setBlock (s : State) (b : Block) : State := { s with blocks := s.blocks.map (fun x => if x.same b then b else x) }

/-- A destroyed queue whose blocks are finished may be configured again (R365). -/
def State.settleQueue (s : State) (n : Nat) : State :=
  let q := s.queue n
  if q.destroying && !(s.blocks.any (fun b => b.src == .queue n)) then
    s.setQueue n { q with destroying := false, error := false, qcfg := q.qcfg &&& 0xFFFFFFFF7FFFFFFF, head := q.tail, anchors := [] }
  else s

/-- A held access that is not made again (R394). -/
def State.unhold (s : State) (w : Holder) : State := { s with xfaults := s.xfaults.filter (fun f => f.who != w) }

/-- A block is finished. -/
def State.dropBlock (s : State) (b : Block) : State :=
  let s1 := ({ s with blocks := s.blocks.filter (fun x => !x.same b) } : State).unhold (.block b.seq)
  match b.src with
  | .queue n => s1.settleQueue n
  | _ => s1

/-! ## The fields every block shares (R357) -/

/-- An 8-aligned doubleword of a slice window (R19, R357). -/
def inSlices (a : Nat) : Bool :=
  decide (0x400000000000 ≤ a ∧ a < 0x400000000000 + Config.cores * 0x10000 ∧ a % 0x10000 < 0xC000 ∧ a % 8 = 0)

/-- CREC, CFLAG, MSIX and USER of a block, and whether they lie in their maps (R357, R367). A field outside its map names nothing. -/
def State.compOf (s : State) (tenant : BitVec 6) (device : Bool) (raw : BitVec 1024) : CompF × Bool :=
  let crec := fldA raw 0x18
  let cflag := fldA raw 0x20
  let msix := fld raw 0x28
  let crecOk := decide (crec < 2 ^ 48 ∧ crec % 32 = 0)
  let flagOk := cflag == 0 || inSlices cflag
  let en := msix.getLsbD 15
  let vec := (msix.extractLsb' 0 11).toNat
  let range := match s.part? tenant.toNat with
    | some p => decide (p.vec0 ≤ vec ∧ vec < p.vec0 + p.vecN)
    | none => false
  let msixOk := msix &&& 0xFFFFFFFFFFFF7800 == 0 && (!en || (range && !device))
  ({ crec := if crecOk then BitVec.ofNat 48 crec else 0, cflag := if flagOk then BitVec.ofNat 48 cflag else 0,
     msix := if en && msixOk then some vec else none, user := fld raw 0x30 },
   crecOk && flagOk && msixOk)

/-- Whether the header and the tail of a block hold only the fields its type has: mask names the header bits, from the first byte
that must be zero. -/
def zeroFrom (raw : BitVec 1024) (mask : Word) (off : Nat) : Bool := fld raw 0 &&& ~~~mask == 0 && raw >>> (8 * off) == 0

def feDemand (ok : Bool) (r : FeStop) : FeM Unit := if ok then pure () else feStop r

/-! ## Completion records (R366, R367) -/

def stOkC : Nat := 0
def stReject : Nat := 1
def stCancelC : Nat := 2
def stFault : Nat := 3
def stTorndown : Nat := 4
def stTimeoutC : Nat := 5

/-- CSTAT (R366). -/
def cstat (seq : BitVec 32) (status reason exit : Nat) : Word :=
  BitVec.ofNat 64 (status % 256 + reason % 256 * 2 ^ 8 + exit % 256 * 2 ^ 16 + seq.toNat * 2 ^ 32)

/-- The region whose numbering the slice-window addresses of a block use (R367); a number no region has where there is none. -/
def State.anchorOf (s : State) : BSrc → Nat
  | .queue n => (s.queue n).anchors.headD s.fresh
  | .device _ _ _ top => top
  | .ballast _ => s.fresh

/-- A region whose record is written is no anchor any more. -/
def State.dropAnchor (s : State) (rid : Nat) : State :=
  { s with queues := s.queues.map (fun (n, q) => (n, { q with anchors := setDel q.anchors rid })) }

/-- The front end reports a block's end: the record, then CFLAG, then the interrupt (R367). A sub-launch reports nothing (R366). -/
def feComplete (b : Block) (status reason exit : Nat) (summary finfo : Word) (rid : Option Nat) : FeM Unit := do
  let v := cstat b.seq status reason exit
  let quiet := b.silent || b.src.isSub
  let s ← feGets id
  if b.comp.crec ≠ 0 ∧ !quiet then
    feTry (feWrite (feAgent b.tenant (s.anchorOf b.src)) b.comp.crec.toNat
      (w8 v ++ w8 summary ++ w8 finfo ++ w8 b.comp.user) .page)
  else pure ()
  feMods (fun s => match rid with | some r => s.dropAnchor r | none => s)
  let s ← feGets id
  if b.comp.cflag ≠ 0 ∧ !quiet then feTry (feStf (feAgent b.tenant (s.anchorOf b.src)) b.comp.cflag.toNat v .page) else pure ()
  match b.comp.msix with
  | some vec => if quiet then pure () else feMods (fun s => s.raise b.fn vec)
  | none => pure ()
  feMods (fun s => s.dropBlock b)

/-- A BALLAST block reports through the fields of its RESID block (R366), where that can be read. -/
def withResid (b : Block) : FeM Block := fun s =>
  if b.typ = 2 ∧ b.comp = CompF.none then
    match feRead (feAgent b.tenant (s.anchorOf b.src)) (fldA b.raw 0x08) 128 .page s with
    | .ok (bs, s1) => .ok ({ b with comp := (s.compOf b.tenant b.src.isDevice (blockOf bs)).1 }, s1)
    | .error (.held t i k) => .error (.held t i k)
    | .error _ => .ok (b, s)
  else .ok (b, s)

/-- A block ends without having run. -/
def feEnd (b : Block) (status reason : Nat) : FeM Unit := do
  let b ← withResid b
  feComplete b status reason 0 0 0 none

/-- What a stop of the front end does to a block: a held access is made again later, the rest is the block's end. -/
def FeStop.finish (s : State) (b : Block) (x : FeStop) : State :=
  let last := fun (status reason : Nat) =>
    match feEnd b status reason s with
    | .ok (_, t) => t
    | .error (.held t ipa k) => s.logFault t ipa k (some (.block b.seq))
    | .error _ => s.dropBlock b
  match x with
  | .held t ipa k => s.logFault t ipa k (some (.block b.seq))
  | .cancel => last stCancelC 0
  | .reject r => last stReject r
  | .page => last stReject 8

/-- Runs the front end's work on a block. -/
def feRun (s : State) (b : Block) (m : FeM Unit) : State :=
  match m s with
  | .ok (_, t) => t
  | .error x => x.finish s b

/-- The work of the event named by cur.idx on the block it names, where that block is active and of the type. -/
def onBlock (s : State) (typ : Nat) (m : Block → FeM Unit) : Res :=
  match s.block? s.cur.idx false with
  | some b => .next (if b.active && !b.doomed && b.typ == typ then feRun s b (m b) else s)
  | none => .next s

/-- Ends a block with OK. -/
def feOk (b : Block) : FeM Unit := feComplete b stOkC 0 0 0 0 none

/-! ## Dispatch (R356) -/

/-- The header of a queue's head block, where it can be read. -/
def State.headOf (s : State) (q : Queue) : Option (BitVec 1024) :=
  match q.tenant with
  | none => none
  | some t =>
      if q.inHost then some (blockOf (s.hostPeek q.entry 8))
      else match feRead (feAgent t s.fresh) q.entry 8 .page s with
        | .ok (bs, _) => some (blockOf bs)
        | .error _ => none

/-- Loop contexts in use (R341, R348), with those of the BALLAST blocks that have been dispatched and have no region yet. -/
def State.loopsUsed (s : State) : Nat :=
  (s.regions.filter (fun r => match r.loop with | some l => !l.saved | none => false)).length
  + (s.blocks.filter (fun b => b.active && b.typ == 2 && b.rid.isNone && !b.doomed)).length

/-- Whether the front end takes blocks of a tenant now (R388, R401). -/
def State.dispatches (s : State) (t : BitVec 6) : Bool :=
  match s.part? t.toNat with
  | some p => p.tstate == 1 && !p.stopping && !p.draining
  | none => false

/-- Whether the front end still works for a tenant that is not stopped: while STOP with DRAIN waits, what has been dispatched and what
its regions launch goes on (R401). -/
def State.serves (s : State) (t : BitVec 6) : Bool :=
  match s.part? t.toNat with
  | some p => p.tstate == 1 && (!p.stopping || p.drains) && !p.draining
  | none => false

/-- Whether a queue is eligible (R356), and no access of the front end to its ring is held. -/
def State.eligibleQueue (s : State) (n : Nat) (q : Queue) : Bool :=
  match q.tenant with
  | none => false
  | some t =>
      let mine := s.blocks.filter (fun b => b.src == .queue n)
      q.en && !q.error && !q.destroying && q.sizeOk && decide (0 < q.pending) && s.dispatches t && !s.holds (.queue n)
      && mine.all (fun b => !b.waiting)
      && (match s.headOf q with
          | none => true
          | some h => (!fenced h || mine.isEmpty) && (typeOf h != 2 || decide (s.loopsUsed < 32)))

/-- The head block of a partition's queue in the intake, where it may be served (R356, R362). -/
def State.intakeHead (s : State) (t : BitVec 6) : Option Block :=
  let l := s.blocks.filter (fun b => b.tenant == t && b.src.isDevice)
  if l.any (fun b => b.active && b.waiting) then none
  else match l.find? (fun b => !b.active) with
    | some b =>
        if s.serves t && (!fenced b.raw || !(l.any (·.active))) && (b.typ != 2 || decide (s.loopsUsed < 32)) then some b else none
    | none => none

/-- What can be dispatched: priority, tenant, and queue number, 4,096 for the intake. -/
def State.candidates (s : State) : List (Nat × Nat × Nat) :=
  s.queues.filterMap (fun (n, q) => match q.tenant with
    | some t => if s.eligibleQueue n q then some (q.prio, t.toNat, n) else none
    | none => none)
  ++ s.parts.filterMap (fun p => (s.intakeHead (BitVec.ofNat 6 p.id)).map (fun b => (b.prio, p.id, 4096)))

/-- The weight of a partition that is in force (R387). -/
def State.weightOf (s : State) (p : Part) : Nat := if s.cycle / 1024 < p.sharesAt then p.weightWas else p.weight

/-- A partition's quantum and what a block costs in its units: WEIGHT and 1, or for level 2 its part of the parent's weight (R387). -/
def State.quantum (s : State) (t : Nat) : Nat × Nat :=
  match s.part? t with
  | none => (1, 1)
  | some p =>
      if p.level2 then
        match s.parents.find? (·.1 == t / 4) with
        | some (_, q) => (s.weightOf q * s.weightOf p, ((s.parts.filter (fun x => x.level2 && x.id / 4 == t / 4)).map s.weightOf).foldl (· + ·) 0)
        | none => (s.weightOf p, 1)
      else (s.weightOf p, 1)

/-- Deficit round-robin over the partitions that have something to dispatch (R356). -/
def State.drr (s : State) (ts : List Nat) : Nat → Nat → Option (Nat × State)
  | 0, _ => none
  | fuel + 1, t =>
      let cost := (s.quantum t).2
      match s.part? t with
      | none => none
      | some p =>
          if cost ≤ p.deficit then some (t, { (s.modPart t (fun p => { p with deficit := p.deficit - cost })) with lastP := t })
          else
            let next := (ts.find? (fun x => decide (t < x))).getD (ts.headD t)
            let s1 := s.modPart next (fun p => { p with deficit := p.deficit + (s.quantum next).1 })
            s1.drr ts fuel next

/-- The partition served next: the one served last while its deficit lasts. -/
def State.nextPart (s : State) (ts : List Nat) : Option (Nat × State) :=
  let s1 := { s with parts := s.parts.map (fun (p : Part) => if ts.contains p.id then p else { p with deficit := 0 }) }
  if ts.contains s.lastP then s1.drr ts 100000 s.lastP
  else
    match ts.find? (fun x => decide (s.lastP < x)), ts with
    | some t, _ => (s1.modPart t (fun p => { p with deficit := p.deficit + (s.quantum t).1 })).drr ts 100000 t
    | none, t :: _ => (s1.modPart t (fun p => { p with deficit := p.deficit + (s.quantum t).1 })).drr ts 100000 t
    | none, [] => none

/-- The queue, or the intake, whose head block is dispatched, and the state with the pointers moved (R356). -/
def State.chooseQueue (s : State) : Option (Nat × Nat × State) :=
  let l := s.candidates
  let top := l.foldl (fun m x => Nat.max m x.1) 0
  let best := l.filter (fun x => x.1 == top)
  let ts := (best.map (fun x => x.2.1)).foldl setAdd []
  match s.nextPart ts with
  | none => none
  | some (t, s1) =>
      let qs := ((best.filter (fun x => x.2.1 == t)).map (fun x => x.2.2)).foldl setAdd []
      let ptr := match s.part? t with | some p => p.qptr | none => 0
      match qs.find? (fun n => decide (ptr < n)), qs with
      | some n, _ | none, n :: _ => some (t, n, s1.modPart t (fun p => { p with qptr := n }))
      | none, [] => none

/-- The known types (R357). -/
def knownType (typ : Nat) : Bool := decide (typ ≤ 9)
def pfOnly (typ : Nat) : Bool := typ == 7 || typ == 8
def knownPart (op : Nat) : Bool := decide (1 ≤ op ∧ op ≤ 7)

/-- The next sequence number (R366). -/
def State.takeSeq (s : State) : BitVec 32 × State := (s.seq, { s with seq := s.seq + 1 })

/-- A host block is read, numbered and taken from its queue (R355, R366). NOP completes at once; a block of an unknown type, or one the
PF alone may give, is rejected at once. A ring that cannot be read sets ERROR: DESIGN CHOICE (entry 62). -/
def dispatchQueue (n : Nat) (t : BitVec 6) (s : State) : State :=
  let q := s.queue n
  let read : FeM (List Byte) :=
    if q.inHost then feGets (fun s => s.hostPeek q.entry 128) else feRead (feAgent t s.fresh) q.entry 128 .page
  match read s with
  | .error (.held t ipa k) => s.logFault t ipa k (some (.queue n))
  | .error _ => s.setQueue n { q with error := true }
  | .ok (bs, s1) =>
      let raw := blockOf bs
      let typ := typeOf raw
      let (seq, s2) := s1.takeSeq
      let b : Block := { seq := seq, src := .queue n, fn := q.fn, tenant := t, typ := typ, raw := raw
                         comp := if typ = 0 ∨ typ = 2 then CompF.none else (s.compOf t false raw).1
                         active := true, parsed := false, waiting := false, prio := q.prio, rid := none, spec := none, subs := []
                         deadline := none, silent := false, doomed := false, at_ := s.cycle, since := s.tick }
      let s3 := { (s2.setQueue n { q with head := q.head + 1 }) with blocks := s2.blocks ++ [b] }
      if !knownType typ || (typ == 8 && q.fn == 0 && !knownPart (headOp raw)) then badFormat.finish s3 b
      else if pfOnly typ && q.fn != 0 then (FeStop.reject 9).finish s3 b
      else if typ = 0 then feRun s3 b (feOk b)
      else s3

/-- DISPATCH (R356). -/
def execDispatch (s : State) : Res :=
  match s.chooseQueue with
  | none => .next s
  | some (t, n, s1) =>
      let tn := BitVec.ofNat 6 t
      if n = 4096 then
        match s.intakeHead tn with
        | some b => .next (s1.setBlock { b with active := true, at_ := s.cycle, since := s.tick })
        | none => .next s
      else .next (dispatchQueue n tn s1)

/-! ## The blocks that bind nothing (R357) -/

/-- NOP: its dispatch completes it. -/
def execNopBlock (s : State) : Res := onBlock s 0 feOk

/-- Where a slice-window address of a block leads now, if anywhere (R367). -/
def State.target (s : State) (b : Block) (a : Nat) : Option (Nat × Nat) :=
  match s.rowOf (feAgent b.tenant (s.anchorOf b.src)) a with
  | .slice c off => some (c, off)
  | _ => none

/-- WAITW: it is checked once; then it completes when the word is full, or CANCELLED when it names no core. -/
def execWaitwBlock (s : State) : Res :=
  onBlock s 3 (fun b => do
    let s ← feGets id
    let a := fldA b.raw 0x08
    if b.parsed then pure ()
    else do
      feDemand (zeroFrom b.raw 0x1FF 0x38 && inSlices a && (s.compOf b.tenant false b.raw).2) badFormat
      let us := fldA b.raw 0x10
      feMods (fun s => s.setBlock { b with parsed := true, deadline := if us = 0 then none else some (b.at_ + us * cyclesPerUs) })
    match s.target b a with
    | none => feStop .cancel
    | some (c, off) => if s.full (sramKey c off) then feOk b else pure ())

/-- Whether a waiting WAITW has something to do. -/
def State.waitwDue (s : State) (b : Block) : Bool :=
  !b.parsed || (match s.target b (fldA b.raw 0x08) with | none => true | some (c, off) => s.full (sramKey c off))

/-- Whether a WAITW's timeout has passed. -/
def Block.late (b : Block) (cycle : Nat) : Bool := match b.deadline with | some d => decide (d ≤ cycle) | none => false

/-- WAITW's timeout: OK where the word was full before it. -/
def execWaitwBlockTimeout (s : State) : Res :=
  onBlock s 3 (fun b =>
    if b.late s.cycle then
      match s.target b (fldA b.raw 0x08) with
      | none => feStop .cancel
      | some (c, off) => if s.full (sramKey c off) then feOk b else feComplete b stTimeoutC 0 0 0 0 none
    else pure ())

/-- SIGNAL: a release at system scope by the front end, stf at a slice address. -/
def execSignal (s : State) : Res :=
  onBlock s 4 (fun b => do
    let s ← feGets id
    let a := fldA b.raw 0x08
    let slice := decide (0x400000000000 ≤ a ∧ a < 0x500000000000)
    feDemand (zeroFrom b.raw 0x1FF 0x38 && decide (a < 2 ^ 48) && (!slice || inSlices a) && (s.compOf b.tenant false b.raw).2) badFormat
    if slice && (s.target b a).isNone then feStop .cancel
    else feStf (feAgent b.tenant (s.anchorOf b.src)) a (fld b.raw 0x10) badFormat
    feOk b)

/-- TSTAMP: CYCLE as it was at dispatch. -/
def execTstamp (s : State) : Res :=
  onBlock s 5 (fun b => do
    let s ← feGets id
    let a := fldA b.raw 0x08
    feDemand (zeroFrom b.raw 0x1FF 0x38 && decide (a < 2 ^ 48 ∧ a % 8 = 0) && fld b.raw 0x10 == 0
      && (s.compOf b.tenant false b.raw).2) badFormat
    feWrite (feAgent b.tenant (s.anchorOf b.src)) a (bytesOf 8 b.at_) badFormat
    feOk b)

/-- Whether an entry of an MTU comes from a stage. -/
def MtuKind.from1 : MtuKind → Bool
  | .stage2 => false
  | _ => true

def MtuKind.from2 : MtuKind → Bool
  | .stage1 => false
  | _ => true

/-- The entries of a tenant that overlap a range are dropped by every MTU, by VA for stage 1 and by IPA for stage 2, and the accesses
held in the range walk again (R394, R395). -/
def State.inval (s : State) (t : BitVec 6) (stages base len : Nat) : State :=
  let hit := fun (x size : Nat) => decide (x < base + len ∧ base < x + size)
  let s1 := { s with mtu := s.mtu.filter (fun e => !(e.tenant == t
    && ((stages % 2 == 1 && e.kind.from1 && hit e.va e.size) || (decide (2 ≤ stages) && e.kind.from2 && hit e.ipa e.size)))) }
  if 2 ≤ stages then { s1 with xfaults := s1.xfaults.filter (fun f => !(f.tenant == t && hit f.ipa 1)) } else s1

/-- INVAL: stage 2 only from a PF queue. -/
def execInval (s : State) : Res :=
  onBlock s 6 (fun b => do
    let s ← feGets id
    let stages := (b.raw.extractLsb' 16 2).toNat
    feDemand (zeroFrom b.raw 0x301FF 0x38 && stages != 0 && (s.compOf b.tenant false b.raw).2) badFormat
    feDemand (stages == 1 || b.fn == 0) (.reject 9)
    feMods (fun s => s.inval b.tenant stages (fldA b.raw 0x08) (fldA b.raw 0x10))
    feOk b)

/-- SEAL's check of a range of granules, the first failure in their order. -/
def sealCheck (ag : Agent) (a : Nat) : Nat → FeM (List (Tgt × Bool))
  | 0 => pure []
  | n + 1 => do
      let t ← fePlace ag a 16 .write badFormat
      let bs ← feGets (fun s => s.readAt ag.tenant t 16)
      let c : Cap := { bits := BitVec.ofNat 128 (ofBytes bs), tag := false }
      feDemand (c.bits == 0 || (c.res == 0 && c.ten == ag.tenant)) (.reject 6)
      let r ← sealCheck ag (a + 16) n
      pure ((t, c.bits != 0) :: r)

/-- SEAL. -/
def execSeal (s : State) : Res :=
  onBlock s 9 (fun b => do
    let s ← feGets id
    let a := fldA b.raw 0x08
    let n := fldA b.raw 0x10
    feDemand (zeroFrom b.raw 0x1FF 0x38 && decide (a < 2 ^ 48 ∧ a % 16 = 0 ∧ 1 ≤ n ∧ n ≤ 65536)
      && (s.compOf b.tenant false b.raw).2) badFormat
    let l ← sealCheck (feAgent b.tenant (s.anchorOf b.src)) a n
    feMods (fun s => l.foldl (fun (s : State) x => s.setTag x.1 x.2) s)
    feOk b)

/-- The dirty bits of a window, one bit per granule from the lowest (R400). -/
def State.dirtyBits (s : State) (t : BitVec 6) (base n : Nat) : List Byte :=
  (List.range (n / 8)).map (fun i => BitVec.ofNat 8 (((List.range 8).map (fun j =>
    if s.dirty.contains (t, base / 65536 + 8 * i + j) then 2 ^ j else 0)).foldl (· + ·) 0))

/-- A snapshot of a window: its bits go to host memory and are cleared (R400). -/
def State.snapshot (s : State) (t : BitVec 6) (base n addr : Nat) : State :=
  let lo := base / 65536
  let s1 := s.hostPoke addr (s.dirtyBits t base n)
  { s1 with dirty := s1.dirty.filter (fun d => !(d.1 == t && decide (lo ≤ d.2 ∧ d.2 < lo + n))) }

/-- Whether a window of granules is one R400 admits. -/
def windowOk (base n : Nat) : Bool := decide (base % 65536 = 0 ∧ base < 2 ^ 48 ∧ 64 ≤ n ∧ n ≤ 2 ^ 22 ∧ n % 64 = 0)

/-- DIRTYSNAP. -/
def execDirtysnap (s : State) : Res :=
  onBlock s 7 (fun b => do
    let s ← feGets id
    let t := fldA b.raw 0x08
    let addr := fldA b.raw 0x10
    let base := fldA b.raw 0x38
    let n := fldA b.raw 0x40
    feDemand (zeroFrom b.raw 0x1FF 0x48 && decide (t < 64 ∧ addr < 2 ^ 48) && windowOk base n && (s.compOf b.tenant false b.raw).2) badFormat
    match s.part? t with
    | none => feStop (.reject 6)
    | some p => do
        feDemand p.dtrk badFormat
        feMods (fun s => s.snapshot (BitVec.ofNat 6 t) base n addr)
        feOk b)

/-! ## What is due -/

def curIdx (idx : Nat) : Cur := { core := 0, slot := 0, idx := idx, sub := 0, val := 0 }

/-- Whether no earlier LAUNCH or BALLAST block of the same queue has yet to be parsed. -/
def State.firstUnparsed (s : State) (b : Block) : Bool :=
  match s.blocks.find? (fun x => x.src == b.src && (x.typ == 1 || x.typ == 2) && !x.parsed) with
  | some x => x.same b
  | none => false

/-- Whether the front end works on a block now: it is dispatched, its tenant is served, and no access of its work is held. -/
def State.canServe (s : State) (b : Block) : Bool :=
  b.active && !b.doomed && !b.src.isSub && (s.serves b.tenant || pfOnly b.typ) && !s.holds (.block b.seq)

/-- A WAITW whose timeout has passed ends before anything else happens (R357). -/
def State.dueWaitw (s : State) : List Move :=
  s.blocks.flatMap (fun b => if b.typ == 3 && b.late s.cycle && s.canServe b then [Move.event (curIdx b.seq.toNat) .waitwBlockTimeout] else [])

/-- The events of this file. -/
def State.dueFrontEnd (s : State) : List Move :=
  (if s.candidates.isEmpty then [] else [Move.event (curIdx 0) .dispatch])
  ++ s.blocks.flatMap (fun b =>
    if !s.canServe b then []
    else
      let ev := fun (i : Instr) => [Move.event (curIdx b.seq.toNat) i]
      match b.typ with
      | 0 => ev .nopBlock
      | 3 => if s.waitwDue b then ev .waitwBlock else []
      | 4 => ev .signal
      | 5 => ev .tstamp
      | 6 => ev .inval
      | 7 => ev .dirtysnap
      | 9 => ev .seal
      | _ => [])

end Sys2Proof.Machine
end

