-- ==== Sys2Proof/Machine/Launch.lean ====
section
/-! DEFINITION. Launches: parsing and validation, numbering, placement, binding and release, and the launch instruction (R162,
R275-R278, R285, R288, R295-R297, R327-R329, R349, R357-R363, R425). -/

namespace Sys2Proof.Machine

/-! ## What a region inherits (R276, R425) -/

def Part.clusters (p : Part) : List Nat :=
  (List.range p.ht).flatMap (fun j => (List.range p.wd).map (fun i => 128 * (p.y0 + j) + p.x0 + i))

def Part.holds (p : Part) (cl : Nat) : Bool :=
  decide (p.x0 ≤ cl % 128 ∧ cl % 128 < p.x0 + p.wd ∧ p.y0 ≤ cl / 128 ∧ cl / 128 < p.y0 + p.ht)

/-- Retired cores of a partition (R364). -/
def State.retiredIn (s : State) (p : Part) : List Nat :=
  (s.cores.filter (fun (n, c) => c.retired && p.holds (clusterOf n))).map Prod.fst

/-- Usable cores, and operand rings all of whose cores are usable (R295, R363). A ring is 16 consecutive cores of a cluster. -/
def State.usable (s : State) (p : Part) : Nat := 64 * p.wd * p.ht - (s.retiredIn p).length
def State.usableRings (s : State) (p : Part) : Nat :=
  4 * p.wd * p.ht - (((s.retiredIn p).map (· / 16)).foldl setAdd []).length

/-- A region without stages. -/
def Region.blank : Region :=
  { rid := 0, seq := 0, parent := none, pstage := 0, depth := 0, top := 0, tenant := 0, queue := none, first := 0, cores := 0, sram := 0
    threads := 0, hbmshare := 0, slice := 0, prio := 0, fdom := false, tvec := 0, smiss := 0, scap := Cap.null, jseed := 0, save := 0
    trace := Vector.replicate 4 0, rcb := 0, stages := [], phase := .binding, fault := none, faulted := false, byFault := false, paused := false
    sliceAt := 0, span := 0, loop := none }

/-- The values a partition supplies to a region of depth 1 (R425), as a region of depth 0. -/
def State.partValues (s : State) (p : Part) : Region :=
  { Region.blank with tenant := BitVec.ofNat 6 p.id, cores := s.usable p, sram := 49152, threads := 8, hbmshare := 256, slice := p.slice
                      prio := 15 }

/-- Cores of a region that its own stages and its live children leave (R276). -/
def State.spare (s : State) (r : Region) : Nat :=
  r.cores - (r.stages.map (·.cores)).foldl (· + ·) 0
    - ((s.regions.filter (fun c => c.parent == some r.rid)).map (·.span)).foldl (· + ·) 0

/-! ## Parsing (R295, R328, R357-R360)

The parsers answer what they read and the reasons the block would be rejected for. -/

def numOf (bs : List Byte) (off n : Nat) : Nat := ofBytes ((bs.drop off).take n)
def w64 (bs : List Byte) (off : Nat) : Word := BitVec.ofNat 64 (numOf bs off 8)

/-- A reason where a test fails. -/
def orReason (ok : Bool) (r : Nat) : List Nat := if ok then [] else [r]

/-- The first reason in the order of R295. -/
def firstReason (l : List Nat) : Option Nat := [8, 5, 6, 1, 2, 3, 4, 7].find? l.contains

/-- A capability image (R360): a host's gets its tag here, a device launch's must have it in memory. -/
def feCap (ag : Agent) (p : Part) (host : Bool) (a : Nat) (bits : BitVec 128) : FeM (Cap × List Nat) := do
  if bits = 0 then pure (Cap.null, [])
  else do
    let t ← fePlace ag a 16 .read badFormat
    let tagged ← feGets (fun s => s.tagAt t)
    let c : Cap := { bits := bits, tag := true }
    let mine := c.ten == ag.tenant && (if host then c.res == 0 else tagged)
    let bridleOk := c.kind != kindBridle || decide (c.e ≤ 24 ∧ p.bbase ≤ c.base ∧ c.top ≤ p.blimit - 256)
    pure (c, orReason (mine && bridleOk) 6)

/-- An RCB against the values it inherits (R276, R358). avail is what CORES is limited by. -/
def parseRcb (ag : Agent) (p : Part) (host : Bool) (base : Region) (avail a : Nat) : FeM (Region × List Nat) := do
  if a = 0 then pure (base, [])
  else do
    let bs ← feRead ag a 256 badFormat
    let w := w64 bs
    let ovr := w 0
    let ok := ovr >>> 11 == 0 && w 0x08 >>> 20 == 0 && w 0x10 >>> 16 == 0 && w 0x18 &&& 0xFFFFFEF0FE00FFF0 == 0
      && w 0x20 >>> 32 == 0 && w 0x28 >>> 48 == 0 && w 0x28 &&& 3 == 0 && w 0x30 >>> 48 == 0 && w 0x50 >>> 48 == 0
      && numOf bs 0x78 72 == 0
    let (sc, scBad) ← feCap ag p host (a + 0x40) (BitVec.ofNat 128 (numOf bs 0x40 16))
    let cores := (w 0x08).toNat % 2 ^ 20
    let sram := (w 0x10).toNat % 2 ^ 16
    let threads := (w 0x18).toNat % 16
    let r : Region :=
      { base with
        cores := if ovr.getLsbD 0 then cores else base.cores
        sram := if ovr.getLsbD 1 then sram else base.sram
        threads := if ovr.getLsbD 2 then threads else base.threads
        hbmshare := if ovr.getLsbD 3 then Nat.min ((w 0x18).toNat / 2 ^ 16 % 512) 256 else base.hbmshare
        slice := if ovr.getLsbD 4 then Nat.min ((w 0x20).toNat % 2 ^ 32) base.slice else base.slice
        prio := if ovr.getLsbD 5 then Nat.min ((w 0x18).toNat / 2 ^ 32 % 16) base.prio else base.prio
        fdom := if ovr.getLsbD 6 then (w 0x18).getLsbD 40 else base.fdom
        tvec := if ovr.getLsbD 7 then w 0x28 else base.tvec
        smiss := if ovr.getLsbD 7 then (w 0x30).extractLsb' 0 48 else base.smiss
        scap := if ovr.getLsbD 7 then sc else base.scap
        jseed := if ovr.getLsbD 8 then w 0x38 else base.jseed
        save := if ovr.getLsbD 9 then (w 0x50).extractLsb' 0 48 else base.save
        trace := if ovr.getLsbD 10 then #v[w 0x58, w 0x60, w 0x68, w 0x70] else base.trace }
    pure (r, orReason ok 8 ++ scBad ++ orReason (!(ovr.getLsbD 0) || decide (cores ≤ avail)) 3
      ++ orReason (!(ovr.getLsbD 1) || decide (sram ≤ base.sram)) 2
      ++ orReason (!(ovr.getLsbD 2) || decide (threads ≤ base.threads)) 1)

/-- A lane type by its code (R63). -/
def tyOf (n : Nat) : Option LaneTy :=
  match n with
  | 0 => some .f64 | 1 => some .f32 | 2 => some .bf16 | 3 => some .f16 | 4 => some .e4m3 | 5 => some .e5m2
  | 0xA => some .i32 | 0xC => some .i64 | _ => none

/-- The RED word (R359): the channels declared, and whether it lies in its map. -/
def parseRed (w : Word) : List RedCh × Bool :=
  let f := fun k : Nat => w.extractLsb' (16 * k) 16
  let op := fun k => ((f k).extractLsb' 0 3).toNat
  let n := ((List.range 4).takeWhile (fun k => op k != 0)).length
  let chans := (List.range n).map (fun k =>
    { op := (f k).extractLsb' 0 3, ty := (tyOf ((f k).extractLsb' 3 4).toNat).getD .f64, count := ((f k).extractLsb' 7 4).toNat
      xg := (f k).getLsbD 11 : RedCh })
  let ok := (List.range 4).all (fun k =>
    if k < n then
      decide (op k ≤ 5) && (tyOf ((f k).extractLsb' 3 4).toNat).isSome && (f k).extractLsb' 12 4 == 0
        && decide (1 ≤ ((f k).extractLsb' 7 4).toNat ∧ ((f k).extractLsb' 7 4).toNat ≤ 8)
        && (op k != 5 || (f k).extractLsb' 3 4 == 0)
    else f k == 0)
  (chans, ok)

/-- Endpoint e of a stage, 0 to 3 for q4 to q7: whether it is a Tether link, certified, and its initial lookahead (R327). -/
def linkOf (t : Word) (e : Nat) : Bool := t.getLsbD e
def certOf (t : Word) (e : Nat) : Bool := decide (2 ≤ e) && t.getLsbD (4 + e)
def lookOf (t : Word) (e : Nat) : Nat := if e = 2 then t.toNat / 2 ^ 32 % 2 ^ 16 else if e = 3 then t.toNat / 2 ^ 48 else 0

/-- The FORMAT row of R328. -/
def tetherOk (t : Word) (slots : Nat → Nat) : Bool :=
  t &&& 0x00000000FFFFC030 == 0 && decide (t.toNat / 256 % 64 ≤ 47)
  && (List.range 4).all (fun e => !linkOf t e || slots e != 0)
  && [2, 3].all (fun e =>
    if linkOf t e && slots e != 0 then certOf t e || lookOf t e != 0 else !t.getLsbD (4 + e) && lookOf t e == 0)

/-- The 16 capabilities of a stage. -/
def feCaps (ag : Agent) (p : Part) (host : Bool) (a : Nat) (bs : List Byte) : Nat → FeM (List Cap × List Nat)
  | 0 => pure ([], [])
  | n + 1 => do
      let i := 15 - n
      let (c, bad) ← feCap ag p host (a + 0x100 + 16 * i) (BitVec.ofNat 128 (numOf bs (0x100 + 16 * i) 16))
      let (r, bad2) ← feCaps ag p host a bs n
      pure (c :: r, bad ++ bad2)

/-- A stage descriptor (R359). -/
def parseStage (ag : Agent) (p : Part) (host : Bool) (r : Region) (a : Nat) : FeM (Stage × List Nat) := do
  let bs ← feRead ag a 512 badFormat
  let w := w64 bs
  let (pcc, bad1) ← feCap ag p host (a + 0x30) (BitVec.ofNat 128 (numOf bs 0x30 16))
  let (caps, bad2) ← feCaps ag p host a bs 16
  let entry := (w 0).toNat % 2 ^ 48
  let threads := (w 0).toNat / 2 ^ 48 % 16
  let cores := (w 8).toNat % 2 ^ 20
  let sram := (w 8).toNat / 2 ^ 20 % 2 ^ 16
  let imgLen := (w 0x10).toNat / 2 ^ 48
  let slcm := (w 0xC0).extractLsb' 0 16
  let slots := fun e : Nat => ((w 0x40).extractLsb' (16 * e) 7).toNat
  let (red, redOk) := parseRed (w 0x48)
  let blankCap := fun c : Cap => c.cur == 0 && c.b == 0 && c.t == 0 && c.e == 0
  let slcmOk := (List.range 16).all (fun i => !slcm.getLsbD i || (match caps[i]? with | some c => blankCap c | none => true))
  let ok := (w 0) >>> 53 == 0 && (w 8) >>> 36 == 0 && w 0x18 == 0 && (w 0x28) >>> 49 == 0 && numOf bs 0x58 40 == 0
    && numOf bs 0xC8 56 == 0 && (w 0xC0) >>> 16 == 0 && (w 0x50) >>> 48 == 0 && w 0x50 &&& 7 == 0
    && decide (entry % 4 = 0 ∧ pcc.e ≤ 24 ∧ pcc.base ≤ entry ∧ entry + 4 ≤ pcc.top) && cores != 0 && redOk && slcmOk
    && tetherOk (w 0x20) slots
  let ringed := (w 0).getLsbD 52
  let st : Stage :=
    { entry := BitVec.ofNat 48 entry, threads := threads, ringed := ringed, cores := cores, sram := sram
      imgAddr := (w 0x10).extractLsb' 0 48, imgLen := imgLen, tether := w 0x20, pcc := pcc
      eps := Vector.ofFn (fun e : Fin 4 => (slots e.val, ((w 0x40).extractLsb' (16 * e.val + 7) 9).toNat))
      red := red, raddr := (w 0x50).extractLsb' 0 48, args := Vector.ofFn (fun i : Fin 8 => w (0x80 + 8 * i.val))
      caps := Vector.ofFn (fun i : Fin 16 => (caps[i.val]?).getD Cap.null), slcm := slcm, near := (w 0x28).extractLsb' 0 48
      onedie := (w 0x28).getLsbD 48, serial := 0, pcores := [], released := false, nodes := [], fsum := 0, fpf := 0, doneN := 0
      contribs := [], groupSent := [], groupRes := [], groupBrk := false, complete := false, word := 0, results := [] }
  pure (st, bad1 ++ bad2 ++ orReason ok 8 ++ orReason (decide (1 ≤ threads ∧ threads ≤ 8 ∧ threads ≤ r.threads)) 1
    ++ orReason (decide (sram ≤ 49152 ∧ sram ≤ r.sram ∧ imgLen ≤ sram)) 2 ++ orReason (!ringed || decide (cores % 16 = 0)) 3
    ++ orReason ((List.range 4).all (fun e => decide (slots e ≤ 64))) 4)

def parseStages (ag : Agent) (p : Part) (host : Bool) (r : Region) (a : Nat) : Nat → FeM (List Stage × List Nat)
  | 0 => pure ([], [])
  | n + 1 => do
      let (st, bad) ← parseStage ag p host r a
      let (l, bad2) ← parseStages ag p host r (a + 512) n
      pure (st :: l, bad ++ bad2)

/-- A bound endpoint of a launch: the stage, the endpoint 0 to 3, its allowance, and the stage's descriptor. -/
structure EndP where
  stage : Nat
  ep    : Nat
  slots : Nat
  name  : Nat
  st    : Stage

/-- Endpoints of the stages that are bound, senders with ep 2 and 3. -/
def endsOf (l : List Stage) : List EndP :=
  (l.zipIdx).flatMap (fun (st, i) => (List.finRange 4).filterMap (fun e =>
    if (st.eps.get e).1 = 0 then none
    else some { stage := i, ep := e.val, slots := (st.eps.get e).1, name := (st.eps.get e).2, st := st }))

/-- The other end of an endpoint: the one end of the other kind with its name (R285). -/
def otherEnd (l : List EndP) (x : EndP) : Option EndP := l.find? (fun y => y.name == x.name && (decide (2 ≤ y.ep) != decide (2 ≤ x.ep)))

/-- The CHANNELS checks of R285 and R328. -/
def wiringOk (l : List EndP) : Bool :=
  l.all (fun x =>
    decide ((l.filter (fun y => y.name == x.name)).length = 2)
    && (match otherEnd l x with
        | none => false
        | some y =>
            let (sn, rc) := if 2 ≤ x.ep then (x, y) else (y, x)
            let tl := linkOf sn.st.tether sn.ep
            sn.slots == rc.slots && (sn.st.cores == rc.st.cores || rc.st.cores == 1)
            && tl == linkOf rc.st.tether rc.ep && (!tl || sn.st.cores == rc.st.cores)))

/-- The stages joined by certified links. Such a link keeps the index in the stage, so a cycle of cores is a cycle of stages (R328). -/
def certEdges (l : List EndP) : List (Nat × Nat) :=
  l.filterMap (fun x =>
    if 2 ≤ x.ep && linkOf x.st.tether x.ep && certOf x.st.tether x.ep then (otherEnd l x).map (fun y => (x.stage, y.stage)) else none)

/-- Whether edges contain no cycle: edges to a node without outgoing edges go, for as many rounds as there are edges. -/
def acyclic (edges : List (Nat × Nat)) : Nat → Bool
  | 0 => edges.isEmpty
  | n + 1 => acyclic (edges.filter (fun e => edges.any (fun f => f.1 == e.2))) n

def sumCores (l : List Stage) : Nat := (l.map (·.cores)).foldl (· + ·) 0

/-- A LAUNCH block as a child of a region (or of the partition's values): the region it asks for (R357-R360, R295). -/
def parseLaunch (ag : Agent) (p : Part) (host : Bool) (base : Region) (avail : Nat) (raw : BitVec 1024) (device : Bool) :
    FeM (Region × List Nat) := do
  let rcba := fldA raw 0x08
  let stab := fldA raw 0x10
  let n := headOp raw
  let s ← feGets id
  let ok := zeroFrom raw 0xFF01FF 0x38 && n != 0 && decide (rcba < 2 ^ 48 ∧ rcba % 256 = 0 ∧ stab < 2 ^ 48 ∧ stab % 128 = 0)
    && (s.compOf ag.tenant device raw).2
  if !ok then pure (base, [8])
  else do
    let (r, bad1) ← parseRcb ag p host base avail rcba
    let (l, bad2) ← parseStages ag p host r stab n
    let ends := endsOf l
    let total := sumCores l
    let rings := sumCores (l.filter (·.ringed)) / 16
    let edges := certEdges ends
    let depth := base.depth + 1
    pure ({ r with depth := depth, stages := l, rcb := BitVec.ofNat 48 rcba, span := total, phase := .binding },
      bad1 ++ bad2 ++ orReason (decide (depth ≤ 8)) 5
        ++ orReason (decide (total ≤ r.cores ∧ total ≤ s.usable p ∧ rings ≤ s.usableRings p)) 3 ++ orReason (wiringOk ends) 4
        ++ orReason (acyclic edges edges.length) 7)

/-! ## The Ballast block (R339-R341) -/

/-- A finite FP64 number that is not below zero, -0 counting as +0 (R340). -/
def notNegative (w : Word) : Bool := w.extractLsb' 52 11 != 0x7FF#11 && (!w.getLsbD 63 || w == 0x8000000000000000)

/-- An address of the HBM range, aligned (R339). -/
def hbmAddr (a align : Nat) : Bool := decide (a < 0x400000000000 ∧ a % align = 0)

def ballastRungs (raw : BitVec 1024) : Nat := (raw.extractLsb' 8 2).toNat + 1
def ballastTwoNorm (raw : BitVec 1024) : Bool := raw.getLsbD 10
def ballastClimbs (raw : BitVec 1024) : Bool := raw.getLsbD 11
def ballastSwin (raw : BitVec 1024) : Nat := (raw.extractLsb' 16 16).toNat
def ballastMaxit (raw : BitVec 1024) : Nat := (raw.extractLsb' 32 32).toNat
def ballastHist (raw : BitVec 1024) : Nat := (raw.extractLsb' (8 * 0x70) 48).toNat
def ballastHlen (raw : BitVec 1024) : Nat := (raw.extractLsb' (8 * 0x70 + 48) 16).toNat
def ballastUpc (raw : BitVec 1024) : Nat := (raw.extractLsb' (8 * 0x78) 48).toNat

/-- The named blocks: key and offset of the field (R339). -/
def ballastNames (raw : BitVec 1024) : List (Nat × Nat) :=
  (0, 0x08) :: (List.range (ballastRungs raw)).flatMap (fun r => [(1 + r, 0x10 + 8 * r), (5 + r, 0x30 + 8 * r)])

/-- What R340 asks of a channel whose result is a norm. -/
def normChannel (raw : BitVec 1024) (c : RedCh) : Bool := c.ty == .f64 && c.count == 1 && c.op == if ballastTwoNorm raw then 5 else 4

/-- The named blocks parsed as children of the Ballast region; whether each is a LAUNCH block with no ARG8. -/
def parseNamed (ag : Agent) (p : Part) (host : Bool) (base : Region) (raw : BitVec 1024) :
    List (Nat × Nat) → FeM (List (Nat × Region) × List (List Nat) × Bool)
  | [] => pure ([], [], true)
  | (k, off) :: rest => do
      let bs ← feRead ag (fldA raw off) 128 .page
      let sub := blockOf bs
      if typeOf sub ≠ 1 then feStop badFormat
      else do
        let (r, bad) ← parseLaunch ag p host base base.cores sub (!host)
        let (l, bads, ok) ← parseNamed ag p host base raw rest
        pure ((k, r) :: l, bad :: bads, ok && r.stages.all (fun st => st.args.get 7 == 0))

/-- A BALLAST block: the region it asks for, the regions of the blocks it names, and the reasons against it. upcallTo is the code
capability of the launching stage. -/
def parseBallast (ag : Agent) (p : Part) (host : Bool) (base : Region) (avail : Nat) (upcallTo : Option Cap) (raw : BitVec 1024) :
    FeM (Region × List (Nat × Region) × BitVec 1024 × List Nat) := do
  let names := ballastNames raw
  let rest := (List.range 4).filter (fun r => decide (ballastRungs raw ≤ r))
  let upc := ballastUpc raw
  let upcOk := decide (fldA raw 0x78 < 2 ^ 48 ∧ upc % 4 = 0) && (ballastClimbs raw || (match upcallTo with
    | some c => decide (c.e ≤ 24 ∧ c.base ≤ upc ∧ upc + 4 ≤ c.top)
    | none => false))
  let ok := raw.extractLsb' 12 4 == 0 && ballastMaxit raw != 0 && ballastSwin raw != 0 && upcOk
    && names.all (fun x => fldA raw x.2 != 0 && hbmAddr (fldA raw x.2) 128)
    && rest.all (fun r => fldA raw (0x10 + 8 * r) == 0 && fldA raw (0x30 + 8 * r) == 0)
    && [0x50, 0x58, 0x60, 0x68].all (fun o => notNegative (fld raw o)) && hbmAddr (ballastHist raw) 32
  if !ok then pure (base, [], 0, [8])
  else do
    let bs ← feRead ag (fldA raw 0x08) 128 .page
    let resid := blockOf bs
    if typeOf resid ≠ 1 then pure (base, [], 0, [8])
    else do
      let rcba := fldA resid 0x08
      if rcba = 0 ∨ 2 ^ 48 ≤ rcba ∨ rcba % 256 ≠ 0 then pure (base, [], resid, [8])
      else do
        let (r, bad1) ← parseRcb ag p host base avail rcba
        let self := { r with depth := base.depth + 1, rcb := BitVec.ofNat 48 rcba, stages := [], phase := .binding }
        let (subs, bads, args) ← parseNamed ag p host self raw names
        let chanOk := match subs with
          | (_, x) :: _ =>
              (match x.stages with
               | st :: _ => (match st.red with
                   | [] => false
                   | c :: l => normChannel raw c && (match l with | [] => true | d :: _ => normChannel raw d))
               | [] => false)
          | [] => false
        let span := subs.foldl (fun m x => Nat.max m x.2.span) 0
        let own := orReason (args && chanOk) 8 ++ orReason (decide (base.depth + 2 ≤ 8)) 5
        let later := match (bad1 :: bads).find? (fun l => !l.isEmpty) with | some l => (firstReason l).toList | none => []
        pure ({ self with span := span }, subs, resid, match firstReason own with | some x => [x] | none => later)

/-! ## Numbering and placement (R277, R362, R363) -/

/-- The ranges of a top-level region's numbers in use, by their first. -/
def State.ranges (s : State) (top : Nat) : List (Nat × Nat) :=
  (s.regions.filter (fun r => r.top == top && r.span != 0
      && !(match r.parent with | some q => s.regions.any (fun x => x.rid == q && x.loop.isSome) | none => false))).foldl
    (fun l r => insert l r.first (r.first + r.span)) []

/-- The first of n free numbers from a start on. -/
def freeFrom (n : Nat) : List (Nat × Nat) → Nat → Nat
  | [], start => start
  | (a, b) :: l, start => freeFrom n l (if a < start + n ∧ start < b then b else start)

/-- The first logical core of a new region (R277). -/
def State.firstFor (s : State) (parent : Option Region) (n : Nat) : Nat :=
  match parent with
  | none => 0
  | some p => if p.loop.isSome then p.first else freeFrom n (s.ranges p.top) p.first

/-- Whether the placer may bind a core (R362, R364, R421). -/
def State.freeCore (s : State) (n : Nat) : Bool :=
  let c := s.core n
  !c.bound && !c.retired && !c.marked

/-- Barrier slots of a cluster that a SYS slot could take (R139). -/
def Bar.free (b : Bar) : Bool := !b.sys && b.users.isEmpty
def State.barRoom (s : State) (cl : Nat) : Nat := ((List.finRange 32).filter (fun i => ((s.cluster cl).bars.get i).free)).length

/-- The clusters that cores lie in, rising. -/
def clustersOf (l : List Nat) : List Nat := l.foldl (fun m p => setAdd m (clusterOf p)) []

/-- A physical operand ring: 16 consecutive cores of a cluster. -/
def ringOf (k : Nat) : List Nat := (List.range 16).map (fun i => 16 * k + i)

/-- What stages of a launch have been given: the index of each and its cores, in the order of SIDX. -/
abbrev Placed := List (Nat × List Nat)

def Placed.taken (got : Placed) : List Nat := got.flatMap Prod.snd

/-- How many stages of a placement hold cores in a cluster. -/
def Placed.stagesIn (got : Placed) (cl : Nat) : Nat := (got.filter (fun x => (clustersOf x.2).contains cl)).length

/-- The units of a cluster that a stage may still take: whole free rings for a ring-bound stage, else free cores; none where no barrier
slot is left for its SYS slot. -/
def State.unitsIn (s : State) (got : Placed) (ringed : Bool) (cl : Nat) : List (List Nat) :=
  let free := fun p => s.freeCore p && !got.taken.contains p
  if s.barRoom cl ≤ got.stagesIn cl then []
  else if ringed then ((List.range 4).map (fun k => ringOf (4 * cl + k))).filter (·.all free)
  else (((List.range 64).map (fun i => 64 * cl + i)).filter free).map (fun p => [p])

/-- Units for one stage out of clusters in turn, as many as possible from each first, in every way that the rest of the launch admits. -/
def fillStage {α : Type} (units : Nat → List (List Nat)) (rest : List Nat → Option α) : List Nat → Nat → List Nat → Option α
  | [], n, acc => if n = 0 then rest acc else none
  | cl :: r, n, acc =>
      if n = 0 then rest acc
      else ((List.range (Nat.min n (units cl).length + 1)).reverse).findSome? (fun k =>
        fillStage units rest r (n - k) (acc ++ ((units cl).take k).flatMap id))

/-- Steps between two places of a mesh. -/
def gap (a b : Nat) : Nat := (a - b) + (b - a)
def meshGap (w a b : Nat) : Nat := gap (a % w) (b % w) + gap (a / w) (b / w)

/-- Elements in the order of a key, equals as they stand. -/
def insertBy {α : Type} (key : α → Nat) (x : α) : List α → List α
  | [] => [x]
  | y :: r => if key y ≤ key x then y :: insertBy key x r else x :: y :: r

def sortBy {α : Type} (key : α → Nat) (l : List α) : List α := l.foldl (fun m x => insertBy key x m) []

/-- The die whose HBM stack is the home of an address, where it is mapped (R363, R424). -/
def State.homeDie (s : State) (t : BitVec 6) (near : Addr) : Option Nat :=
  if near = 0 then none
  else match s.translate 0 t true near.toNat .read with
    | .ok (pa, _) => some (pa / 4096 % 16)
    | .error _ => none

/-- The stages that a stage exchanges channel slots with. -/
def peersOf (l : List Stage) (i : Nat) : List Nat :=
  (endsOf l).filterMap (fun x => if x.stage = i then (otherEnd (endsOf l) x).map (·.stage) else none)

/-- The clusters for a stage in the order of the preferences of R363: with ONEDIE those of a die that can hold the whole stage; those
nearest the home of NEAR; those within few hops of the stages it exchanges slots with. That one cluster is used up before the next is the
first preference. -/
def State.clustersFor (s : State) (p : Part) (l : List Stage) (got : Placed) (i : Nat) (st : Stage) : List Nat :=
  let near := s.homeDie (BitVec.ofNat 6 p.id) st.near
  let peers := clustersOf ((peersOf l i).flatMap (fun j => (got.filter (·.1 == j)).flatMap Prod.snd))
  let hops := fun cl => (peers.map (fun x => meshGap 128 cl x)).foldl (· + ·) 0
  let far := fun cl => match near with | some d => meshGap 4 (dieOfCluster cl) d | none => 0
  let byNear := sortBy far (sortBy hops p.clusters)
  let room := fun d => ((byNear.filter (fun cl => dieOfCluster cl == d)).map (fun cl =>
    ((s.unitsIn got st.ringed cl).flatMap id).length)).foldl (· + ·) 0
  if st.onedie then
    match (sortBy (fun d => match near with | some x => meshGap 4 d x | none => 0) (List.range 16)).find? (fun d => decide (st.cores ≤ room d)) with
    | some d => byNear.filter (fun cl => dieOfCluster cl == d) ++ byNear.filter (fun cl => dieOfCluster cl != d)
    | none => byNear
  else byNear

/-- Stages placed in turn: every way to give them cores is tried, those that the preferences favour first. -/
def State.placeList (s : State) (p : Part) (all : List Stage) : List (Nat × Stage) → Placed → Option Placed
  | [], got => some got
  | (i, st) :: r, got =>
      fillStage (s.unitsIn got st.ringed) (fun l => s.placeList p all r (got ++ [(i, l)])) (s.clustersFor p all got i st)
        (if st.ringed then st.cores / 16 else st.cores) []

/-- Whether a placement is valid (R362, R363): got holds the cores of every stage in descriptor order. -/
def State.placementOk (s : State) (p : Part) (l : List Stage) (got : List (List Nat)) : Bool :=
  let pl : Placed := got.zipIdx.map (fun (x, i) => (i, x))
  decide (got.length = l.length ∧ pl.taken.Nodup) && pl.taken.all (fun c => s.freeCore c && p.holds (clusterOf c))
  && (l.zip got).all (fun (st, x) => decide (x.length = st.cores)
    && (!st.ringed || (List.range (st.cores / 16)).all (fun r => (x.drop (16 * r)).take 16 == ringOf ((x.drop (16 * r)).headD 0 / 16))))
  && (clustersOf pl.taken).all (fun cl => decide (pl.stagesIn cl ≤ s.barRoom cl))

/-- A placement of a region: each stage's cores in the order of SIDX (R363). It may be any valid one, a free value (entry 29); where that
free value is not valid it is the first that the preferences favour, the ring-bound stages placed first. -/
def State.place? (s : State) (r : Region) : Option (List (List Nat)) :=
  match s.part? r.tenant.toNat with
  | none => none
  | some p =>
      let any := (List.range r.stages.length).map (Config.placement s.tick)
      if s.placementOk p r.stages any then some any
      else
        let l := r.stages.zipIdx.map (fun (st, i) => (i, st))
        (s.placeList p r.stages (l.filter (·.2.ringed) ++ l.filter (fun x => !x.2.ringed)) []).map (fun got =>
          (List.range r.stages.length).map (fun i => match got.find? (·.1 == i) with | some (_, x) => x | none => []))

/-! ## Binding (R10-R13, R22, R126, R218, R278, R285, R288, R297, R329, R349) -/

/-- A thread slot as binding leaves it: EMPTY until its stage is released (R278). -/
def bindThread (r : Region) (st : Stage) (lcore : Nat) (k : Fin 8) : Thread :=
  { Thread.fresh k with
    lcore := lcore, pc := st.entry, pcc := st.pcc, a := st.caps, jseed := r.jseed, tvec := r.tvec
    g := Vector.ofFn (fun i : Fin 32 => if h : 1 ≤ i.val ∧ i.val ≤ 8 then st.args[i.val - 1]'(by omega) else 0) }

/-- The capabilities of a stage with those of SLCM filled in (R349, R359, R360). -/
def slicesCaps (st : Stage) (first : Nat) : Vector Cap 16 :=
  Vector.ofFn (fun i : Fin 16 =>
    let c := st.caps.get i
    if st.slcm.getLsbD i.val then
      setBounds (c.withCur (BitVec.ofNat 48 (0x400000000000 + first * 0x10000))) ((st.cores - 1) * 0x10000 + 0xC000)
    else c)

/-- An endpoint as wiring leaves it (R285, R286, R327, R329). -/
def bindEp (stages : List Stage) (i sidx : Nat) (st : Stage) (e : Fin 4) : Ep :=
  let ends := endsOf stages
  match ends.find? (fun x => x.stage == i && x.ep == e.val) with
  | none => Ep.none
  | some x =>
      match otherEnd ends x with
      | none => Ep.none
      | some y =>
          let peers := (stages[y.stage]?).map (·.pcores) |>.getD []
          let base : Ep := { Ep.none with bound := true, tether := linkOf st.tether e.val, cert := certOf st.tether e.val, allow := x.slots }
          if 2 ≤ e.val then
            let look := BitVec.ofNat 64 (lookOf st.tether e.val)
            { base with peer := (if x.st.cores = y.st.cores then peers[sidx]? else peers[0]?).getD 0, peerEp := BitVec.ofNat 1 y.ep
                        lout := look, floor := look }
          else
            { base with senders := if x.st.cores = y.st.cores then 1 else y.st.cores
                        bnd := if linkOf st.tether e.val then BitVec.ofNat 64 (lookOf y.st.tether y.ep) else BitVec.allOnes 64 }

/-- A core as binding leaves it. -/
def bindCore (old : Core) (r : Region) (i sidx first tick : Nat) (st : Stage) (ep : Vector Ep 4) : Core :=
  { Core.fresh with
    th := Vector.ofFn (bindThread r st (first + sidx)), bound := true, rid := r.rid, top := r.top, stage := i, tenant := r.tenant, lcore := first + sidx
    sidx := sidx, scnt := st.cores, ringed := st.ringed, xbtick := tick
    trcbase := r.trace.get 0 &&& trcBaseMask, trclen := r.trace.get 1, trcrng0 := r.trace.get 2 &&& rngMask
    trcrng1 := r.trace.get 3 &&& rngMask
    ep := ep, tether := st.tether.extractLsb' 0 4 != 0, qlog := (st.tether.extractLsb' 8 6).toNat
    rsec := old.rsec, rbank := old.rbank, rtimes := old.rtimes, marked := old.marked, retired := old.retired }

/-- A slice zeroed, its tags cleared and every word full (R278, R396). -/
def State.wipeKeys (s : State) (lo hi : Nat) : State :=
  { s with mem := Memory.clear s.mem lo hi
           tags := s.tags.filter (fun g => !(decide (lo / 16 ≤ g ∧ g < hi / 16)))
           empties := s.empties.filter (fun k => !(decide (lo ≤ k ∧ k < hi))) }

/-- A slice as bind leaves it (R278). -/
def State.wipeSlice (s : State) (core : Nat) : State := s.wipeKeys (sramKey core 0) (sramKey core 0 + Config.sliceBytes)

/-- The cluster registers as the first bind in a cluster leaves them (R22). -/
def Cluster.rebound (c : Cluster) : Cluster := { c with drgstat := 0, cflags := 0 }

/-- The slot a SYS assignment takes: the highest that is free (R139). -/
def Cluster.sysSlot (c : Cluster) : Fin 32 := (((List.finRange 32).filter (fun i => (c.bars.get i).free)).getLast?).getD 31

def Cluster.setBar (c : Cluster) (i : Fin 32) (b : Bar) : Cluster := { c with bars := c.bars.set i.val b i.isLt }

/-- SYS slots for a stage in the clusters that hold its cores (R288). -/
def State.assignSys (s : State) (rid i : Nat) (cores : List Nat) : List Nat → State × List (Nat × Fin 32)
  | [] => (s, [])
  | cl :: r =>
      let c := s.cluster cl
      let k := c.sysSlot
      let n := (cores.filter (fun p => clusterOf p == cl)).length
      let s1 := s.setCluster cl (c.setBar k { Bar.fresh with sys := true, exp := BitVec.ofNat 16 n, owner := some (rid, i) })
      let (s2, l) := s1.assignSys rid i cores r
      (s2, (cl, k) :: l)

/-- The spanning tree over a region's clusters (R289): the cluster of place i in their rising order is a child of that of place
(i - 1) / 2, the first being the root. DESIGN CHOICE (entry 107): the spec leaves the tree's shape open. -/
def treeParent (cls : List Nat) (cl : Nat) : Option Nat :=
  match cls.idxOf cl with
  | 0 => none
  | i + 1 => cls[i / 2]?

/-- A cluster and those above it in the tree; fuel is the number of clusters. -/
def treePath (cls : List Nat) : Nat → Nat → List Nat
  | 0, cl => [cl]
  | n + 1, cl => match treeParent cls cl with
      | some p => cl :: treePath cls n p
      | none => [cl]

/-- The nodes of the completion tree for a stage: the clusters that hold cores of it, themselves or below them (R289), and the root. -/
def nodesOf (cls : List Nat) (cores : List Nat) (slots : List (Nat × Fin 32)) : List Node :=
  let used := ((clustersOf cores).flatMap (treePath cls cls.length) ++ cls.take 1)
  (cls.filter used.contains).map (fun cl =>
    let n := (cores.filter (fun p => clusterOf p == cl)).length
    { cluster := cl, up := treeParent cls cl, slot := (slots.find? (·.1 == cl)).map Prod.snd, cores := n, released := false, fsum := 0
      fpf := 0, done := 0, sent := none })

/-- A steal counter's ID, and whether a live stage of the tenant uses it (R297). -/
def stealId (p : Part) (serial : Nat) : Nat := p.blimit - 256 + serial % 256

def State.stealUsed (s : State) (p : Part) (serial : Nat) : Bool :=
  s.regions.any (fun r => r.tenant.toNat == p.id && r.stages.any (fun st => !st.complete && st.serial % 256 == serial % 256))

/-- The configuration of a steal counter as bcfg takes it: COUNT with LW 6 (R148, R297). -/
def stealConfig : Word := 6

/-- The stages numbered within their tenant and given their cores. -/
def numberStages (got : List (List Nat)) (serial : Nat) (l : List Stage) : List Stage :=
  l.zipIdx.map (fun (st, i) => { st with serial := serial + i, pcores := (got[i]?).getD [] })

/-- First logical cores of the stages (R277). -/
def firstsOf (first : Nat) : List Stage → List Nat
  | [] => []
  | st :: r => first :: firstsOf (first + st.cores) r

/-- What a piece of front-end work reads, or none where it meets a stage-1 fault. -/
def feMaybe {α : Type} (m : FeM α) : FeM (Option α) := fun s =>
  match m s with
  | .ok (x, t) => .ok (some x, t)
  | .error (.held t i k) => .error (.held t i k)
  | .error _ => .ok (none, s)

/-- The slice images of stages, or none where one cannot be read. -/
def readImages (ag : Agent) : List Stage → FeM (Option (List (List Byte)))
  | [] => pure (some [])
  | st :: r => do
      let x ← feMaybe (feRead ag st.imgAddr.toNat st.imgLen .page)
      let l ← readImages ag r
      pure (x.bind (fun b => l.map (b :: ·)))

/-- A stage bound: its cores, their slices with the image, its SYS slots and its steal counter. -/
def State.bindStage (r : Region) (cls fresh : List Nat) (s : State) (i : Nat) (st : Stage) (first : Nat) (img : List Byte) : State × Stage :=
  let full := { st with caps := slicesCaps st first }
  let s1 := st.pcores.zipIdx.foldl (fun (s : State) x =>
    let ep := Vector.ofFn (bindEp r.stages i x.2 st)
    let s1 := (s.wipeSlice x.1).setCore x.1 (bindCore (s.core x.1) r i x.2 first (s.cycle / 1024) full ep)
    { s1 with mem := Memory.writeN s1.mem (sramKey x.1 0) img }) s
  let s2 := (clustersOf st.pcores).foldl (fun (s : State) cl =>
    if fresh.contains cl then s.setCluster cl (s.cluster cl).rebound else s) s1
  let (s3, slots) := s2.assignSys r.rid i st.pcores (clustersOf st.pcores)
  let s4 := match s3.part? r.tenant.toNat with
    | some p =>
        if s3.stealUsed p st.serial || (r.stages.take i).any (fun x => x.serial % 256 == st.serial % 256) then s3
        else s3.feConfigure r.tenant (stealId p st.serial) stealConfig
    | none => s3
  (s4, { full with nodes := nodesOf cls st.pcores slots })

def State.bindStages (r : Region) (cls fresh : List Nat) (s : State) : List (Nat × Stage × Nat × List Byte) → State × List Stage
  | [] => (s, [])
  | (i, st, first, img) :: rest =>
      let (s1, x) := s.bindStage r cls fresh i st first img
      let (s2, l) := State.bindStages r cls fresh s1 rest
      (s2, x :: l)

/-- Whether the Ballast region of a sub-launch runs (R348). -/
def State.loopRuns (s : State) (b : Block) : Bool :=
  match b.src with
  | .ballast r => match s.region? r with
      | some x => !x.paused && x.phase == .running
      | none => false
  | _ => true

/-- An earlier launch of the partition that waits holds this one back (R362), and so does a Ballast region that is pre-empted, or a tenant
that is stopped (R401). -/
def State.heldBack (s : State) (b : Block) : Bool :=
  !s.loopRuns b || !s.serves b.tenant || s.blocks.any (fun x => x.waiting && x.tenant == b.tenant && decide (b.prio ≤ x.prio ∧ x.since < b.since) && !x.same b)

/-- The region a launch's parent is, where it has one. -/
def State.parentOf (s : State) (r : Region) : Option Region := r.parent.bind s.region?

/-- The kind of the sub-launch a position of the loop waits for (R341). -/
def LPos.kind : LPos → Nat
  | .runFact => 1
  | .runSolv => 2
  | _ => 3

/-- The loop ends as the memory of its sub-launch cannot be read (R345, R347). -/
def Loop.unread (l : Loop) : Loop :=
  { l with pos := .exit, code := 5, finfo := BitVec.ofNat 64 (l.pos.kind + l.r * 2 ^ 8 + 0x08 * 2 ^ 16), fault := none, sub := none }

/-- A slice image that cannot be read at bind. A sub-launch ends its loop with FAULT (R347). DESIGN CHOICE (entry 59): any other region
faults with cause PAGE before a thread of it runs. -/
def bindUnread (b : Block) (r : Region) : FeM Unit :=
  match b.src with
  | .ballast p => feMods (fun s => (s.modRegion p (fun x => { x with loop := x.loop.map Loop.unread })).dropBlock b)
  | _ =>
      let f : FInfo := { tcause := 0x08, code := 0, lcore := r.first, tslot := 0, tval := 0, tepc := 0, tfpc := 0, soft := 0 }
      feMods (fun s => ({ s with fresh := s.fresh + 1, regions := s.regions ++ [{ r with
        phase := .running, fault := some f, faulted := true, stages := r.stages.map (fun st => { st with pcores := [] }) }] } : State).setBlock
        { b with parsed := true, waiting := false, rid := some r.rid, spec := none })

/-- The region of a launch whose cores are found, as it is numbered (R277, R297). -/
def State.numbered (s : State) (b : Block) (spec : Region) (got : List (List Nat)) : Region :=
  let parent := s.parentOf spec
  let serial := match s.part? spec.tenant.toNat with | some p => p.serial | none => 0
  { spec with rid := s.fresh, seq := b.seq, top := (match parent with | some p => p.top | none => s.fresh)
              first := s.firstFor parent spec.span, stages := numberStages got serial spec.stages, phase := .binding, sliceAt := s.cycle
              queue := (match b.src with | .queue n => some n | _ => none) }

/-- A region whose cores are found is bound (R361 step 3). -/
def bindRegion (b : Block) (spec : Region) (got : List (List Nat)) : FeM Unit := do
  let s ← feGets id
  let r := s.numbered b spec got
  let cls := clustersOf (r.stages.flatMap (·.pcores))
  let fresh := cls.filter (fun cl => !(s.cores.any (fun (n, c) => c.bound && clusterOf n == cl)))
  match ← readImages (feAgent r.tenant r.top) r.stages with
  | none => bindUnread b r
  | some imgs =>
      feMods (fun s =>
        let s1 := ({ s with fresh := s.fresh + 1 } : State).modPart spec.tenant.toNat (fun p => { p with serial := p.serial + spec.stages.length })
        let (s2, l) := State.bindStages r cls fresh s1
          ((r.stages.zipIdx.zip ((firstsOf r.first r.stages).zip imgs)).map (fun x => (x.1.2, x.1.1, x.2.1, x.2.2)))
        let s3 := ({ s2 with regions := s2.regions ++ [{ r with stages := l }] } : State).setBlock
          { b with parsed := true, waiting := false, rid := some r.rid, spec := none }
        match b.src with
        | .ballast p => s3.modRegion p (fun x => { x with loop := x.loop.map (fun l => { l with sub := some r.rid }) })
        | _ => s3)

/-! ## Release (R278, R361) -/

/-- The edges of the channel graph, from sender to receiver. -/
def channelEdges (l : List Stage) : List (Nat × Nat) :=
  let ends := endsOf l
  ends.filterMap (fun x => if 2 ≤ x.ep then (otherEnd ends x).map (fun y => (x.stage, y.stage)) else none)

/-- What edges reach from a set, in at most n steps. -/
def reach (edges : List (Nat × Nat)) : Nat → List Nat → List Nat
  | 0, l => l
  | n + 1, l => reach edges n ((edges.filter (fun e => l.contains e.1)).foldl (fun m e => setAdd m e.2) l)

/-- The strongly connected group of a stage. -/
def groupOf (edges : List (Nat × Nat)) (i : Nat) : List Nat :=
  (reach edges edges.length [i]).filter (fun j => (reach edges edges.length [j]).contains i)

/-- Whether a stage's group may be released: every group it sends to has been. -/
def releasable (l : List Stage) (edges : List (Nat × Nat)) (i : Nat) : Bool :=
  let g := groupOf edges i
  edges.all (fun e => !g.contains e.1 || g.contains e.2 || ((l[e.2]?).map (·.released)).getD true)

/-- The group released next: the first in descriptor order of those that may be. DESIGN CHOICE (entry 57) where descriptor order and the
channels give no one order. -/
def Region.nextGroup (r : Region) : Option (List Nat) :=
  let edges := channelEdges r.stages
  (((List.range r.stages.length).find? (fun i => ((r.stages[i]?).map (fun g => !g.released)).getD false && releasable r.stages edges i))).map
    (groupOf edges)

/-- Slots below the stage's thread count become READY (R278). -/
def Core.start (c : Core) (threads : Nat) : Core :=
  { c with th := Vector.ofFn (fun k => if k.val < threads ∧ (c.th.get k).state = .empty then { c.th.get k with state := .ready } else c.th.get k) }

/-- The next group of a region is released in one step; with the last one the region runs. -/
def State.releaseGroup (s : State) (r : Region) : State :=
  match r.nextGroup with
  | none => s.modRegion r.rid (fun r => { r with phase := .running, sliceAt := s.cycle })
  | some g =>
      let cores := (r.stages.zipIdx.filter (fun x => g.contains x.2)).flatMap (fun x => x.1.pcores.map (fun n => (n, x.1.threads)))
      let s1 := cores.foldl (fun (s : State) x => s.setCore x.1 ((s.core x.1).start x.2)) s
      let stages := r.stages.zipIdx.map (fun x => if g.contains x.2 then { x.1 with released := true } else x.1)
      s1.modRegion r.rid (fun r => { r with
        stages := stages, sliceAt := s.cycle, phase := if stages.all (·.released) then .running else .binding })

/-- The first release orders the launch against its queue's destruction (R365) and makes a region of depth 1 its queue's anchor (R367). -/
def State.release (s : State) (b : Block) (r : Region) : State :=
  let s1 := s.releaseGroup r
  match b.src with
  | .queue n =>
      if r.depth = 1 ∧ !(r.stages.any (·.released)) then let q := s1.queue n; s1.setQueue n { q with anchors := r.rid :: q.anchors } else s1
  | _ => s1

/-- Whether a region has stages to release. -/
def Region.releases (r : Region) : Bool := r.phase == .binding && !r.paused && !r.faulted

/-- A validated launch binds, or waits for cores (R362). -/
def launchBind (b : Block) (spec : Region) : FeM Unit := do
  let s ← feGets id
  let wait := feMods (fun s => s.setBlock { b with parsed := true, waiting := true, spec := some spec })
  if s.heldBack b then wait
  else match s.place? spec with
    | none => wait
    | some got => bindRegion b spec got

/-- The parent a host block's region has: the partition. -/
def hostParse (b : Block) : FeM Region := do
  let s ← feGets id
  match s.part? b.tenant.toNat with
  | none => feStop (.reject 6)
  | some p => do
      let (r, bad) ← parseLaunch (feAgent b.tenant (s.anchorOf b.src)) p true (s.partValues p) (s.usable p) b.raw false
      match firstReason bad with
      | some x => feStop (.reject x)
      | none => pure r

/-- The block a launch event names: cur.idx is its number, cur.sub 1 for a sub-launch. -/
def State.launchBlock? (s : State) : Option Block := s.block? s.cur.idx (s.cur.sub == 1)

/-- A host block is parsed, once; what was read is kept (R361 step 1). -/
def State.parseBlock (s : State) (b : Block) : State :=
  if b.spec.isSome then s
  else feRun s b (do
    let r ← hostParse b
    feMods (fun s => s.setBlock { b with parsed := true, spec := some r }))

/-- LAUNCH_BLOCK (R361): a host block is parsed first; a device launch was validated by its instruction, a sub-launch by its block. It then
binds, and once it is bound its groups are released one step each. -/
def execLaunchBlock (s : State) : Res :=
  match s.launchBlock? with
  | some b =>
      if b.active && !b.doomed && b.typ == 1 && !b.waiting then
        match b.rid with
        | some n => match s.region? n with
            | some r => .next (if r.releases then s.release b r else s)
            | none => .next s
        | none =>
            let s1 := s.parseBlock b
            match s1.block? b.seq.toNat b.src.isSub with
            | some b1 => match b1.spec with
                | some spec => .next (feRun s1 b1 (launchBind b1 spec))
                | none => .next s1
            | none => .next s1
      else .next s
  | none => .next s

/-- Whether a waiting launch can bind now. -/
def State.canBind (s : State) (b : Block) : Bool :=
  b.waiting && !b.doomed && !s.holds (.block b.seq) && !s.heldBack b && (match b.spec with | some r => (s.place? r).isSome | none => false)

/-- LAUNCH_BIND_RETRY (R362). -/
def execLaunchBindRetry (s : State) : Res :=
  match s.launchBlock? with
  | some b =>
      match b.spec with
      | some spec => .next (if s.canBind b then feRun s b (launchBind b spec) else s)
      | none => .next s
  | none => .next s

/-! ## The launch instruction (R162) -/

/-- A block that a thread submits: parsed as a child of its region. -/
def deviceParse (c : Core) (r : Region) (raw : BitVec 1024) : FeM (Region × List (Nat × Region) × BitVec 1024 × List Nat) := do
  let s ← feGets id
  let ag := feAgent c.tenant c.top
  match s.part? c.tenant.toNat with
  | none => pure (r, [], 0, [6])
  | some p =>
      let child := fun x : Region => { x with parent := some r.rid, pstage := c.stage }
      let base := { r with stages := [], loop := none, fault := none, faulted := false, byFault := false, paused := false, queue := none }
      if typeOf raw = 1 then do
        let (x, bad) ← parseLaunch ag p false base (s.spare r) raw true
        pure (child x, [], raw, (firstReason bad).toList)
      else if typeOf raw = 2 then do
        let (x, subs, resid, bad) ← parseBallast ag p false base (s.spare r) ((r.stages[c.stage]?).map (·.pcc)) raw
        pure (child x, subs, resid, (firstReason bad).toList)
      else pure (r, [], 0, [8])

/-- The device-launch intake holds 1,024 blocks (R356). -/
def State.intakeFull (s : State) : Bool :=
  decide (1024 ≤ (s.blocks.filter (fun b => !b.active && (match b.src with | .device _ _ _ _ => true | _ => false))).length)

/-- The front end's part of a launch instruction: the block is validated, and joins the intake or is rejected with its record. A BALLAST
block one of whose named blocks cannot be read joins it without a region, and its loop ends with FAULT (R347). -/
def submit (s : State) (c : Core) (r : Region) (raw : BitVec 1024) : FeM Word := do
  let (seq, s1) := s.takeSeq
  feMods (fun t => { t with seq := s1.seq })
  let b ← withResid
    { seq := seq, src := .device s.cur.core c.rid c.stage c.top, fn := 0, tenant := c.tenant, typ := typeOf raw, raw := raw
      comp := if typeOf raw = 2 then CompF.none else (s.compOf c.tenant true raw).1, active := false, parsed := true, waiting := false
      prio := r.prio, rid := none, spec := none, subs := [], deadline := none, silent := false, doomed := false, at_ := s.cycle
      since := s.tick }
  let (spec, subs, bad) ← fun s => match deviceParse c r raw s with
    | .ok ((x, subs, _, bad), s1) => .ok ((some x, subs, bad), s1)
    | .error .page => .ok ((none, [], []), s)
    | .error (.reject x) => .ok ((none, [], [x]), s)
    | .error x => .error x
  match bad with
  | x :: _ => do
      feComplete b stReject x 0 0 0 none
      pure (pack stMode (BitVec.ofNat 64 x))
  | [] => do
      feMods (fun s => { s with blocks := s.blocks ++ [{ b with spec := spec, subs := subs }] })
      pure (pack stOk (seq.zeroExtend 64))

/-- launch (R162): ordered as a release at module scope; the thread waits in WAITMEM while the front end's reads are held. -/
def execLaunch (d : Dst) (a : BitVec 4) (s : State) : Res :=
  (withWait d 4 do
    let k ← readA a
    capCheck k k.cur.toNat 128 permR kindMem 128
    beforeAccess { order := .release, scope := .module }
    let t ← home k.cur.toNat .read
    let s ← gets id
    if s.intakeFull then finish d 4 (pack stFull 0)
    else
      match s.region? s.cc.rid with
      | none => finish d 4 (pack stMode 8)
      | some r => do
          let lo ← fetchBytes t 64
          let t2 ← home (k.cur.toNat + 64) .read
          let hi ← fetchBytes t2 64
          let u ← gets id
          match submit s s.cc r (blockOf (lo ++ hi)) u with
          | .ok (v, s1) => do
              mods (fun _ => s1)
              finish d 4 v
          | .error (.held tn ipa kd) => do
              mods (fun s => s.logFault tn ipa kd (some (.thread s.cur.core s.cur.slot)))
              waitIn .waitMem .reissue
          | .error _ => finish d 4 (pack stMode 8)).go s

/-! ## What is due -/

def State.dueLaunch (s : State) : List Move :=
  s.blocks.flatMap (fun b =>
    let c : Cur := { curIdx b.seq.toNat with sub := if b.src.isSub then 1 else 0 }
    if !b.active || b.doomed || b.typ != 1 || s.holds (.block b.seq) then []
    else match b.rid with
    | some n => (match s.region? n with
        | some r => if r.releases then [.event c .launchBlock] else []
        | none => [])
    | none =>
    if b.waiting then (if s.canBind b then [.event c .launchBindRetry] else [])
    else if b.parsed || s.firstUnparsed b then [.event c .launchBlock] else [])

end Sys2Proof.Machine
end

