-- ==== Sys2Proof/Machine/Complete.lean ====
section
/-! DEFINITION. Completion: reductions, the completion tree, and the end of a region (R142, R232, R250-R253, R288-R291, R359, R366,
R382, R415). -/

namespace Sys2Proof.Machine

/-! ## Reductions (R250-R253) -/

/-- The signed value of an integer contribution. -/
def intOf (t : LaneTy) (bits : Nat) : Int :=
  let w := t.width
  let v := bits % 2 ^ w
  if v < 2 ^ (w - 1) then v else (v : Int) - 2 ^ w

/-- The largest of a list by a key, the first of equals. -/
def bestBy {α : Type} (key : α → Int) : List α → Option α
  | [] => none
  | x :: r => match bestBy key r with
      | none => some x
      | some y => if key y ≤ key x then some x else some y

/-- The order of finite patterns, -0 below +0 (R251). -/
def Fmt.orderKey (f : Fmt) (bits : Nat) : Int :=
  if bits / f.signBit % 2 = 1 then -((bits % f.signBit : Nat) : Int) - 1 else (bits % f.signBit : Nat)

/-- Finite values as signed multiples m 2^e; none where one is not finite. -/
def finTerms (f : Fmt) : List Nat → Option (List (Bool × Nat × Int))
  | [] => some []
  | b :: r => match f.decode b, finTerms f r with
      | .fin neg m e, some l => some ((neg, m, e) :: l)
      | _, _ => none

/-- The fixed-point sum of R250, in units of 2^-149, exactly. -/
def fixedSum (l : List (Bool × Nat × Int)) : Int := l.foldl (fun a t => a + signedAt t.1 t.2.1 t.2.2 (-149)) 0

/-- The largest floor(log2 |x|) of the nonzero terms (R252). -/
def topExp : List (Bool × Nat × Int) → Option Int
  | [] => none
  | (_, m, e) :: r =>
      let here := if m = 0 then none else some (e + Nat.log2 m)
      match here, topExp r with
      | none, x => x
      | some x, none => some x
      | some x, some y => some (max x y)

/-- A term cut to a whole number of units of 2^q toward zero, and whether bits were discarded. -/
def cutTo (q : Int) (t : Bool × Nat × Int) : Int × Bool :=
  let (u, cut) := if q ≤ t.2.2 then (t.2.1 * 2 ^ (t.2.2 - q).toNat, false)
    else (t.2.1 / 2 ^ (q - t.2.2).toNat, t.2.1 % 2 ^ (q - t.2.2).toNat != 0)
  (if t.1 then -(u : Int) else u, cut)

/-- Whether a channel is summed in two passes (R252). -/
def twoPassed (op : Nat) (ty : LaneTy) : Bool := op == 5 || (op == 1 && ty == .f64)

/-- The terms of a channel: SUMSQ sums the exact squares. -/
def redTerms (op : Nat) (ts : List (Bool × Nat × Int)) : List (Bool × Nat × Int) :=
  if op = 5 then ts.map (fun t => (false, t.2.1 * t.2.1, 2 * t.2.2)) else ts

/-- What MAX, MIN and MAXABS make greatest (R251). -/
def redKey (op : Nat) (ty : LaneTy) (b : Nat) : Int :=
  match ty.fmt with
  | none => let v := intOf ty b; if op = 2 then v else if op = 3 then -v else v.natAbs
  | some f => if op = 2 then f.orderKey b else if op = 3 then -f.orderKey b else ((b % f.signBit : Nat) : Int)

/-- The exponent pass (R252). -/
def redTop (op : Nat) (ty : LaneTy) (l : List Nat) : Option Int :=
  match ty.fmt with
  | none => none
  | some f => (finTerms f l).bind (fun ts => topExp (redTerms op ts))

/-- The exact partial of contributions, the sum pass at the greatest exponent of the whole reduction (R250-R252). -/
def redPart (op : Nat) (ty : LaneTy) (top : Option Int) (l : List Nat) : RedPart :=
  let best := bestBy (redKey op ty) l
  let part := fun (bad : Bool) (sum : Int) (nx : Bool) =>
    ({ count := l.length, bad := bad, top := top, sum := BitVec.ofInt 320 sum, nx := nx, best := best } : RedPart)
  match ty.fmt with
  | none => part false ((l.map (intOf ty)).foldl (· + ·) 0) false
  | some f =>
      match finTerms f l with
      | none => part true 0 false
      | some ts =>
          if twoPassed op ty then
            match top with
            | none => part false 0 false
            | some e =>
                let cuts := (redTerms op ts).map (cutTo (e - 215))
                part false (cuts.foldl (fun a x => a + x.1) 0) (cuts.any (·.2))
          else part false (fixedSum ts) false

/-- Two partials combined exactly. -/
def redAdd (op : Nat) (ty : LaneTy) (a b : RedPart) : RedPart :=
  { count := a.count + b.count, bad := a.bad || b.bad, top := a.top, sum := a.sum + b.sum, nx := a.nx || b.nx
    best := bestBy (redKey op ty) (a.best.toList ++ b.best.toList) }

/-- The root's one rounding (R253). A result that the spec does not state is free (entry 28). DESIGN CHOICE (entry 105): a contribution
that is not finite gives the canonical NaN and raises no flag. -/
def redFinish (op : Nat) (ty : LaneTy) (p : RedPart) : RedRes :=
  let unstated := Config.unstatedReduction op ty.code.toNat
  match ty.fmt with
  | none =>
      let w : Nat := 2 ^ ty.width
      if op = 1 then { bits := (p.sum.toInt % (w : Int)).toNat, fl := 0, nan := false }
      else match p.best with
        | none => { bits := unstated % w, fl := 0, nan := false }
        | some b => { bits := (if op = 4 then (intOf ty b).natAbs else b) % w, fl := 0, nan := false }
  | some f =>
      if p.bad then { bits := f.nanBits, fl := 0, nan := true }
      else if op = 1 ∨ op = 5 then
        if (if ty = .f64 then 2 ^ 39 else 2 ^ 41) ≤ p.count then { bits := f.nanBits, fl := 0, nan := true }
        else
          let r := if twoPassed op ty then
              (match p.top with | none => { bits := 0, fl := 0 } | some e => fp64.roundInt 0 p.sum.toInt (e - 215) false)
            else f.roundInt 0 p.sum.toInt (-149) false
          { bits := if r.bits % f.signBit = 0 then 0 else r.bits, fl := (r.fl ||| if p.nx then flNX else 0) &&& (flOF ||| flNX ||| flNV)
            nan := false }
      else match p.best with
        | none => { bits := unstated % 2 ^ f.w, fl := 0, nan := false }
        | some b => { bits := if op = 4 then b % f.signBit else b, fl := 0, nan := false }

/-- One element of a reduction channel over all its contributions (R232, R250-R253). -/
def reduce (op : Nat) (ty : LaneTy) (l : List Nat) : RedRes := redFinish op ty (redPart op ty (redTop op ty l) l)

/-- What a broken group reduction gives every member (R415). -/
def brokenRed (ty : LaneTy) : RedRes :=
  match ty.fmt with
  | some f => { bits := f.nanBits, fl := 0, nan := true }
  | none => { bits := Config.unstatedReduction 0 ty.code.toNat % 2 ^ ty.width, fl := 0, nan := true }

/-- The contributions to an element of a channel. -/
def Stage.contribsTo (g : Stage) (ch e : Nat) : List Nat :=
  (g.contribs.filter (fun c => c.ch == ch && c.elem == e)).map (fun c => c.bits.toNat)

/-- The results of a stage: channel, element and result (R232); those of a group reduction have come from the group (R415). -/
def Stage.reduceAll (g : Stage) : List (Nat × Nat × RedRes) :=
  g.red.zipIdx.flatMap (fun (ch, k) => (List.range ch.count).map (fun e =>
    let own := reduce ch.op.toNat ch.ty (g.contribsTo k e)
    (k, e, if ch.xg && g.groupBrk then brokenRed ch.ty
      else if ch.xg then ((g.groupRes.find? (·.1 == k)).bind (fun x => x.2[e]?)).getD own else own)))

/-! ## The completion tree (R288-R290) -/

/-- The bit of R289: 1 CHILD, 2 SMISS, 4 BRK, 8 RNAN. -/
def fsChild : BitVec 16 := 1
def fsBrk : BitVec 16 := 4
def fsRnan : BitVec 16 := 8

/-- A combined status word (R289). -/
def statusWordOf (fsum : BitVec 16) (fpf : BitVec 6) (done rcnt : Nat) : Word :=
  fsum ++ fpf ++ 0#6 ++ BitVec.ofNat 20 done ++ 0#13 ++ BitVec.ofNat 3 rcnt

def wordFsum (w : Word) : BitVec 16 := w.extractLsb' 48 16
def wordFpf (w : Word) : BitVec 6 := w.extractLsb' 42 6
def wordDone (w : Word) : Nat := (w.extractLsb' 16 20).toNat

/-- The combined status word of a stage. -/
def Stage.statusWord (g : Stage) : Word := statusWordOf g.fsum g.fpf g.doneN g.red.length

/-- The children of a node. -/
def Stage.below (g : Stage) (n : Node) : List Node := g.nodes.filter (fun m => m.up == some n.cluster)

/-- Whether a node sends its message: its own slot has released where it has one, and every child has sent its own (R289). -/
def Stage.nodeReady (g : Stage) (n : Node) : Bool :=
  n.sent.isNone && (n.slot.isNone || n.released) && (g.below n).all (·.sent.isSome)

/-- The message of a node: its own cluster's contribution with its children's messages, FSUM and FPF by OR and DONE by sum (R290). -/
def Stage.nodeWord (g : Stage) (n : Node) : Word :=
  let l := (g.below n).filterMap (·.sent)
  statusWordOf (l.foldl (fun a w => a ||| wordFsum w) n.fsum) (l.foldl (fun a w => a ||| wordFpf w) n.fpf)
    (l.foldl (fun a w => a + wordDone w) n.done) g.red.length

/-- Whether the root has sent the stage's message to the front end. -/
def Stage.rootSent (g : Stage) : Bool := !g.nodes.isEmpty && g.nodes.all (fun n => n.up.isSome || n.sent.isSome)

/-! ## Group reductions (R415)

The module with the lowest group ID combines. A two-pass channel sends its exponents, gets the greatest, and then sends its sums. -/

def Stage.xg (g : Stage) : Bool := g.red.any (·.xg)

/-- The group tag of a stage. -/
def Stage.tag (g : Stage) : Word := g.args.get 7

/-- The module's group, of at most 16 modules. -/
def State.groupNow (s : State) : Option Group := s.group.filter (fun g => decide (1 ≤ g.others.length ∧ g.others.length ≤ 15))

/-- Whether this module combines. -/
def Group.combines (g : Group) : Bool := g.others.all (fun o => decide (g.me < o.1))

/-- The member that combines, for the others. -/
def Group.root (g : Group) : Option (Nat × Nat) := oldest Prod.fst g.others

/-- The ports that this module's part of a group reduction crosses: to every member for the module that combines, else to that module. -/
def Group.ports (g : Group) : List Nat :=
  if g.combines then g.others.map Prod.snd else (g.root.map Prod.snd).toList

/-- A message to a member of the group, which a failed link drops. -/
def State.groupSend (s : State) (tag : Word) (ch me : Nat) (m : GroupMsg) (dst : Nat × Nat) : State :=
  if s.linkDown.contains dst.2 then s else { s with out := .groupOut dst.2 { tag := tag, ch := ch, src := me, msg := m } :: s.out }

/-- What a member has sent of a kind for a channel. -/
def State.groupGot {α : Type} (s : State) (tag : Word) (ch src : Nat) (f : GroupMsg → Option α) : Option α :=
  (s.groupIn.filter (fun x => x.tag == tag && x.ch == ch && x.src == src)).findSome? (fun x => f x.msg)

/-- The same of every other member, where all have sent it. -/
def State.groupAll {α : Type} (s : State) (tag : Word) (ch : Nat) (f : GroupMsg → Option α) : List (Nat × Nat) → Option (List α)
  | [] => some []
  | o :: r => (s.groupGot tag ch o.1 f).bind (fun x => (s.groupAll tag ch f r).map (x :: ·))

def GroupMsg.exponents? : GroupMsg → Option (List (Option Int)) | .exponents l => some l | _ => none
def GroupMsg.tops? : GroupMsg → Option (List (Option Int)) | .tops l => some l | _ => none
def GroupMsg.sums? : GroupMsg → Option (List RedPart) | .sums l => some l | _ => none
def GroupMsg.results? : GroupMsg → Option (List RedRes) | .results l => some l | _ => none

def maxTop : Option Int → Option Int → Option Int
  | some a, some b => some (max a b)
  | none, x => x
  | x, none => x

/-- The messages for a channel are used up. -/
def State.groupUsed (s : State) (tag : Word) (ch : Nat) : State := { s with groupIn := s.groupIn.filter (fun x => !(x.tag == tag && x.ch == ch)) }

/-- The results of a channel have come. -/
def State.groupResult (s : State) (rid i : Nat) (tag : Word) (ch : Nat) (l : List RedRes) : State :=
  (s.groupUsed tag ch).modStage rid i (fun g => { g with groupRes := g.groupRes ++ [(ch, l)] })

/-- What the stage has sent for a channel is noted. -/
def State.groupMark (s : State) (rid i ch pass : Nat) : State := s.modStage rid i (fun g => { g with groupSent := g.groupSent ++ [(ch, pass)] })

/-- The next messages of a stage's channel k: pass 0 is the exponents, pass 1 the sums, or the tops of the module that combines. -/
def State.groupChan (gr : Group) (rid i : Nat) (g : Stage) (s : State) (k : Nat) (c : RedCh) : State :=
  let op := c.op.toNat
  let own := (List.range c.count).map (fun e => g.contribsTo k e)
  let ownTops := own.map (redTop op c.ty)
  let parts := fun tops : List (Option Int) => own.zipIdx.map (fun (l, e) => redPart op c.ty ((tops[e]?).getD none) l)
  if !c.xg || g.groupRes.any (·.1 == k) then s
  else if gr.combines then
    let tops := if !twoPassed op c.ty then some ownTops
      else (s.groupAll g.tag k GroupMsg.exponents? gr.others).map (fun l =>
        ownTops.zipIdx.map (fun (x, e) => l.foldl (fun a y => maxTop a ((y[e]?).getD none)) x))
    match tops with
    | none => s
    | some tops =>
        let s1 := if !twoPassed op c.ty || g.groupSent.contains (k, 1) then s
          else (gr.others.foldl (State.groupSend · g.tag k gr.me (.tops tops)) s).groupMark rid i k 1
        match s1.groupAll g.tag k GroupMsg.sums? gr.others with
        | none => s1
        | some l =>
            let all := (parts tops).zipIdx.map (fun (p, e) =>
              redFinish op c.ty (l.foldl (fun a y => match y[e]? with | some q => redAdd op c.ty a q | none => a) p))
            (gr.others.foldl (State.groupSend · g.tag k gr.me (.results all)) s1).groupResult rid i g.tag k all
  else match gr.root with
    | none => s
    | some root =>
        let two := twoPassed op c.ty
        let s1 := if !two || g.groupSent.contains (k, 0) then s
          else (s.groupSend g.tag k gr.me (.exponents ownTops) root).groupMark rid i k 0
        let tops := if two then s1.groupGot g.tag k root.1 GroupMsg.tops? else some ownTops
        let s2 := match tops with
          | some t => if g.groupSent.contains (k, 1) then s1 else (s1.groupSend g.tag k gr.me (.sums (parts t)) root).groupMark rid i k 1
          | none => s1
        match s2.groupGot g.tag k root.1 GroupMsg.results? with
        | some l => s2.groupResult rid i g.tag k l
        | none => s2

/-- A group reduction of a stage breaks; the module that combines tells every member (R415). -/
def State.groupBreak (s : State) (rid i : Nat) (g : Stage) : State :=
  let s1 := ({ s with groupIn := s.groupIn.filter (fun x => x.tag != g.tag) } : State).modStage rid i (fun g => { g with groupBrk := true })
  match s.groupNow with
  | some gr => if gr.combines then gr.others.foldl (State.groupSend · g.tag (g.red.findIdx (·.xg)) gr.me .broken) s1 else s1
  | none => s1

/-- A stage's group reductions go on as far as what has come lets them, once its own root has its message; a failed link that they cross
breaks them (R414). -/
def State.groupStep (s : State) (rid i : Nat) (g : Stage) : State :=
  match s.groupNow with
  | none => s
  | some gr =>
      if !g.xg || g.complete || g.groupBrk then s
      else if s.groupIn.any (fun x => x.tag == g.tag && x.msg == .broken) || gr.ports.any s.linkDown.contains then s.groupBreak rid i g
      else if g.rootSent then g.red.zipIdx.foldl (fun s x => s.groupChan gr rid i g x.2 x.1) s
      else s

/-- Whether the results of every group reduction of a stage have come, or the group is broken. -/
def State.groupReady (s : State) (g : Stage) : Bool :=
  !g.xg || g.groupBrk || s.groupNow.isNone || g.red.zipIdx.all (fun x => !x.1.xg || g.groupRes.any (·.1 == x.2))

/-- A node's message goes to its parent, the root's to the front end (R289); the root's begins the group reductions (R415). -/
def State.nodeSends (s : State) (r : Region) (i : Nat) (g : Stage) (n : Node) : State :=
  let w := g.nodeWord n
  let g1 := g.modNode n.cluster (fun n => { n with sent := some w })
  let g2 := if n.up.isNone then { g1 with fsum := g.fsum ||| wordFsum w, fpf := g.fpf ||| wordFpf w, doneN := wordDone w } else g1
  (s.modStage r.rid i (fun _ => g2)).groupStep r.rid i g2

/-- The root's results written to memory (R359). -/
def writeResults (ag : Agent) (raddr : Nat) : List (Nat × Nat × RedRes) → FeM Unit
  | [] => pure ()
  | (k, e, x) :: r => do
      feTry (feWrite ag (raddr + 64 * k + 8 * e) (bytesOf 8 x.bits) .page)
      writeResults ag raddr r

/-- The root marks a stage complete (R290). -/
def completeStage (r : Region) (i : Nat) (g : Stage) : FeM Unit := do
  let l := g.reduceAll
  if g.raddr = 0 then pure () else writeResults (feAgent r.tenant r.top) g.raddr.toNat l
  let fl := l.foldl (fun a x => a ||| x.2.2.fl) 0
  let nan : BitVec 16 := if l.any (fun x => x.2.2.nan) then fsRnan else 0
  let brk : BitVec 16 := if g.xg && g.groupBrk then fsBrk else 0
  let g1 := { g with fpf := g.fpf ||| fl, fsum := g.fsum ||| nan ||| brk }
  feMods (fun s => s.modStage r.rid i (fun _ =>
    { g1 with complete := true, word := g1.statusWord, results := l.map (fun x => (x.1, x.2.1, BitVec.ofNat 64 x.2.2.bits)) }))

/-! ## Unbinding (R142, R278, R381, R382) -/

/-- Full/empty requests that wait at a slice are refused as it is unbound: their instructions issue again (R382). -/
def State.refuseFe (s : State) (core : Nat) : State :=
  let lo := sramKey core 0
  let s1 := (s.core core).feWait.foldl (fun (s : State) q =>
    let t := s.thAt q.core q.slot
    match t.wait with
    | .fe _ _ => if lo ≤ q.key ∧ q.key < lo + Config.sliceBytes then s.setThAt q.core q.slot { t with wait := .reissue } else s
    | _ => s) s
  s1.threads.foldl (fun (s : State) (x : Nat × Fin 8 × Thread) =>
    match x.2.2.wait with
    | .feRef owner _ _ _ => if owner = core then s.setThAt x.1 x.2.1 { s.thAt x.1 x.2.1 with wait := .reissue } else s
    | _ => s) s1

/-- A core is unbound; what firmware knows of it stays. -/
def Core.unbound (c : Core) : Core :=
  { Core.fresh with rsec := c.rsec, rbank := c.rbank, rtimes := c.rtimes, marked := c.marked, retired := c.retired }

/-- The barrier unit and the dispenser of a cluster after cores of a region have been unbound (R139, R142, R381). stages are
those of the region that keep a core in the cluster; held: the region keeps one; bound: any core does. -/
def Cluster.release (c : Cluster) (rid : Nat) (stages : List Nat) (held bound : Bool) : Cluster :=
  let bar := fun b : Bar =>
    if !bound then Bar.fresh
    else
      match b.owner with
      | some (r, st) => if r = rid ∧ !stages.contains st then Bar.fresh else b
      | none => if held then b else { b with users := setDel b.users rid, armed := setDel b.armed rid }
  { c with
    bars := Vector.ofFn (fun i : Fin 32 => bar (c.bars.get i))
    disp := if held then c.disp else c.disp.filter (fun e => e.rid != rid)
    kept := if held then c.kept else c.kept.filter (fun e => e.2.rid != rid) }

/-- Accesses of a core's engines and streams that a stage-2 fault holds are not made again. -/
def State.unholdCore (s : State) (n : Nat) : State :=
  { s with xfaults := s.xfaults.filter (fun f => match f.who with | .engine m _ | .stream m _ => m != n | _ => true) }

/-- A region's Spool frames are FREE, and a fault that pinned one is dropped (R381). -/
def State.freeFrames (s : State) (rid : Nat) : State :=
  { s with
    xfaults := s.xfaults.filter (fun f => match f.who with
      | .frame cl k => (match (s.cluster cl).frames.get k with | some x => x.rid != rid | none => true)
      | _ => true)
    clusters := s.clusters.map (fun (cl, c) => (cl, { c with
      frames := Vector.ofFn (fun i : Fin 64 => match c.frames.get i with
        | some f => if f.rid = rid then none else some f
        | none => none)
      evicted := c.evicted.filter (fun e => e.rid != rid) })) }

/-- Every core of a region is unbound. -/
def State.unbindRegion (s : State) (rid : Nat) : State :=
  let mine := (s.cores.filter (fun (_, c) => c.bound && c.rid == rid)).map Prod.fst
  let s1 := mine.foldl (fun (s : State) n =>
    let s1 := (List.finRange 8).foldl (fun (s : State) k => s.dropWaits n k) (s.refuseFe n)
    { ((s1.setCore n (s1.core n).unbound).unholdCore n) with net := s1.net.filter (fun m => match m with
        | .slot a b _ _ | .close a b _ | .announce a b _ _ | .tile a b _ _ _ _ => a != n && b != n) }) s
  (clustersOf mine).foldl (fun (s : State) cl =>
    s.setCluster cl ((s.cluster cl).release rid [] false (s.cores.any (fun (n, c) => c.bound && clusterOf n == cl)))) s1

/-- A region leaves the machine. -/
def State.removeRegion (s : State) (rid : Nat) : State :=
  let s1 := ((s.freeFrames rid).unbindRegion rid).unhold (.region rid)
  { s1 with regions := s1.regions.filter (fun r => r.rid != rid) }

/-! ## The end of a region (R290, R366) -/

/-- SUMMARY (R366). -/
def Region.summary (r : Region) : Word := (r.stages.foldl (fun a g => a ||| g.word) 0) &&& 0xFFFFFFF000000000

/-- FINFO (R366). -/
def FInfo.word (f : FInfo) : Word :=
  BitVec.ofNat 64 (f.tcause.toNat + f.code.toNat * 2 ^ 8 + f.lcore % 2 ^ 20 * 2 ^ 16 + f.tslot.val * 2 ^ 36)

def finfoOf (f : Option FInfo) : Word := match f with | some f => f.word | none => 0

/-- The result of a stage's channel, element 0. -/
def Stage.norm (g : Stage) (ch : Nat) : Option Word := (g.results.find? (fun x => x.1 == ch && x.2.1 == 0)).map (fun x => x.2.2)

/-- What a sub-launch leaves for its loop (R342, R347): the norms of its stage 0, or its first fault. -/
def State.tellLoop (s : State) (r : Region) (faulted : Bool) : State :=
  match r.parent with
  | none => s
  | some p => s.modRegion p (fun x => { x with loop := x.loop.map (fun l =>
      match r.stages with
      | g :: _ => { l with sub := none, norm0 := (g.norm 0).getD 0, norm1 := g.norm 1, fault := if faulted then r.fault else none }
      | [] => { l with sub := none, fault := if faulted then r.fault else none }) })

/-- The block that launched a region. -/
def State.blockFor (s : State) (rid : Nat) : Option Block := s.blocks.find? (fun b => b.rid == some rid)

/-- A region ends with a status: its record, and its cores are given back. -/
def endRegion (r : Region) (status exit : Nat) (finfo : Word) : FeM Unit := do
  let s ← feGets id
  match s.blockFor r.rid with
  | some b => feComplete b status 0 exit r.summary finfo (some r.rid)
  | none => feMods (fun s => s.dropAnchor r.rid)
  feMods (fun s => (s.tellLoop r (status == stFault)).removeRegion r.rid)

/-- Launches of a region's threads that have not become regions yet. -/
def State.launchesOf (s : State) (rid : Nat) : List Block :=
  s.blocks.filter (fun b => b.rid.isNone && (match b.src with | .device _ r _ _ => r == rid | _ => false))

/-- Whether a region is complete (R290). -/
def State.regionOver (s : State) (r : Region) : Bool :=
  r.phase == .running && r.loop.isNone && !r.faulted && r.stages.all (·.complete)
  && !(s.regions.any (fun c => c.parent == some r.rid)) && (s.launchesOf r.rid).isEmpty

/-- Whether the root may complete a stage. -/
def State.stageOver (s : State) (g : Stage) : Bool :=
  g.released && !g.complete && g.rootSent && decide (g.doneN = g.cores) && s.groupReady g

/-- What a stop of the front end does where no block is rejected: a held access is made again. -/
def feHold (s : State) (who : Holder) (m : FeM Unit) : State :=
  match m s with
  | .ok (_, t) => t
  | .error (.held t ipa k) => s.logFault t ipa k (some who)
  | .error _ => s

/-- NODE_DONE_MESSAGE (R289, R290): for stage cur.sub of region cur.idx, the node of cluster cur.core sends its message, or, where the root
has sent its own, the stage is marked complete; with cur.sub past the last stage the region completes. -/
def execNodeDoneMessage (s : State) : Res :=
  match s.region? s.cur.idx with
  | none => .next s
  | some r =>
      match r.stages[s.cur.sub]? with
      | none => .next (if s.regionOver r then feHold s (.region r.rid) (endRegion r stOkC 0 0) else s)
      | some g =>
          match g.nodes.find? (fun n => n.cluster == s.cur.core && g.nodeReady n) with
          | some n => .next (s.nodeSends r s.cur.sub g n)
          | none => .next (if s.stageOver g then feHold s (.region r.rid) (completeStage r s.cur.sub g) else s)

/-- The stage that a group tag and a channel name, where it is bound here and not complete: its region and its index. -/
def State.groupStage (s : State) (tag : Word) (ch : Nat) : Option (Nat × Nat × Stage) :=
  (s.regions.flatMap (fun r => r.stages.zipIdx.map (fun (g, i) => (r.rid, i, g)))).find? (fun x =>
    !x.2.2.complete && x.2.2.tag == tag && (((x.2.2.red[ch]?).map (·.xg)).getD false))

/-- GROUP_PARTIAL (R415): a message of a group reduction from the member src. -/
def execGroupPartial (tag : Word) (ch src : Nat) (msg : GroupMsg) (s : State) : Res :=
  let s1 : State := { s with groupIn := s.groupIn ++ [{ tag := tag, ch := ch, src := src, msg := msg }] }
  .next (match s1.groupStage tag ch with
    | some (rid, i, g) => s1.groupStep rid i g
    | none => s1)

def State.dueComplete (s : State) : List Move :=
  s.regions.flatMap (fun r =>
    let ev := fun (core i : Nat) => Move.event { core := core, slot := 0, idx := r.rid, sub := i, val := 0 } .nodeDoneMessage
    let free := !s.holds (.region r.rid)
    r.stages.zipIdx.flatMap (fun (g, i) =>
      (g.nodes.filter g.nodeReady).map (fun n => ev n.cluster i)
      ++ (if free && s.stageOver g then [ev Config.clusters i] else []))
    ++ (if free && s.regionOver r then [ev Config.clusters r.stages.length] else []))

end Sys2Proof.Machine
end

