-- ==== Sys2Proof/Machine/Teardown.lean ====
section
/-! DEFINITION. Unhandled faults, teardown, retirement and queue destruction (R291, R307, R310, R338, R364, R365, R380-R382). -/

namespace Sys2Proof.Machine

/-! ## What teardown breaks (R381, R382) -/

/-- The cores of a region. -/
def State.coresOf (s : State) (rid : Nat) : List Nat := (s.cores.filter (fun (_, c) => c.bound && c.rid == rid)).map Prod.fst

/-- Every thread of a core goes to EMPTY and its engines drop what they hold (R212, R381). DESIGN CHOICE (entry 106): a cscata that is cut
off has applied none of the elements behind its cursor, of which R230 allows any of the next 15. -/
def State.stopCore (s : State) (n : Nat) : State :=
  let s1 := (List.finRange 8).foldl (fun (s : State) k => s.dropWaits n k) ((s.settleDrogue (clusterOf n)).unholdCore n)
  let c := s1.core n
  s1.setCore n { c with th := mapTh c.th (fun t => { t.emptied with pre := none, cmds := [] }), mq := [], cq := [], vq := [], vrun := []
                        strms := [], deque := [] }

/-- A core that no flit's result reaches: what torn-down threads sent finishes its path (R307). -/
def nowhere : Nat := Config.cores

/-- The cluster barrier slots a region's cores used with bini, barv or bexp, and its SYS slots (R382). -/
def State.barsOf (s : State) (rid : Nat) : List (Nat × Fin 32) :=
  s.clusters.flatMap (fun (cl, c) => (List.finRange 32).filterMap (fun i =>
    let b := c.bars.get i
    if b.armed.contains rid || (match b.owner with | some (r, _) => r == rid | none => false) then some (cl, i) else none))

/-- The counters a region owns (R307). -/
def State.countersOf (s : State) (rid : Nat) : List Nat := (s.counters.filter (fun (_, c) => c.owner == some rid)).map Prod.fst

/-- A region's threads stop and its objects break; its cores stay bound until its record is written. -/
def State.breakRegion (s : State) (rid : Nat) : State :=
  let mine := s.coresOf rid
  let s1 := mine.foldl State.stopCore s
  let s2 : State := { s1 with flits := s1.flits.map (fun (f : Flit) => if mine.contains f.core then { f with core := nowhere } else f) }
  let s3 := mine.foldl (fun (s : State) n => s.breakCore n false) ((s2.freeFrames rid).unhold (.region rid))
  let s4 := (s.barsOf rid).foldl (fun (s : State) x => s.barBreak x.1 x.2) s3
  let s5 := (s.countersOf rid).foldl State.breakCtr s4
  s5.modRegion rid (fun r => { r with phase := .torn })

/-- A region and all its descendants, the descendants first; fuel is the depth a tree can have. -/
def State.treeOf (s : State) : Nat → Nat → List Nat
  | 0, rid => [rid]
  | n + 1, rid => ((s.regions.filter (fun r => r.parent == some rid)).flatMap (fun r => s.treeOf n r.rid)) ++ [rid]

/-- Blocks whose region-to-be has lost its parent end with CANCELLED; sub-launches of a Ballast region are dropped (R348). -/
def State.doomLaunches (s : State) (gone : List Nat) : State :=
  { s with blocks := (s.blocks.filter (fun b => match b.src with | .ballast r => !gone.contains r || b.rid.isSome | _ => true)).map (fun b =>
      match b.src with
      | .device _ r _ _ => if gone.contains r && b.rid.isNone then { b with doomed := true, waiting := false } else b
      | _ => b) }

/-- Teardown of a region with its descendants (R381). -/
def State.tear (s : State) (rid : Nat) : State :=
  let l := s.treeOf 8 rid
  let s1 := l.foldl State.breakRegion s
  let s2 := s1.doomLaunches l
  let seqs := (s.regions.filter (fun r => l.contains r.rid && r.loop.isSome)).map (fun r => r.seq.toNat)
  { s2 with clusters := s2.clusters.map (fun (cl, c) => (cl, { c with upcalls := c.upcalls.filter (fun u => !seqs.contains u.1) })) }

/-! ## Queue destruction (R365) -/

/-- Whether a stage of a region has been released. -/
def Region.begun (r : Region) : Bool := r.stages.any (·.released)

/-- Whether the release of a queue's region has begun: for a Ballast region, that of a sub-launch. -/
def State.begun (s : State) (r : Region) : Bool :=
  match r.loop with
  | none => r.begun
  | some l => l.n.isSome || l.fault.isSome || (match l.pos with
      | .runFact => match s.blocks.find? (fun b => b.src == .ballast r.rid) with
          | some b => ((b.rid.bind s.region?).map Region.begun).getD false
          | none => true
      | _ => false)

/-- What destruction does to a block of the queue that has been dispatched; begun: the release of its region has begun. -/
def Block.destroyed (b : Block) (begun : Bool) : Block :=
  if begun || (b.typ = 8 && b.parsed) then b
  else { b with doomed := true, waiting := false, rid := none, spec := none }

/-- A region none of whose threads has run is unbound, with its sub-launch (R365). -/
def State.unlaunch (s : State) (rid : Nat) : State :=
  let l := s.treeOf 8 rid
  let s1 := l.foldl State.removeRegion s
  { s1 with blocks := s1.blocks.filter (fun b => match b.src with | .ballast r => !l.contains r | _ => true) }

/-- A queue is destroyed: blocks not dispatched are dropped, blocks that wait or of whose region nothing has been released are cancelled,
and the other regions are torn down. -/
def State.destroyQueue (s : State) (n : Nat) : State :=
  let s1 := s.setQueue n { s.queue n with destroying := true }
  let mine := s1.blocks.filter (fun b => b.src == .queue n)
  let begun := fun b : Block => ((b.rid.bind s1.region?).map s1.begun).getD false
  let s2 := (mine.filter (fun b => !begun b)).foldl (fun (s : State) b =>
    let s1 := match b.rid with | some r => s.unlaunch r | none => s
    (s1.unhold (.block b.seq)).setBlock (b.destroyed false)) s1
  let rids := (mine.filter begun).filterMap (·.rid)
  let s3 := rids.foldl (fun (s : State) r =>
    match s.region? r with
    | some x => if x.phase = .torn then s else s.tear r
    | none => s) s2
  s3.settleQueue n

/-- QCTL_DESTROY (R365): function cur.sub writes cur.val to QCTL of its local queue cur.idx. -/
def State.writeQctl (s : State) (fn lidx : Nat) (v : Word) : State :=
  match s.queueAt fn lidx with
  | some n => if v.getLsbD 0 && !(s.queue n).destroying then s.destroyQueue n else s
  | none => s

def execQctlDestroy (s : State) : Res := .next (s.writeQctl s.cur.sub s.cur.idx s.cur.val)

/-! ## The tenant's teardown (R381) -/

/-- Queues of a tenant: those of its function, and PF queues that serve it. -/
def State.queuesOf (s : State) (t : Nat) : List Nat :=
  let fn := match s.part? t with | some p => p.func | none => 0
  (s.queues.filter (fun (_, q) => (fn != 0 && q.fn == fn) || q.tenant == some (BitVec.ofNat 6 t))).map Prod.fst

/-- Queues are destroyed, every region of a tenant is torn down, and no flit of it is admitted from then on (R310). -/
def State.tearQueues (s : State) (t : Nat) (qs : List Nat) : State :=
  let s1 := qs.foldl State.destroyQueue s
  let s2 := (s1.regions.filter (fun r => r.tenant.toNat == t && r.parent.isNone && r.phase != .torn)).foldl
    (fun (s : State) r => if s.begun r then s.tear r.rid else
      match s.blocks.find? (fun b => b.rid == some r.rid) with
      | some b => (s.unlaunch r.rid).setBlock (b.destroyed false)
      | none => s.tear r.rid) s1
  ({ s2 with mtu := s2.mtu.filter (fun e => e.tenant.toNat != t)
             flits := s2.flits.filter (fun f => !(f.tenant.toNat == t && f.at_ == .injection)) } : State).modPart t
    (fun p => { p with draining := true })

/-- The whole context of a tenant is torn down. -/
def State.tearTenant (s : State) (t : Nat) : State := s.tearQueues t (s.queuesOf t)

/-- A fault that reaches the tenant: FAULTED is set and the first vector of the range is raised (R390). -/
def State.faultTenant (s : State) (t : Nat) : State :=
  let s1 := (s.tearTenant t).modPart t (fun p => { p with faulted := true })
  match s1.part? t with
  | some p => if p.vecN = 0 then s1 else s1.raise p.func p.vec0
  | none => s1

/-- The counters of a torn-down tenant return to R144 once INJ = EXT (R310); flits that carry no token go with them. -/
def State.drained (p : Part) : Bool := p.draining && p.inj == p.ext

def State.resetCounters (s : State) (p : Part) : State :=
  ({ s with counters := s.counters.filter (fun (id, _) => !(decide (p.bbase ≤ id ∧ id < p.blimit)))
            flits := s.flits.filter (fun f => f.tenant.toNat != p.id) } : State).modPart p.id
    (fun q => { q with draining := false })

/-! ## Fault domains (R380, R381) -/

/-- The parent takes a fault as its own: region-fault code 2. -/
def State.passUp (s : State) (p : Nat) (f : FInfo) : State :=
  s.modRegion p (fun r => if r.phase = .torn then r
    else { r with fault := r.fault.orElse (fun _ => some { f with code := 2 }), faulted := true })

/-- CHILD in the status word of the stage that launched a region (R289). -/
def State.noteChild (s : State) (r : Region) : State :=
  match r.parent with
  | some p => s.modRegion p (fun x => { x with stages := listSet x.stages r.pstage (fun g =>
      { g with fsum := g.fsum ||| fsChild, word := if g.complete then g.word ||| statusWordOf fsChild 0 0 0 else g.word }) })
  | none => s

/-- What a region's unhandled fault does beyond the region (R381). -/
def State.afterFault (s : State) (r : Region) (f : FInfo) : State :=
  match r.parent, r.fdom with
  | _, false => s.noteChild r
  | some p, true => s.passUp p f
  | none, true => s.faultTenant r.tenant.toNat

/-- The fault is acted on: the region is torn down and its domain decides what follows. -/
def State.takeFault (s : State) (r : Region) : State :=
  match r.fault with
  | some f => ((s.tear r.rid).modRegion r.rid (fun r => { r with byFault := true })).afterFault r f
  | none => s.tear r.rid

/-- Whether the last of a torn region may go: its descendants have gone. -/
def State.tornOver (s : State) (r : Region) : Bool :=
  r.phase == .torn && !(s.regions.any (fun c => c.parent == some r.rid)) && (s.launchesOf r.rid).isEmpty

/-- The status of a torn region's record (R366). -/
def Region.tornStatus (r : Region) : Nat := if r.byFault then stFault else stTorndown

/-- A fault of a region without a loop has yet to be acted on; that of a Ballast region is acted on when its loop has ended (R347). -/
def Region.faultDue (r : Region) : Bool := r.faulted && r.phase != .torn && r.loop.isNone

/-- REGION_TEARDOWN (R381): region cur.idx is torn down under its fault domain, or its record is written and it goes. With cur.sub 1,
the cancelled block cur.idx is reported; with cur.sub 2, the counters of tenant cur.idx are reset. -/
def execRegionTeardown (s : State) : Res :=
  if s.cur.sub = 1 then
    match s.block? s.cur.idx false with
    | some b => .next (if b.doomed then feHold s (.block b.seq) (feEnd b stCancelC 0) else s)
    | none => .next s
  else if s.cur.sub = 2 then
    match s.part? s.cur.idx with
    | some p => .next (if State.drained p then s.resetCounters p else s)
    | none => .next s
  else
    match s.region? s.cur.idx with
    | some r =>
        if r.faultDue then .next (s.takeFault r)
        else if s.tornOver r then
          .next (feHold s (.region r.rid) (endRegion r r.tornStatus 0 (if r.byFault then finfoOf r.fault else 0)))
        else .next s
    | none => .next s

/-! ## MSG_TO_DONE and retirement (R291, R364, R421) -/

/-- A fault of a region that no thread's trap raised; a region that has been torn down takes none. -/
def State.raiseFault (s : State) (core : Nat) (code : BitVec 8) : State :=
  let c := s.core core
  let f : FInfo := { tcause := 0, code := code, lcore := c.lcore, tslot := 0, tval := 0, tepc := 0, tfpc := 0, soft := 0 }
  s.modRegion c.rid (fun r => if r.phase = .torn then r else { r with fault := r.fault.orElse (fun _ => some f), faulted := true })

/-- MSG_TO_DONE: message cur.idx reaches a core that has executed done. -/
def execMsgToDone (s : State) : Res :=
  match s.toDone s.cur.idx with
  | some m => .next (({ s with net := s.net.eraseIdx s.cur.idx } : State).raiseFault m.dst 1)
  | none => .next s

/-- A core is retired: a bound one's region faults with TCAUSE 0. -/
def State.retireCore (s : State) (n : Nat) : State :=
  let c := s.core n
  let s1 := s.setCore n { c with retired := true }
  if c.bound && !c.retired then s1.raiseFault n 0 else s1

/-- CORE_RETIRE (R364): core cur.core. -/
def execCoreRetire (s : State) : Res := .next (s.retireCore s.cur.core)

def State.dueTeardown (s : State) : List Move :=
  let ev := fun (idx sub : Nat) => Move.event { core := 0, slot := 0, idx := idx, sub := sub, val := 0 } .regionTeardown
  s.regions.flatMap (fun r => if !s.holds (.region r.rid) && (r.faultDue || s.tornOver r) then [ev r.rid 0] else [])
  ++ s.blocks.flatMap (fun b => if b.doomed && !s.holds (.block b.seq) then [ev b.seq.toNat 1] else [])
  ++ s.parts.flatMap (fun p => if State.drained p then [ev p.id 2] else [])
  ++ (List.range s.net.length).flatMap (fun i => match s.toDone i with
      | some m => [Move.event (curOf m.dst 0 i) .msgToDone]
      | none => [])
  ++ s.cores.flatMap (fun (n, c) => if c.marked && !c.bound && !c.retired then [Move.event (curOf n 0 0) .coreRetire] else [])

end Sys2Proof.Machine
end

