-- ==== Sys2Proof/Machine/Ballast.lean ====
section
/-! DEFINITION. Ballast, the refinement loop controller: the loop, its records and its upcall (R341-R348). -/

namespace Sys2Proof.Machine

/-! ## Exact comparisons (R342) -/

/-- A value that is not negative: finite, infinite, or a NaN. -/
def leFv (a b : Fv) : Bool :=
  match a, b with
  | .fin _ m e, .fin _ n f => let base := min e f; decide (m * 2 ^ (e - base).toNat ≤ n * 2 ^ (f - base).toNat)
  | .fin _ _ _, .inf _ | .inf _, .inf _ => true
  | _, _ => false

def gtFv (a b : Fv) : Bool := leFv b a && !leFv a b

/-- The exact product; none where it has no value. -/
def mulFv (a b : Fv) : Fv := (a.mul b).getD (.nan false)

def valOf (w : Word) : Fv := fp64.decode w.toNat

def isFin : Fv → Bool
  | .fin _ _ _ => true
  | _ => false

/-! ## The test (R342) -/

inductive Decision where
  | cont | converged | stagnated | diverged | maxiter
  deriving DecidableEq, Repr

/-- What a test finds: c after it, the ratio, the decision, and whether the loop climbs. -/
structure TestRes where
  c     : Nat
  ratio : Word
  dec   : Decision
  climb : Bool
  deriving DecidableEq, Repr

def ballastTest (raw : BitVec 1024) (l : Loop) : TestRes :=
  let n := l.n.getD 0
  let v := valOf n
  let ratio := match l.rprev with
    | none => 0
    | some p => BitVec.ofNat 64 (fp64.div 0 n.toNat p.toNat).bits
  let c := match l.rprev with
    | none => 0
    | some p => if gtFv v (mulFv (valOf (fld raw 0x60)) (valOf p)) then l.c + 1 else 0
  let dec :=
    if !isFin v then .diverged
    else if leFv v (valOf (fld raw 0x50)) || leFv v (mulFv (valOf (fld raw 0x58)) (valOf (l.bn.getD 0))) then .converged
    else if (valOf (fld raw 0x68)) != valOf 0 && fld raw 0x68 != 0x8000000000000000
        && gtFv v (mulFv (valOf (fld raw 0x68)) (valOf (l.n0.getD 0))) then .diverged
    else if ballastSwin raw ≤ c then .stagnated
    else if l.k = ballastMaxit raw then .maxiter
    else .cont
  let may := match dec with
    | .stagnated => true
    | .diverged => ballastClimbs raw && isFin v
    | _ => false
  { c := c, ratio := ratio, dec := dec, climb := may && decide (l.r + 1 < ballastRungs raw) }

/-- DEC of a history record (R344). -/
def TestRes.code (t : TestRes) : Nat :=
  match t.dec, t.climb with
  | .cont, _ => 0 | .converged, _ => 1 | .stagnated, true => 2 | .stagnated, false => 3 | .diverged, true => 4 | .diverged, false => 5
  | .maxiter, _ => 6

/-- The exit code of a decision (R345). -/
def Decision.exit : Decision → Nat
  | .cont => 0 | .converged => 1 | .stagnated => 2 | .diverged => 3 | .maxiter => 4

/-- The Ballast word (R341): KIND 1 FACTOR, 2 SOLVE, 3 RESIDUAL. -/
def ballastWord (kind : Nat) (l : Loop) : Word := BitVec.ofNat 64 (kind * 2 ^ 56 + l.r * 2 ^ 48 + l.k % 2 ^ 32)

/-! ## Records (R344, R345) -/

/-- The history record of a test. -/
def historyRecord (l : Loop) (t : TestRes) (cycle : Nat) : List Byte :=
  bytesOf 8 (l.k % 2 ^ 32 + l.r * 2 ^ 32 + t.c % 2 ^ 16 * 2 ^ 40 + t.code * 2 ^ 56) ++ w8 (l.n.getD 0) ++ w8 t.ratio ++ bytesOf 8 cycle

/-- The exit record. -/
def exitRecord (l : Loop) : List Byte :=
  bytesOf 8 (l.code + l.r * 2 ^ 8 + (if l.upd then 2 ^ 16 else 0) + l.k % 2 ^ 32 * 2 ^ 32) ++ w8 (l.n.getD 0) ++ w8 l.finfo
    ++ w8 (l.bn.getD 0)

/-! ## The steps of the loop -/

/-- A loop at its start. -/
def Loop.fresh : Loop :=
  { pos := .start, r := 0, k := 0, c := 0, rprev := none, n := none, n0 := none, bn := none, norm0 := 0, norm1 := none, climbed := false
    lastW := 0, sub := none, code := 0, finfo := 0, fault := none, upd := false, saved := false }

def State.setLoop (s : State) (rid : Nat) (l : Loop) : State := s.modRegion rid (fun r => { r with loop := some l })

/-- The loop ends on a front-end access (R347). -/
def Loop.pageFault (l : Loop) : Loop := { l with pos := .exit, code := 5, finfo := BitVec.ofNat 64 (l.r * 2 ^ 8 + 0x08 * 2 ^ 16), fault := none }

/-- A step of the loop that writes a record: on a stage-1 fault the loop ends with FAULT. -/
def orFault (m : FeM Unit) (fault : State → State) : FeM Unit := fun s =>
  match m s with
  | .ok x => .ok x
  | .error (.held t i k) => .error (.held t i k)
  | .error _ => .ok ((), fault s)

/-- The norm a sub-launch left, as the loop reads it (R342). -/
def normOf (raw : BitVec 1024) (w : Word) : Word := if ballastTwoNorm raw then BitVec.ofNat 64 (fp64.sqrt 0 w.toNat).bits else w

/-- The sub-launch of a kind: a launch of the partition at the Ballast region's priority, with ARG8 replaced (R341, R362). -/
def State.subLaunch (s : State) (b : Block) (r : Region) (l : Loop) (kind : Nat) (next : LPos) : State :=
  let key := if kind = 1 then 1 + l.r else if kind = 2 then 5 + l.r else 0
  match b.subs.find? (·.1 == key) with
  | none => s
  | some (_, spec) =>
      let word := ballastWord kind l
      let spec := { spec with parent := some r.rid, pstage := 0, stages := spec.stages.map (fun st => { st with args := st.args.set 7 word }) }
      let sub : Block :=
        { seq := b.seq, src := .ballast r.rid, fn := b.fn, tenant := b.tenant, typ := 1, raw := 0, comp := CompF.none, active := true
          parsed := true, waiting := false, prio := r.prio, rid := none, spec := some spec, subs := [], deadline := none, silent := true
          doomed := false, at_ := s.cycle, since := s.tick }
      ({ s with blocks := s.blocks ++ [sub] } : State).setLoop r.rid { l with pos := next }

/-- A sub-launch has ended: with a fault the loop ends (R347), else it goes on. -/
def Loop.ended (raw : BitVec 1024) (l : Loop) : Loop :=
  match l.fault with
  | some f => { l with pos := .exit, code := 5, finfo := BitVec.ofNat 64 (l.pos.kind + l.r * 2 ^ 8 + f.tcause.toNat * 2 ^ 16) }
  | none =>
      match l.pos with
      | .runFact =>
          if l.climbed then
            if l.k = ballastMaxit raw then { l with pos := .exit, code := 4 } else { l with pos := .launchSolv }
          else { l with pos := .launchResid }
      | .runSolv => { l with pos := .launchResid, k := l.k + 1 }
      | .runResid =>
          let n := normOf raw l.norm0
          match l.n with
          | none => { l with pos := .test, n := some n, n0 := some n, bn := some (match l.norm1 with | some x => normOf raw x | none => n) }
          | some p => { l with pos := .test, rprev := some p, n := some n }
      | _ => l

/-- The loop after a test. -/
def Loop.tested (l : Loop) (t : TestRes) : Loop :=
  let l1 := { l with c := t.c, lastW := ballastWord 3 l }
  if t.climb then { l1 with r := l.r + 1, c := 0, climbed := true, pos := .launchFact }
  else if t.dec = .cont then { l1 with pos := .launchSolv }
  else { l1 with pos := .exit, code := t.dec.exit }

/-- Whether the current sub-launch is over. -/
def State.subOver (s : State) (r : Region) (l : Loop) : Bool :=
  l.sub.isNone && !(s.blocks.any (fun b => b.src == .ballast r.rid)) && !(s.regions.any (fun x => x.parent == some r.rid))

/-- The agent of a Ballast region's records. -/
def ballastAgent (r : Region) : Agent := feAgent r.tenant r.top

/-- Whether a DIVERGED exit makes an upcall (R346). -/
def wantsUpcall (raw : BitVec 1024) (l : Loop) : Bool := l.code == 3 && !ballastClimbs raw

/-- The Ballast block completes (R345, R347): its fault goes on as the domains say. -/
def finishLoop (r : Region) (l : Loop) : FeM Unit := do
  endRegion r (if l.code = 5 then stFault else stOkC) l.code (finfoOf l.fault)
  if l.code = 5 then
    feMods (fun s => match r.fault with
      | some f => if r.faulted then s.afterFault r f else s.noteChild r
      | none => s.noteChild r)
  else pure ()

/-- One step of the loop of R342. -/
def loopStep (b : Block) (r : Region) (l : Loop) : FeM Unit := do
  let ag := ballastAgent r
  let hist := ballastHist b.raw
  match l.pos with
  | .start => orFault (do
      feWrite ag hist (exitRecord l) .page
      feMods (fun s => s.setLoop r.rid { l with pos := .launchFact })) (fun s => s.setLoop r.rid l.pageFault)
  | .launchFact => feMods (fun s => s.subLaunch b r l 1 .runFact)
  | .launchResid => feMods (fun s => s.subLaunch b r l 3 .runResid)
  | .launchSolv => feMods (fun s => s.subLaunch b r l 2 .runSolv)
  | .runFact | .runResid | .runSolv => do
      let s ← feGets id
      if s.subOver r l then feMods (fun s => s.setLoop r.rid (l.ended b.raw)) else pure ()
  | .test => do
      let s ← feGets id
      let t := ballastTest b.raw l
      orFault (do
        if ballastHlen b.raw = 0 then pure ()
        else feWrite ag (hist + 32 + 32 * (l.k % ballastHlen b.raw)) (historyRecord l t s.cycle) .page
        feMods (fun s => s.setLoop r.rid (l.tested t))) (fun s => s.setLoop r.rid l.pageFault)
  | .exit =>
      let up := wantsUpcall b.raw l
      let l1 := { l with upd := up }
      orFault (do
        feWrite ag hist (exitRecord l1) .page
        feMods (fun s => s.setLoop r.rid { l1 with pos := if up then .upcall else .finish }))
        (fun s => s.setLoop r.rid { l.pageFault with pos := .finish })
  | .upcall => pure ()
  | .finish => finishLoop r l

/-- Whether a step of the loop is due. A pre-empted loop is saved; a saved one needs a free context to go on (R348). -/
def State.loopDue (s : State) (r : Region) : Bool :=
  match r.loop with
  | none => false
  | some l =>
      r.phase == .running && !s.holds (.region r.rid) &&
      (if r.paused then !l.saved
       else if l.saved then decide (s.loopsUsed < 32)
       else match l.pos with
         | .runFact | .runResid | .runSolv => s.subOver r l
         | .upcall => false
         | _ => true)

/-- The loop context saved into the RCB: its bytes are not architectural (R348). -/
def saveLoop (r : Region) (l : Loop) : FeM Unit := do
  feTry (feWrite (ballastAgent r) (r.rcb.toNat + 0xC0) ((List.range 64).map Config.savedLoopByte) .page)
  feMods (fun s => s.setLoop r.rid { l with saved := true })

/-- BALLAST_TEST (R342): region cur.idx takes one step of its loop. -/
def execBallastTest (s : State) : Res :=
  match s.region? s.cur.idx with
  | none => .next s
  | some r =>
      match r.loop, s.blockFor r.rid with
      | some l, some b =>
          if !s.loopDue r then .next s
          else if r.paused then .next (feHold s (.region r.rid) (saveLoop r l))
          else if l.saved then .next (s.setLoop r.rid { l with saved := false })
          else .next (feHold s (.region r.rid) (loopStep b r l))
      | _, _ => .next s

/-! ## BALLAST_BLOCK (R341) -/

/-- A block whose named blocks cannot be read: the loop has ended with FAULT before it began (R347). -/
def ballastUnread (b : Block) : FeM Unit := do
  let b ← withResid b
  let s ← feGets id
  let l := Loop.fresh.pageFault
  feTry (feWrite (feAgent b.tenant (s.anchorOf b.src)) (ballastHist b.raw) (exitRecord l) .page)
  feComplete b stFault 0 5 0 0 none
  match b.src with
  | .device _ rid stage _ => feMods (fun s => s.noteChild { Region.blank with parent := some rid, pstage := stage })
  | _ => pure ()

/-- The Ballast region is created. -/
def startBallast (b : Block) (spec : Region) : FeM Unit := do
  let s ← feGets id
  let parent := s.parentOf spec
  let rid := s.fresh
  let r : Region :=
    { spec with rid := rid, seq := b.seq, top := (match parent with | some p => p.top | none => rid)
                first := s.firstFor parent spec.span, phase := .running, sliceAt := s.cycle, loop := some Loop.fresh
                queue := (match b.src with | .queue n => some n | _ => none) }
  feMods (fun s => ({ s with fresh := s.fresh + 1, regions := s.regions ++ [r] } : State).setBlock
    { b with parsed := true, rid := some rid, spec := none })
  feMods (fun s => match b.src with
    | .queue n => if r.depth = 1 then let q := s.queue n; s.setQueue n { q with anchors := rid :: q.anchors } else s
    | _ => s)

/-- A host's BALLAST block parsed (R339, R340). -/
def hostBallast (b : Block) : FeM Unit := do
  let s ← feGets id
  match s.part? b.tenant.toNat with
  | none => feStop (.reject 6)
  | some p => do
      let (spec, subs, resid, bad) ← parseBallast (feAgent b.tenant (s.anchorOf b.src)) p true (s.partValues p) (s.usable p) none b.raw
      let b1 := { b with subs := subs, comp := (s.compOf b.tenant false resid).1 }
      match bad with
      | x :: _ => feStop (.reject x)
      | [] => startBallast b1 spec

/-- BALLAST_BLOCK. -/
def execBallastBlock (s : State) : Res :=
  onBlock s 2 (fun b =>
    if b.rid.isSome then pure ()
    else match b.spec, b.src with
      | some spec, _ => startBallast b spec
      | none, .device _ _ _ _ => ballastUnread b
      | none, _ => fun s => match hostBallast b s with
          | .error .page => ballastUnread b s
          | x => x)

/-! ## BALLAST_UPCALL (R346) -/

/-- The core that executed launch, and its stage. -/
def Block.launcher (b : Block) : Option (Nat × Nat × Nat) :=
  match b.src with
  | .device core rid stage _ => some (core, rid, stage)
  | _ => none

/-- Whether the launching stage has completed, or has gone. -/
def State.stageGone (s : State) (rid stage : Nat) : Bool :=
  match s.region? rid with
  | some r => match r.stages[stage]? with
      | some g => g.complete || r.phase != .running
      | none => true
  | none => true

/-- What an upcall can do now: be dropped, begin to wait for room, or be appended. -/
inductive UpStep where
  | drop | wait | append | none
  deriving DecidableEq, Repr

def State.upStep (s : State) (b : Block) : UpStep :=
  match b.launcher with
  | none => .drop
  | some (core, rid, stage) =>
      let c := s.cluster (clusterOf core)
      if s.stageGone rid stage then .drop
      else
        let first := match c.upcalls with | [] => true | u :: _ => u.1 == b.seq.toNat
        if c.disp.length < 256 && first then .append
        else if c.upcalls.any (fun u => u.1 == b.seq.toNat) then .none else .wait

def upcallEntry (b : Block) (l : Loop) (rid stage : Nat) : DispEntry :=
  { rid := rid, stage := stage
    words := entryOf false (BitVec.ofNat 48 (ballastUpc b.raw)) (BitVec.ofNat 64 (ballastHist b.raw)) l.lastW 0 }

/-- BALLAST_UPCALL: for region cur.idx. -/
def execBallastUpcall (s : State) : Res :=
  match s.region? s.cur.idx with
  | none => .next s
  | some r =>
      match r.loop, s.blockFor r.rid with
      | some l, some b =>
          if l.pos ≠ .upcall ∨ r.paused ∨ r.phase ≠ .running then .next s
          else
            let (core, rid, stage) := b.launcher.getD (0, 0, 0)
            let cl := clusterOf core
            let c := s.cluster cl
            let out := s.setCluster cl { c with upcalls := c.upcalls.filter (fun u => u.1 != b.seq.toNat) }
            match s.upStep b with
            | .none => .next s
            | .wait => .next (s.setCluster cl { c with upcalls := c.upcalls ++ [(b.seq.toNat, upcallEntry b l rid stage)] })
            | .append =>
                .next ((out.setCluster cl { out.cluster cl with disp := c.disp ++ [upcallEntry b l rid stage] }).setLoop r.rid
                  { l with pos := .finish })
            | .drop =>
                let l1 := { l with upd := false, pos := LPos.finish }
                .next (feHold s (.region r.rid) (do
                  orFault (do
                    feWrite (ballastAgent r) (ballastHist b.raw) (exitRecord l1) .page
                    feMods (fun s => s.setLoop r.rid l1)) (fun s => s.setLoop r.rid { l1.pageFault with pos := .finish })
                  feMods (fun s => s.setCluster cl { s.cluster cl with
                    upcalls := (s.cluster cl).upcalls.filter (fun u => u.1 != b.seq.toNat) })))
      | _, _ => .next s

def State.dueBallast (s : State) : List Move :=
  s.blocks.flatMap (fun b =>
    if s.canServe b && b.typ == 2 && b.rid.isNone && (b.parsed || s.firstUnparsed b) then
      [Move.event (curIdx b.seq.toNat) .ballastBlock]
    else [])
  ++ s.regions.flatMap (fun r =>
    (if s.loopDue r then [Move.event (curIdx r.rid) .ballastTest] else [])
    ++ (match r.loop, s.blockFor r.rid with
        | some l, some b =>
            if l.pos == .upcall && !r.paused && r.phase == .running && !s.holds (.region r.rid) && s.upStep b != .none then [Move.event (curIdx r.rid) .ballastUpcall]
            else []
        | _, _ => []))

end Sys2Proof.Machine
end

