-- ==== Sys2Proof/Machine/Control.lean ====
section
/-! DEFINITION. Control transfers, nop and the ORD prefix (R52, R66, R77, R113-R117, R133). -/

namespace Sys2Proof.Machine

/-- The target of a format C transfer (R61). -/
def Thread.target (t : Thread) (disp : BitVec 16) : Addr := t.wordAt + (disp.signExtend 48 <<< 2)

/-- A branch on a condition over Src(s) as a signed value (R114). -/
def branch (p : Src) (disp : BitVec 16) (cond : Word → Bool) : Eff Unit := do
  let v ← readSrc p
  let tgt ← gets (fun s => s.th.target disp)
  if cond v then retireTo tgt else retire 4

def execB (disp : BitVec 16) (s : State) : Res :=
  (do let tgt ← gets (fun s => s.th.target disp)
      retireTo tgt : Eff Unit).go s
def execBEq (p : Src) (disp : BitVec 16) (s : State) : Res := (branch p disp (fun v => v == 0)).go s
def execBNe (p : Src) (disp : BitVec 16) (s : State) : Res := (branch p disp (fun v => v != 0)).go s
def execBLt (p : Src) (disp : BitVec 16) (s : State) : Res := (branch p disp (fun v => v.slt 0)).go s
def execBGe (p : Src) (disp : BitVec 16) (s : State) : Res := (branch p disp (fun v => !v.slt 0)).go s
def execBLe (p : Src) (disp : BitVec 16) (s : State) : Res := (branch p disp (fun v => v.sle 0)).go s
def execBGt (p : Src) (disp : BitVec 16) (s : State) : Res := (branch p disp (fun v => !v.sle 0)).go s

/-- dbnz (R115). -/
def execDbnz (p : BitVec 5) (disp : BitVec 16) (s : State) : Res :=
  (do let v ← readG p
      let tgt ← gets (fun s => s.th.target disp)
      writeG p (v - 1)
      if v - 1 ≠ 0 then retireTo tgt else retire 4 : Eff Unit).go s

/-- jmp and call (R116). -/
def execJmp (disp : BitVec 16) (s : State) : Res :=
  (do let tgt ← gets (fun s => s.th.target disp)
      retireTo tgt : Eff Unit).go s
def execCall (disp : BitVec 16) (s : State) : Res :=
  (do let tgt ← gets (fun s => s.th.target disp)
      let link ← gets (fun s => s.th.wordAt + 4)
      writeG 31 (link.zeroExtend 64)
      retireTo tgt : Eff Unit).go s

/-- A transfer to the address in a register (R117). link is the length of callr, or none. -/
def jumpTo (tgt : Word) (link : Option Nat) : Eff Unit := do
  demand (tgt.extractLsb' 0 2 == 0) .align tgt
  match link with
  | some n => do
      let a ← gets (fun s => s.th.wordAt + BitVec.ofNat 48 n)
      writeG 31 (a.zeroExtend 64)
  | none => pure ()
  retireTo (tgt.extractLsb' 0 48)

def execJmpr (p : Src) (s : State) : Res :=
  (do let v ← readSrc p
      jumpTo v none : Eff Unit).go s
def execCallr (p : Src) (s : State) : Res :=
  (do let v ← readSrc p
      jumpTo v (some (len1 p)) : Eff Unit).go s
def execRet (s : State) : Res :=
  (do let v ← readG 31
      jumpTo v none : Eff Unit).go s

/-- nop (R77). -/
def execNop (s : State) : Res := (retire 4).go s

/-- The ORD prefix (R66, R133): it holds for the instruction word after it, and PC stays at the prefix until that has issued. -/
def execOrd (o : Order) (sc : Scope) (s : State) : Res :=
  .next (s.setTh { s.th with pfx := some { order := o, scope := sc } })

end Sys2Proof.Machine
end

