-- ==== Sys2Proof/Machine/Copy.lean ====
section
/-! DEFINITION. The copy commands (R227-R236, R240, R241). -/

namespace Sys2Proof.Machine

/-! ## The tensor descriptor (R227) -/

/-- The word at a byte offset of a descriptor. -/
def descWord (v off : Nat) : BitVec 64 := BitVec.ofNat 64 (v / 2 ^ (8 * off))

/-- A descriptor from its 224 bytes, where it is valid. -/
def descOf (v : Nat) : Option Desc :=
  let n := (descWord v 0).toNat
  if 1 ≤ n ∧ n ≤ 9 then
    let at_ := fun o => (List.range n).map (fun d => descWord v (o + 24 * d))
    let counts := (at_ 8).map BitVec.toNat
    if counts.all (fun c => decide (1 ≤ c ∧ c < 2 ^ 32)) && decide (counts.foldl (· * ·) 1 < 2 ^ 48) then
      some { counts := counts, sstr := (at_ 16).map BitVec.toInt, dstr := (at_ 24).map BitVec.toInt }
    else none
  else none

def Desc.total (d : Desc) : Nat := d.counts.foldl (· * ·) 1

/-- The offset of element k along some strides. -/
def descOff (k : Nat) : List Nat → List Int → Int
  | c :: cs, x :: xs => (k % c : Nat) * x + descOff (k / c) cs xs
  | _, _ => 0

/-- The address of element k. -/
def Cmd.elemAddr (c : Cmd) (a : AOp) (d : Desc) (str : List Int) (k : Nat) : Nat :=
  (c.base a + BitVec.ofInt 48 (descOff k d.counts str)).toNat

/-- The descriptor is read: MODE where it is not in a slice, or invalid. -/
def readDesc (c : Cmd) (t : AOp) : EngM Desc := do
  let tg ← engCheck .copy c (c.cap t.cap) (c.base t).toNat 224 32 .read false
  let s ← egets id
  match tg with
  | [(.sram _ _, _)] =>
      match descOf (ofBytes (s.readSpans c.tenant tg)) with
      | some d => pure d
      | none => estop (.status csMode)
  | _ => estop (.status csMode)

/-! ## ccopy and cfill (R228, R233) -/

def execCcopy (h : CmdHdr) (p d t : AOp) (sty dty : BitVec 4) (s : State) : Res :=
  runCmd .copy (.ccopy h p d t sty dty) (fun c =>
    let sb := codeBytes sty
    let db := codeBytes dty
    match c.desc with
    | none => do
        let x ← readDesc c t
        let c1 := { c with desc := some x, declared := x.total * db }
        pure (if (hdrOf c.word).rms = 5 ∧ sty ≠ dty ∧ 2 ^ 26 < x.total then { c1 with finished := true, status := csMode } else c1)
    | some x =>
        elemStep x.total
          (fun k => do
            let v ← engRead .copy c (c.cap p.cap) (c.elemAddr p x x.sstr k) sb sb
            pure (c.convert dty sty k v))
          (fun c k v => engWrite .copy c (c.cap d.cap) (c.elemAddr d x x.dstr k) db db v) c) s

def execCfill (h : CmdHdr) (d t : AOp) (value : BitVec 64) (ety : BitVec 4) (s : State) : Res :=
  runCmd .copy (.cfill h d t value ety) (fun c =>
    let n := codeBytes ety
    match c.desc with
    | none => do
        let x ← readDesc c t
        pure { c with desc := some x, declared := x.total * n }
    | some x =>
        elemStep x.total (fun _ => pure (value.toNat % 2 ^ (8 * n), 0))
          (fun c k v => engWrite .copy c (c.cap d.cap) (c.elemAddr d x x.dstr k) n n v) c) s

/-! ## Gather and scatter (R229, R230) -/

/-- What a command with an index list does with an element. -/
inductive GathKind where
  | gather | scatter | atomic
  deriving DecidableEq, Repr

/-- The operation of cscata, as an operation of amo (R230). -/
def scatFn (aop : BitVec 3) (ety : BitVec 4) : BitVec 4 :=
  let signed := ety = 10 ∨ ety = 12
  match aop.toNat with
  | 4 => if signed then 4 else 6
  | 5 => if signed then 5 else 7
  | 6 => 9
  | n => BitVec.ofNat 4 n

/-- Index k of the list. -/
def gathIndex (f : GathF) (c : Cmd) (k : Nat) : EngM Nat :=
  let n := if f.iw then 8 else 4
  engRead .copy c (c.cap f.i.cap) ((c.base f.i).toNat + k * n) n n

/-- Element k moves. -/
def gathElem (kind : GathKind) (f : GathF) (c : Cmd) (k : Nat) : EngM Cmd := do
  let x ← gathIndex f c k
  let n := codeBytes f.ety
  let src := fun i => (c.base f.s).toNat + i * n
  let dst := fun i => (c.base f.d).toNat + i * n
  let get := fun (t : Spans) => egets (fun s => ofBytes (s.readSpans c.tenant t))
  match kind with
  | .gather => do
      let a ← engCheck .copy c (c.cap f.s.cap) (src x) n n .read true
      let v ← get a
      engWrite .copy c (c.cap f.d.cap) (dst k) n n v
  | .scatter => do
      let v ← engRead .copy c (c.cap f.s.cap) (src k) n n
      let b ← engCheck .copy c (c.cap f.d.cap) (dst x) n n .write true
      engPut .copy c b n v
  | .atomic => do
      let v ← engRead .copy c (c.cap f.s.cap) (src k) n n
      let b ← engCheck .copy c (c.cap f.d.cap) (dst x) n n .atomic true
      let old ← get b
      let (new, fl) := amoOp (scatFn f.aop f.ety) (n == 8) (arithMode (hdrOf c.word).rms) (BitVec.ofNat 64 old) (BitVec.ofNat 64 v)
      let c1 ← engPut .copy c b n (new.toNat % 2 ^ (8 * n))
      pure { c1 with flags := c1.flags ||| fl }

/-- The elements behind a failing one that had already issued: which of them have been applied. -/
def gathRest (kind : GathKind) (f : GathF) (k : Nat) (had : BitVec 15) : List Nat → Cmd → BitVec 15 → EngM (Cmd × BitVec 15)
  | [], c, m => pure (c, m)
  | j :: r, c, m => fun s =>
      if had.getLsbD j && decide (k + 1 + j < f.count.toNat) then
        match gathElem kind f c (k + 1 + j) s with
        | .ok (c1, s1) => gathRest kind f k had r c1 (m ||| (1#15 <<< j)) s1
        | .error _ => gathRest kind f k had r c m s
      else gathRest kind f k had r c m s

/-- The next element in ascending order. A failure leaves the cursor at it, and the auxiliary word says which index failed and which
later elements have been applied (R229). -/
def gathStep (kind : GathKind) (f : GathF) (c : Cmd) : EngM Cmd := fun s =>
  let k := c.cursor
  match gathElem kind f c k s with
  | .ok (c1, s1) => .ok ({ c1 with cursor := k + 1, finished := decide (f.count.toNat ≤ k + 1) }, s1)
  | .error (.status b) =>
      let idx := match gathIndex f c k s with
        | .ok (x, _) => BitVec.ofNat 48 x
        | .error _ => Config.badIndex s.tick
      match gathRest kind f k (Config.applied s.tick) (List.range 15) c 0 s with
      | .ok ((c1, m), s1) => .ok ({ c1 with finished := true, status := b, aux := 0#1 ++ m ++ idx }, s1)
      | .error z => .error z
  | .error z => .error z

def execCgath (h : CmdHdr) (f : GathF) (s : State) : Res := runCmd .copy (.cgath h f) (gathStep .gather f) s
def execCscat (h : CmdHdr) (f : GathF) (s : State) : Res := runCmd .copy (.cscat h f) (gathStep .scatter f) s
def execCscata (h : CmdHdr) (f : GathF) (s : State) : Res := runCmd .copy (.cscata h f) (gathStep .atomic f) s

/-! ## cmerge (R231) -/

/-- The registers of a merge, kept in the command: entries taken from A and B, the coordinate of the entry last taken of each, and the
pending output entry with its coordinate and value. -/
def Cmd.reg (c : Cmd) (i : Nat) : Option Nat := (c.elems.find? (fun x => x.1 == i)).bind Prod.snd
def Cmd.setReg (c : Cmd) (i : Nat) (v : Option Nat) : Cmd := { c with elems := insert c.elems i v }
def regA : Nat := 0
def regB : Nat := 1
def prevOf (b : Bool) : Nat := if b then 3 else 2
def pendCoord : Nat := 4
def pendValue : Nat := 5

/-- The entry of an input that is to be taken next, read and compared with its predecessor; b says that the input is B. -/
def mergeHead (c : Cmd) (a : AOp) (n : Nat) (b dup : Bool) : EngM (Option (Nat × Nat) × Bool) := do
  let i := (c.reg (if b then regB else regA)).getD 0
  if i < n then do
    let v ← engRead .copy c (c.cap a.cap) ((c.base a).toNat + 8 * i) 8 8
    let x := v % 2 ^ 32
    let bad := match c.reg (prevOf b) with
      | some p => decide (x < p) || (decide (x = p) && !dup)
      | none => false
    pure (some (x, v / 2 ^ 32), bad)
  else pure (none, false)

/-- The pending entry is written. -/
def mergeFlush (c : Cmd) (o : AOp) : EngM Cmd :=
  match c.reg pendCoord with
  | some x => do
      let v := (c.reg pendValue).getD 0
      let c1 ← engWrite .copy c (c.cap o.cap) ((c.base o).toNat + 8 * c.cursor) 8 8 (x + v * 2 ^ 32)
      pure ({ c1 with cursor := c.cursor + 1 }.setReg pendCoord none)
  | none => pure c

/-- The values of equal coordinates added (R231). -/
def mergeAdd (c : Cmd) (int : Bool) (x y : Nat) : Nat × Fl :=
  if int then ((x + y) % 2 ^ 32, 0) else let r := fp32.add (arithMode (hdrOf c.word).rms) x y; (r.bits, r.fl)

/-- A stop at the entry of an input that is to be taken next (R231): the auxiliary word holds the input and the entry's position. -/
def mergeFail (c : Cmd) (b : Bool) (status : BitVec 8) : Cmd :=
  { c with finished := true, status := status
           aux := BitVec.ofBool b ++ 0#15 ++ BitVec.ofNat 48 ((c.reg (if b then regB else regA)).getD 0) }

/-- The entry of an input that is to be taken next, or the stop at it: an order violation, or an access that fails. -/
def mergeNext (c : Cmd) (a : AOp) (n : Nat) (b dup : Bool) : EngM (Except Cmd (Option (Nat × Nat))) := fun s =>
  match mergeHead c a n b dup s with
  | .ok ((x, bad), s1) => .ok (if bad then .error (mergeFail c b csSort) else .ok x, s1)
  | .error (.status st) => .ok (.error (mergeFail c b st), s)
  | .error z => .error z

/-- One entry of either input, or the end. With DUPOK a coordinate that stands in both inputs is added entry by entry, A's before B's:
DESIGN CHOICE (entry 100). -/
def mergeStep (x y o : AOp) (na nb : Nat) (dup int : Bool) (c : Cmd) : EngM Cmd := do
  let ha ← mergeNext c x na false dup
  let hb ← mergeNext c y nb true dup
  match ha, hb with
  | .error z, _ | _, .error z => pure z
  | .ok ha, .ok hb =>
    let pick : Option (Bool × Nat × Nat) := match ha, hb with
      | none, none => none
      | some (p, v), none => some (false, p, v)
      | none, some (p, v) => some (true, p, v)
      | some (p, v), some (q, w) => if p ≤ q then some (false, p, v) else some (true, q, w)
    match pick with
    | none => do
        let c1 ← mergeFlush c o
        pure { c1 with finished := true }
    | some (b, p, v) => do
        let r := if b then regB else regA
        let take := fun c : Cmd => (c.setReg r (some ((c.reg r).getD 0 + 1))).setReg (prevOf b) (some p)
        if c.reg pendCoord = some p then
          let (w, fl) := mergeAdd c int ((c.reg pendValue).getD 0) v
          pure { (take c).setReg pendValue (some w) with flags := c.flags ||| fl }
        else do
          let c1 ← mergeFlush c o
          pure ((take (c1.setReg pendCoord (some p))).setReg pendValue (some v))

def execCmerge (h : CmdHdr) (x y o : AOp) (na nb : BitVec 24) (dupok cty : Bool) (s : State) : Res :=
  runCmd .copy (.cmerge h x y o na nb dupok cty) (mergeStep x y o na.toNat nb.toNat dupok cty) s

/-! ## cred (R232) -/

def execCred (h : CmdHdr) (p : AOp) (ridx : BitVec 2) (s : State) : Res :=
  runCmd .copy (.cred h p ridx) (fun c => do
    let s ← egets id
    match s.stageOf s.cur.core with
    | none => pure { c with finished := true }
    | some g =>
        match g.red[ridx.toNat]? with
        | none => pure { c with finished := true }
        | some ch =>
            let n := ch.ty.width / 8
            let vs ← forRows (fun i => engRead .copy c (c.cap p.cap) ((c.base p).toNat + i * n) n n) (List.range ch.count)
            if g.groupBrk && ch.xg then estop (.status csBroken)
            else do
              emods (fun s => s.modStage s.cc.rid s.cc.stage (fun g =>
                { g with contribs := g.contribs ++ vs.mapIdx (fun i v => { ch := ridx.toNat, elem := i, bits := BitVec.ofNat 64 v }) }))
              pure { c with finished := true }) s

/-! ## cstrm (R234) -/

/-- The thread whose command has a number, where it is in a slot. -/
def State.ownerOf (s : State) (uid : Nat) : Option (Nat × Fin 8) :=
  (s.threads.find? (fun (_, _, t) => t.state != .empty && t.cmds.any (·.1 == uid))).map (fun (n, k, _) => (n, k))

/-- The lowest stream number a core does not use. -/
def Core.freeStream (c : Core) : Nat :=
  ((List.range (c.strms.length + 1)).find? (fun i => c.strms.all (·.num != i))).getD 0

/-- Whether a core has a stream number left: an image holds it in four bits (R371). DESIGN CHOICE (entry 101): a cstrm waits for one. -/
def Core.streamRoom (c : Core) : Bool := decide (c.strms.length < 16)

/-- A cstrm that has started: the queue of the enqueuing thread is bound, and the stream is handed over. It waits while its thread is in
no slot, or no number is free. -/
def handStream (h : CmdHdr) (p t : AOp) (ety : BitVec 4) (q : BitVec 2) (s : State) : Res :=
  match s.runningCmd .copy (.cstrm h p t ety q) with
  | none => .next s
  | some c =>
      match s.ownerOf c.uid with
      | none => .next s
      | some (m, k) =>
          let n := s.cur.core
          if ((s.thAt m k).strm.get q.toFin).bound then .next (s.setHead n .copy { c with finished := true, status := csMode })
          else
            match readDesc c t s with
            | .error (.status b) => .next (s.setHead n .copy { c with finished := true, status := b })
            | .error (.held ipa kind) => .next (s.logFault c.tenant ipa kind (some (.engine n 1)))
            | .ok (d, s1) =>
              if !(s1.core n).streamRoom then .next s
              else
                let num := (s1.core n).freeStream
                let job : StreamJob := { cmd := { c with desc := some d }, q := q.toFin, next := 0, total := d.total, num := num }
                let s2 := s1.setCore n { s1.core n with strms := (s1.core n).strms ++ [job] }
                let th := s2.thAt m k
                let st : Stream := { Stream.none with bound := true, width := codeBytes ety, src := n, num := num }
                .next ((s2.setThAt m k { th with strm := th.strm.set q.toNat st q.isLt }).popHead n .copy)

/-- cstrm, where its start could not hand the stream over. -/
def execCstrm (h : CmdHdr) (p t : AOp) (ety : BitVec 4) (q : BitVec 2) (s : State) : Res := handStream h p t ety q s

/-- ENGINE_COMMAND_START (R172, R211, R234): cur.idx is the engine. The gate's pending bit is cleared; a cstrm binds its queue. -/
def execEngineCommandStart (s : State) : Res :=
  let e := engOf s.cur.idx
  let c := s.cc
  match c.engHead e with
  | some x =>
      if c.canStart e then
        let g := (hdrOf x.word).gate
        let c1 := if g = 0xF then c else { c with xbpend := c.xbpend &&& ~~~(1#8 <<< g.toNat) }
        let s1 := (s.setCc c1).settleDrogue (clusterOf s.cur.core)
        let left := match decodeCmd x.word with | some i => mmulCycles i | none => 0
        let s2 := s1.setHead s.cur.core e { x with running := true, left := left }
        match decodeCmd x.word with
        | some (.cstrm h p t ety q) => handStream h p t ety q s2
        | _ => .next s2
      else .next s
  | none => .next s

/-- The thread and queue that a stream job of a core feeds. -/
def State.fedBy (s : State) (n : Nat) (j : StreamJob) : Option (Nat × Fin 8) :=
  (s.threads.find? (fun (_, _, t) =>
    let q := t.strm.get j.q
    t.state != .empty && q.bound && !q.closed && !q.broken && q.src == n && q.num == j.num)).map (fun (m, k, _) => (m, k))

/-- A stream queue of a thread changed. -/
def State.modStrm (s : State) (m : Nat) (k : Fin 8) (q : Fin 4) (f : Stream → Stream) : State :=
  let t := s.thAt m k
  s.setThAt m k { t with strm := t.strm.set q.val (f (t.strm.get q)) q.isLt }

/-- Whether a stream job can deliver: its thread is in a slot and holds fewer than 8 elements. -/
def State.canFeed (s : State) (n : Nat) (j : StreamJob) : Bool :=
  match s.fedBy n j with
  | some (m, k) => decide (((s.thAt m k).strm.get j.q).elems.length < 8) && !s.holds (.stream n j.num)
  | none => false

/-- STREAM_ELEMENT_DELIVERY (R234): job cur.idx of the cur core's copy engine delivers its next element. -/
def execStreamElementDelivery (s : State) : Res :=
  let n := s.cur.core
  match s.cc.strms[s.cur.idx]? with
  | none => .next s
  | some j =>
      match s.fedBy n j, decodeCmd j.cmd.word, j.cmd.desc with
      | some (m, k), some (.cstrm _ p _ ety _), some d =>
          if 8 ≤ ((s.thAt m k).strm.get j.q).elems.length then .next s
          else
            let w := codeBytes ety
            match engRead .copy j.cmd (j.cmd.cap p.cap) (j.cmd.elemAddr p d d.sstr j.next) w w s with
            | .error (.status b) => .next ((s.modStrm m k j.q (fun q => { q with broken := true })).endStream n j.num b)
            | .error (.held ipa kind) => .next (s.logFault j.cmd.tenant ipa kind (some (.stream n j.num)))
            | .ok (v, s1) =>
                let last := decide (j.total ≤ j.next + 1)
                let s2 := s1.modStrm m k j.q (fun q =>
                  { q with elems := q.elems ++ [BitVec.ofNat 64 v], pos := j.next + 1, closed := last })
                let c := s2.core n
                let s3 := s2.setCore n { c with strms := c.strms.map (fun x => if x.num = j.num then { x with next := j.next + 1 } else x) }
                let s4 := s3.pulse m 3
                .next (if last then s4.endStream n j.num 0 else s4)
      | _, _, _ => .next s

/-! ## cbcast (R235) -/

/-- cbcast moves 32 bytes at a time to each core of the set. -/
def execCbcast (h : CmdHdr) (p : AOp) (dcap : BitVec 4) (doff len : BitVec 16) (sc : BitVec 1) (s : State) : Res :=
  let cores := s.bcastCores s.cur.core sc
  let chunks := len.toNat / 32
  runCmd .copy (.cbcast h p dcap doff len sc)
    (fun c => elemStep (chunks * cores.length)
      (fun k => do
        let v ← engRead .copy c (c.cap p.cap) ((c.base p).toNat + 32 * (k % chunks)) 32 1
        pure (v, 0))
      (fun c k v => do
        let s ← egets id
        let l := (s.core ((cores[k / chunks]?).getD 0)).lcore
        engWrite .copy c (c.cap dcap) (0x400000000000 + l * 0x10000 + doff.toNat + 32 * (k % chunks)) 32 1 v) c) s

/-! ## cquant (R236, R240, R241) -/

/-- A finite FP32 value as its magnitude in units of 2^-149, which is exact; none where it is not finite. -/
def quantMag (bits : Nat) : Option Nat :=
  match fp32.decode bits with
  | .fin _ m e => some (m * 2 ^ (e + 149).toNat)
  | _ => none

/-- The distance of code magnitude m times (sb + 1) / 256 times S from x, in units of 2^-169. -/
def quantDist (sm sb x m : Nat) : Nat :=
  let v := nq4Mag m * (sb + 1) * sm
  let y := x * 2 ^ 20
  if v ≤ y then y - v else v - y

/-- The nearest code: among equally near magnitudes, the even one. -/
def quantCode (sm sb bits : Nat) : Nat :=
  let x := (quantMag bits).getD 0
  if x = 0 then 0
  else
    let m := (List.range 8).foldl (fun best m =>
      let a := quantDist sm sb x best
      let b := quantDist sm sb x m
      if b < a ∨ (b = a ∧ m % 2 = 0 ∧ best % 2 = 1) then m else best) 0
    if 2 ^ 31 ≤ bits then m + 8 else m

/-- The scale of a block. -/
def quantScale (sm a : Nat) : Nat := if sm = 0 then 0 else (256 * a + sm - 1) / sm - 1

def maxOf (l : List Nat) : Nat := l.foldl Nat.max 0

/-- cquant: the source is read whole; then S, and block by block the codes and their scale, are written. A block is kept as its scale
below its codes, and S after the last block. -/
def execCquant (h : CmdHdr) (p kk v : AOp) (nblk : BitVec 9) (s : State) : Res :=
  let n := nblk.toNat
  runCmd .copy (.cquant h p kk v nblk) (fun c =>
    match c.reg n with
    | none => do
        let xs ← forRows (fun i => engRead .copy c (c.cap p.cap) ((c.base p).toNat + 4 * i) 4 4) (List.range (64 * n))
        if xs.all (fun x => (quantMag x).isSome) then
          let mags := xs.map (fun x => (quantMag x).getD 0)
          let sm := maxOf mags
          let top := (xs.find? (fun x => (quantMag x).getD 0 == sm)).getD 0 % 2 ^ 31
          let blocks := (List.range n).map (fun b =>
            let sb := quantScale sm (maxOf ((mags.drop (64 * b)).take 64))
            (b, some (sb + 256 * ofElems 4 (((xs.drop (64 * b)).take 64).map (quantCode sm sb)))))
          pure { c with elems := blocks ++ [(n, some top)] }
        else estop (.status csMode)
    | some top =>
        let b := c.cursor
        let x := (c.reg b).getD 0
        do
          let c1 ← if b = 0 then engWrite .copy c (c.cap v.cap) (c.base v).toNat 4 4 top else pure c
          let c2 ← engWrite .copy c1 (c.cap v.cap) ((c.base v).toNat + (4 + b)) 1 1 (x % 256)
          let c3 ← engWrite .copy c2 (c.cap kk.cap) ((c.base kk).toNat + 32 * b) 32 1 (x / 256)
          pure { c3 with cursor := b + 1, finished := decide (n ≤ b + 1) }) s

/-! ## When the events of the engines are due -/

/-- Whether the running command of an engine has work it can do now. -/
def State.works (s : State) (n : Nat) (e : Eng) : Option Instr :=
  match (s.core n).engHead e with
  | some c =>
      if c.running && !c.finished && !s.holds (.engine n (engIdx e)) then
        match decodeCmd c.word with
        | some (.mrot h sl dl) => if c.elems.isEmpty then some (.mrot h sl dl) else none
        | some (.cstrm h p t y q) => if (s.ownerOf c.uid).isSome && (s.core n).streamRoom then some (.cstrm h p t y q) else none
        | x => x
      else none
  | none => none

/-- A command whose gate is open starts at once (R211). -/
def State.dueStart (s : State) : List Move :=
  s.cores.flatMap (fun (n, c) => [Eng.matrix, Eng.copy].flatMap (fun e => evIf (c.canStart e) n 0 (engIdx e) .engineCommandStart))

def State.dueEngine (s : State) : List Move :=
  s.cores.flatMap (fun (n, c) =>
    [Eng.matrix, Eng.copy].flatMap (fun e =>
      (match s.works n e with | some i => [Move.event (curOf n 0 (engIdx e)) i] | none => [])
      ++ evIf (s.ended n e) n 0 (engIdx e) .commandComplete)
    ++ (List.range c.strms.length).flatMap (fun i =>
      match c.strms[i]? with
      | some j => evIf (s.canFeed n j) n 0 i .streamElementDelivery
      | none => []))
  ++ (List.range s.net.length).flatMap (fun i =>
    match s.net[i]? with
    | some m => if s.tileReady m then [Move.event (curOf m.dst 0 i) .mrotTileArrive] else []
    | none => [])
  ++ s.clusters.flatMap (fun (cl, c) =>
    if c.window < s.cycle / 1024 ∧ !(s.asking cl).isEmpty then [Move.event (curOf (64 * cl) 0 cl) .drogueWindow] else [])

end Sys2Proof.Machine
end

