-- ==== Sys2Proof/Machine/Partition.lean ====
section
/-! DEFINITION. Partitions: the PART block, stopping, function registers, function resets and interrupts (R355, R386-R390,
R396-R401, R417). -/

namespace Sys2Proof.Machine

/-! ## The operands of PART (R388) -/

def pidTenant (raw : BitVec 1024) : Nat := ((fld raw 8).extractLsb' 0 6).toNat
def pidLevel2 (raw : BitVec 1024) : Bool := (fld raw 8).getLsbD 8
def pidFunc (raw : BitVec 1024) : Nat := ((fld raw 8).extractLsb' 16 7).toNat
def pidDrain (raw : BitVec 1024) : Bool := (fld raw 8).getLsbD 26

/-- Whether the operands an operation does not use are zero, and those it uses lie in their maps. -/
def partLayout (raw : BitVec 1024) (used : List Nat) : Bool :=
  let shape := used.contains 0x58
  let mask := fun off : Nat =>
    if off = 0x10 then 0x0000FFFFFFFFFFFF
    else if off = 0x38 then (if shape then 0xFFFF7F7F else 0x0000FFFFFFFFFFFF)
    else if off = 0x40 then (if shape then 0xFFFFFFFF00FF01FF else 0xFFFFFFFFFFFFFFFF)
    else if off = 0x48 then (if shape then 0x1FFFFFFFF else 0x0000FFFFFFFFFFFF)
    else if off = 0x50 then 0x0000FFFFFFFFF000
    else if off = 0x58 then 0x07FF07FF
    else if off = 0x60 then 0x07FFFFFFFFFFF000
    else (0x0FFF0FFF : Word)
  zeroFrom raw 0xFF01FF 0x70 && fld raw 8 &&& ~~~0x77F013F == 0 && decide (pidFunc raw ≤ 64)
  && [0x10, 0x38, 0x40, 0x48, 0x50, 0x58, 0x60, 0x68].all (fun off =>
    if used.contains off then fld raw off &&& ~~~(mask off) == 0 else fld raw off == 0)

/-- A partition with nothing given to it. -/
def Part.blank : Part :=
  { id := 0, level2 := false, func := 0, cascade := false, dtrk := false, x0 := 0, y0 := 0, wd := 0, ht := 0, share := 0, weight := 0
    shareWas := 0, weightWas := 0, sharesAt := 0, slice := 0, bbase := 0, blimit := 0, s2root := 0, vec0 := 0, vecN := 0, xflog := 0, xvec := 0, xcount := 0, tstate := 1
    faulted := false, deficit := 0, qptr := 0, serial := 0, inj := 0, ext := 0, keyGen := 0, stopping := false, drains := false
    draining := false }

def Part.setRect (p : Part) (w : Word) : Part :=
  if w = 0 then p
  else { p with x0 := (w.extractLsb' 0 7).toNat, y0 := (w.extractLsb' 8 7).toNat, wd := (w.extractLsb' 16 8).toNat
                ht := (w.extractLsb' 24 8).toNat }
def Part.setShare (p : Part) (w : Word) : Part :=
  if w = 0 then p
  else { p with share := (w.extractLsb' 0 9).toNat, weight := (w.extractLsb' 16 8).toNat, slice := (w.extractLsb' 32 32).toNat }
def Part.setRange (p : Part) (w : Word) : Part :=
  if w = 0 then p else { p with bbase := (w.extractLsb' 0 16).toNat, blimit := (w.extractLsb' 16 17).toNat }
def Part.setRoot (p : Part) (w : Word) : Part := if w = 0 then p else { p with s2root := w.toNat }
def Part.setVec (p : Part) (w : Word) : Part :=
  if w = 0 then p else { p with vec0 := (w.extractLsb' 0 11).toNat, vecN := (w.extractLsb' 16 11).toNat }
def Part.setXlog (p : Part) (w : Word) : Part :=
  if w = 0 then p else { p with xflog := (w.extractLsb' 12 36).toNat * 4096, xvec := (w.extractLsb' 48 11).toNat }

/-- The non-zero operands from 0x38 to 0x60 in place of a partition's own (R388). -/
def Part.withOperands (p : Part) (raw : BitVec 1024) : Part :=
  (((((p.setRect (fld raw 0x38)).setShare (fld raw 0x40)).setRange (fld raw 0x48)).setRoot (fld raw 0x50)).setVec (fld raw 0x58)).setXlog
    (fld raw 0x60)

/-! ## The limits of R387 -/

def rangesMeet (a b c d : Nat) : Bool := decide (Nat.max a c < Nat.min b d)
def within (a b c d : Nat) : Bool := decide (c ≤ a ∧ b ≤ d)

def Part.meets (p q : Part) : Bool := rangesMeet p.x0 (p.x0 + p.wd) q.x0 (q.x0 + q.wd) && rangesMeet p.y0 (p.y0 + p.ht) q.y0 (q.y0 + q.ht)
def Part.inside (p q : Part) : Bool := within p.x0 (p.x0 + p.wd) q.x0 (q.x0 + q.wd) && within p.y0 (p.y0 + p.ht) q.y0 (q.y0 + q.ht)

/-- Level-1 partitions, tenants and parents. -/
def State.level1 (s : State) : List Part := s.parts.filter (fun p => !p.level2) ++ s.parents.map Prod.snd
/-- The children of level-1 partition i. -/
def State.childrenOf (s : State) (i : Nat) : List Part := s.parts.filter (fun p => p.level2 && p.id / 4 == i)

/-- The partition a PID names by its ID and level (R388). -/
def State.partAt (s : State) (t : Nat) (level2 : Bool) : Option Part :=
  if level2 then s.parts.find? (fun p => p.level2 && p.id == t) else s.level1.find? (·.id == t)

/-- The level-1 partition of a child. -/
def State.parentAt (s : State) (p : Part) : Option Part := if p.level2 then s.level1.find? (·.id == p.id / 4 * 4) else none

def State.siblings (s : State) (p : Part) : List Part :=
  (if p.level2 then s.childrenOf (p.id / 4) else s.level1).filter (fun q => q.id != p.id)

/-- Children of a level-1 partition, where it has had any. -/
def State.kids (s : State) (p : Part) : List Part :=
  if p.level2 then [] else s.childrenOf (p.id / 4)

/-- The breaches of R387 that are FORMAT. -/
def State.budgetsOk (s : State) (p : Part) : Bool :=
  let sib := s.siblings p
  decide (1 ≤ p.wd ∧ 1 ≤ p.ht ∧ p.x0 + p.wd ≤ 128 ∧ p.y0 + p.ht ≤ 80 ∧ p.share ≤ 256 ∧ 1 ≤ p.weight
    ∧ p.bbase + 257 ≤ p.blimit ∧ p.blimit ≤ 65536 ∧ p.vec0 + p.vecN ≤ 2048)
  && decide ((sib.map (·.share)).foldl (· + ·) p.share ≤ 256)
  && sib.all (fun q => !rangesMeet p.bbase p.blimit q.bbase q.blimit && (p.level2 || !rangesMeet p.vec0 (p.vec0 + p.vecN) q.vec0 (q.vec0 + q.vecN)))
  && (match s.parentAt p with
      | some q => decide (p.slice ≤ q.slice) && within p.bbase p.blimit q.bbase q.blimit && within p.vec0 (p.vec0 + p.vecN) q.vec0 (q.vec0 + q.vecN)
      | none => true)
  && (s.kids p).all (fun c => decide (c.slice ≤ p.slice) && within c.bbase c.blimit p.bbase p.blimit
      && within c.vec0 (c.vec0 + c.vecN) p.vec0 (p.vec0 + p.vecN))

/-- The breaches of R387 that are CORES. -/
def State.rectOk (s : State) (p : Part) : Bool :=
  (s.siblings p).all (fun q => !p.meets q) && (match s.parentAt p with | some q => p.inside q | none => true)
  && (s.kids p).all (fun c => c.inside p)

/-- Clusters of a that b does not have. -/
def Part.leaving (a b : Part) : List Nat := a.clusters.filter (fun cl => !b.holds cl)

/-- A bound core in a cluster. -/
def State.clusterBusy (s : State) (cl : Nat) : Bool := s.cores.any (fun (n, c) => c.bound && clusterOf n == cl)

/-! ## Clusters that join and leave (R142, R396, R418) -/

/-- Every slice of a cluster is wiped before it joins another partition. -/
def State.wipeCluster (s : State) (cl : Nat) : State := s.wipeKeys (sramKey (64 * cl) 0) (sramKey (64 * cl + 64) 0)

/-- A cluster joins a partition with the tenant's grant. -/
def State.joinCluster (grant : Nat × Nat) (s : State) (cl : Nat) : State :=
  s.setCluster cl { s.cluster cl with bars := Vector.replicate 32 Bar.fresh, grantB := grant.1, grantS := grant.2 }

/-- Counters of a range at R144. -/
def State.freshRange (s : State) (p : Part) : State :=
  { s with counters := s.counters.filter (fun (id, _) => !(decide (p.bbase ≤ id ∧ id < p.blimit))) }

/-- A level-1 partition that gets its first child is no tenant any more (R386). -/
def State.makeParent (s : State) (i : Nat) : State :=
  match s.parts.find? (fun p => !p.level2 && p.id == 4 * i) with
  | some p =>
      let s1 : State := { s with parts := s.parts.filter (fun q => q.id != p.id), parents := insert s.parents i p
                                 mtu := s.mtu.filter (fun e => e.tenant.toNat != p.id) }
      (p.clusters.foldl State.wipeCluster s1).freshRange p
  | none => s

/-- CREATE (R388): a fresh key, and TSTATE 1. -/
def State.addPart (s : State) (p : Part) : State :=
  let s1 := if p.level2 then s.makeParent (p.id / 4) else s
  let s2 : State := { s1 with parts := s1.parts ++ [{ p with keyGen := s1.fresh }], fresh := s1.fresh + 1
                              dirty := s1.dirty.filter (fun d => d.1.toNat != p.id) }
  (p.clusters.foldl (State.joinCluster (65536, 0)) s2).freshRange p

/-- A change of share or weight holds from the next window of 1,024 cycles (R387). -/
def State.newShares (s : State) (old p : Part) : Part :=
  if p.share = old.share ∧ p.weight = old.weight then p
  else { p with shareWas := if s.cycle / 1024 < old.sharesAt then old.shareWas else old.share
                weightWas := s.weightOf old, sharesAt := s.cycle / 1024 + 1 }

/-- MODIFY (R388, R417): clusters leave and join. -/
def State.changePart (s : State) (old p : Part) : State :=
  let s1 := (old.leaving p).foldl State.wipeCluster s
  let grant := match old.clusters with | cl :: _ => ((s.cluster cl).grantB, (s.cluster cl).grantS) | [] => (65536, 0)
  let s2 := (p.leaving old).foldl (State.joinCluster grant) s1
  let p1 := s.newShares old p
  { s2 with parts := s2.parts.map (fun q => if q.id = p.id ∧ q.level2 = p.level2 then p1 else q)
            parents := s2.parents.map (fun (i, q) => (i, if !p.level2 && q.id == p.id then p1 else q)) }

/-! ## Scrub (R396) -/

def entriesOf (level : Nat) : Nat := if level = 0 then 256 else if level = 2 then 1024 else 512

/-- What a stage-2 table maps: base and size of each leaf. -/
def State.mapped (s : State) : List Nat → Nat → List (Nat × Nat)
  | [], _ => []
  | level :: rest, table =>
      let entry := fun i => (BitVec.ofNat 64 (Memory.num s.mem (table + 8 * i) 8) : BitVec 64)
      (List.range (entriesOf level)).flatMap (fun i =>
        let e := entry i
        if !pteOk level e then []
        else if e.getLsbD 1 then
          if e.getLsbD 55 then (if contOk entry i then [(pteOa e, 4096)] else []) else [(pteOa e, pageSize level)]
        else s.mapped rest (pteOa e))

/-- A range of HBM is written with zeros under a key, its tags cleared. -/
def State.scrubRange (key : BitVec 6 × Nat) (s : State) (x : Nat × Nat) : State :=
  let lo := x.1
  let hi := x.1 + x.2
  { s with mem := Memory.clear s.mem lo hi
           tags := s.tags.filter (fun g => !(decide (lo / 16 ≤ g ∧ g < hi / 16)))
           lineKey := s.lineKey.filter (fun k => decide (k.1 < lo / 64))
             ++ (List.range (x.2 / 64)).map (fun i => (lo / 64 + i, key))
             ++ s.lineKey.filter (fun k => decide (hi / 64 ≤ k.1)) }

/-- The scrub of a tenant: a new key, and zeros in every line its stage-2 table maps. -/
def State.scrub (s : State) (t : Nat) : State :=
  match s.part? t with
  | some p =>
      let s1 := ({ s with fresh := s.fresh + 1 } : State).modPart t (fun q => { q with keyGen := s.fresh })
      ((s.mapped levels p.s2root).filter (fun x => decide (x.1 + x.2 ≤ Config.dumpBase))).foldl
        (State.scrubRange (BitVec.ofNat 6 t, s.fresh)) s1
  | none => s

/-- DESTROY frees every budget: the partition goes, its last flits with it, and its queues have no tenant. -/
def State.removePart (s : State) (p : Part) : State :=
  let s1 := p.clusters.foldl State.wipeCluster s
  { s1 with parts := s1.parts.filter (fun q => !(q.id == p.id && q.level2 == p.level2))
            parents := if p.level2 then s1.parents else s1.parents.filter (fun q => q.2.id != p.id)
            flits := s1.flits.filter (fun f => f.tenant.toNat != p.id)
            queues := s1.queues.map (fun (n, q) =>
              (n, if q.tenant = some (BitVec.ofNat 6 p.id) then { q with tenant := none } else q)) }

/-! ## What PART waits for -/

/-- Nothing of a torn-down tenant is left: its regions have gone, its counters are reset, and its launches have ended. A block of a queue
that has not been destroyed waits on. -/
def State.tenantGone (s : State) (t : Nat) : Bool :=
  (match s.part? t with | some p => !p.draining | none => true)
  && !(s.regions.any (fun r => r.tenant.toNat == t))
  && !(s.blocks.any (fun b => b.tenant.toNat == t && b.typ != 8 && (b.doomed || b.rid.isSome || b.src.isDevice || b.src.isSub)))

/-- Whether a thread is off its core, or held in its slot (R376). -/
def Thread.isOut (t : Thread) : Bool := t.state == .empty || t.state == .hold

/-- Whether a tenant without DRAIN has stopped (R401): threads are out, their images written, engines idle and loops saved. -/
def State.preempted (s : State) (t : Nat) : Bool :=
  s.cores.all (fun (_, c) => !(c.bound && c.tenant.toNat == t)
    || ((List.finRange 8).all (fun k => (c.th.get k).isOut) && c.mq.isEmpty && c.cq.isEmpty && c.vq.isEmpty && c.vrun.isEmpty))
  && s.clusters.all (fun (_, c) => (List.finRange 64).all (fun k => match c.frames.get k with
      | some f => (match s.region? f.rid with | some r => r.tenant.toNat != t || r.save == 0 | none => true)
      | none => true))
  && s.regions.all (fun r => r.tenant.toNat != t || (match r.loop with | some l => l.saved | none => true))

/-- Whether a tenant with DRAIN has: every region and every block in progress is over. -/
def State.drainedOut (s : State) (t : Nat) : Bool :=
  !(s.regions.any (fun r => r.tenant.toNat == t))
  && !(s.blocks.any (fun b => b.tenant.toNat == t && b.active && b.typ != 3 && !pfOnly b.typ))

def State.stoppedOk (s : State) (p : Part) : Bool :=
  p.tstate != 3 && (if p.drains then s.drainedOut p.id else s.preempted p.id)

/-- STOP begins (R401): dispatch stops, and without DRAIN every slice ends. -/
def State.beginStop (s : State) (t : Nat) (drain : Bool) : State :=
  let s1 := s.modPart t (fun p => { p with stopping := true, drains := drain })
  if drain then s1
  else (s1.regions.filter (fun r => r.tenant.toNat == t && (r.phase == .running || r.phase == .binding) && !r.paused)).foldl
    (fun (s : State) r => s.endSliceOf r.rid) s1

/-! ## The operations (R388) -/

/-- The work of the PART event of an operation on the block cur.idx names. -/
def onPart (s : State) (op : Nat) (m : Block → FeM Unit) : Res :=
  onBlock s 8 (fun b => if headOp b.raw = op then m b else pure ())

/-- The demands of every operation: its layout, and the fields every block shares. -/
def partDemand (b : Block) (used : List Nat) : FeM Unit := do
  let s ← feGets id
  feDemand (partLayout b.raw used && (s.compOf b.tenant false b.raw).2) badFormat

def shapeRows : List Nat := [0x38, 0x40, 0x48, 0x50, 0x58, 0x60]

/-- The tenant that PID names by its ID and its level. -/
def partNamed (raw : BitVec 1024) : FeM Part := do
  let s ← feGets id
  match s.parts.find? (fun p => p.id == pidTenant raw && p.level2 == pidLevel2 raw) with
  | some p => pure p
  | none => feStop (.reject 6)

/-- Whether CREATE's PID is acceptable (R386): the ID is free, the level fits it, the parent is idle where this is its first child, and
FUNC has no tenant. -/
def State.pidFree (s : State) (raw : BitVec 1024) : Bool :=
  let t := pidTenant raw
  let fn := pidFunc raw
  (fn == 0 || !((s.parts ++ s.parents.map Prod.snd).any (·.func == fn)))
  && (if pidLevel2 raw then
        !(s.parts.any (fun p => p.level2 && p.id == t))
        && (match s.parts.find? (fun p => !p.level2 && p.id / 4 == t / 4) with
            | some q => (s.queuesOf q.id).isEmpty && !(q.clusters.any s.clusterBusy) && !q.draining && !q.stopping && q.tstate != 3
            | none => s.parents.any (·.1 == t / 4))
      else decide (t % 4 = 0) && !(s.level1.any (·.id == t)))

/-- PART_CREATE. -/
def execPartCreate (s : State) : Res :=
  onPart s 1 (fun b => do
    partDemand b shapeRows
    let s ← feGets id
    let p := ({ Part.blank with id := pidTenant b.raw, level2 := pidLevel2 b.raw, func := pidFunc b.raw
                                cascade := (fld b.raw 8).getLsbD 24, dtrk := (fld b.raw 8).getLsbD 25 } : Part).withOperands b.raw
    feDemand (s.budgetsOk p) badFormat
    feDemand (s.pidFree b.raw) (.reject 6)
    feDemand (s.rectOk p) (.reject 3)
    feMods (fun s => s.addPart p)
    feOk b)

/-- PART_MODIFY. -/
def execPartModify (s : State) : Res :=
  onPart s 2 (fun b => do
    partDemand b shapeRows
    let s ← feGets id
    match s.partAt (pidTenant b.raw) (pidLevel2 b.raw) with
    | none => feStop (.reject 6)
    | some old => do
        let p := old.withOperands b.raw
        feDemand (s.budgetsOk p) badFormat
        feDemand (s.rectOk p && !((old.leaving p).any s.clusterBusy)) (.reject 3)
        feMods (fun s => s.changePart old p)
        feOk b)

/-- PART_DESTROY: the tenant is torn down, and when nothing of it is left it is scrubbed and goes. -/
def execPartDestroy (s : State) : Res :=
  onPart s 3 (fun b => do
    let s ← feGets id
    if b.parsed then
      match s.part? (pidTenant b.raw) with
      | some p =>
          if s.tenantGone p.id then do
            feMods (fun s => (s.scrub p.id).removePart p)
            feOk b
          else pure ()
      | none => feOk b
    else do
      partDemand b []
      match s.partAt (pidTenant b.raw) (pidLevel2 b.raw) with
      | none => feStop (.reject 6)
      | some p =>
          if s.parts.any (fun q => q.id == p.id && q.level2 == p.level2) then
            feMods (fun s => ((s.setBlock { b with parsed := true }).modPart p.id
              (fun q => { q with stopping := true, drains := false })).tearTenant p.id)
          else if (s.kids p).isEmpty then do
            feMods (fun s => s.removePart p)
            feOk b
          else feStop (.reject 6))

/-- QASSIGN. -/
def execQassign (s : State) : Res :=
  onPart s 4 (fun b => do
    partDemand b [0x68]
    let s ← feGets id
    let fn := pidFunc b.raw
    let n := ((fld b.raw 0x68).extractLsb' 0 12).toNat
    let lidx := ((fld b.raw 0x68).extractLsb' 16 12).toNat
    let p ← if fn = 0 then partNamed b.raw else (match s.parts.find? (·.func == fn) with
      | some p => pure p
      | none => feStop (.reject 6))
    let q := s.queue n
    let other := match s.queueAt fn lidx with | some m => m != n | none => false
    feDemand (!other && !q.en && !q.error && !q.destroying && !(s.blocks.any (fun b => b.src == .queue n))) badFormat
    feMods (fun s => s.setQueue n { q with fn := fn, lidx := lidx, tenant := some (BitVec.ofNat 6 p.id) })
    feOk b)

/-- The status record (R389). -/
def State.statusOf (s : State) (p : Part) : List Byte :=
  let bound := (s.cores.filter (fun (n, c) => c.bound && p.holds (clusterOf n))).length
  bytesOf 8 p.inj ++ bytesOf 8 p.ext ++ bytesOf 8 (s.usable p % 2 ^ 20 + bound % 2 ^ 20 * 2 ^ 20 + p.tstate.toNat * 2 ^ 40)
    ++ bytesOf 8 (p.xcount % 2 ^ 32) ++ bytesOf 32 0

/-- PART_STATUS. -/
def execPartStatus (s : State) : Res :=
  onPart s 5 (fun b => do
    partDemand b [0x10]
    let p ← partNamed b.raw
    feMods (fun s => s.hostPoke (fldA b.raw 0x10) (s.statusOf p))
    feOk b)

/-- PART_STOP (R401). -/
def execPartStop (s : State) : Res :=
  onPart s 6 (fun b => do
    let s ← feGets id
    let base := fldA b.raw 0x38
    let n := fldA b.raw 0x40
    if b.parsed then
      match s.part? (pidTenant b.raw) with
      | some p =>
          if s.stoppedOk p then do
            feMods (fun s => ((s.snapshot (BitVec.ofNat 6 p.id) base n (fldA b.raw 0x48)).hostPoke (fldA b.raw 0x10) (bytesOf 8 2)).modPart p.id
              (fun q => { q with tstate := 2, stopping := false, drains := false }))
            feOk b
          else pure ()
      | none => feStop (.reject 6)
    else do
      partDemand b [0x10, 0x38, 0x40, 0x48]
      let p ← partNamed b.raw
      feDemand (windowOk base n && p.dtrk) badFormat
      feMods (fun s => (s.setBlock { b with parsed := true }).beginStop p.id (pidDrain b.raw)))

/-- PART_START: dispatch goes on, and slices resume (R377). -/
def execPartStart (s : State) : Res :=
  onPart s 7 (fun b => do
    partDemand b []
    let p ← partNamed b.raw
    feMods (fun s => if p.tstate = 2 then s.modPart p.id (fun q => { q with tstate := 1 }) else s)
    feOk b)

/-! ## Function level reset (R398) -/

/-- The partition a function owns, a tenant or a parent. -/
def State.ownedBy (s : State) (fn : Nat) : Option Part :=
  if fn = 0 then none else (s.parts ++ s.parents.map Prod.snd).find? (·.func == fn)

/-- Steps 1 to 3 for a tenant and its function: nothing is reported from then on. -/
def State.beginReset (s : State) (p : Part) : State :=
  let qs := if p.func = 0 then [] else (s.queues.filter (fun (_, q) => q.fn == p.func)).map Prod.fst
  let mute := fun b : Block =>
    if qs.any (fun n => b.src == .queue n) || (b.tenant.toNat == p.id && (match b.src with | .device _ _ _ _ => true | _ => false))
    then { b with silent := true } else b
  let s1 : State := { s with blocks := s.blocks.map mute
                             vecs := s.vecs.map (fun v => if p.func ≠ 0 ∧ v.fn = p.func then { v with held := false } else v) }
  let s2 := (s1.tearQueues p.id qs).modPart p.id (fun q => { q with tstate := 3 })
  if p.func = 0 then s2 else { s2 with funcs := insert s2.funcs p.func { s2.func p.func with s1root := 0 } }

/-- A function of a level-1 partition with children: its children with CASCADE are reset (R398). -/
def State.beginFlr (s : State) (fn : Nat) : State :=
  match s.ownedBy fn with
  | none =>
      let qs := (s.queues.filter (fun (_, q) => q.fn == fn)).map Prod.fst
      let s1 := qs.foldl State.destroyQueue s
      { s1 with funcs := insert s1.funcs fn { s1.func fn with s1root := 0 } }
  | some p =>
      if s.parts.any (fun q => q.id == p.id && q.level2 == p.level2) then s.beginReset p
      else
        let s1 := ((s.childrenOf (p.id / 4)).filter (·.cascade)).foldl State.beginReset s
        { s1 with parents := s1.parents.map (fun (i, q) => (i, if q.id = p.id then { q with tstate := 3 } else q))
                  funcs := insert s1.funcs fn { s1.func fn with s1root := 0 } }

/-- Whether a reset in progress can end: nothing is left of the tenant, or no child is being reset. -/
def State.resetOver (s : State) (p : Part) : Bool :=
  p.tstate == 3 && (if s.parts.any (fun q => q.id == p.id && q.level2 == p.level2) then s.tenantGone p.id
    else (s.childrenOf (p.id / 4)).all (fun c => c.tstate != 3))

/-- Steps 5 and 6. -/
def State.endReset (s : State) (p : Part) : State :=
  if s.parts.any (fun q => q.id == p.id && q.level2 == p.level2) then
    (s.scrub p.id).modPart p.id (fun q => { q with tstate := 1 })
  else { s with parents := s.parents.map (fun (i, q) => (i, if q.id = p.id then { q with tstate := 1 } else q)) }

/-- FLR (R398): of function cur.idx; with cur.sub 1 (level 2) or 2 (level 1), the end of the reset of partition cur.idx. A function that is
being reset answers with Request Retry Status. -/
def execFlr (s : State) : Res :=
  if s.cur.sub = 0 then
    if s.cur.idx = 0 ∨ 64 < s.cur.idx then .next s
    else match s.ownedBy s.cur.idx with
      | some p => .next (if p.tstate = 3 then { s with out := .configRetry s.cur.idx :: s.out } else s.beginFlr s.cur.idx)
      | none => .next (s.beginFlr s.cur.idx)
  else
    match s.partAt s.cur.idx (s.cur.sub == 1) with
    | some p => .next (if s.resetOver p then s.endReset p else s)
    | none => .next s

/-! ## Registers (R355, R390) -/

/-- A queue block's register. -/
def State.queueReg (s : State) (n off : Nat) : Word :=
  let q := s.queue n
  if off = 0 then q.qbase
  else if off = 8 then q.qcfg
  else if off = 0x10 then q.tail.zeroExtend 64
  else if off = 0x18 then q.head.zeroExtend 64
  else if off = 0x20 then
    0#61 ++ BitVec.ofBool q.destroying ++ BitVec.ofBool q.error ++ BitVec.ofBool (s.blocks.any (fun b => b.src == .queue n))
  else 0

/-- The doubleword at an offset of a function's WIN0. -/
def State.win0 (s : State) (fn off : Nat) : Word :=
  if 0x10000 ≤ off ∧ off < 0x50000 then
    match s.queueAt fn ((off - 0x10000) / 64) with
    | some n => s.queueReg n (off % 64)
    | none => 0
  else if off = 0 then (s.func fn).s1root
  else if off = 8 then
    match s.ownedBy fn with
    | some p => 0#55 ++ BitVec.ofBool p.faulted ++ 0#6 ++ p.tstate
    | none => 0
  else if off = 0x10 then (s.func fn).moder.zeroExtend 64
  else if off = 0x18 then (if fn = 0 then (s.func 0).ksel.zeroExtend 64 else 0)
  else 0

/-- More than 2^LOG2N entries are claimed (R355). -/
def Queue.tooFar (q : Queue) : Bool := q.en && decide (2 ^ q.log2n < q.pending)

/-- QCFG (R355): ignored while EN is set. -/
def State.writeQcfg (s : State) (fn lidx : Nat) (v : Word) : State :=
  match s.queueAt fn lidx with
  | some n =>
      let q := s.queue n
      if q.en then s
      else
        let q1 := { q with qcfg := v &&& 0x80000F1F }
        s.setQueue n { q1 with error := q1.error || q1.tooFar }
  | none => s

/-- QBASE (R355): ignored while EN is set. -/
def State.writeQbase (s : State) (fn lidx : Nat) (v : Word) : State :=
  match s.queueAt fn lidx with
  | some n => if (s.queue n).en then s else s.setQueue n { s.queue n with qbase := v &&& 0x1FFFFFFFFFF80 }
  | none => s

/-- TAIL (R355): too far ahead of HEAD sets ERROR. -/
def State.writeTail (s : State) (fn lidx : Nat) (v : Word) : State :=
  match s.queueAt fn lidx with
  | some n =>
      let q := { s.queue n with tail := v.extractLsb' 0 32 }
      s.setQueue n { q with error := q.error || q.tooFar }
  | none => s

/-- S1ROOT (R390). -/
def State.writeS1root (s : State) (fn : Nat) (v : Word) : State :=
  { s with funcs := insert s.funcs fn { s.func fn with s1root := v &&& 0xFFFFFFFFF001 } }

/-- FAULTED of the partition a function owns is cleared. -/
def State.clearFaulted (s : State) (fn : Nat) : State :=
  match s.ownedBy fn with
  | some p =>
      let f := fun q : Part => if q.id = p.id ∧ q.level2 = p.level2 then { q with faulted := false } else q
      { s with parts := s.parts.map f, parents := s.parents.map (fun (i, q) => (i, f q)) }
  | none => s

/-- A doubleword written to a function's WIN0; one holds the written bits with the others zero, for bits that act when written as 1. -/
def State.writeWin0 (s : State) (fn off : Nat) (v one : Word) : State :=
  if 0x10000 ≤ off ∧ off < 0x50000 then
    let l := (off - 0x10000) / 64
    if off % 64 = 0 then s.writeQbase fn l v
    else if off % 64 = 8 then s.writeQcfg fn l v
    else if off % 64 = 0x10 then s.writeTail fn l v
    else if off % 64 = 0x28 then s.writeQctl fn l one
    else s
  else if off = 0 then s.writeS1root fn v
  else if off = 8 then (if one.getLsbD 8 then s.clearFaulted fn else s)
  else if off = 0x10 then { s with funcs := insert s.funcs fn { s.func fn with moder := v.extractLsb' 0 16 } }
  else if off = 0x18 ∧ fn = 0 then { s with funcs := insert s.funcs 0 { s.func 0 with ksel := v.extractLsb' 0 6 } }
  else s

/-- QCFG_WRITE (R355): function cur.sub, its local queue cur.idx. -/
def execQcfgWrite (s : State) : Res := .next (s.writeQcfg s.cur.sub s.cur.idx s.cur.val)

/-- TAIL_WRITE (R355). -/
def execTailWrite (s : State) : Res := .next (s.writeTail s.cur.sub s.cur.idx s.cur.val)

/-- S1ROOT_WRITE (R390): by function cur.sub. -/
def execS1rootWrite (s : State) : Res := .next (s.writeS1root s.cur.sub s.cur.val)

/-! ## Interrupts that were held (R397) -/

/-- Whether a held message may go. -/
def State.moderated (s : State) (v : Vec) : Bool := v.held && decide (v.last + (s.func v.fn).moder.toNat * cyclesPerUs ≤ s.cycle)

/-- MSIX_MODERATION_EXPIRE (R397): vector cur.idx. -/
def execMsixModerationExpire (s : State) : Res :=
  match s.vecs.find? (·.vec == s.cur.idx) with
  | some v =>
      if s.moderated v then
        .next { s with vecs := s.vecs.map (fun x => if x.vec = v.vec then { x with held := false, last := s.cycle } else x)
                       out := .irq v.fn v.vec :: s.out }
      else .next s
  | none => .next s

/-! ## What is due -/

/-- Whether a PART block that has begun can go on. -/
def State.partReady (s : State) (b : Block) : Bool :=
  if b.parsed then
    match headOp b.raw, s.part? (pidTenant b.raw) with
    | 3, some p => s.tenantGone p.id
    | 6, some p => s.stoppedOk p
    | _, _ => true
  else s.firstUnparsed b

def partEvent (op : Nat) : Instr :=
  match op with
  | 1 => .partCreate | 2 => .partModify | 3 => .partDestroy | 4 => .qassign | 5 => .partStatus | 6 => .partStop | _ => .partStart

def State.duePartition (s : State) : List Move :=
  s.blocks.flatMap (fun b =>
    if s.canServe b && b.typ == 8 && s.partReady b then [Move.event (curIdx b.seq.toNat) (partEvent (headOp b.raw))] else [])
  ++ (s.parts ++ s.parents.map Prod.snd).flatMap (fun p =>
    if s.resetOver p then [Move.event { curIdx p.id with sub := if p.level2 then 1 else 2 } .flr] else [])
  ++ s.vecs.flatMap (fun v => if s.moderated v then [Move.event (curIdx v.vec) .msixModerationExpire] else [])

end Sys2Proof.Machine
end

