-- ==== Sys2Proof/Machine/Firmware.lean ====
section
/-! DEFINITION. Firmware: boot, measurement, images, quotes, telemetry, power, soft errors, the fatal-error dump, command links
(R383-R385, R405-R411, R416-R422). -/

namespace Sys2Proof.Machine

/-! ## Command links (R405) -/

/-- A message leaves its sender where a permit is left, and is held by it otherwise. -/
def Link.send (l : Link) : Link :=
  if l.permits = 0 then { l with heldMsgs := l.heldMsgs + 1 } else { l with permits := l.permits - 1, inbox := l.inbox + 1 }

/-- n permits of removed messages come back to the sender. -/
def Link.return (l : Link) (n : Nat) : Link :=
  let n := Nat.min (Nat.min n 15) l.owed
  { l with permits := l.permits + n, owed := l.owed - n }

/-- The receiver removes a message. -/
def Link.remove (l : Link) : Link := if l.inbox = 0 then l else { l with inbox := l.inbox - 1, owed := l.owed + 1 }

/-- A held message is sent. -/
def Link.release (l : Link) : Link :=
  if l.heldMsgs = 0 ∨ l.permits = 0 then l
  else { l with heldMsgs := l.heldMsgs - 1, permits := l.permits - 1, inbox := l.inbox + 1 }

/-- One direction of a cluster's link, up from the leaf or down to it. -/
def Cluster.link (c : Cluster) (up : Bool) : Link := if up then c.up else c.down
def Cluster.setLink (c : Cluster) (up : Bool) (l : Link) : Cluster := if up then { c with up := l } else { c with down := l }

/-- FW_LINK_MESSAGE: a message of cluster cl, up from the leaf or down to it, which carries returned permits of the other direction; one
without payload needs no permit. With cur.sub 1 the receiver of a direction removes a message, with 2 a held message is sent, and with 3
the permits that are owed to a direction come back. -/
def execFwLinkMessage (cl : Nat) (up : Bool) (returns : BitVec 4) (payload : Bool) (s : State) : Res :=
  let c := s.cluster cl
  let l := c.link up
  .next (s.setCluster cl (
    if s.cur.sub = 1 then c.setLink up l.remove
    else if s.cur.sub = 2 then c.setLink up l.release
    else if s.cur.sub = 3 then c.setLink up (l.return 15)
    else (c.setLink up (if payload then l.send else l)).setLink (!up) ((c.link (!up)).return returns.toNat)))

/-- What is due on the links. -/
def State.dueLinks (s : State) : List Move :=
  s.clusters.flatMap (fun (cl, c) => [false, true].flatMap (fun up =>
    let l := c.link up
    let ev := fun sub : Nat => Move.event { curIdx 0 with sub := sub } (.fwLinkMessage cl up 0 false)
    (if l.inbox = 0 then [] else [ev 1]) ++ (if l.heldMsgs = 0 ∨ l.permits = 0 then [] else [ev 2]) ++ (if l.owed = 0 then [] else [ev 3])))

/-! ## Boot and measurement (R406, R407) -/

/-- The digest d of an image's header and body (R406). -/
def imageDigest (img : List Byte) : BitVec 384 := sha384 (Config.imageSigned img)

/-- Both key hashes match and both signatures verify (R406). -/
def imageValid (img : List Byte) : Bool :=
  sha384 (Config.imageRsaKey img) == Config.romRsaHash && sha384 (Config.imageSlhKey img) == Config.romSlhHash
  && Config.rsaVerifies (Config.imageRsaKey img) (imageDigest img) (Config.imageRsaSignature img)
  && Config.slhVerifies (Config.imageSlhKey img) (imageDigest img) (Config.imageSlhSignature img)

/-- Boot ROM's checks of an image, and the RESULT code of their failure (R406, R411). -/
def Fw.imageResult (f : Fw) (img : List Byte) : BitVec 8 :=
  if !imageValid img then 1 else if Config.imageVersion img < f.minver then 2 else 0

def Fw.image (f : Fw) (slotB : Bool) : List Byte := if slotB then f.imgB else f.imgA

/-- The only change of M: a component's digest extends it, and joins the log (R407). -/
def Fw.extend (f : Fw) (d : BitVec 384) (kind version : Word) : Fw :=
  { f with m := sha384 (bytesOf 48 f.m.toNat ++ bytesOf 48 d.toNat)
           log := f.log ++ [{ d := d, kind := kind, version := version }] }

/-- The firmware runs an image, measured from 48 zero bytes on. -/
def Fw.run (f : Fw) (slotB : Bool) : Fw :=
  let img := f.image slotB
  let f1 : Fw := { f with up := true, noboot := false, slotB := slotB, version := Config.imageVersion img, m := 0, log := [] }
  ((f1.extend (imageDigest img) (Config.logKind 0) ((Config.imageVersion img).zeroExtend 64)).extend Config.configDigest
    (Config.logKind 1) (Config.logVersion 1)).extend Config.leafDigest (Config.logKind 2) (Config.logVersion 2)

/-- Boot (R406): the committed slot where it passes, else the other one, else the module stays in reset. -/
def Fw.boot (f : Fw) : Fw :=
  let c := f.committedB
  let f1 : Fw := { f with trial := false, reverted := false, trialAt := none }
  if f1.imageResult (f1.image c) = 0 then f1.run c
  else if f1.imageResult (f1.image !c) = 0 then f1.run !c
  else { f1 with up := false, noboot := true, slotB := c }

/-- The firmware's registers at reset, with what module flash holds (R410) and what outlasts a reset. -/
def Fw.cold (f : Fw) : Fw :=
  { Fw.fresh with imgA := f.imgA, imgB := f.imgB, committedB := f.committedB, minver := f.minver, dumpv := f.dumpv }

/-- A core after a module reset: retirement is for the life of the module (R421). -/
def Core.afterReset (c : Core) : Core := { Core.fresh with rbank := c.rbank, marked := c.marked, retired := c.retired }

/-- The module reset: State.reset, but for retired cores, host memory, what has left the module, and the model's own fields. -/
def State.moduleReset (s : State) (mem : List Host.Cell) : State :=
  { State.reset with
    tick := s.tick, inputs := s.inputs, fresh := s.fresh, out := s.out, mem := mem
    cores := (s.cores.filter (fun (_, c) => c.marked || c.retired || c.rbank != 0xFF)).map (fun (n, c) => (n, c.afterReset))
    cxlMode := s.cxlMode, fw := s.fw.cold.boot }

/-- POWER_ON_BOOT (R406, R407): module flash holds the two images, and MINVER is that of the slot last committed; memory holds nothing. -/
def execPowerOnBoot (imgA imgB : List Byte) (s : State) : Res :=
  let s1 : State := { s with fw := { s.fw with imgA := imgA, imgB := imgB, dumpv := false
                                               minver := Config.imageMinver (if s.fw.committedB then imgB else imgA) } }
  .next (s1.moduleReset (s.mem.filter (fun c => decide (2 ^ 50 ≤ c.1))))

/-! ## Requests (R409-R411, R416) -/

/-- A request completes: RESULT, and the PF's first vector. -/
def State.fwDone (s : State) (r : BitVec 8) : State :=
  ({ s with fw := { s.fw with busy := none, result := r } } : State).raise 0 0

/-- A go (R411): refused with RESULT 3 while BUSY. -/
def State.fwGo (s : State) (r : FwReq) (store : Fw → Fw) : State :=
  if s.fw.busy.isSome then { s with fw := { s.fw with result := 3 } } else { s with fw := { store s.fw with busy := some r } }

/-- Every partition that runs stops, for an activation (R410). -/
def State.stopAll (s : State) (drain : Bool) : State :=
  let l := (s.parts.filter (fun p => p.tstate == 1 && !p.stopping)).map (·.id)
  let s1 := l.foldl (fun (s : State) t => s.beginStop t drain) s
  { s1 with fw := { s1.fw with restart := l } }

/-- Whether the image in the inactive slot would pass (R410). -/
def Fw.inactiveResult (f : Fw) : BitVec 8 := f.imageResult (f.image !f.slotB)

/-- ACTIVATE's go. -/
def State.goActivate (s : State) (drain : Bool) : State :=
  let s1 := s.fwGo (.activate drain) id
  if s.fw.busy.isSome || s.fw.inactiveResult != 0 then s1 else s1.stopAll drain

/-- COMMIT (R410): before the deadline, the running slot is committed. -/
def State.commit (s : State) : State :=
  match s.fw.trialAt with
  | some d =>
      if s.fw.trial && decide (s.cycle < d) then
        { s with fw := { s.fw with
          trial := false, trialAt := none, committedB := s.fw.slotB, minver := Config.imageMinver (s.fw.image s.fw.slotB) } }
      else s
  | none => s

/-- The dump area cleared (R422). -/
def State.clearDump (s : State) : State :=
  { s with mem := Memory.clear s.mem Config.dumpBase Config.hbmBytes, fw := { s.fw with dumpv := false, clear := false } }

/-- DUMPCLR: while a copy is in progress it waits for the copy. -/
def State.dumpclr (s : State) : State :=
  match s.fw.busy with
  | some (.dumpcpy _ _ _) => { s with fw := { s.fw with clear := true } }
  | _ => s.clearDump

/-- PWRCAP (R416). -/
def pwrcapOf (v : Word) : Word :=
  let w := v.toNat % 65536
  if 4000 ≤ w ∧ w ≤ 7500 then BitVec.ofNat 64 w else 7500

/-- FWSTAT (R411, R416). -/
def Fw.stat (f : Fw) : Word :=
  f.version ++ 0#2 ++ BitVec.ofBool f.dumpv ++ BitVec.ofBool f.busy.isSome ++ BitVec.ofBool f.noboot ++ BitVec.ofBool f.reverted
    ++ BitVec.ofBool f.trial ++ BitVec.ofBool f.slotB

/-- The doubleword at an offset of the firmware window as a function reads it (R411, R416). Without firmware only FWSTAT answers. -/
def State.bar2 (s : State) (fn off : Nat) : Word :=
  let f := s.fw
  if fn ≠ 0 then 0
  else if off = 0 then f.stat
  else if !f.up then 0
  else if off = 0x10 then f.update
  else if off = 0x20 then f.quote
  else if off = 0x28 then f.result.zeroExtend 64
  else if off = 0x30 then f.telem
  else if off = 0x38 then f.drgset
  else if off = 0x40 then f.pwrcap
  else if off = 0x48 then f.dumpcpy
  else if off = 0x50 then f.dumparg
  else 0

def busOf (v : Word) : Nat := (v.extractLsb' 0 48).toNat
def goMask : Word := 0x8000FFFFFFFFFFFF

/-- A write of the PF to the firmware window; one holds the written bits with the others zero. -/
def State.writeBar2 (s : State) (fn off : Nat) (v one : Word) : State :=
  let go := one.getLsbD 63
  if fn ≠ 0 ∨ !s.fw.up then s
  else if off = 0x08 then (if one.getLsbD 0 then s.commit else s)
  else if off = 0x10 then
    let st := fun f : Fw => { f with update := v &&& goMask }
    if go then s.fwGo (.update (busOf v)) st else { s with fw := st s.fw }
  else if off = 0x18 then (if one.getLsbD 0 then s.goActivate (one.getLsbD 1) else s)
  else if off = 0x20 then
    let st := fun f : Fw => { f with quote := v &&& goMask }
    if go then s.fwGo (.quote (busOf v)) st else { s with fw := st s.fw }
  else if off = 0x30 then
    let st := fun f : Fw => { f with telem := v &&& goMask }
    if go then s.fwGo (.telem (busOf v)) st else { s with fw := st s.fw }
  else if off = 0x38 then
    let st := fun f : Fw => { f with drgset := v &&& 0x803FFFFFFFFFFFFF }
    if go then s.fwGo (.drgset (v.extractLsb' 0 32).toNat (v.extractLsb' 32 16).toNat (v.extractLsb' 48 6).toNat) st
    else { s with fw := st s.fw }
  else if off = 0x40 then { s with fw := { s.fw with pwrcap := pwrcapOf v } }
  else if off = 0x48 then
    let st := fun f : Fw => { f with dumpcpy := v &&& goMask }
    if go then s.fwGo (.dumpcpy (busOf v) ((s.fw.dumparg.extractLsb' 0 40).toNat / 4096 * 4096) (s.fw.dumparg.extractLsb' 40 24).toNat) st
    else { s with fw := st s.fw }
  else if off = 0x50 then { s with fw := { s.fw with dumparg := v } }
  else if off = 0x58 then (if one.getLsbD 0 then s.dumpclr else s)
  else s

/-- COMMIT: the PF writes cur.val. -/
def execCommit (s : State) : Res := .next (s.writeBar2 0 0x08 s.cur.val s.cur.val)

/-- UPDATE: the PF writes cur.val; with cur.sub 1 the request in progress completes (R410 steps 1 and 2). -/
def execUpdate (s : State) : Res :=
  if s.cur.sub = 0 then .next (s.writeBar2 0 0x10 s.cur.val s.cur.val)
  else match s.fw.busy with
    | some (.update bus) =>
        if Config.hostError s.tick then .next (s.fwDone 4)
        else
          let img := s.hostPeek bus (Config.imageLength (s.hostPeek bus 4096))
          let r := s.fw.imageResult img
          let f := if r = 0 then (if s.fw.slotB then { s.fw with imgA := img } else { s.fw with imgB := img }) else s.fw
          .next (({ s with fw := f } : State).fwDone r)
    | _ => .next s

/-- Whether every partition has stopped for an activation. -/
def State.allStopped (s : State) : Bool := s.parts.all (fun p => p.tstate == 2 || s.stoppedOk p)

/-- The partitions that an activation stopped run again. -/
def State.resumeParts (s : State) : State :=
  { s with
    fw := { s.fw with restart := [] }
    parts := s.parts.map (fun p => if s.fw.restart.contains p.id then { p with stopping := false, drains := false } else p) }

/-- The firmware restarts on the other slot on trial, and the partitions it stopped run again (R410). -/
def State.restartFw (s : State) : State :=
  let f := s.fw.run !s.fw.slotB
  let us := 1000000 * cyclesPerUs
  ({ s with fw := { f with
      trial := true, reverted := false, trialAt := some (s.cycle + ((Config.imageTrial (f.image f.slotB)).val + 1) * us) } } : State).resumeParts

/-- ACTIVATE: the PF writes cur.val; with cur.sub 1 the firmware restarts once every partition has stopped. -/
def execActivate (s : State) : Res :=
  if s.cur.sub = 0 then .next (s.writeBar2 0 0x18 s.cur.val s.cur.val)
  else match s.fw.busy with
    | some (.activate _) =>
        if s.fw.inactiveResult ≠ 0 ∧ s.fw.restart = [] then .next (s.fwDone s.fw.inactiveResult)
        else if s.allStopped then .next (s.restartFw.fwDone 0)
        else .next s
    | _ => .next s

/-- Whether a trial has run out (R410). -/
def State.trialOver (s : State) : Bool := s.fw.trial && (match s.fw.trialAt with | some d => decide (d ≤ s.cycle) | none => false)

/-- TRIAL_REVERT: the watchdog restarts the firmware on the old slot; a request in progress ends with the firmware that had it, a DUMPCLR
that waited for it takes effect, and the partitions an activation stopped run again. -/
def execTrialRevert (s : State) : Res :=
  .next (if s.trialOver then
    let s1 := ({ s with fw := { (s.fw.run !s.fw.slotB) with trial := false, reverted := true, trialAt := none, busy := none } } : State).resumeParts
    if s.fw.clear then s1.clearDump else s1
  else s)

/-- The quote up to its signatures (R409). -/
def State.quoteHead (s : State) (nonce : List Byte) : List Byte :=
  nonce ++ bytesOf 48 s.fw.m.toNat ++ w8 (s.fw.version ++ 0#7 ++ BitVec.ofBool s.fw.slotB) ++ bytesOf 8 s.fw.log.length
    ++ bytesOf 48 (sha384 Config.identityKeys).toNat

/-- Exactly n bytes of a list. -/
def sized (n : Nat) (l : List Byte) : List Byte := (List.range n).map (fun i => (l[i]?).getD 0)

/-- The log as a quote holds it, cut to the buffer of 20 KiB. -/
def Fw.logBytes (f : Fw) : List Byte :=
  (f.log.flatMap (fun e => bytesOf 48 e.d.toNat ++ w8 e.kind ++ w8 e.version)).take (20480 - 0x4180)

/-- QUOTE (R409): the PF writes cur.val; with cur.sub 1 the quote is written. -/
def execQuote (s : State) : Res :=
  if s.cur.sub = 0 then .next (s.writeBar2 0 0x20 s.cur.val s.cur.val)
  else match s.fw.busy with
    | some (.quote bus) =>
        if Config.hostError s.tick then .next (s.fwDone 4)
        else
          let head := s.quoteHead (s.hostPeek bus 32)
          let s1 := s.hostPoke bus (head ++ sized (384 + 16224) (Config.quoteSignature head))
          .next ((s1.hostPoke (bus + 0x4180) s.fw.logBytes).fwDone 0)
    | _ => .next s

/-- The telemetry record (R420): the hottest readings by die. -/
def State.telemetry (s : State) : List Byte :=
  let temp := fun i : Nat => BitVec.ofNat 8 ((s.fw.temps[i]?).getD 0)
  let banks := (s.cores.filter (fun (_, c) => c.rbank != 0xFF)).length
  let gone := (s.cores.filter (fun (_, c) => c.retired)).length
  let stall := (s.clusters.map (fun (_, c) => c.drgstat.toNat)).foldl (· + ·) 0
  let pinned := (s.clusters.map (fun (_, c) => ((List.finRange 64).filter (fun k => match c.frames.get k with
    | some f => f.st == .pinned
    | none => false)).length)).foldl (· + ·) 0
  bytesOf 8 s.cycle ++ bytesOf 8 (s.fw.power % 65536 + s.fw.f % 65536 * 65536) ++ (List.range 16).map temp
    ++ bytesOf 8 s.fw.secor ++ bytesOf 8 (banks % 2 ^ 20 + gone % 2 ^ 20 * 2 ^ 20) ++ bytesOf 8 stall ++ bytesOf 8 (pinned % 65536)

/-- TELEM (R420): the PF writes cur.val; with cur.sub 1 the record is written. -/
def execTelem (s : State) : Res :=
  if s.cur.sub = 0 then .next (s.writeBar2 0 0x30 s.cur.val s.cur.val)
  else match s.fw.busy with
    | some (.telem bus) =>
        if Config.hostError s.tick then .next (s.fwDone 4) else .next (let s1 := s.settleAll; (s1.hostPoke bus s1.telemetry).fwDone 0)
    | _ => .next s

/-! ## Power (R418, R419) -/

/-- The grant of every cluster of a tenant (R418). -/
def State.grant (s : State) (t budget slew : Nat) : State :=
  match s.part? t with
  | some p => p.clusters.foldl (fun (s : State) cl => s.setCluster cl { s.cluster cl with grantB := budget, grantS := slew }) s
  | none => s

/-- DRGSET (R418): the PF writes cur.val; with cur.sub 1 the grant is made. -/
def execDrgset (s : State) : Res :=
  if s.cur.sub = 0 then .next (s.writeBar2 0 0x38 s.cur.val s.cur.val)
  else match s.fw.busy with
    | some (.drgset b sl t) => .next ((s.settleAll.grant t b sl).fwDone 0)
    | _ => .next s

/-- PWRCAP_WRITE (R416). -/
def execPwrcapWrite (s : State) : Res := .next (s.writeBar2 0 0x40 s.cur.val s.cur.val)

/-- The factor f in units of 2^-16 that the power rows give, the temperatures below 95 °C (R419). -/
def powerFactor (old watts cap : Nat) : Nat :=
  if 100 * watts ≤ 95 * cap then 65536 else if cap < watts then 65536 * cap / watts else old

/-- The factor of an interval (R419). -/
def factorOf (old watts cap : Nat) (temps : List Nat) : Nat :=
  let f := powerFactor old watts cap
  if temps.any (fun t => decide (95 ≤ t)) then f / 2 else f

/-! ## The fatal-error dump (R383-R385, R422) -/

def TState.code : TState → Nat
  | .empty => 0 | .ready => 1 | .handler => 2 | .waitMem => 3 | .parkFe => 4 | .parkQ => 5 | .parkMon => 6 | .parkEngq => 7
  | .parkBar => 8 | .parkTether => 9 | .parkXl => 10 | .idleW => 11 | .hold => 12

/-- The core status record (R385). -/
def State.coreStatus (s : State) (n : Nat) : List Byte :=
  let c := s.core n
  let seq := match s.region? c.rid with | some r => if c.bound then r.seq.toNat else 0 | none => 0
  let bit := fun b : Bool => if b then 1 else 0
  let slots := List.finRange 8
  bytesOf 8 (n % 2 ^ 20 + c.tenant.toNat * 2 ^ 20 + bit c.retired * 2 ^ 26 + bit c.bound * 2 ^ 27)
    ++ bytesOf 8 (seq + c.lcore % 2 ^ 20 * 2 ^ 32)
    ++ bytesOf 8 ((slots.map (fun k => (c.th.get k).state.code * 2 ^ (4 * k.val))).foldl (· + ·) 0)
    ++ bytesOf 8 (c.mq.length + c.vq.length * 4 + c.cq.length * 16)
    ++ slots.flatMap (fun k => bytesOf 8 (c.th.get k).pc.toNat) ++ slots.map (fun k => (c.th.get k).tcause)
    ++ bytesOf 8 c.accown.toNat ++ bytesOf 8 c.smcount.toNat ++ bytesOf 8 (c.rsec % 2 ^ 32 + c.rbank.toNat * 2 ^ 32)

/-- Bit i of a byte is set where a test holds of item 8 b + i. -/
def bitByte (f : Nat → Bool) (b : Nat) : Byte :=
  BitVec.ofNat 8 (((List.range 8).map (fun i => if f (8 * b + i) then 2 ^ i else 0)).foldl (· + ·) 0)

/-- The header of a dump (R383). -/
def State.dumpHeader (s : State) (cause : BitVec 8) (detail : BitVec 56) (sram : Bool) : List Byte :=
  bytesOf 8 0x4C554C4C44554D50 ++ bytesOf 8 (1 + 4096 * 65536) ++ bytesOf 8 (cause.toNat + detail.toNat * 256) ++ bytesOf 8 s.cycle
    ++ w8 (s.fw.version ++ 0#7 ++ BitVec.ofBool s.fw.slotB) ++ bytesOf 8 (2 + if sram then 1 else 0) ++ bytesOf 16 0
    ++ ([(0x100000, 0x2800000), (0x2900000, 0x80000), (0x2A00000, 0x52800000), (0x55200000, 0x5000000)]
        ++ (if sram then [(0x60000000, 0x820000000)] else [(0, 0)])).flatMap (fun (x : Nat × Nat) => bytesOf 8 x.1 ++ bytesOf 8 x.2)

/-- The blocks of the device-launch intake. -/
def State.intake (s : State) : List Block :=
  s.blocks.filter (fun b => !b.active && (match b.src with | .device _ _ _ _ => true | _ => false))

/-- The position of a loop, as a number. -/
def LPos.code : LPos → Nat
  | .start => 0 | .launchFact => 1 | .runFact => 2 | .launchResid => 3 | .runResid => 4 | .launchSolv => 5 | .runSolv => 6 | .test => 7
  | .exit => 8 | .upcall => 9 | .finish => 10

/-- A loop context of 64 bytes: k, c, r and the position, then Rprev, n, n0 and bn (R348), and zeros. DESIGN CHOICE (entry 21): the spec
gives the dump's contexts no layout. -/
def Loop.bytes (l : Loop) : List Byte :=
  bytesOf 8 (l.k % 2 ^ 32 + l.c % 2 ^ 16 * 2 ^ 32 + l.r * 2 ^ 48 + l.pos.code * 2 ^ 56) ++ w8 (l.rprev.getD 0) ++ w8 (l.n.getD 0)
    ++ w8 (l.n0.getD 0) ++ w8 (l.bn.getD 0) ++ bytesOf 24 0

/-- The loop contexts in use, in the order of their regions. -/
def State.loops (s : State) : List Loop := (s.regions.filterMap (·.loop)).filter (fun l => !l.saved)

def FrState.code : FrState → Nat
  | .held => 1 | .evicting => 2 | .pinned => 3

/-- The 64 bytes of state of a frame (R384): its state, the sequence number of its region and its index, all ones for none, 8 bytes each.
DESIGN CHOICE (entry 21): the spec gives their places no layout. -/
def State.frameBytes (s : State) (f : Option Frame) : List Byte :=
  match f with
  | some f =>
      bytesOf 8 f.st.code ++ bytesOf 8 (((s.region? f.rid).map (fun r => r.seq.toNat)).getD 0)
        ++ bytesOf 8 (match f.index with | some i => i.val | none => 2 ^ 64 - 1) ++ bytesOf 40 0
  | none => bytesOf 64 0

/-- The byte of the front end's section (R384). -/
def State.dumpFront (s : State) (o : Nat) : Byte :=
  if o < 0x40000 then (s.queueReg (o / 64) (o % 64 / 8 * 8)).extractLsb' (o % 8 * 8) 8
  else if o < 0x40800 then match s.loops[(o - 0x40000) / 64]? with
    | some l => (l.bytes[o % 64]?).getD 0
    | none => 0
  else match s.intake[(o - 0x40800) / 128]? with
    | some b => b.raw.extractLsb' ((o - 0x40800) % 128 * 8) 8
    | none => 0

/-- The byte of the Spool's section: the images, and the state per frame; what a FREE frame holds is free. -/
def State.dumpSpool (s : State) (o : Nat) : Byte :=
  let own := Config.dumpByte (0x2A00000 + o)
  let x := o % 135168
  if x < 131072 then
    match (s.cluster (o / 135168)).frames.get ⟨x / 2048 % 64, Nat.mod_lt _ (by decide)⟩ with
    | some f => (f.img.bytes[x % 2048]?).getD 0
    | none => own
  else ((s.frameBytes ((s.cluster (o / 135168)).frames.get ⟨(x - 131072) / 64 % 64, Nat.mod_lt _ (by decide)⟩))[x % 64]?).getD 0

/-- The byte of the SRAM section: the slice, its F/E bits, its tag bits, and zeros. -/
def State.dumpSlice (s : State) (o : Nat) : Byte :=
  let n := o / 53248
  let x := o % 53248
  if x < 49152 then Memory.read s.mem (sramKey n x)
  else if x < 49920 then bitByte (fun i => s.full (sramKey n (8 * i))) (x - 49152)
  else if x < 50304 then bitByte (fun i => s.tags.contains (sramKey n (16 * i) / 16)) (x - 49920)
  else 0

/-- The byte of a dump at an offset (R384). -/
def State.dumpAt (s : State) (head : List Byte) (sram : Bool) (o : Nat) : Byte :=
  if o < 0x1000 then (head[o]?).getD 0
  else if o < 0x100000 then 0
  else if o < 0x2900000 then Config.dumpByte o
  else if o < 0x2980000 then s.dumpFront (o - 0x2900000)
  else if o < 0x2A00000 then 0
  else if o < 0x55200000 then s.dumpSpool (o - 0x2A00000)
  else if o < 0x5A200000 then ((s.coreStatus ((o - 0x55200000) / 128))[o % 128]?).getD 0
  else if o < 0x60000000 then 0
  else if sram then s.dumpSlice (o - 0x60000000) else 0

/-- Memory with the dump area replaced by a function of the offset. -/
def withDump (m : List Host.Cell) (f : Nat → Byte) : List Host.Cell :=
  m.filter (fun c => decide (c.1 < Config.dumpBase))
    ++ (List.range (Config.hbmBytes - Config.dumpBase)).filterMap (fun o =>
        if f o = Memory.unlisted then none else some (Config.dumpBase + o, f o))
    ++ m.filter (fun c => decide (Config.hbmBytes ≤ c.1))

/-- What memory outlasts a module reset: HBM with the dump, and host memory. -/
def keptMem (m : List Host.Cell) : List Host.Cell := m.filter (fun c => decide (c.1 < 2 ^ 48) || decide (2 ^ 50 ≤ c.1))

/-- A fatal error (R383, R422): a dump unless one is held, and the module is reset and boots. -/
def State.fatal (s : State) (cause : BitVec 8) (detail : BitVec 56) : State :=
  if !s.fw.up then s
  else
    let sram := Config.dumpSram s.tick
    let head := s.dumpHeader cause detail sram
    let mem := if s.fw.dumpv then s.mem else withDump s.mem (s.dumpAt head sram)
    let s1 : State := { s with fw := { s.fw with dumpv := true } }
    { s1.moduleReset (keptMem mem) with lineKey := s.lineKey }

/-- FATAL_ERROR. -/
def execFatalError (cause : BitVec 8) (detail : BitVec 56) (s : State) : Res := .next (s.fatal cause detail)

/-- POWER_INTERVAL (R419): an interval of 1 ms with the module's power and a reading for every die, the compute dies first. -/
def execPowerInterval (watts : Nat) (temps : List Nat) (s : State) : Res :=
  if !s.fw.up then .next s
  else
    let s1 := s.settleAll
    let f := factorOf s1.fw.f watts s1.fw.pwrcap.toNat temps
    let s2 : State := { s1 with fw := { s1.fw with f := f, power := watts, temps := temps } }
    .next (if temps.any (fun t => decide (105 ≤ t)) then s2.fatal 5 0 else s2)

/-- DUMPCPY (R422): the PF writes cur.val; with cur.sub 1 the range is copied up to the dump's end, and a DUMPCLR that waits takes effect. -/
def execDumpcpy (s : State) : Res :=
  if s.cur.sub = 0 then .next (s.writeBar2 0 0x48 s.cur.val s.cur.val)
  else match s.fw.busy with
    | some (.dumpcpy bus off len) =>
        let s1 := if Config.hostError s.tick then s.fwDone 4
          else (s.hostPoke bus (Memory.readN s.mem (Config.dumpBase + off)
            (Nat.min (4096 * len) (Config.hbmBytes - Config.dumpBase - off)))).fwDone 0
        .next (if s.fw.clear then s1.clearDump else s1)
    | _ => .next s

/-- DUMPCLR. -/
def execDumpclr (s : State) : Res := .next (s.writeBar2 0 0x58 s.cur.val s.cur.val)

/-! ## Soft errors (R421) -/

/-- A corrected symbol: counted, and the core marked after more than 16 in one second. -/
def State.corrected (s : State) (n : Nat) : State :=
  let c := s.core n
  let times := s.cycle :: c.rtimes.filter (fun t => decide (s.cycle < t + 1000000 * cyclesPerUs))
  let s1 := s.setCore n { c with rsec := c.rsec + 1, rtimes := times, marked := c.marked || decide (16 < times.length) }
  { s1 with fw := { s1.fw with secor := s1.fw.secor + 1 } }

/-- SOFT_ERROR (R420, R421): in the slice of a core; of a failed bank, cur.val is its number. A second fault under reconstruction retires the
core at once. -/
def execSoftError (core : Nat) (kind : SoftErr) (s : State) : Res :=
  let c := s.core core
  match kind with
  | .symbol => .next (if c.rbank = 0xFF then s.corrected core else s.retireCore core)
  | .bank =>
      .next (if c.rbank = 0xFF then s.setCore core { c with rbank := s.cur.val.extractLsb' 0 8, marked := true } else s.retireCore core)
  | .second => .next (s.retireCore core)
  | .hbm => .next (s.fatal 1 0)
  | .hbmSymbol => .next { s with fw := { s.fw with secor := s.fw.secor + 1 } }

/-! ## Links (R414, R415) -/

/-- LINK_FAILURE (R414): port cur.idx; the group reductions that cross it break. -/
def execLinkFailure (s : State) : Res :=
  let s1 : State := { s with linkDown := setAdd s.linkDown s.cur.idx }
  .next ((s1.regions.flatMap (fun r => r.stages.zipIdx.map (fun (g, i) => (r.rid, i, g)))).foldl
    (fun (s : State) x => s.groupStep x.1 x.2.1 x.2.2) s1)

/-! ## What is due -/

def fwEvent : FwReq → Instr
  | .update _ => .update
  | .activate _ => .activate
  | .quote _ => .quote
  | .telem _ => .telem
  | .drgset _ _ _ => .drgset
  | .dumpcpy _ _ _ => .dumpcpy

def State.dueFirmware (s : State) : List Move :=
  (match s.fw.busy with
   | some (.activate _) =>
       if (s.fw.inactiveResult != 0 && s.fw.restart.isEmpty) || s.allStopped then [Move.event { curIdx 0 with sub := 1 } .activate] else []
   | some r => [Move.event { curIdx 0 with sub := 1 } (fwEvent r)]
   | none => [])
  ++ (if s.trialOver then [Move.event (curIdx 0) .trialRevert] else [])
  ++ s.dueLinks

end Sys2Proof.Machine
end

