-- ==== Sys2Proof/Machine/HostPort.lean ====
section
/-! DEFINITION. Accesses from outside: host ports, CXL.mem and link ports (R256, R273, R274, R390, R394, R411-R414). -/

namespace Sys2Proof.Machine

/-! ## Register windows -/

/-- The written bytes of a doubleword at d over old ones, for a write of data at an address. -/
def mergeDword (old : Word) (d addr : Nat) (data : List Byte) : Word :=
  BitVec.ofNat 64 (ofBytes ((List.range 8).map (fun i =>
    if addr ≤ d + i ∧ d + i < addr + data.length then (data[d + i - addr]?).getD 0 else old.extractLsb' (8 * i) 8)))

/-- The aligned doublewords that n bytes at an address touch. -/
def dwordsOf (addr n : Nat) : List Nat := (List.range ((addr + n + 7) / 8 - addr / 8)).map (fun i => 8 * (addr / 8 + i))

/-- One doubleword of a register window is written: BAR0 of a function, or the PF's BAR2. -/
def State.writeReg (s : State) (bar fn d : Nat) (v one : Word) : State :=
  if bar = 0 then (if s.fw.up then s.writeWin0 fn d v one else s) else s.writeBar2 fn d v one

/-- The doubleword a register window reads as. -/
def State.readReg (s : State) (bar fn d : Nat) : Word :=
  if bar = 0 then (if s.fw.up then s.win0 fn d else 0) else s.bar2 fn d

/-- REGISTER_WRITE: function cur.sub writes cur.val to offset cur.idx of the BAR cur.core. -/
def execRegisterWrite (s : State) : Res := .next (s.writeReg s.cur.core s.cur.sub s.cur.idx s.cur.val s.cur.val)

def State.writeRegs (s : State) (bar fn addr : Nat) (data : List Byte) : State :=
  (dwordsOf addr data.length).foldl (fun (s : State) d =>
    s.writeReg bar fn d (mergeDword (s.readReg bar fn d) d addr data) (mergeDword 0 d addr data)) s

def State.readRegs (s : State) (bar fn addr n : Nat) : List Byte :=
  (List.range n).map (fun i => (s.readReg bar fn ((addr + i) / 8 * 8)).extractLsb' (8 * ((addr + i) % 8)) 8)

/-! ## Memory (R391, R394) -/

/-- Where an access from outside reaches HBM, by the MTU of compute die 0: as a tenant, through its second stage alone or through both. -/
def State.portPlace (s : State) (t : BitVec 6) (both : Bool) (x : Nat) (a : Acc) : Except XErr (Nat × State) := s.translate 0 t both x a

/-- The state after a fault that is not held (R394). -/
def State.portFault (s : State) (t : BitVec 6) : XErr → State
  | .stage1 => s
  | .stage2 ipa k => s.logFault t ipa k none

/-- A posted write: a piece that faults is dropped. -/
def State.portWrite (t : BitVec 6) (both : Bool) : List (Nat × Nat) → List Byte → State → State
  | [], _, s => s
  | (x, n) :: r, bs, s =>
      let s1 := if 0x400000000000 < x + n then s
        else match s.portPlace t both x .write with
          | .error e => s.portFault t e
          | .ok (pa, s2) => s2.writeAt (feAgent t s2.fresh) (.hbm pa) (bs.take n) 0x01
      State.portWrite t both r (bs.drop n) s1

/-- A read: none where a piece faults. -/
def State.portRead (t : BitVec 6) (both : Bool) : List (Nat × Nat) → State → Option (List Byte) × State
  | [], s => (some [], s)
  | (x, n) :: r, s =>
      if 0x400000000000 < x + n then (none, s)
      else match s.portPlace t both x .read with
        | .error e => (none, s.portFault t e)
        | .ok (pa, s1) =>
            let bs := s1.readAt t (.hbm pa) n
            match State.portRead t both r s1 with
            | (some l, s2) => (some (bs ++ l), s2)
            | (none, s2) => (none, s2)

/-- The tenant of a function's accesses to HBM: KSEL for the PF, by its second stage (R390). -/
def State.hostTenant (s : State) (fn : Nat) : Option (BitVec 6 × Bool) :=
  if fn = 0 then some ((s.func 0).ksel, false)
  else (s.parts.find? (·.func == fn)).map (fun p => (BitVec.ofNat 6 p.id, true))

/-- Whether a port presents the functions (R412): port 1 does in PCIe mode only. -/
def State.presents (s : State) (port : Nat) : Bool := port == 0 || !s.cxlMode

/-- HOST_WRITE (R273, R390). -/
def execHostWrite (port fn : Nat) (space : Space) (addr : Addr) (data : List Byte) (s : State) : Res :=
  if !s.presents port then .next s else
  match space with
  | .win0 => .next (s.writeRegs 0 fn addr.toNat data)
  | .bar2 => .next (s.writeRegs 2 fn addr.toNat data)
  | .mem =>
      match s.hostTenant fn with
      | some (t, both) => .next (if s.fw.up then State.portWrite t both (piecesOf addr.toNat data.length) data s else s)
      | none => .next s

/-- HOST_READ (R273, R394): a fault answers with Completer Abort. -/
def execHostRead (port fn : Nat) (space : Space) (addr : Addr) (n : Nat) (s : State) : Res :=
  let answer := fun (s : State) (r : Option (List Byte)) => ({ s with out := .completion port r.isSome (r.getD []) :: s.out } : State)
  if !s.presents port then .next (answer s none) else
  match space with
  | .win0 => .next (answer s (some (s.readRegs 0 fn addr.toNat n)))
  | .bar2 => .next (answer s (some (s.readRegs 2 fn addr.toNat n)))
  | .mem =>
      match s.hostTenant fn with
      | some (t, both) =>
          if s.fw.up then
            let (r, s1) := State.portRead t both (piecesOf addr.toNat n) s
            .next (answer s1 r)
          else .next (answer s none)
      | none => .next (answer s none)

/-- The tenant an IPA range belongs to by the HDM decoder, while port 1 is set to CXL (R412). -/
def State.cxlTenant (s : State) (ipa n : Nat) : Option (BitVec 6) :=
  match s.cxl with
  | some (t, base, size) => if s.cxlMode && decide (base ≤ ipa ∧ ipa + n ≤ base + size) then some t else none
  | none => none

/-- CXL_MEM_REQUEST (R273, R412): to an IPA of the tenant of the HDM decoder. -/
def execCxlMemRequest (write : Bool) (ipa : Addr) (data : List Byte) (n : Nat) (s : State) : Res :=
  match s.cxlTenant ipa.toNat (if write then data.length else n) with
  | none => .next { s with out := .cxlCompletion false [] :: s.out }
  | some t =>
      if write then
        let s1 := State.portWrite t false (piecesOf ipa.toNat data.length) data s
        .next { s1 with out := .cxlCompletion true [] :: s1.out }
      else
        let (r, s1) := State.portRead t false (piecesOf ipa.toNat n) s
        .next { s1 with out := .cxlCompletion r.isSome (r.getD []) :: s1.out }

/-- LINK_REQUEST (R274, R414): a peer's request for the local tenant that the port pairs with its tenant. -/
def execLinkRequest (port : Nat) (remote : BitVec 6) (write : Bool) (addr : Addr) (data : List Byte) (n : Nat) (s : State) : Res :=
  if s.linkDown.contains port then .next s
  else match (s.pairsOf port).find? (fun (_, _, r) => r == remote) with
    | none => .next { s with out := .linkCompletion port false [] :: s.out }
    | some (_, t, _) =>
        if write then .next (State.portWrite t true (piecesOf addr.toNat data.length) data s)
        else
          let (r, s1) := State.portRead t true (piecesOf addr.toNat n) s
          .next { s1 with out := .linkCompletion port r.isSome (r.getD []) :: s1.out }

end Sys2Proof.Machine
end

