-- ==== Sys2Proof/Machine/Dispatch.lean ====
section
/-! DEFINITION. One arm per instruction and event: a call of its meaning. -/

namespace Sys2Proof.Machine

def exec (i : Instr) (s : State) : Host.Outcome State Fault Refusal :=
  match i with
  | .add d p t => Sys2Proof.Machine.execAdd d p t s
  | .sub d p t => Sys2Proof.Machine.execSub d p t s
  | .and d p t => Sys2Proof.Machine.execAnd d p t s
  | .or d p t => Sys2Proof.Machine.execOr d p t s
  | .xor d p t => Sys2Proof.Machine.execXor d p t s
  | .andn d p t => Sys2Proof.Machine.execAndn d p t s
  | .orn d p t => Sys2Proof.Machine.execOrn d p t s
  | .min d p t => Sys2Proof.Machine.execMin d p t s
  | .max d p t => Sys2Proof.Machine.execMax d p t s
  | .minu d p t => Sys2Proof.Machine.execMinu d p t s
  | .maxu d p t => Sys2Proof.Machine.execMaxu d p t s
  | .sel d p t => Sys2Proof.Machine.execSel d p t s
  | .mov d p => Sys2Proof.Machine.execMov d p s
  | .shl d p t => Sys2Proof.Machine.execShl d p t s
  | .shr d p t => Sys2Proof.Machine.execShr d p t s
  | .sar d p t => Sys2Proof.Machine.execSar d p t s
  | .rotl d p t => Sys2Proof.Machine.execRotl d p t s
  | .clz d p => Sys2Proof.Machine.execClz d p s
  | .ctz d p => Sys2Proof.Machine.execCtz d p s
  | .popc d p => Sys2Proof.Machine.execPopc d p s
  | .sextB d p => Sys2Proof.Machine.execSextB d p s
  | .sextH d p => Sys2Proof.Machine.execSextH d p s
  | .sextW d p => Sys2Proof.Machine.execSextW d p s
  | .zextB d p => Sys2Proof.Machine.execZextB d p s
  | .zextH d p => Sys2Proof.Machine.execZextH d p s
  | .zextW d p => Sys2Proof.Machine.execZextW d p s
  | .bfx d p t => Sys2Proof.Machine.execBfx d p t s
  | .bfi d p t => Sys2Proof.Machine.execBfi d p t s
  | .mul d p t => Sys2Proof.Machine.execMul d p t s
  | .mulh d p t => Sys2Proof.Machine.execMulh d p t s
  | .mulhu d p t => Sys2Proof.Machine.execMulhu d p t s
  | .div d p t => Sys2Proof.Machine.execDiv d p t s
  | .divu d p t => Sys2Proof.Machine.execDivu d p t s
  | .rem d p t => Sys2Proof.Machine.execRem d p t s
  | .remu d p t => Sys2Proof.Machine.execRemu d p t s
  | .seq d p t => Sys2Proof.Machine.execSeq d p t s
  | .sne d p t => Sys2Proof.Machine.execSne d p t s
  | .slt d p t => Sys2Proof.Machine.execSlt d p t s
  | .sltu d p t => Sys2Proof.Machine.execSltu d p t s
  | .sle d p t => Sys2Proof.Machine.execSle d p t s
  | .sleu d p t => Sys2Proof.Machine.execSleu d p t s
  | .fadd y d p t => Sys2Proof.Machine.execFadd y d p t s
  | .fsub y d p t => Sys2Proof.Machine.execFsub y d p t s
  | .fmul y d p t => Sys2Proof.Machine.execFmul y d p t s
  | .fdiv y d p t => Sys2Proof.Machine.execFdiv y d p t s
  | .fsqrt y d p => Sys2Proof.Machine.execFsqrt y d p s
  | .fmin y d p t => Sys2Proof.Machine.execFmin y d p t s
  | .fmax y d p t => Sys2Proof.Machine.execFmax y d p t s
  | .fsgn y d p t => Sys2Proof.Machine.execFsgn y d p t s
  | .feq y d p t => Sys2Proof.Machine.execFeq y d p t s
  | .flt y d p t => Sys2Proof.Machine.execFlt y d p t s
  | .fle y d p t => Sys2Proof.Machine.execFle y d p t s
  | .fcls y d p => Sys2Proof.Machine.execFcls y d p s
  | .fma y d p t => Sys2Proof.Machine.execFma y d p t s
  | .fcvt dty sty d p => Sys2Proof.Machine.execFcvt dty sty d p s
  | .cadd d p t => Sys2Proof.Machine.execCadd d p t s
  | .cset d p t => Sys2Proof.Machine.execCset d p t s
  | .cbnd d p t => Sys2Proof.Machine.execCbnd d p t s
  | .cperm d p t => Sys2Proof.Machine.execCperm d p t s
  | .cmov d p => Sys2Proof.Machine.execCmov d p s
  | .ctag d p => Sys2Proof.Machine.execCtag d p s
  | .cgetCur d p => Sys2Proof.Machine.execCgetCur d p s
  | .cgetBase d p => Sys2Proof.Machine.execCgetBase d p s
  | .cgetTop d p => Sys2Proof.Machine.execCgetTop d p s
  | .cgetLen d p => Sys2Proof.Machine.execCgetLen d p s
  | .cgetPerm d p => Sys2Proof.Machine.execCgetPerm d p s
  | .cgetTen d p => Sys2Proof.Machine.execCgetTen d p s
  | .cgetKind d p => Sys2Proof.Machine.execCgetKind d p s
  | .cgetTag d p => Sys2Proof.Machine.execCgetTag d p s
  | .b disp => Sys2Proof.Machine.execB disp s
  | .bEq p disp => Sys2Proof.Machine.execBEq p disp s
  | .bNe p disp => Sys2Proof.Machine.execBNe p disp s
  | .bLt p disp => Sys2Proof.Machine.execBLt p disp s
  | .bGe p disp => Sys2Proof.Machine.execBGe p disp s
  | .bLe p disp => Sys2Proof.Machine.execBLe p disp s
  | .bGt p disp => Sys2Proof.Machine.execBGt p disp s
  | .dbnz p disp => Sys2Proof.Machine.execDbnz p disp s
  | .jmp disp => Sys2Proof.Machine.execJmp disp s
  | .call disp => Sys2Proof.Machine.execCall disp s
  | .jmpr p => Sys2Proof.Machine.execJmpr p s
  | .callr p => Sys2Proof.Machine.execCallr p s
  | .ld d a off sz => Sys2Proof.Machine.execLd d a off sz s
  | .ldZext d a off sz => Sys2Proof.Machine.execLdZext d a off sz s
  | .st v a off sz => Sys2Proof.Machine.execSt v a off sz s
  | .ldc c a off => Sys2Proof.Machine.execLdc c a off s
  | .stc c a off => Sys2Proof.Machine.execStc c a off s
  | .ldf d a off => Sys2Proof.Machine.execLdf d a off s
  | .ldfe d a off => Sys2Proof.Machine.execLdfe d a off s
  | .stef v a off => Sys2Proof.Machine.execStef v a off s
  | .stf v a off => Sys2Proof.Machine.execStf v a off s
  | .empt a off => Sys2Proof.Machine.execEmpt a off s
  | .fes d a off => Sys2Proof.Machine.execFes d a off s
  | .amoAdd d a t dbl => Sys2Proof.Machine.execAmoAdd d a t dbl s
  | .amoAnd d a t dbl => Sys2Proof.Machine.execAmoAnd d a t dbl s
  | .amoOr d a t dbl => Sys2Proof.Machine.execAmoOr d a t dbl s
  | .amoXor d a t dbl => Sys2Proof.Machine.execAmoXor d a t dbl s
  | .amoMin d a t dbl => Sys2Proof.Machine.execAmoMin d a t dbl s
  | .amoMax d a t dbl => Sys2Proof.Machine.execAmoMax d a t dbl s
  | .amoMinu d a t dbl => Sys2Proof.Machine.execAmoMinu d a t dbl s
  | .amoMaxu d a t dbl => Sys2Proof.Machine.execAmoMaxu d a t dbl s
  | .amoSwap d a t dbl => Sys2Proof.Machine.execAmoSwap d a t dbl s
  | .amoFaddS d a t => Sys2Proof.Machine.execAmoFaddS d a t s
  | .cas d a t dbl => Sys2Proof.Machine.execCas d a t dbl s
  | .mon a => Sys2Proof.Machine.execMon a s
  | .mwait d t => Sys2Proof.Machine.execMwait d t s
  | .fence sc => Sys2Proof.Machine.execFence sc s
  | .ord o sc => Sys2Proof.Machine.execOrd o sc s
  | .qpoll d q => Sys2Proof.Machine.execQpoll d q s
  | .qcnt d q => Sys2Proof.Machine.execQcnt d q s
  | .qclose d q => Sys2Proof.Machine.execQclose d q s
  | .qstat d q => Sys2Proof.Machine.execQstat d q s
  | .qwait d q t => Sys2Proof.Machine.execQwait d q t s
  | .barv d p t => Sys2Proof.Machine.execBarv d p t s
  | .barw d p t => Sys2Proof.Machine.execBarw d p t s
  | .bexp d p t => Sys2Proof.Machine.execBexp d p t s
  | .bini d p t => Sys2Proof.Machine.execBini d p t s
  | .fork d p => Sys2Proof.Machine.execFork d p s
  | .jdec d a => Sys2Proof.Machine.execJdec d a s
  | .pushr d p => Sys2Proof.Machine.execPushr d p s
  | .popr d p => Sys2Proof.Machine.execPopr d p s
  | .splitr d p t => Sys2Proof.Machine.execSplitr d p t s
  | .steal d p => Sys2Proof.Machine.execSteal d p s
  | .dsp d p => Sys2Proof.Machine.execDsp d p s
  | .launch d a => Sys2Proof.Machine.execLaunch d a s
  | .binc d a t => Sys2Proof.Machine.execBinc d a t s
  | .bdec d a t => Sys2Proof.Machine.execBdec d a t s
  | .bcan d a t => Sys2Proof.Machine.execBcan d a t s
  | .bbar d a t => Sys2Proof.Machine.execBbar d a t s
  | .bbw d a t => Sys2Proof.Machine.execBbw d a t s
  | .bcfg d a t => Sys2Proof.Machine.execBcfg d a t s
  | .bpeek d a t => Sys2Proof.Machine.execBpeek d a t s
  | .trecv d e => Sys2Proof.Machine.execTrecv d e s
  | .tsend d q t => Sys2Proof.Machine.execTsend d q t s
  | .tann d q t => Sys2Proof.Machine.execTann d q t s
  | .tlah d q t => Sys2Proof.Machine.execTlah d q t s
  | .tdone d => Sys2Proof.Machine.execTdone d s
  | .enqm v => Sys2Proof.Machine.execEnqm v s
  | .enqc v => Sys2Proof.Machine.execEnqc v s
  | .ewait d p => Sys2Proof.Machine.execEwait d p s
  | .xbset p => Sys2Proof.Machine.execXbset p s
  | .xbp p => Sys2Proof.Machine.execXbp p s
  | .srd d sys => Sys2Proof.Machine.execSrd d sys s
  | .swr sys v => Sys2Proof.Machine.execSwr sys v s
  | .swapctx d p t => Sys2Proof.Machine.execSwapctx d p t s
  | .spsave d p => Sys2Proof.Machine.execSpsave d p s
  | .spload d p t => Sys2Proof.Machine.execSpload d p t s
  | .pth d p t => Sys2Proof.Machine.execPth d p t s
  | .rth d p t => Sys2Proof.Machine.execRth d p t s
  | .ebrk p => Sys2Proof.Machine.execEbrk p s
  | .scall p => Sys2Proof.Machine.execScall p s
  | .trap p => Sys2Proof.Machine.execTrap p s
  | .vadd vd vs vt km ty => Sys2Proof.Machine.execVadd vd vs vt km ty s
  | .vsub vd vs vt km ty => Sys2Proof.Machine.execVsub vd vs vt km ty s
  | .vmul vd vs vt km ty => Sys2Proof.Machine.execVmul vd vs vt km ty s
  | .vfma vd vs vt km ty => Sys2Proof.Machine.execVfma vd vs vt km ty s
  | .vmin vd vs vt km ty => Sys2Proof.Machine.execVmin vd vs vt km ty s
  | .vmax vd vs vt km ty => Sys2Proof.Machine.execVmax vd vs vt km ty s
  | .vabs vd vs km ty => Sys2Proof.Machine.execVabs vd vs km ty s
  | .vneg vd vs km ty => Sys2Proof.Machine.execVneg vd vs km ty s
  | .vsclb vd vs vt km ty => Sys2Proof.Machine.execVsclb vd vs vt km ty s
  | .vand vd vs vt km ty => Sys2Proof.Machine.execVand vd vs vt km ty s
  | .vor vd vs vt km ty => Sys2Proof.Machine.execVor vd vs vt km ty s
  | .vxor vd vs vt km ty => Sys2Proof.Machine.execVxor vd vs vt km ty s
  | .vshl vd vs vt km ty => Sys2Proof.Machine.execVshl vd vs vt km ty s
  | .vshr vd vs vt km ty => Sys2Proof.Machine.execVshr vd vs vt km ty s
  | .vsar vd vs vt km ty => Sys2Proof.Machine.execVsar vd vs vt km ty s
  | .vcmpEq kd vs vt km ty => Sys2Proof.Machine.execVcmpEq kd vs vt km ty s
  | .vcmpNe kd vs vt km ty => Sys2Proof.Machine.execVcmpNe kd vs vt km ty s
  | .vcmpLt kd vs vt km ty => Sys2Proof.Machine.execVcmpLt kd vs vt km ty s
  | .vcmpLe kd vs vt km ty => Sys2Proof.Machine.execVcmpLe kd vs vt km ty s
  | .vcmpGt kd vs vt km ty => Sys2Proof.Machine.execVcmpGt kd vs vt km ty s
  | .vcmpGe kd vs vt km ty => Sys2Proof.Machine.execVcmpGe kd vs vt km ty s
  | .vsel vd vs vt km ty => Sys2Proof.Machine.execVsel vd vs vt km ty s
  | .vcls vd vs km ty => Sys2Proof.Machine.execVcls vd vs km ty s
  | .vcvt vd vs p km dty sty => Sys2Proof.Machine.execVcvt vd vs p km dty sty s
  | .vld vd a off km ty => Sys2Proof.Machine.execVld vd a off km ty s
  | .vst vd a off km ty => Sys2Proof.Machine.execVst vd a off km ty s
  | .vldx vd a vt km ty => Sys2Proof.Machine.execVldx vd a vt km ty s
  | .vstx vd a vt km ty => Sys2Proof.Machine.execVstx vd a vt km ty s
  | .vbc vd gs km ty => Sys2Proof.Machine.execVbc vd gs km ty s
  | .vmovg gd vs gt ty => Sys2Proof.Machine.execVmovg gd vs gt ty s
  | .vins vd gs gt ty => Sys2Proof.Machine.execVins vd gs gt ty s
  | .vperm vd vs vt km ty => Sys2Proof.Machine.execVperm vd vs vt km ty s
  | .vrot vd vs gt km ty => Sys2Proof.Machine.execVrot vd vs gt km ty s
  | .vred vd vs km ty => Sys2Proof.Machine.execVred vd vs km ty s
  | .vdot vd vs vt km ty => Sys2Proof.Machine.execVdot vd vs vt km ty s
  | .vexp2 vd vs km ty => Sys2Proof.Machine.execVexp2 vd vs km ty s
  | .vlog2 vd vs km ty => Sys2Proof.Machine.execVlog2 vd vs km ty s
  | .vrcp vd vs km ty => Sys2Proof.Machine.execVrcp vd vs km ty s
  | .vrsq vd vs km ty => Sys2Proof.Machine.execVrsq vd vs km ty s
  | .vacr vd gt km ty => Sys2Proof.Machine.execVacr vd gt km ty s
  | .vacw vs gt km ty => Sys2Proof.Machine.execVacw vs gt km ty s
  | .kand kd ks kt => Sys2Proof.Machine.execKand kd ks kt s
  | .kor kd ks kt => Sys2Proof.Machine.execKor kd ks kt s
  | .kxor kd ks kt => Sys2Proof.Machine.execKxor kd ks kt s
  | .knot kd ks => Sys2Proof.Machine.execKnot kd ks s
  | .kmovKk kd ks => Sys2Proof.Machine.execKmovKk kd ks s
  | .kmovKg kd gs => Sys2Proof.Machine.execKmovKg kd gs s
  | .kmovGk gd ks => Sys2Proof.Machine.execKmovGk gd ks s
  | .kpop gd ks => Sys2Proof.Machine.execKpop gd ks s
  | .mzero h slot => Sys2Proof.Machine.execMzero h slot s
  | .mmulF64 h f => Sys2Proof.Machine.execMmulF64 h f s
  | .mmulF32 h f => Sys2Proof.Machine.execMmulF32 h f s
  | .mmulBf16 h f => Sys2Proof.Machine.execMmulBf16 h f s
  | .mmulF16 h f => Sys2Proof.Machine.execMmulF16 h f s
  | .mmulE4m3 h f => Sys2Proof.Machine.execMmulE4m3 h f s
  | .mmulE5m2 h f => Sys2Proof.Machine.execMmulE5m2 h f s
  | .mmulE4e5 h f => Sys2Proof.Machine.execMmulE4e5 h f s
  | .mmulNq4e4 h f => Sys2Proof.Machine.execMmulNq4e4 h f s
  | .mmulNq4b h f => Sys2Proof.Machine.execMmulNq4b h f s
  | .mmulI8 h f => Sys2Proof.Machine.execMmulI8 h f s
  | .mlatch h f => Sys2Proof.Machine.execMlatch h f s
  | .mtrans h f => Sys2Proof.Machine.execMtrans h f s
  | .mrot h sl dl => Sys2Proof.Machine.execMrot h sl dl s
  | .mstore h d str sty dty slot => Sys2Proof.Machine.execMstore h d str sty dty slot s
  | .mspill h m slot => Sys2Proof.Machine.execMspill h m slot s
  | .mfill h m slot => Sys2Proof.Machine.execMfill h m slot s
  | .ccopy h p d t sty dty => Sys2Proof.Machine.execCcopy h p d t sty dty s
  | .cgath h f => Sys2Proof.Machine.execCgath h f s
  | .cscat h f => Sys2Proof.Machine.execCscat h f s
  | .cscata h f => Sys2Proof.Machine.execCscata h f s
  | .cmerge h x y o na nb dupok cty => Sys2Proof.Machine.execCmerge h x y o na nb dupok cty s
  | .cred h p ridx => Sys2Proof.Machine.execCred h p ridx s
  | .cfill h d t value ety => Sys2Proof.Machine.execCfill h d t value ety s
  | .cstrm h p t ety q => Sys2Proof.Machine.execCstrm h p t ety q s
  | .cbcast h p dcap doff len scope => Sys2Proof.Machine.execCbcast h p dcap doff len scope s
  | .cquant h p k v nblk => Sys2Proof.Machine.execCquant h p k v nblk s
  | .hostWrite port fn space addr data => Sys2Proof.Machine.execHostWrite port fn space addr data s
  | .hostRead port fn space addr n => Sys2Proof.Machine.execHostRead port fn space addr n s
  | .cxlMemRequest write ipa data n => Sys2Proof.Machine.execCxlMemRequest write ipa data n s
  | .linkRequest port remote write addr data n => Sys2Proof.Machine.execLinkRequest port remote write addr data n s
  | .groupPartial tag ch src msg => Sys2Proof.Machine.execGroupPartial tag ch src msg s
  | .fwLinkMessage cluster up returns payload => Sys2Proof.Machine.execFwLinkMessage cluster up returns payload s
  | .powerOnBoot imgA imgB => Sys2Proof.Machine.execPowerOnBoot imgA imgB s
  | .powerInterval watts temps => Sys2Proof.Machine.execPowerInterval watts temps s
  | .fatalError cause detail => Sys2Proof.Machine.execFatalError cause detail s
  | .softError core kind => Sys2Proof.Machine.execSoftError core kind s
  | .ret => Sys2Proof.Machine.execRet s
  | .waitw => Sys2Proof.Machine.execWaitw s
  | .tend => Sys2Proof.Machine.execTend s
  | .done => Sys2Proof.Machine.execDone s
  | .yield => Sys2Proof.Machine.execYield s
  | .tret => Sys2Proof.Machine.execTret s
  | .nop => Sys2Proof.Machine.execNop s
  | .feResend => Sys2Proof.Machine.execFeResend s
  | .reservationGrant => Sys2Proof.Machine.execReservationGrant s
  | .mwaitWake => Sys2Proof.Machine.execMwaitWake s
  | .mwaitTimeout => Sys2Proof.Machine.execMwaitTimeout s
  | .watchEvict => Sys2Proof.Machine.execWatchEvict s
  | .qwaitTimeout => Sys2Proof.Machine.execQwaitTimeout s
  | .doneProceed => Sys2Proof.Machine.execDoneProceed s
  | .yieldExpire => Sys2Proof.Machine.execYieldExpire s
  | .stealRequest => Sys2Proof.Machine.execStealRequest s
  | .idlewRetry => Sys2Proof.Machine.execIdlewRetry s
  | .balancerServe => Sys2Proof.Machine.execBalancerServe s
  | .exitCellServe => Sys2Proof.Machine.execExitCellServe s
  | .bridleResult => Sys2Proof.Machine.execBridleResult s
  | .bcfgDrainDone => Sys2Proof.Machine.execBcfgDrainDone s
  | .bridleBarrierRelease => Sys2Proof.Machine.execBridleBarrierRelease s
  | .tetherAnnounce => Sys2Proof.Machine.execTetherAnnounce s
  | .tetherAnnounceArrival => Sys2Proof.Machine.execTetherAnnounceArrival s
  | .slotArrival => Sys2Proof.Machine.execSlotArrival s
  | .channelSlotFreed => Sys2Proof.Machine.execChannelSlotFreed s
  | .closeMarkerArrival => Sys2Proof.Machine.execCloseMarkerArrival s
  | .xbarTermFire => Sys2Proof.Machine.execXbarTermFire s
  | .xbarOutputPending => Sys2Proof.Machine.execXbarOutputPending s
  | .xbarTickPulse => Sys2Proof.Machine.execXbarTickPulse s
  | .fpcsrWrite => Sys2Proof.Machine.execFpcsrWrite s
  | .xbcfgWrite => Sys2Proof.Machine.execXbcfgWrite s
  | .cflagsClear => Sys2Proof.Machine.execCflagsClear s
  | .accownWrite => Sys2Proof.Machine.execAccownWrite s
  | .timer => Sys2Proof.Machine.execTimer s
  | .vectorStart => Sys2Proof.Machine.execVectorStart s
  | .vectorComplete => Sys2Proof.Machine.execVectorComplete s
  | .mrotTileArrive => Sys2Proof.Machine.execMrotTileArrive s
  | .streamElementDelivery => Sys2Proof.Machine.execStreamElementDelivery s
  | .engineCommandStart => Sys2Proof.Machine.execEngineCommandStart s
  | .commandComplete => Sys2Proof.Machine.execCommandComplete s
  | .drogueWindow => Sys2Proof.Machine.execDrogueWindow s
  | .homeRequest => Sys2Proof.Machine.execHomeRequest s
  | .accessReply => Sys2Proof.Machine.execAccessReply s
  | .scopeMissMessage => Sys2Proof.Machine.execScopeMissMessage s
  | .scopeMissHandling => Sys2Proof.Machine.execScopeMissHandling s
  | .nodeDoneMessage => Sys2Proof.Machine.execNodeDoneMessage s
  | .dispatch => Sys2Proof.Machine.execDispatch s
  | .nopBlock => Sys2Proof.Machine.execNopBlock s
  | .launchBlock => Sys2Proof.Machine.execLaunchBlock s
  | .launchBindRetry => Sys2Proof.Machine.execLaunchBindRetry s
  | .ballastBlock => Sys2Proof.Machine.execBallastBlock s
  | .ballastTest => Sys2Proof.Machine.execBallastTest s
  | .ballastUpcall => Sys2Proof.Machine.execBallastUpcall s
  | .waitwBlock => Sys2Proof.Machine.execWaitwBlock s
  | .waitwBlockTimeout => Sys2Proof.Machine.execWaitwBlockTimeout s
  | .signal => Sys2Proof.Machine.execSignal s
  | .tstamp => Sys2Proof.Machine.execTstamp s
  | .inval => Sys2Proof.Machine.execInval s
  | .dirtysnap => Sys2Proof.Machine.execDirtysnap s
  | .seal => Sys2Proof.Machine.execSeal s
  | .partCreate => Sys2Proof.Machine.execPartCreate s
  | .partModify => Sys2Proof.Machine.execPartModify s
  | .partDestroy => Sys2Proof.Machine.execPartDestroy s
  | .qassign => Sys2Proof.Machine.execQassign s
  | .partStatus => Sys2Proof.Machine.execPartStatus s
  | .partStop => Sys2Proof.Machine.execPartStop s
  | .partStart => Sys2Proof.Machine.execPartStart s
  | .qcfgWrite => Sys2Proof.Machine.execQcfgWrite s
  | .tailWrite => Sys2Proof.Machine.execTailWrite s
  | .qctlDestroy => Sys2Proof.Machine.execQctlDestroy s
  | .s1rootWrite => Sys2Proof.Machine.execS1rootWrite s
  | .registerWrite => Sys2Proof.Machine.execRegisterWrite s
  | .preemptThread => Sys2Proof.Machine.execPreemptThread s
  | .sliceEnd => Sys2Proof.Machine.execSliceEnd s
  | .sliceResume => Sys2Proof.Machine.execSliceResume s
  | .hypervisorPreempt => Sys2Proof.Machine.execHypervisorPreempt s
  | .spoolEvict => Sys2Proof.Machine.execSpoolEvict s
  | .evictionDone => Sys2Proof.Machine.execEvictionDone s
  | .framePinResolved => Sys2Proof.Machine.execFramePinResolved s
  | .spoolRefillDone => Sys2Proof.Machine.execSpoolRefillDone s
  | .regionTeardown => Sys2Proof.Machine.execRegionTeardown s
  | .msgToDone => Sys2Proof.Machine.execMsgToDone s
  | .coreRetire => Sys2Proof.Machine.execCoreRetire s
  | .flr => Sys2Proof.Machine.execFlr s
  | .msixModerationExpire => Sys2Proof.Machine.execMsixModerationExpire s
  | .linkFailure => Sys2Proof.Machine.execLinkFailure s
  | .commit => Sys2Proof.Machine.execCommit s
  | .update => Sys2Proof.Machine.execUpdate s
  | .activate => Sys2Proof.Machine.execActivate s
  | .trialRevert => Sys2Proof.Machine.execTrialRevert s
  | .quote => Sys2Proof.Machine.execQuote s
  | .telem => Sys2Proof.Machine.execTelem s
  | .drgset => Sys2Proof.Machine.execDrgset s
  | .pwrcapWrite => Sys2Proof.Machine.execPwrcapWrite s
  | .dumpcpy => Sys2Proof.Machine.execDumpcpy s
  | .dumpclr => Sys2Proof.Machine.execDumpclr s

end Sys2Proof.Machine
end

