-- ==== Sys2Proof/Machine/Moves.lean ====
section
/-! DEFINITION. What can happen next: the events that are due, the issues, and the choice among them (R254). -/

namespace Sys2Proof.Machine

/-- Events that come before anything else: the crossbar works cycle by cycle (R172), a command whose gate is open starts at once
(R211), done goes on in the cycle in which its condition holds (R159), and a WAITW ends with its timeout (R357). -/
def State.urgent (s : State) : List Move :=
  match s.dueStart with
  | [] => (match s.dueXbar with | [] => s.dueDone ++ s.dueWaitw | l => l)
  | l => l

/-- Events of the other agents that are due. -/
def State.due (s : State) : List Move :=
  s.dueMemory ++ s.dueQueue ++ s.dueEngine ++ s.dueTether ++ s.dueVector ++ s.dueBridle ++ s.dueTask ++ s.dueSystem ++ s.dueSpool
  ++ s.dueFrontEnd ++ s.dueLaunch ++ s.dueComplete ++ s.dueTeardown ++ s.dueBallast ++ s.duePartition ++ s.dueFirmware

/-- All that can happen next. Without firmware the module stays in reset (R406). -/
def State.moves (s : State) : List Move :=
  if !s.fw.up then []
  else match s.urgent with
    | [] => s.due ++ s.retriesOf ++ s.issues
    | l => l

/-- One of the moves; which one is free where there are several (entry 2). -/
def State.pick (s : State) : Option Move :=
  match s.moves with
  | [] => none
  | [m] => some m
  | l => l[Config.choice s.tick % l.length]?

/-- Time passes: one cycle, and beyond the first step as many more as the spec leaves open (entry 3). -/
def State.advance (s : State) : State :=
  { s with tick := s.tick + 1, cycle := s.cycle + 1 + if s.tick = 0 then 0 else Config.delay s.tick }

/-- A code capability over the whole address space for tenant 0, for a program that is placed from outside. -/
def codeCap : Cap := { bits := 0#12 ++ kindCode ++ 0#6 ++ permX ++ 24#5 ++ 0#24 ++ 0#24 ++ 0#48, tag := true }

/-- A machine in which nothing can issue, with one thread started on core 0 at the foot of its own slice. -/
def State.started (s : State) : State :=
  let t := { Thread.fresh 0 with pc := 0x500000000000, pcc := codeCap, state := .ready }
  { (s.setCore 0 { Core.fresh with bound := true, scnt := 1, th := Core.fresh.th.set 0 t }) with inputs := [] }

/-- The bytes of an instruction stored where a thread fetches its next one. -/
def State.place (s : State) (n : Nat) (k : Fin 8) (bs : List Byte) : State :=
  let t := s.thAt n k
  match s.resolve (s.agentOf n k) t.wordAt.toNat .read with
  | .ok (x, s1) => { s1 with mem := Memory.writeN s1.mem x.key bs }
  | .error _ => s

end Sys2Proof.Machine
end

