-- ==== Sys2Proof/Machine/Step.lean ====
section
/-! DEFINITION. One step of the module (R254): an action of the outside world, or one move of one agent. -/

namespace Sys2Proof.Machine

/-- The current thread fetches and runs an instruction. -/
def runThread (s : State) : Host.Outcome State Fault Refusal :=
  match fetch s with
  | .error x => x.finish s
  | .ok (i, s1) => exec i s1

/-- One move. -/
def runMove (m : Move) (s : State) : Host.Outcome State Fault Refusal :=
  match m with
  | .issue n k => runThread (s.issuing n k)
  | .retry n k => runThread (s.at_ n k)
  | .event c i => exec i { s with cur := c }

/-- One step. -/
def step (s : State) : Host.Outcome State Fault Refusal :=
  let s1 := s.advance
  match s1.inputs with
  | (c, i) :: r => exec i { s1 with inputs := r, cur := c }
  | [] =>
      match s1.pick with
      | some m => runMove m s1
      | none => .next s1

/-- s with an instruction stored where step fetches its next one. Where nothing can issue, the module has no program: one thread is
started, which stands for what a launch does (R278). -/
def State.withFetchWord (s : State) (nbits w : Nat) : State :=
  let bs := bytesOf 16 (w % 2 ^ nbits)
  match s.issues with
  | .issue n k :: _ | .retry n k :: _ => s.place n k bs
  | _ => s.started.place 0 0 bs

end Sys2Proof.Machine
end

