-- ==== Sys2Proof/Laws/Table.lean ====
section
/-! SUPPORT. Laws of the tables keyed by numbers, and of memory (R7, R18, R255). -/

namespace Sys2Proof.Machine

/-! ## Tables -/

@[simp] theorem lookup_insert_self {α : Type} (d : α) (l : List (Nat × α)) (n : Nat) (x : α) : lookup d (insert l n x) n = x := by
  induction l with
  | nil => simp [insert, lookup]
  | cons p r ih =>
    obtain ⟨k, v⟩ := p
    simp only [insert]
    split
    · simp [lookup]
    · split
      · simp [lookup]
      · rename_i h
        simp [lookup, h, ih]

theorem lookup_insert_other {α : Type} (d : α) (l : List (Nat × α)) (n m : Nat) (x : α) (h : n ≠ m) :
    lookup d (insert l n x) m = lookup d l m := by
  induction l with
  | nil => simp [insert, lookup, h]
  | cons p r ih =>
    obtain ⟨k, v⟩ := p
    simp only [insert]
    split
    · simp [lookup, h]
    · split
      · rename_i e; subst e; simp [lookup, h]
      · simp [lookup, ih]

@[simp] theorem insert_insert {α : Type} (l : List (Nat × α)) (n : Nat) (x y : α) : insert (insert l n x) n y = insert l n y := by
  induction l with
  | nil => simp [insert]
  | cons p r ih =>
    obtain ⟨k, v⟩ := p
    simp only [insert]
    split
    · simp [insert]
    · split
      · simp [insert]
      · rename_i h1 h2
        simp [insert, h1, h2, ih]

/-! ## Memory -/

/-- A byte written reads back, and no other byte changes, whatever form the list has below and above. -/
theorem Memory.read_below (lo : Nat) (m : List Host.Cell) (h : Memory.wfFrom lo m = true) (n : Nat) (hn : n < lo) :
    Memory.read m n = Memory.unlisted := by
  cases m with
  | nil => rfl
  | cons p r =>
    obtain ⟨k, b⟩ := p
    simp only [Memory.wfFrom, Bool.and_eq_true, decide_eq_true_eq] at h
    obtain ⟨⟨h1, -⟩, -⟩ := h
    simp [Memory.read, show k ≠ n by omega, show n < k by omega]

theorem Memory.wfFrom_mono (lo lo' : Nat) (m : List Host.Cell) (h : Memory.wfFrom lo m = true) (hl : lo' ≤ lo) :
    Memory.wfFrom lo' m = true := by
  cases m with
  | nil => rfl
  | cons p r =>
    obtain ⟨k, b⟩ := p
    simp only [Memory.wfFrom, Bool.and_eq_true, decide_eq_true_eq] at h ⊢
    exact ⟨⟨by omega, h.1.2⟩, h.2⟩

theorem Memory.wfFrom_write (m : List Host.Cell) : ∀ (lo n : Nat) (x : Byte), Memory.wfFrom lo m = true → lo ≤ n →
    Memory.wfFrom lo (Memory.write m n x) = true := by
  induction m with
  | nil =>
    intro lo n x _ hn
    by_cases hx : x = Memory.unlisted <;> simp [Memory.write, Memory.wfFrom, hx, hn]
  | cons p r ih =>
    intro lo n x h hn
    obtain ⟨k, b⟩ := p
    simp only [Memory.wfFrom, Bool.and_eq_true, decide_eq_true_eq] at h
    simp only [Memory.write]
    split
    · split
      · simp [Memory.wfFrom, h]
      · rename_i h1 h2
        simp [Memory.wfFrom, h, hn, h2, show n + 1 ≤ k by omega]
    · split
      · split
        · exact Memory.wfFrom_mono _ _ _ h.2 (by omega)
        · rename_i h2 h3
          subst h2
          simp [Memory.wfFrom, h, h3]
      · simp only [Memory.wfFrom, Bool.and_eq_true, decide_eq_true_eq]
        exact ⟨h.1, ih _ _ _ h.2 (by omega)⟩

/-- A write keeps the canonical form. -/
theorem Memory.wf_write (m : List Host.Cell) (n : Nat) (x : Byte) (h : Memory.wf m = true) : Memory.wf (Memory.write m n x) = true :=
  Memory.wfFrom_write m 0 n x h (Nat.zero_le n)

theorem Memory.wf_writeN (bs : List Byte) : ∀ (m : List Host.Cell) (k : Nat), Memory.wf m = true → Memory.wf (Memory.writeN m k bs) = true := by
  induction bs with
  | nil => intro m k h; exact h
  | cons b r ih => intro m k h; exact ih _ _ (Memory.wf_write m k b h)

theorem Memory.wfFrom_filter (p : Host.Cell → Bool) (m : List Host.Cell) : ∀ lo, Memory.wfFrom lo m = true →
    Memory.wfFrom lo (m.filter p) = true := by
  induction m with
  | nil => intro lo h; exact h
  | cons q r ih =>
    intro lo h
    obtain ⟨k, b⟩ := q
    simp only [Memory.wfFrom, Bool.and_eq_true, decide_eq_true_eq] at h
    simp only [List.filter_cons]
    split
    · simp only [Memory.wfFrom, Bool.and_eq_true, decide_eq_true_eq]
      exact ⟨h.1, ih _ h.2⟩
    · exact Memory.wfFrom_mono _ _ _ (ih _ h.2) (by omega)

/-- Dropping cells keeps the canonical form. -/
theorem Memory.wf_filter (p : Host.Cell → Bool) (m : List Host.Cell) (h : Memory.wf m = true) : Memory.wf (m.filter p) = true :=
  Memory.wfFrom_filter p m 0 h

theorem Memory.wf_clear (m : List Host.Cell) (lo hi : Nat) (h : Memory.wf m = true) : Memory.wf (Memory.clear m lo hi) = true :=
  Memory.wf_filter _ m h

/-- A byte written reads back. -/
theorem Memory.read_write_self (m : List Host.Cell) : ∀ (lo n : Nat) (x : Byte), Memory.wfFrom lo m = true →
    Memory.read (Memory.write m n x) n = x := by
  induction m with
  | nil =>
    intro lo n x _
    by_cases hx : x = Memory.unlisted <;> simp [Memory.write, Memory.read, hx]
  | cons p r ih =>
    intro lo n x h
    obtain ⟨k, b⟩ := p
    simp only [Memory.wfFrom, Bool.and_eq_true, decide_eq_true_eq] at h
    simp only [Memory.write]
    split
    · rename_i h1
      split
      · rename_i hx
        simp [Memory.read, show k ≠ n by omega, h1, hx]
      · simp [Memory.read]
    · split
      · rename_i h2
        subst h2
        split
        · rename_i hx
          rw [hx]
          exact Memory.read_below _ _ h.2 _ (by omega)
        · simp [Memory.read]
      · rename_i h1 h2
        simp only [Memory.read, if_neg h2, if_neg h1]
        exact ih _ _ _ h.2

/-- A write changes no other byte. -/
theorem Memory.read_write_other (m : List Host.Cell) : ∀ (lo n j : Nat) (x : Byte), Memory.wfFrom lo m = true → n ≠ j →
    Memory.read (Memory.write m n x) j = Memory.read m j := by
  induction m with
  | nil =>
    intro lo n j x _ hj
    by_cases hx : x = Memory.unlisted <;> simp [Memory.write, Memory.read, hx, hj]
  | cons p r ih =>
    intro lo n j x h hj
    obtain ⟨k, b⟩ := p
    simp only [Memory.wfFrom, Bool.and_eq_true, decide_eq_true_eq] at h
    simp only [Memory.write]
    split
    · rename_i h1
      split
      · rfl
      · by_cases h3 : j < n
        · simp [Memory.read, hj, h3, show k ≠ j by omega, show j < k by omega]
        · simp [Memory.read, hj, h3]
    · split
      · rename_i h2
        subst h2
        have e : Memory.read ((k, b) :: r) j = Memory.read r j := by
          by_cases h3 : j < k
          · simp [Memory.read, hj, h3, Memory.read_below _ _ h.2 j (by omega)]
          · simp [Memory.read, hj, h3]
        split
        · exact e.symm
        · rw [e]
          by_cases h3 : j < k
          · simp [Memory.read, hj, h3, Memory.read_below _ _ h.2 j (by omega)]
          · simp [Memory.read, hj, h3]
      · simp only [Memory.read]
        split
        · rfl
        · split
          · rfl
          · exact ih _ _ _ _ h.2 hj

/-- What a write of a run of bytes leaves at an address. -/
theorem Memory.read_writeN (bs : List Byte) : ∀ (m : List Host.Cell) (k j : Nat), Memory.wf m = true →
    Memory.read (Memory.writeN m k bs) j = if k ≤ j ∧ j < k + bs.length then (bs[j - k]?).getD 0 else Memory.read m j := by
  induction bs with
  | nil => intro m k j _; simp [Memory.writeN, show ¬ (k ≤ j ∧ j < k) by omega]
  | cons b r ih =>
    intro m k j h
    simp only [Memory.writeN, ih _ _ _ (Memory.wf_write m k b h), List.length_cons]
    by_cases hj : k = j
    · subst hj
      simp [show ¬ (k + 1 ≤ k) by omega, Memory.read_write_self m 0 k b h]
    · rw [Memory.read_write_other m 0 k j b h hj]
      by_cases h2 : k + 1 ≤ j ∧ j < k + 1 + r.length
      · rw [if_pos h2, if_pos (by omega), show j - k = (j - (k + 1)) + 1 by omega, List.getElem?_cons_succ]
      · rw [if_neg h2, if_neg (by omega)]

end Sys2Proof.Machine
end

