-- ==== Sys2Proof/Laws/State.lean ====
section
/-! SUPPORT. What each update of the state leaves as it was: one lemma per field per update. -/

namespace Sys2Proof.Machine

variable (s : State)

/-- An element of a vector by its number. -/
theorem vget {α : Type} {n : Nat} (v : Vector α n) (i : Fin n) : v.get i = v[i.val] := rfl

/-! ## setCore -/

@[simp] theorem State.setCore_cur (n : Nat) (c : Core) : (s.setCore n c).cur = s.cur := rfl
@[simp] theorem State.setCore_tick (n : Nat) (c : Core) : (s.setCore n c).tick = s.tick := rfl
@[simp] theorem State.setCore_cycle (n : Nat) (c : Core) : (s.setCore n c).cycle = s.cycle := rfl
@[simp] theorem State.setCore_inputs (n : Nat) (c : Core) : (s.setCore n c).inputs = s.inputs := rfl
@[simp] theorem State.setCore_clusters (n : Nat) (c : Core) : (s.setCore n c).clusters = s.clusters := rfl
@[simp] theorem State.setCore_mem (n : Nat) (c : Core) : (s.setCore n c).mem = s.mem := rfl
@[simp] theorem State.setCore_tags (n : Nat) (c : Core) : (s.setCore n c).tags = s.tags := rfl
@[simp] theorem State.setCore_empties (n : Nat) (c : Core) : (s.setCore n c).empties = s.empties := rfl
@[simp] theorem State.setCore_lineKey (n : Nat) (c : Core) : (s.setCore n c).lineKey = s.lineKey := rfl
@[simp] theorem State.setCore_mtu (n : Nat) (c : Core) : (s.setCore n c).mtu = s.mtu := rfl
@[simp] theorem State.setCore_xfaults (n : Nat) (c : Core) : (s.setCore n c).xfaults = s.xfaults := rfl
@[simp] theorem State.setCore_dirty (n : Nat) (c : Core) : (s.setCore n c).dirty = s.dirty := rfl
@[simp] theorem State.setCore_watches (n : Nat) (c : Core) : (s.setCore n c).watches = s.watches := rfl
@[simp] theorem State.setCore_net (n : Nat) (c : Core) : (s.setCore n c).net = s.net := rfl
@[simp] theorem State.setCore_counters (n : Nat) (c : Core) : (s.setCore n c).counters = s.counters := rfl
@[simp] theorem State.setCore_flits (n : Nat) (c : Core) : (s.setCore n c).flits = s.flits := rfl
@[simp] theorem State.setCore_failed (n : Nat) (c : Core) : (s.setCore n c).failed = s.failed := rfl
@[simp] theorem State.setCore_fresh (n : Nat) (c : Core) : (s.setCore n c).fresh = s.fresh := rfl
@[simp] theorem State.setCore_regions (n : Nat) (c : Core) : (s.setCore n c).regions = s.regions := rfl
@[simp] theorem State.setCore_seq (n : Nat) (c : Core) : (s.setCore n c).seq = s.seq := rfl
@[simp] theorem State.setCore_blocks (n : Nat) (c : Core) : (s.setCore n c).blocks = s.blocks := rfl
@[simp] theorem State.setCore_queues (n : Nat) (c : Core) : (s.setCore n c).queues = s.queues := rfl
@[simp] theorem State.setCore_lastP (n : Nat) (c : Core) : (s.setCore n c).lastP = s.lastP := rfl
@[simp] theorem State.setCore_parts (n : Nat) (c : Core) : (s.setCore n c).parts = s.parts := rfl
@[simp] theorem State.setCore_parents (n : Nat) (c : Core) : (s.setCore n c).parents = s.parents := rfl
@[simp] theorem State.setCore_funcs (n : Nat) (c : Core) : (s.setCore n c).funcs = s.funcs := rfl
@[simp] theorem State.setCore_vecs (n : Nat) (c : Core) : (s.setCore n c).vecs = s.vecs := rfl
@[simp] theorem State.setCore_out (n : Nat) (c : Core) : (s.setCore n c).out = s.out := rfl
@[simp] theorem State.setCore_pairs (n : Nat) (c : Core) : (s.setCore n c).pairs = s.pairs := rfl
@[simp] theorem State.setCore_linkDown (n : Nat) (c : Core) : (s.setCore n c).linkDown = s.linkDown := rfl
@[simp] theorem State.setCore_group (n : Nat) (c : Core) : (s.setCore n c).group = s.group := rfl
@[simp] theorem State.setCore_groupIn (n : Nat) (c : Core) : (s.setCore n c).groupIn = s.groupIn := rfl
@[simp] theorem State.setCore_cxl (n : Nat) (c : Core) : (s.setCore n c).cxl = s.cxl := rfl
@[simp] theorem State.setCore_cxlMode (n : Nat) (c : Core) : (s.setCore n c).cxlMode = s.cxlMode := rfl
@[simp] theorem State.setCore_fw (n : Nat) (c : Core) : (s.setCore n c).fw = s.fw := rfl

/-! ## setCluster -/

@[simp] theorem State.setCluster_cur (n : Nat) (c : Cluster) : (s.setCluster n c).cur = s.cur := rfl
@[simp] theorem State.setCluster_tick (n : Nat) (c : Cluster) : (s.setCluster n c).tick = s.tick := rfl
@[simp] theorem State.setCluster_cycle (n : Nat) (c : Cluster) : (s.setCluster n c).cycle = s.cycle := rfl
@[simp] theorem State.setCluster_inputs (n : Nat) (c : Cluster) : (s.setCluster n c).inputs = s.inputs := rfl
@[simp] theorem State.setCluster_cores (n : Nat) (c : Cluster) : (s.setCluster n c).cores = s.cores := rfl
@[simp] theorem State.setCluster_mem (n : Nat) (c : Cluster) : (s.setCluster n c).mem = s.mem := rfl
@[simp] theorem State.setCluster_tags (n : Nat) (c : Cluster) : (s.setCluster n c).tags = s.tags := rfl
@[simp] theorem State.setCluster_empties (n : Nat) (c : Cluster) : (s.setCluster n c).empties = s.empties := rfl
@[simp] theorem State.setCluster_lineKey (n : Nat) (c : Cluster) : (s.setCluster n c).lineKey = s.lineKey := rfl
@[simp] theorem State.setCluster_mtu (n : Nat) (c : Cluster) : (s.setCluster n c).mtu = s.mtu := rfl
@[simp] theorem State.setCluster_xfaults (n : Nat) (c : Cluster) : (s.setCluster n c).xfaults = s.xfaults := rfl
@[simp] theorem State.setCluster_dirty (n : Nat) (c : Cluster) : (s.setCluster n c).dirty = s.dirty := rfl
@[simp] theorem State.setCluster_watches (n : Nat) (c : Cluster) : (s.setCluster n c).watches = s.watches := rfl
@[simp] theorem State.setCluster_net (n : Nat) (c : Cluster) : (s.setCluster n c).net = s.net := rfl
@[simp] theorem State.setCluster_counters (n : Nat) (c : Cluster) : (s.setCluster n c).counters = s.counters := rfl
@[simp] theorem State.setCluster_flits (n : Nat) (c : Cluster) : (s.setCluster n c).flits = s.flits := rfl
@[simp] theorem State.setCluster_failed (n : Nat) (c : Cluster) : (s.setCluster n c).failed = s.failed := rfl
@[simp] theorem State.setCluster_fresh (n : Nat) (c : Cluster) : (s.setCluster n c).fresh = s.fresh := rfl
@[simp] theorem State.setCluster_regions (n : Nat) (c : Cluster) : (s.setCluster n c).regions = s.regions := rfl
@[simp] theorem State.setCluster_seq (n : Nat) (c : Cluster) : (s.setCluster n c).seq = s.seq := rfl
@[simp] theorem State.setCluster_blocks (n : Nat) (c : Cluster) : (s.setCluster n c).blocks = s.blocks := rfl
@[simp] theorem State.setCluster_queues (n : Nat) (c : Cluster) : (s.setCluster n c).queues = s.queues := rfl
@[simp] theorem State.setCluster_lastP (n : Nat) (c : Cluster) : (s.setCluster n c).lastP = s.lastP := rfl
@[simp] theorem State.setCluster_parts (n : Nat) (c : Cluster) : (s.setCluster n c).parts = s.parts := rfl
@[simp] theorem State.setCluster_parents (n : Nat) (c : Cluster) : (s.setCluster n c).parents = s.parents := rfl
@[simp] theorem State.setCluster_funcs (n : Nat) (c : Cluster) : (s.setCluster n c).funcs = s.funcs := rfl
@[simp] theorem State.setCluster_vecs (n : Nat) (c : Cluster) : (s.setCluster n c).vecs = s.vecs := rfl
@[simp] theorem State.setCluster_out (n : Nat) (c : Cluster) : (s.setCluster n c).out = s.out := rfl
@[simp] theorem State.setCluster_pairs (n : Nat) (c : Cluster) : (s.setCluster n c).pairs = s.pairs := rfl
@[simp] theorem State.setCluster_linkDown (n : Nat) (c : Cluster) : (s.setCluster n c).linkDown = s.linkDown := rfl
@[simp] theorem State.setCluster_group (n : Nat) (c : Cluster) : (s.setCluster n c).group = s.group := rfl
@[simp] theorem State.setCluster_groupIn (n : Nat) (c : Cluster) : (s.setCluster n c).groupIn = s.groupIn := rfl
@[simp] theorem State.setCluster_cxl (n : Nat) (c : Cluster) : (s.setCluster n c).cxl = s.cxl := rfl
@[simp] theorem State.setCluster_cxlMode (n : Nat) (c : Cluster) : (s.setCluster n c).cxlMode = s.cxlMode := rfl
@[simp] theorem State.setCluster_fw (n : Nat) (c : Cluster) : (s.setCluster n c).fw = s.fw := rfl

/-! ## setThAt -/

@[simp] theorem State.setThAt_cur (n : Nat) (k : Fin 8) (t : Thread) : (s.setThAt n k t).cur = s.cur := rfl
@[simp] theorem State.setThAt_tick (n : Nat) (k : Fin 8) (t : Thread) : (s.setThAt n k t).tick = s.tick := rfl
@[simp] theorem State.setThAt_cycle (n : Nat) (k : Fin 8) (t : Thread) : (s.setThAt n k t).cycle = s.cycle := rfl
@[simp] theorem State.setThAt_inputs (n : Nat) (k : Fin 8) (t : Thread) : (s.setThAt n k t).inputs = s.inputs := rfl
@[simp] theorem State.setThAt_clusters (n : Nat) (k : Fin 8) (t : Thread) : (s.setThAt n k t).clusters = s.clusters := rfl
@[simp] theorem State.setThAt_mem (n : Nat) (k : Fin 8) (t : Thread) : (s.setThAt n k t).mem = s.mem := rfl
@[simp] theorem State.setThAt_tags (n : Nat) (k : Fin 8) (t : Thread) : (s.setThAt n k t).tags = s.tags := rfl
@[simp] theorem State.setThAt_empties (n : Nat) (k : Fin 8) (t : Thread) : (s.setThAt n k t).empties = s.empties := rfl
@[simp] theorem State.setThAt_lineKey (n : Nat) (k : Fin 8) (t : Thread) : (s.setThAt n k t).lineKey = s.lineKey := rfl
@[simp] theorem State.setThAt_mtu (n : Nat) (k : Fin 8) (t : Thread) : (s.setThAt n k t).mtu = s.mtu := rfl
@[simp] theorem State.setThAt_xfaults (n : Nat) (k : Fin 8) (t : Thread) : (s.setThAt n k t).xfaults = s.xfaults := rfl
@[simp] theorem State.setThAt_dirty (n : Nat) (k : Fin 8) (t : Thread) : (s.setThAt n k t).dirty = s.dirty := rfl
@[simp] theorem State.setThAt_watches (n : Nat) (k : Fin 8) (t : Thread) : (s.setThAt n k t).watches = s.watches := rfl
@[simp] theorem State.setThAt_net (n : Nat) (k : Fin 8) (t : Thread) : (s.setThAt n k t).net = s.net := rfl
@[simp] theorem State.setThAt_counters (n : Nat) (k : Fin 8) (t : Thread) : (s.setThAt n k t).counters = s.counters := rfl
@[simp] theorem State.setThAt_flits (n : Nat) (k : Fin 8) (t : Thread) : (s.setThAt n k t).flits = s.flits := rfl
@[simp] theorem State.setThAt_failed (n : Nat) (k : Fin 8) (t : Thread) : (s.setThAt n k t).failed = s.failed := rfl
@[simp] theorem State.setThAt_fresh (n : Nat) (k : Fin 8) (t : Thread) : (s.setThAt n k t).fresh = s.fresh := rfl
@[simp] theorem State.setThAt_regions (n : Nat) (k : Fin 8) (t : Thread) : (s.setThAt n k t).regions = s.regions := rfl
@[simp] theorem State.setThAt_seq (n : Nat) (k : Fin 8) (t : Thread) : (s.setThAt n k t).seq = s.seq := rfl
@[simp] theorem State.setThAt_blocks (n : Nat) (k : Fin 8) (t : Thread) : (s.setThAt n k t).blocks = s.blocks := rfl
@[simp] theorem State.setThAt_queues (n : Nat) (k : Fin 8) (t : Thread) : (s.setThAt n k t).queues = s.queues := rfl
@[simp] theorem State.setThAt_lastP (n : Nat) (k : Fin 8) (t : Thread) : (s.setThAt n k t).lastP = s.lastP := rfl
@[simp] theorem State.setThAt_parts (n : Nat) (k : Fin 8) (t : Thread) : (s.setThAt n k t).parts = s.parts := rfl
@[simp] theorem State.setThAt_parents (n : Nat) (k : Fin 8) (t : Thread) : (s.setThAt n k t).parents = s.parents := rfl
@[simp] theorem State.setThAt_funcs (n : Nat) (k : Fin 8) (t : Thread) : (s.setThAt n k t).funcs = s.funcs := rfl
@[simp] theorem State.setThAt_vecs (n : Nat) (k : Fin 8) (t : Thread) : (s.setThAt n k t).vecs = s.vecs := rfl
@[simp] theorem State.setThAt_out (n : Nat) (k : Fin 8) (t : Thread) : (s.setThAt n k t).out = s.out := rfl
@[simp] theorem State.setThAt_pairs (n : Nat) (k : Fin 8) (t : Thread) : (s.setThAt n k t).pairs = s.pairs := rfl
@[simp] theorem State.setThAt_linkDown (n : Nat) (k : Fin 8) (t : Thread) : (s.setThAt n k t).linkDown = s.linkDown := rfl
@[simp] theorem State.setThAt_group (n : Nat) (k : Fin 8) (t : Thread) : (s.setThAt n k t).group = s.group := rfl
@[simp] theorem State.setThAt_groupIn (n : Nat) (k : Fin 8) (t : Thread) : (s.setThAt n k t).groupIn = s.groupIn := rfl
@[simp] theorem State.setThAt_cxl (n : Nat) (k : Fin 8) (t : Thread) : (s.setThAt n k t).cxl = s.cxl := rfl
@[simp] theorem State.setThAt_cxlMode (n : Nat) (k : Fin 8) (t : Thread) : (s.setThAt n k t).cxlMode = s.cxlMode := rfl
@[simp] theorem State.setThAt_fw (n : Nat) (k : Fin 8) (t : Thread) : (s.setThAt n k t).fw = s.fw := rfl

/-! ## setTh -/

@[simp] theorem State.setTh_cur (t : Thread) : (s.setTh t).cur = s.cur := rfl
@[simp] theorem State.setTh_tick (t : Thread) : (s.setTh t).tick = s.tick := rfl
@[simp] theorem State.setTh_cycle (t : Thread) : (s.setTh t).cycle = s.cycle := rfl
@[simp] theorem State.setTh_inputs (t : Thread) : (s.setTh t).inputs = s.inputs := rfl
@[simp] theorem State.setTh_clusters (t : Thread) : (s.setTh t).clusters = s.clusters := rfl
@[simp] theorem State.setTh_mem (t : Thread) : (s.setTh t).mem = s.mem := rfl
@[simp] theorem State.setTh_tags (t : Thread) : (s.setTh t).tags = s.tags := rfl
@[simp] theorem State.setTh_empties (t : Thread) : (s.setTh t).empties = s.empties := rfl
@[simp] theorem State.setTh_lineKey (t : Thread) : (s.setTh t).lineKey = s.lineKey := rfl
@[simp] theorem State.setTh_mtu (t : Thread) : (s.setTh t).mtu = s.mtu := rfl
@[simp] theorem State.setTh_xfaults (t : Thread) : (s.setTh t).xfaults = s.xfaults := rfl
@[simp] theorem State.setTh_dirty (t : Thread) : (s.setTh t).dirty = s.dirty := rfl
@[simp] theorem State.setTh_watches (t : Thread) : (s.setTh t).watches = s.watches := rfl
@[simp] theorem State.setTh_net (t : Thread) : (s.setTh t).net = s.net := rfl
@[simp] theorem State.setTh_counters (t : Thread) : (s.setTh t).counters = s.counters := rfl
@[simp] theorem State.setTh_flits (t : Thread) : (s.setTh t).flits = s.flits := rfl
@[simp] theorem State.setTh_failed (t : Thread) : (s.setTh t).failed = s.failed := rfl
@[simp] theorem State.setTh_fresh (t : Thread) : (s.setTh t).fresh = s.fresh := rfl
@[simp] theorem State.setTh_regions (t : Thread) : (s.setTh t).regions = s.regions := rfl
@[simp] theorem State.setTh_seq (t : Thread) : (s.setTh t).seq = s.seq := rfl
@[simp] theorem State.setTh_blocks (t : Thread) : (s.setTh t).blocks = s.blocks := rfl
@[simp] theorem State.setTh_queues (t : Thread) : (s.setTh t).queues = s.queues := rfl
@[simp] theorem State.setTh_lastP (t : Thread) : (s.setTh t).lastP = s.lastP := rfl
@[simp] theorem State.setTh_parts (t : Thread) : (s.setTh t).parts = s.parts := rfl
@[simp] theorem State.setTh_parents (t : Thread) : (s.setTh t).parents = s.parents := rfl
@[simp] theorem State.setTh_funcs (t : Thread) : (s.setTh t).funcs = s.funcs := rfl
@[simp] theorem State.setTh_vecs (t : Thread) : (s.setTh t).vecs = s.vecs := rfl
@[simp] theorem State.setTh_out (t : Thread) : (s.setTh t).out = s.out := rfl
@[simp] theorem State.setTh_pairs (t : Thread) : (s.setTh t).pairs = s.pairs := rfl
@[simp] theorem State.setTh_linkDown (t : Thread) : (s.setTh t).linkDown = s.linkDown := rfl
@[simp] theorem State.setTh_group (t : Thread) : (s.setTh t).group = s.group := rfl
@[simp] theorem State.setTh_groupIn (t : Thread) : (s.setTh t).groupIn = s.groupIn := rfl
@[simp] theorem State.setTh_cxl (t : Thread) : (s.setTh t).cxl = s.cxl := rfl
@[simp] theorem State.setTh_cxlMode (t : Thread) : (s.setTh t).cxlMode = s.cxlMode := rfl
@[simp] theorem State.setTh_fw (t : Thread) : (s.setTh t).fw = s.fw := rfl

/-! ## setCc -/

@[simp] theorem State.setCc_cur (c : Core) : (s.setCc c).cur = s.cur := rfl
@[simp] theorem State.setCc_tick (c : Core) : (s.setCc c).tick = s.tick := rfl
@[simp] theorem State.setCc_cycle (c : Core) : (s.setCc c).cycle = s.cycle := rfl
@[simp] theorem State.setCc_inputs (c : Core) : (s.setCc c).inputs = s.inputs := rfl
@[simp] theorem State.setCc_clusters (c : Core) : (s.setCc c).clusters = s.clusters := rfl
@[simp] theorem State.setCc_mem (c : Core) : (s.setCc c).mem = s.mem := rfl
@[simp] theorem State.setCc_tags (c : Core) : (s.setCc c).tags = s.tags := rfl
@[simp] theorem State.setCc_empties (c : Core) : (s.setCc c).empties = s.empties := rfl
@[simp] theorem State.setCc_lineKey (c : Core) : (s.setCc c).lineKey = s.lineKey := rfl
@[simp] theorem State.setCc_mtu (c : Core) : (s.setCc c).mtu = s.mtu := rfl
@[simp] theorem State.setCc_xfaults (c : Core) : (s.setCc c).xfaults = s.xfaults := rfl
@[simp] theorem State.setCc_dirty (c : Core) : (s.setCc c).dirty = s.dirty := rfl
@[simp] theorem State.setCc_watches (c : Core) : (s.setCc c).watches = s.watches := rfl
@[simp] theorem State.setCc_net (c : Core) : (s.setCc c).net = s.net := rfl
@[simp] theorem State.setCc_counters (c : Core) : (s.setCc c).counters = s.counters := rfl
@[simp] theorem State.setCc_flits (c : Core) : (s.setCc c).flits = s.flits := rfl
@[simp] theorem State.setCc_failed (c : Core) : (s.setCc c).failed = s.failed := rfl
@[simp] theorem State.setCc_fresh (c : Core) : (s.setCc c).fresh = s.fresh := rfl
@[simp] theorem State.setCc_regions (c : Core) : (s.setCc c).regions = s.regions := rfl
@[simp] theorem State.setCc_seq (c : Core) : (s.setCc c).seq = s.seq := rfl
@[simp] theorem State.setCc_blocks (c : Core) : (s.setCc c).blocks = s.blocks := rfl
@[simp] theorem State.setCc_queues (c : Core) : (s.setCc c).queues = s.queues := rfl
@[simp] theorem State.setCc_lastP (c : Core) : (s.setCc c).lastP = s.lastP := rfl
@[simp] theorem State.setCc_parts (c : Core) : (s.setCc c).parts = s.parts := rfl
@[simp] theorem State.setCc_parents (c : Core) : (s.setCc c).parents = s.parents := rfl
@[simp] theorem State.setCc_funcs (c : Core) : (s.setCc c).funcs = s.funcs := rfl
@[simp] theorem State.setCc_vecs (c : Core) : (s.setCc c).vecs = s.vecs := rfl
@[simp] theorem State.setCc_out (c : Core) : (s.setCc c).out = s.out := rfl
@[simp] theorem State.setCc_pairs (c : Core) : (s.setCc c).pairs = s.pairs := rfl
@[simp] theorem State.setCc_linkDown (c : Core) : (s.setCc c).linkDown = s.linkDown := rfl
@[simp] theorem State.setCc_group (c : Core) : (s.setCc c).group = s.group := rfl
@[simp] theorem State.setCc_groupIn (c : Core) : (s.setCc c).groupIn = s.groupIn := rfl
@[simp] theorem State.setCc_cxl (c : Core) : (s.setCc c).cxl = s.cxl := rfl
@[simp] theorem State.setCc_cxlMode (c : Core) : (s.setCc c).cxlMode = s.cxlMode := rfl
@[simp] theorem State.setCc_fw (c : Core) : (s.setCc c).fw = s.fw := rfl

/-! ## setCcl -/

@[simp] theorem State.setCcl_cur (c : Cluster) : (s.setCcl c).cur = s.cur := rfl
@[simp] theorem State.setCcl_tick (c : Cluster) : (s.setCcl c).tick = s.tick := rfl
@[simp] theorem State.setCcl_cycle (c : Cluster) : (s.setCcl c).cycle = s.cycle := rfl
@[simp] theorem State.setCcl_inputs (c : Cluster) : (s.setCcl c).inputs = s.inputs := rfl
@[simp] theorem State.setCcl_cores (c : Cluster) : (s.setCcl c).cores = s.cores := rfl
@[simp] theorem State.setCcl_mem (c : Cluster) : (s.setCcl c).mem = s.mem := rfl
@[simp] theorem State.setCcl_tags (c : Cluster) : (s.setCcl c).tags = s.tags := rfl
@[simp] theorem State.setCcl_empties (c : Cluster) : (s.setCcl c).empties = s.empties := rfl
@[simp] theorem State.setCcl_lineKey (c : Cluster) : (s.setCcl c).lineKey = s.lineKey := rfl
@[simp] theorem State.setCcl_mtu (c : Cluster) : (s.setCcl c).mtu = s.mtu := rfl
@[simp] theorem State.setCcl_xfaults (c : Cluster) : (s.setCcl c).xfaults = s.xfaults := rfl
@[simp] theorem State.setCcl_dirty (c : Cluster) : (s.setCcl c).dirty = s.dirty := rfl
@[simp] theorem State.setCcl_watches (c : Cluster) : (s.setCcl c).watches = s.watches := rfl
@[simp] theorem State.setCcl_net (c : Cluster) : (s.setCcl c).net = s.net := rfl
@[simp] theorem State.setCcl_counters (c : Cluster) : (s.setCcl c).counters = s.counters := rfl
@[simp] theorem State.setCcl_flits (c : Cluster) : (s.setCcl c).flits = s.flits := rfl
@[simp] theorem State.setCcl_failed (c : Cluster) : (s.setCcl c).failed = s.failed := rfl
@[simp] theorem State.setCcl_fresh (c : Cluster) : (s.setCcl c).fresh = s.fresh := rfl
@[simp] theorem State.setCcl_regions (c : Cluster) : (s.setCcl c).regions = s.regions := rfl
@[simp] theorem State.setCcl_seq (c : Cluster) : (s.setCcl c).seq = s.seq := rfl
@[simp] theorem State.setCcl_blocks (c : Cluster) : (s.setCcl c).blocks = s.blocks := rfl
@[simp] theorem State.setCcl_queues (c : Cluster) : (s.setCcl c).queues = s.queues := rfl
@[simp] theorem State.setCcl_lastP (c : Cluster) : (s.setCcl c).lastP = s.lastP := rfl
@[simp] theorem State.setCcl_parts (c : Cluster) : (s.setCcl c).parts = s.parts := rfl
@[simp] theorem State.setCcl_parents (c : Cluster) : (s.setCcl c).parents = s.parents := rfl
@[simp] theorem State.setCcl_funcs (c : Cluster) : (s.setCcl c).funcs = s.funcs := rfl
@[simp] theorem State.setCcl_vecs (c : Cluster) : (s.setCcl c).vecs = s.vecs := rfl
@[simp] theorem State.setCcl_out (c : Cluster) : (s.setCcl c).out = s.out := rfl
@[simp] theorem State.setCcl_pairs (c : Cluster) : (s.setCcl c).pairs = s.pairs := rfl
@[simp] theorem State.setCcl_linkDown (c : Cluster) : (s.setCcl c).linkDown = s.linkDown := rfl
@[simp] theorem State.setCcl_group (c : Cluster) : (s.setCcl c).group = s.group := rfl
@[simp] theorem State.setCcl_groupIn (c : Cluster) : (s.setCcl c).groupIn = s.groupIn := rfl
@[simp] theorem State.setCcl_cxl (c : Cluster) : (s.setCcl c).cxl = s.cxl := rfl
@[simp] theorem State.setCcl_cxlMode (c : Cluster) : (s.setCcl c).cxlMode = s.cxlMode := rfl
@[simp] theorem State.setCcl_fw (c : Cluster) : (s.setCcl c).fw = s.fw := rfl

/-! ## at_ -/

@[simp] theorem State.at__tick (n : Nat) (k : Fin 8) : (s.at_ n k).tick = s.tick := rfl
@[simp] theorem State.at__cycle (n : Nat) (k : Fin 8) : (s.at_ n k).cycle = s.cycle := rfl
@[simp] theorem State.at__inputs (n : Nat) (k : Fin 8) : (s.at_ n k).inputs = s.inputs := rfl
@[simp] theorem State.at__cores (n : Nat) (k : Fin 8) : (s.at_ n k).cores = s.cores := rfl
@[simp] theorem State.at__clusters (n : Nat) (k : Fin 8) : (s.at_ n k).clusters = s.clusters := rfl
@[simp] theorem State.at__mem (n : Nat) (k : Fin 8) : (s.at_ n k).mem = s.mem := rfl
@[simp] theorem State.at__tags (n : Nat) (k : Fin 8) : (s.at_ n k).tags = s.tags := rfl
@[simp] theorem State.at__empties (n : Nat) (k : Fin 8) : (s.at_ n k).empties = s.empties := rfl
@[simp] theorem State.at__lineKey (n : Nat) (k : Fin 8) : (s.at_ n k).lineKey = s.lineKey := rfl
@[simp] theorem State.at__mtu (n : Nat) (k : Fin 8) : (s.at_ n k).mtu = s.mtu := rfl
@[simp] theorem State.at__xfaults (n : Nat) (k : Fin 8) : (s.at_ n k).xfaults = s.xfaults := rfl
@[simp] theorem State.at__dirty (n : Nat) (k : Fin 8) : (s.at_ n k).dirty = s.dirty := rfl
@[simp] theorem State.at__watches (n : Nat) (k : Fin 8) : (s.at_ n k).watches = s.watches := rfl
@[simp] theorem State.at__net (n : Nat) (k : Fin 8) : (s.at_ n k).net = s.net := rfl
@[simp] theorem State.at__counters (n : Nat) (k : Fin 8) : (s.at_ n k).counters = s.counters := rfl
@[simp] theorem State.at__flits (n : Nat) (k : Fin 8) : (s.at_ n k).flits = s.flits := rfl
@[simp] theorem State.at__failed (n : Nat) (k : Fin 8) : (s.at_ n k).failed = s.failed := rfl
@[simp] theorem State.at__fresh (n : Nat) (k : Fin 8) : (s.at_ n k).fresh = s.fresh := rfl
@[simp] theorem State.at__regions (n : Nat) (k : Fin 8) : (s.at_ n k).regions = s.regions := rfl
@[simp] theorem State.at__seq (n : Nat) (k : Fin 8) : (s.at_ n k).seq = s.seq := rfl
@[simp] theorem State.at__blocks (n : Nat) (k : Fin 8) : (s.at_ n k).blocks = s.blocks := rfl
@[simp] theorem State.at__queues (n : Nat) (k : Fin 8) : (s.at_ n k).queues = s.queues := rfl
@[simp] theorem State.at__lastP (n : Nat) (k : Fin 8) : (s.at_ n k).lastP = s.lastP := rfl
@[simp] theorem State.at__parts (n : Nat) (k : Fin 8) : (s.at_ n k).parts = s.parts := rfl
@[simp] theorem State.at__parents (n : Nat) (k : Fin 8) : (s.at_ n k).parents = s.parents := rfl
@[simp] theorem State.at__funcs (n : Nat) (k : Fin 8) : (s.at_ n k).funcs = s.funcs := rfl
@[simp] theorem State.at__vecs (n : Nat) (k : Fin 8) : (s.at_ n k).vecs = s.vecs := rfl
@[simp] theorem State.at__out (n : Nat) (k : Fin 8) : (s.at_ n k).out = s.out := rfl
@[simp] theorem State.at__pairs (n : Nat) (k : Fin 8) : (s.at_ n k).pairs = s.pairs := rfl
@[simp] theorem State.at__linkDown (n : Nat) (k : Fin 8) : (s.at_ n k).linkDown = s.linkDown := rfl
@[simp] theorem State.at__group (n : Nat) (k : Fin 8) : (s.at_ n k).group = s.group := rfl
@[simp] theorem State.at__groupIn (n : Nat) (k : Fin 8) : (s.at_ n k).groupIn = s.groupIn := rfl
@[simp] theorem State.at__cxl (n : Nat) (k : Fin 8) : (s.at_ n k).cxl = s.cxl := rfl
@[simp] theorem State.at__cxlMode (n : Nat) (k : Fin 8) : (s.at_ n k).cxlMode = s.cxlMode := rfl
@[simp] theorem State.at__fw (n : Nat) (k : Fin 8) : (s.at_ n k).fw = s.fw := rfl

/-! ## setRegion -/

@[simp] theorem State.setRegion_cur (r : Region) : (s.setRegion r).cur = s.cur := rfl
@[simp] theorem State.setRegion_tick (r : Region) : (s.setRegion r).tick = s.tick := rfl
@[simp] theorem State.setRegion_cycle (r : Region) : (s.setRegion r).cycle = s.cycle := rfl
@[simp] theorem State.setRegion_inputs (r : Region) : (s.setRegion r).inputs = s.inputs := rfl
@[simp] theorem State.setRegion_cores (r : Region) : (s.setRegion r).cores = s.cores := rfl
@[simp] theorem State.setRegion_clusters (r : Region) : (s.setRegion r).clusters = s.clusters := rfl
@[simp] theorem State.setRegion_mem (r : Region) : (s.setRegion r).mem = s.mem := rfl
@[simp] theorem State.setRegion_tags (r : Region) : (s.setRegion r).tags = s.tags := rfl
@[simp] theorem State.setRegion_empties (r : Region) : (s.setRegion r).empties = s.empties := rfl
@[simp] theorem State.setRegion_lineKey (r : Region) : (s.setRegion r).lineKey = s.lineKey := rfl
@[simp] theorem State.setRegion_mtu (r : Region) : (s.setRegion r).mtu = s.mtu := rfl
@[simp] theorem State.setRegion_xfaults (r : Region) : (s.setRegion r).xfaults = s.xfaults := rfl
@[simp] theorem State.setRegion_dirty (r : Region) : (s.setRegion r).dirty = s.dirty := rfl
@[simp] theorem State.setRegion_watches (r : Region) : (s.setRegion r).watches = s.watches := rfl
@[simp] theorem State.setRegion_net (r : Region) : (s.setRegion r).net = s.net := rfl
@[simp] theorem State.setRegion_counters (r : Region) : (s.setRegion r).counters = s.counters := rfl
@[simp] theorem State.setRegion_flits (r : Region) : (s.setRegion r).flits = s.flits := rfl
@[simp] theorem State.setRegion_failed (r : Region) : (s.setRegion r).failed = s.failed := rfl
@[simp] theorem State.setRegion_fresh (r : Region) : (s.setRegion r).fresh = s.fresh := rfl
@[simp] theorem State.setRegion_seq (r : Region) : (s.setRegion r).seq = s.seq := rfl
@[simp] theorem State.setRegion_blocks (r : Region) : (s.setRegion r).blocks = s.blocks := rfl
@[simp] theorem State.setRegion_queues (r : Region) : (s.setRegion r).queues = s.queues := rfl
@[simp] theorem State.setRegion_lastP (r : Region) : (s.setRegion r).lastP = s.lastP := rfl
@[simp] theorem State.setRegion_parts (r : Region) : (s.setRegion r).parts = s.parts := rfl
@[simp] theorem State.setRegion_parents (r : Region) : (s.setRegion r).parents = s.parents := rfl
@[simp] theorem State.setRegion_funcs (r : Region) : (s.setRegion r).funcs = s.funcs := rfl
@[simp] theorem State.setRegion_vecs (r : Region) : (s.setRegion r).vecs = s.vecs := rfl
@[simp] theorem State.setRegion_out (r : Region) : (s.setRegion r).out = s.out := rfl
@[simp] theorem State.setRegion_pairs (r : Region) : (s.setRegion r).pairs = s.pairs := rfl
@[simp] theorem State.setRegion_linkDown (r : Region) : (s.setRegion r).linkDown = s.linkDown := rfl
@[simp] theorem State.setRegion_group (r : Region) : (s.setRegion r).group = s.group := rfl
@[simp] theorem State.setRegion_groupIn (r : Region) : (s.setRegion r).groupIn = s.groupIn := rfl
@[simp] theorem State.setRegion_cxl (r : Region) : (s.setRegion r).cxl = s.cxl := rfl
@[simp] theorem State.setRegion_cxlMode (r : Region) : (s.setRegion r).cxlMode = s.cxlMode := rfl
@[simp] theorem State.setRegion_fw (r : Region) : (s.setRegion r).fw = s.fw := rfl

/-! ## modRegion -/

@[simp] theorem State.modRegion_cur (r : Nat) (f : Region → Region) : (s.modRegion r f).cur = s.cur := rfl
@[simp] theorem State.modRegion_tick (r : Nat) (f : Region → Region) : (s.modRegion r f).tick = s.tick := rfl
@[simp] theorem State.modRegion_cycle (r : Nat) (f : Region → Region) : (s.modRegion r f).cycle = s.cycle := rfl
@[simp] theorem State.modRegion_inputs (r : Nat) (f : Region → Region) : (s.modRegion r f).inputs = s.inputs := rfl
@[simp] theorem State.modRegion_cores (r : Nat) (f : Region → Region) : (s.modRegion r f).cores = s.cores := rfl
@[simp] theorem State.modRegion_clusters (r : Nat) (f : Region → Region) : (s.modRegion r f).clusters = s.clusters := rfl
@[simp] theorem State.modRegion_mem (r : Nat) (f : Region → Region) : (s.modRegion r f).mem = s.mem := rfl
@[simp] theorem State.modRegion_tags (r : Nat) (f : Region → Region) : (s.modRegion r f).tags = s.tags := rfl
@[simp] theorem State.modRegion_empties (r : Nat) (f : Region → Region) : (s.modRegion r f).empties = s.empties := rfl
@[simp] theorem State.modRegion_lineKey (r : Nat) (f : Region → Region) : (s.modRegion r f).lineKey = s.lineKey := rfl
@[simp] theorem State.modRegion_mtu (r : Nat) (f : Region → Region) : (s.modRegion r f).mtu = s.mtu := rfl
@[simp] theorem State.modRegion_xfaults (r : Nat) (f : Region → Region) : (s.modRegion r f).xfaults = s.xfaults := rfl
@[simp] theorem State.modRegion_dirty (r : Nat) (f : Region → Region) : (s.modRegion r f).dirty = s.dirty := rfl
@[simp] theorem State.modRegion_watches (r : Nat) (f : Region → Region) : (s.modRegion r f).watches = s.watches := rfl
@[simp] theorem State.modRegion_net (r : Nat) (f : Region → Region) : (s.modRegion r f).net = s.net := rfl
@[simp] theorem State.modRegion_counters (r : Nat) (f : Region → Region) : (s.modRegion r f).counters = s.counters := rfl
@[simp] theorem State.modRegion_flits (r : Nat) (f : Region → Region) : (s.modRegion r f).flits = s.flits := rfl
@[simp] theorem State.modRegion_failed (r : Nat) (f : Region → Region) : (s.modRegion r f).failed = s.failed := rfl
@[simp] theorem State.modRegion_fresh (r : Nat) (f : Region → Region) : (s.modRegion r f).fresh = s.fresh := rfl
@[simp] theorem State.modRegion_seq (r : Nat) (f : Region → Region) : (s.modRegion r f).seq = s.seq := rfl
@[simp] theorem State.modRegion_blocks (r : Nat) (f : Region → Region) : (s.modRegion r f).blocks = s.blocks := rfl
@[simp] theorem State.modRegion_queues (r : Nat) (f : Region → Region) : (s.modRegion r f).queues = s.queues := rfl
@[simp] theorem State.modRegion_lastP (r : Nat) (f : Region → Region) : (s.modRegion r f).lastP = s.lastP := rfl
@[simp] theorem State.modRegion_parts (r : Nat) (f : Region → Region) : (s.modRegion r f).parts = s.parts := rfl
@[simp] theorem State.modRegion_parents (r : Nat) (f : Region → Region) : (s.modRegion r f).parents = s.parents := rfl
@[simp] theorem State.modRegion_funcs (r : Nat) (f : Region → Region) : (s.modRegion r f).funcs = s.funcs := rfl
@[simp] theorem State.modRegion_vecs (r : Nat) (f : Region → Region) : (s.modRegion r f).vecs = s.vecs := rfl
@[simp] theorem State.modRegion_out (r : Nat) (f : Region → Region) : (s.modRegion r f).out = s.out := rfl
@[simp] theorem State.modRegion_pairs (r : Nat) (f : Region → Region) : (s.modRegion r f).pairs = s.pairs := rfl
@[simp] theorem State.modRegion_linkDown (r : Nat) (f : Region → Region) : (s.modRegion r f).linkDown = s.linkDown := rfl
@[simp] theorem State.modRegion_group (r : Nat) (f : Region → Region) : (s.modRegion r f).group = s.group := rfl
@[simp] theorem State.modRegion_groupIn (r : Nat) (f : Region → Region) : (s.modRegion r f).groupIn = s.groupIn := rfl
@[simp] theorem State.modRegion_cxl (r : Nat) (f : Region → Region) : (s.modRegion r f).cxl = s.cxl := rfl
@[simp] theorem State.modRegion_cxlMode (r : Nat) (f : Region → Region) : (s.modRegion r f).cxlMode = s.cxlMode := rfl
@[simp] theorem State.modRegion_fw (r : Nat) (f : Region → Region) : (s.modRegion r f).fw = s.fw := rfl

/-! ## modPart -/

@[simp] theorem State.modPart_cur (t : Nat) (f : Part → Part) : (s.modPart t f).cur = s.cur := rfl
@[simp] theorem State.modPart_tick (t : Nat) (f : Part → Part) : (s.modPart t f).tick = s.tick := rfl
@[simp] theorem State.modPart_cycle (t : Nat) (f : Part → Part) : (s.modPart t f).cycle = s.cycle := rfl
@[simp] theorem State.modPart_inputs (t : Nat) (f : Part → Part) : (s.modPart t f).inputs = s.inputs := rfl
@[simp] theorem State.modPart_cores (t : Nat) (f : Part → Part) : (s.modPart t f).cores = s.cores := rfl
@[simp] theorem State.modPart_clusters (t : Nat) (f : Part → Part) : (s.modPart t f).clusters = s.clusters := rfl
@[simp] theorem State.modPart_mem (t : Nat) (f : Part → Part) : (s.modPart t f).mem = s.mem := rfl
@[simp] theorem State.modPart_tags (t : Nat) (f : Part → Part) : (s.modPart t f).tags = s.tags := rfl
@[simp] theorem State.modPart_empties (t : Nat) (f : Part → Part) : (s.modPart t f).empties = s.empties := rfl
@[simp] theorem State.modPart_lineKey (t : Nat) (f : Part → Part) : (s.modPart t f).lineKey = s.lineKey := rfl
@[simp] theorem State.modPart_mtu (t : Nat) (f : Part → Part) : (s.modPart t f).mtu = s.mtu := rfl
@[simp] theorem State.modPart_xfaults (t : Nat) (f : Part → Part) : (s.modPart t f).xfaults = s.xfaults := rfl
@[simp] theorem State.modPart_dirty (t : Nat) (f : Part → Part) : (s.modPart t f).dirty = s.dirty := rfl
@[simp] theorem State.modPart_watches (t : Nat) (f : Part → Part) : (s.modPart t f).watches = s.watches := rfl
@[simp] theorem State.modPart_net (t : Nat) (f : Part → Part) : (s.modPart t f).net = s.net := rfl
@[simp] theorem State.modPart_counters (t : Nat) (f : Part → Part) : (s.modPart t f).counters = s.counters := rfl
@[simp] theorem State.modPart_flits (t : Nat) (f : Part → Part) : (s.modPart t f).flits = s.flits := rfl
@[simp] theorem State.modPart_failed (t : Nat) (f : Part → Part) : (s.modPart t f).failed = s.failed := rfl
@[simp] theorem State.modPart_fresh (t : Nat) (f : Part → Part) : (s.modPart t f).fresh = s.fresh := rfl
@[simp] theorem State.modPart_regions (t : Nat) (f : Part → Part) : (s.modPart t f).regions = s.regions := rfl
@[simp] theorem State.modPart_seq (t : Nat) (f : Part → Part) : (s.modPart t f).seq = s.seq := rfl
@[simp] theorem State.modPart_blocks (t : Nat) (f : Part → Part) : (s.modPart t f).blocks = s.blocks := rfl
@[simp] theorem State.modPart_queues (t : Nat) (f : Part → Part) : (s.modPart t f).queues = s.queues := rfl
@[simp] theorem State.modPart_lastP (t : Nat) (f : Part → Part) : (s.modPart t f).lastP = s.lastP := rfl
@[simp] theorem State.modPart_parents (t : Nat) (f : Part → Part) : (s.modPart t f).parents = s.parents := rfl
@[simp] theorem State.modPart_funcs (t : Nat) (f : Part → Part) : (s.modPart t f).funcs = s.funcs := rfl
@[simp] theorem State.modPart_vecs (t : Nat) (f : Part → Part) : (s.modPart t f).vecs = s.vecs := rfl
@[simp] theorem State.modPart_out (t : Nat) (f : Part → Part) : (s.modPart t f).out = s.out := rfl
@[simp] theorem State.modPart_pairs (t : Nat) (f : Part → Part) : (s.modPart t f).pairs = s.pairs := rfl
@[simp] theorem State.modPart_linkDown (t : Nat) (f : Part → Part) : (s.modPart t f).linkDown = s.linkDown := rfl
@[simp] theorem State.modPart_group (t : Nat) (f : Part → Part) : (s.modPart t f).group = s.group := rfl
@[simp] theorem State.modPart_groupIn (t : Nat) (f : Part → Part) : (s.modPart t f).groupIn = s.groupIn := rfl
@[simp] theorem State.modPart_cxl (t : Nat) (f : Part → Part) : (s.modPart t f).cxl = s.cxl := rfl
@[simp] theorem State.modPart_cxlMode (t : Nat) (f : Part → Part) : (s.modPart t f).cxlMode = s.cxlMode := rfl
@[simp] theorem State.modPart_fw (t : Nat) (f : Part → Part) : (s.modPart t f).fw = s.fw := rfl

/-! ## Reading back -/

@[simp] theorem State.core_setCore (n : Nat) (c : Core) : (s.setCore n c).core n = c := lookup_insert_self _ _ _ _

theorem State.core_setCore_other (n m : Nat) (c : Core) (h : n ≠ m) : (s.setCore n c).core m = s.core m :=
  lookup_insert_other _ _ _ _ _ h

@[simp] theorem State.setCore_setCore (n : Nat) (c d : Core) : (s.setCore n c).setCore n d = s.setCore n d := by
  simp [State.setCore]

@[simp] theorem State.core_setCluster (n m : Nat) (c : Cluster) : (s.setCluster n c).core m = s.core m := rfl
@[simp] theorem State.core_setCcl (m : Nat) (c : Cluster) : (s.setCcl c).core m = s.core m := rfl
@[simp] theorem State.thAt_setCluster (n m : Nat) (k : Fin 8) (c : Cluster) : (s.setCluster n c).thAt m k = s.thAt m k := rfl
@[simp] theorem State.cluster_setCore (n m : Nat) (c : Core) : (s.setCore n c).cluster m = s.cluster m := rfl
@[simp] theorem State.cluster_setTh (m : Nat) (t : Thread) : (s.setTh t).cluster m = s.cluster m := rfl
@[simp] theorem State.cluster_setCc (m : Nat) (c : Core) : (s.setCc c).cluster m = s.cluster m := rfl
@[simp] theorem State.cluster_setCluster (n : Nat) (c : Cluster) : (s.setCluster n c).cluster n = c := lookup_insert_self _ _ _ _

@[simp] theorem State.thAt_setThAt (n : Nat) (k : Fin 8) (t : Thread) : (s.setThAt n k t).thAt n k = t := by
  simp [State.thAt, State.setThAt, vget]

@[simp] theorem State.setThAt_setThAt (n : Nat) (k : Fin 8) (t u : Thread) : (s.setThAt n k t).setThAt n k u = s.setThAt n k u := by
  simp [State.setThAt]

@[simp] theorem State.th_setTh (t : Thread) : (s.setTh t).th = t := by simp [State.th, State.setTh]
@[simp] theorem State.setTh_setTh (t u : Thread) : (s.setTh t).setTh u = s.setTh u := by simp [State.setTh]
@[simp] theorem State.cc_setCc (c : Core) : (s.setCc c).cc = c := by simp [State.cc, State.setCc]
@[simp] theorem State.setCc_setCc (c d : Core) : (s.setCc c).setCc d = s.setCc d := by simp [State.setCc]
@[simp] theorem State.ccl_setCcl (c : Cluster) : (s.setCcl c).ccl = c := by simp [State.ccl, State.setCcl]
@[simp] theorem State.ccl_setTh (t : Thread) : (s.setTh t).ccl = s.ccl := rfl
@[simp] theorem State.ccl_setCc (c : Core) : (s.setCc c).ccl = s.ccl := rfl
@[simp] theorem State.th_setCcl (c : Cluster) : (s.setCcl c).th = s.th := rfl
@[simp] theorem State.cc_setCcl (c : Cluster) : (s.setCcl c).cc = s.cc := rfl
@[simp] theorem State.cc_setTh (t : Thread) : (s.setTh t).cc = { s.cc with th := s.cc.th.set s.cur.slot.val t s.cur.slot.isLt } := by
  simp [State.cc, State.setTh, State.setThAt]
@[simp] theorem State.th_setCc (c : Core) : (s.setCc c).th = c.th.get s.cur.slot := by simp [State.th, State.thAt, State.setCc]

@[simp] theorem State.region_setCore (n : Nat) (c : Core) (r : Nat) : (s.setCore n c).region? r = s.region? r := rfl
@[simp] theorem State.region_setTh (t : Thread) (r : Nat) : (s.setTh t).region? r = s.region? r := rfl
@[simp] theorem State.part_setCore (n : Nat) (c : Core) (t : Nat) : (s.setCore n c).part? t = s.part? t := rfl
@[simp] theorem State.part_setTh (u : Thread) (t : Nat) : (s.setTh u).part? t = s.part? t := rfl

/-! ## The fields of the current core a thread's update leaves -/

theorem State.cc_setTh_bound (t : Thread) : (s.setTh t).cc.bound = s.cc.bound := by simp
theorem State.cc_setTh_rid (t : Thread) : (s.setTh t).cc.rid = s.cc.rid := by simp
theorem State.cc_setTh_top (t : Thread) : (s.setTh t).cc.top = s.cc.top := by simp
theorem State.cc_setTh_stage (t : Thread) : (s.setTh t).cc.stage = s.cc.stage := by simp
theorem State.cc_setTh_tenant (t : Thread) : (s.setTh t).cc.tenant = s.cc.tenant := by simp
theorem State.cc_setTh_lcore (t : Thread) : (s.setTh t).cc.lcore = s.cc.lcore := by simp
theorem State.cc_setTh_sidx (t : Thread) : (s.setTh t).cc.sidx = s.cc.sidx := by simp
theorem State.cc_setTh_scnt (t : Thread) : (s.setTh t).cc.scnt = s.cc.scnt := by simp
theorem State.cc_setTh_ringed (t : Thread) : (s.setTh t).cc.ringed = s.cc.ringed := by simp
theorem State.cc_setTh_done (t : Thread) : (s.setTh t).cc.done = s.cc.done := by simp
theorem State.cc_setTh_smcount (t : Thread) : (s.setTh t).cc.smcount = s.cc.smcount := by simp
theorem State.cc_setTh_xbcfg (t : Thread) : (s.setTh t).cc.xbcfg = s.cc.xbcfg := by simp
theorem State.cc_setTh_xbcount (t : Thread) : (s.setTh t).cc.xbcount = s.cc.xbcount := by simp
theorem State.cc_setTh_xblatch (t : Thread) : (s.setTh t).cc.xblatch = s.cc.xblatch := by simp
theorem State.cc_setTh_xbfired (t : Thread) : (s.setTh t).cc.xbfired = s.cc.xbfired := by simp
theorem State.cc_setTh_xbpend (t : Thread) : (s.setTh t).cc.xbpend = s.cc.xbpend := by simp
theorem State.cc_setTh_xbtick (t : Thread) : (s.setTh t).cc.xbtick = s.cc.xbtick := by simp
theorem State.cc_setTh_accown (t : Thread) : (s.setTh t).cc.accown = s.cc.accown := by simp
theorem State.cc_setTh_acc (t : Thread) : (s.setTh t).cc.acc = s.cc.acc := by simp
theorem State.cc_setTh_latch (t : Thread) : (s.setTh t).cc.latch = s.cc.latch := by simp
theorem State.cc_setTh_scale (t : Thread) : (s.setTh t).cc.scale = s.cc.scale := by simp
theorem State.cc_setTh_trcbase (t : Thread) : (s.setTh t).cc.trcbase = s.cc.trcbase := by simp
theorem State.cc_setTh_trclen (t : Thread) : (s.setTh t).cc.trclen = s.cc.trclen := by simp
theorem State.cc_setTh_trcrng0 (t : Thread) : (s.setTh t).cc.trcrng0 = s.cc.trcrng0 := by simp
theorem State.cc_setTh_trcrng1 (t : Thread) : (s.setTh t).cc.trcrng1 = s.cc.trcrng1 := by simp
theorem State.cc_setTh_trcseq (t : Thread) : (s.setTh t).cc.trcseq = s.cc.trcseq := by simp
theorem State.cc_setTh_mq (t : Thread) : (s.setTh t).cc.mq = s.cc.mq := by simp
theorem State.cc_setTh_cq (t : Thread) : (s.setTh t).cc.cq = s.cc.cq := by simp
theorem State.cc_setTh_vq (t : Thread) : (s.setTh t).cc.vq = s.cc.vq := by simp
theorem State.cc_setTh_vrun (t : Thread) : (s.setTh t).cc.vrun = s.cc.vrun := by simp
theorem State.cc_setTh_strms (t : Thread) : (s.setTh t).cc.strms = s.cc.strms := by simp
theorem State.cc_setTh_deque (t : Thread) : (s.setTh t).cc.deque = s.cc.deque := by simp
theorem State.cc_setTh_feWait (t : Thread) : (s.setTh t).cc.feWait = s.cc.feWait := by simp
theorem State.cc_setTh_ep (t : Thread) : (s.setTh t).cc.ep = s.cc.ep := by simp
theorem State.cc_setTh_held (t : Thread) : (s.setTh t).cc.held = s.cc.held := by simp
theorem State.cc_setTh_heldOut (t : Thread) : (s.setTh t).cc.heldOut = s.cc.heldOut := by simp
theorem State.cc_setTh_tether (t : Thread) : (s.setTh t).cc.tether = s.cc.tether := by simp
theorem State.cc_setTh_qlog (t : Thread) : (s.setTh t).cc.qlog = s.cc.qlog := by simp
theorem State.cc_setTh_hptr (t : Thread) : (s.setTh t).cc.hptr = s.cc.hptr := by simp
theorem State.cc_setTh_nptr (t : Thread) : (s.setTh t).cc.nptr = s.cc.nptr := by simp
theorem State.cc_setTh_lastH (t : Thread) : (s.setTh t).cc.lastH = s.cc.lastH := by simp
theorem State.cc_setTh_rsec (t : Thread) : (s.setTh t).cc.rsec = s.cc.rsec := by simp
theorem State.cc_setTh_rbank (t : Thread) : (s.setTh t).cc.rbank = s.cc.rbank := by simp
theorem State.cc_setTh_rtimes (t : Thread) : (s.setTh t).cc.rtimes = s.cc.rtimes := by simp
theorem State.cc_setTh_marked (t : Thread) : (s.setTh t).cc.marked = s.cc.marked := by simp
theorem State.cc_setTh_retired (t : Thread) : (s.setTh t).cc.retired = s.cc.retired := by simp

/-! ## Registers -/

@[simp] theorem Thread.setG_pc (t : Thread) (r : BitVec 5) (v : Word) : (t.setG r v).pc = t.pc := by unfold Thread.setG; split <;> rfl
@[simp] theorem Thread.setG_pcc (t : Thread) (r : BitVec 5) (v : Word) : (t.setG r v).pcc = t.pcc := by unfold Thread.setG; split <;> rfl
@[simp] theorem Thread.setG_epcc (t : Thread) (r : BitVec 5) (v : Word) : (t.setG r v).epcc = t.epcc := by unfold Thread.setG; split <;> rfl
@[simp] theorem Thread.setG_a (t : Thread) (r : BitVec 5) (v : Word) : (t.setG r v).a = t.a := by unfold Thread.setG; split <;> rfl
@[simp] theorem Thread.setG_v (t : Thread) (r : BitVec 5) (v : Word) : (t.setG r v).v = t.v := by unfold Thread.setG; split <;> rfl
@[simp] theorem Thread.setG_k (t : Thread) (r : BitVec 5) (v : Word) : (t.setG r v).k = t.k := by unfold Thread.setG; split <;> rfl
@[simp] theorem Thread.setG_state (t : Thread) (r : BitVec 5) (v : Word) : (t.setG r v).state = t.state := by unfold Thread.setG; split <;> rfl
@[simp] theorem Thread.setG_lcore (t : Thread) (r : BitVec 5) (v : Word) : (t.setG r v).lcore = t.lcore := by unfold Thread.setG; split <;> rfl
@[simp] theorem Thread.setG_ctxid (t : Thread) (r : BitVec 5) (v : Word) : (t.setG r v).ctxid = t.ctxid := by unfold Thread.setG; split <;> rfl
@[simp] theorem Thread.setG_fpcsr (t : Thread) (r : BitVec 5) (v : Word) : (t.setG r v).fpcsr = t.fpcsr := by unfold Thread.setG; split <;> rfl
@[simp] theorem Thread.setG_srstrm (t : Thread) (r : BitVec 5) (v : Word) : (t.setG r v).srstrm = t.srstrm := by unfold Thread.setG; split <;> rfl
@[simp] theorem Thread.setG_srctr (t : Thread) (r : BitVec 5) (v : Word) : (t.setG r v).srctr = t.srctr := by unfold Thread.setG; split <;> rfl
@[simp] theorem Thread.setG_jseed (t : Thread) (r : BitVec 5) (v : Word) : (t.setG r v).jseed = t.jseed := by unfold Thread.setG; split <;> rfl
@[simp] theorem Thread.setG_tcause (t : Thread) (r : BitVec 5) (v : Word) : (t.setG r v).tcause = t.tcause := by unfold Thread.setG; split <;> rfl
@[simp] theorem Thread.setG_tval (t : Thread) (r : BitVec 5) (v : Word) : (t.setG r v).tval = t.tval := by unfold Thread.setG; split <;> rfl
@[simp] theorem Thread.setG_tepc (t : Thread) (r : BitVec 5) (v : Word) : (t.setG r v).tepc = t.tepc := by unfold Thread.setG; split <;> rfl
@[simp] theorem Thread.setG_tfpc (t : Thread) (r : BitVec 5) (v : Word) : (t.setG r v).tfpc = t.tfpc := by unfold Thread.setG; split <;> rfl
@[simp] theorem Thread.setG_tvec (t : Thread) (r : BitVec 5) (v : Word) : (t.setG r v).tvec = t.tvec := by unfold Thread.setG; split <;> rfl
@[simp] theorem Thread.setG_tstatus (t : Thread) (r : BitVec 5) (v : Word) : (t.setG r v).tstatus = t.tstatus := by unfold Thread.setG; split <;> rfl
@[simp] theorem Thread.setG_hscr (t : Thread) (r : BitVec 5) (v : Word) : (t.setG r v).hscr = t.hscr := by unfold Thread.setG; split <;> rfl
@[simp] theorem Thread.setG_tmcmp (t : Thread) (r : BitVec 5) (v : Word) : (t.setG r v).tmcmp = t.tmcmp := by unfold Thread.setG; split <;> rfl
@[simp] theorem Thread.setG_pfx (t : Thread) (r : BitVec 5) (v : Word) : (t.setG r v).pfx = t.pfx := by unfold Thread.setG; split <;> rfl
@[simp] theorem Thread.setG_rel (t : Thread) (r : BitVec 5) (v : Word) : (t.setG r v).rel = t.rel := by unfold Thread.setG; split <;> rfl
@[simp] theorem Thread.setG_dfr (t : Thread) (r : BitVec 5) (v : Word) : (t.setG r v).dfr = t.dfr := by unfold Thread.setG; split <;> rfl
@[simp] theorem Thread.setG_watch (t : Thread) (r : BitVec 5) (v : Word) : (t.setG r v).watch = t.watch := by unfold Thread.setG; split <;> rfl
@[simp] theorem Thread.setG_wait (t : Thread) (r : BitVec 5) (v : Word) : (t.setG r v).wait = t.wait := by unfold Thread.setG; split <;> rfl
@[simp] theorem Thread.setG_parkAt (t : Thread) (r : BitVec 5) (v : Word) : (t.setG r v).parkAt = t.parkAt := by unfold Thread.setG; split <;> rfl
@[simp] theorem Thread.setG_strm (t : Thread) (r : BitVec 5) (v : Word) : (t.setG r v).strm = t.strm := by unfold Thread.setG; split <;> rfl
@[simp] theorem Thread.setG_rbuf (t : Thread) (r : BitVec 5) (v : Word) : (t.setG r v).rbuf = t.rbuf := by unfold Thread.setG; split <;> rfl
@[simp] theorem Thread.setG_sbuf (t : Thread) (r : BitVec 5) (v : Word) : (t.setG r v).sbuf = t.sbuf := by unfold Thread.setG; split <;> rfl
@[simp] theorem Thread.setG_undo (t : Thread) (r : BitVec 5) (v : Word) : (t.setG r v).undo = t.undo := by unfold Thread.setG; split <;> rfl
@[simp] theorem Thread.setG_yld (t : Thread) (r : BitVec 5) (v : Word) : (t.setG r v).yld = t.yld := by unfold Thread.setG; split <;> rfl
@[simp] theorem Thread.setG_miss (t : Thread) (r : BitVec 5) (v : Word) : (t.setG r v).miss = t.miss := by unfold Thread.setG; split <;> rfl
@[simp] theorem Thread.setG_pre (t : Thread) (r : BitVec 5) (v : Word) : (t.setG r v).pre = t.pre := by unfold Thread.setG; split <;> rfl
@[simp] theorem Thread.setG_cmds (t : Thread) (r : BitVec 5) (v : Word) : (t.setG r v).cmds = t.cmds := by unfold Thread.setG; split <;> rfl
@[simp] theorem Thread.setG_inbox (t : Thread) (r : BitVec 5) (v : Word) : (t.setG r v).inbox = t.inbox := by unfold Thread.setG; split <;> rfl
@[simp] theorem Thread.setA_pc (t : Thread) (i : BitVec 4) (c : Cap) : (t.setA i c).pc = t.pc := rfl
@[simp] theorem Thread.setA_pcc (t : Thread) (i : BitVec 4) (c : Cap) : (t.setA i c).pcc = t.pcc := rfl
@[simp] theorem Thread.setA_epcc (t : Thread) (i : BitVec 4) (c : Cap) : (t.setA i c).epcc = t.epcc := rfl
@[simp] theorem Thread.setA_g (t : Thread) (i : BitVec 4) (c : Cap) : (t.setA i c).g = t.g := rfl
@[simp] theorem Thread.setA_v (t : Thread) (i : BitVec 4) (c : Cap) : (t.setA i c).v = t.v := rfl
@[simp] theorem Thread.setA_k (t : Thread) (i : BitVec 4) (c : Cap) : (t.setA i c).k = t.k := rfl
@[simp] theorem Thread.setA_state (t : Thread) (i : BitVec 4) (c : Cap) : (t.setA i c).state = t.state := rfl
@[simp] theorem Thread.setA_lcore (t : Thread) (i : BitVec 4) (c : Cap) : (t.setA i c).lcore = t.lcore := rfl
@[simp] theorem Thread.setA_ctxid (t : Thread) (i : BitVec 4) (c : Cap) : (t.setA i c).ctxid = t.ctxid := rfl
@[simp] theorem Thread.setA_fpcsr (t : Thread) (i : BitVec 4) (c : Cap) : (t.setA i c).fpcsr = t.fpcsr := rfl
@[simp] theorem Thread.setA_srstrm (t : Thread) (i : BitVec 4) (c : Cap) : (t.setA i c).srstrm = t.srstrm := rfl
@[simp] theorem Thread.setA_srctr (t : Thread) (i : BitVec 4) (c : Cap) : (t.setA i c).srctr = t.srctr := rfl
@[simp] theorem Thread.setA_jseed (t : Thread) (i : BitVec 4) (c : Cap) : (t.setA i c).jseed = t.jseed := rfl
@[simp] theorem Thread.setA_tcause (t : Thread) (i : BitVec 4) (c : Cap) : (t.setA i c).tcause = t.tcause := rfl
@[simp] theorem Thread.setA_tval (t : Thread) (i : BitVec 4) (c : Cap) : (t.setA i c).tval = t.tval := rfl
@[simp] theorem Thread.setA_tepc (t : Thread) (i : BitVec 4) (c : Cap) : (t.setA i c).tepc = t.tepc := rfl
@[simp] theorem Thread.setA_tfpc (t : Thread) (i : BitVec 4) (c : Cap) : (t.setA i c).tfpc = t.tfpc := rfl
@[simp] theorem Thread.setA_tvec (t : Thread) (i : BitVec 4) (c : Cap) : (t.setA i c).tvec = t.tvec := rfl
@[simp] theorem Thread.setA_tstatus (t : Thread) (i : BitVec 4) (c : Cap) : (t.setA i c).tstatus = t.tstatus := rfl
@[simp] theorem Thread.setA_hscr (t : Thread) (i : BitVec 4) (c : Cap) : (t.setA i c).hscr = t.hscr := rfl
@[simp] theorem Thread.setA_tmcmp (t : Thread) (i : BitVec 4) (c : Cap) : (t.setA i c).tmcmp = t.tmcmp := rfl
@[simp] theorem Thread.setA_pfx (t : Thread) (i : BitVec 4) (c : Cap) : (t.setA i c).pfx = t.pfx := rfl
@[simp] theorem Thread.setA_rel (t : Thread) (i : BitVec 4) (c : Cap) : (t.setA i c).rel = t.rel := rfl
@[simp] theorem Thread.setA_dfr (t : Thread) (i : BitVec 4) (c : Cap) : (t.setA i c).dfr = t.dfr := rfl
@[simp] theorem Thread.setA_watch (t : Thread) (i : BitVec 4) (c : Cap) : (t.setA i c).watch = t.watch := rfl
@[simp] theorem Thread.setA_wait (t : Thread) (i : BitVec 4) (c : Cap) : (t.setA i c).wait = t.wait := rfl
@[simp] theorem Thread.setA_parkAt (t : Thread) (i : BitVec 4) (c : Cap) : (t.setA i c).parkAt = t.parkAt := rfl
@[simp] theorem Thread.setA_strm (t : Thread) (i : BitVec 4) (c : Cap) : (t.setA i c).strm = t.strm := rfl
@[simp] theorem Thread.setA_rbuf (t : Thread) (i : BitVec 4) (c : Cap) : (t.setA i c).rbuf = t.rbuf := rfl
@[simp] theorem Thread.setA_sbuf (t : Thread) (i : BitVec 4) (c : Cap) : (t.setA i c).sbuf = t.sbuf := rfl
@[simp] theorem Thread.setA_undo (t : Thread) (i : BitVec 4) (c : Cap) : (t.setA i c).undo = t.undo := rfl
@[simp] theorem Thread.setA_yld (t : Thread) (i : BitVec 4) (c : Cap) : (t.setA i c).yld = t.yld := rfl
@[simp] theorem Thread.setA_miss (t : Thread) (i : BitVec 4) (c : Cap) : (t.setA i c).miss = t.miss := rfl
@[simp] theorem Thread.setA_pre (t : Thread) (i : BitVec 4) (c : Cap) : (t.setA i c).pre = t.pre := rfl
@[simp] theorem Thread.setA_cmds (t : Thread) (i : BitVec 4) (c : Cap) : (t.setA i c).cmds = t.cmds := rfl
@[simp] theorem Thread.setA_inbox (t : Thread) (i : BitVec 4) (c : Cap) : (t.setA i c).inbox = t.inbox := rfl
@[simp] theorem Thread.setV_pc (t : Thread) (i : BitVec 4) (x : BitVec 256) : (t.setV i x).pc = t.pc := rfl
@[simp] theorem Thread.setV_pcc (t : Thread) (i : BitVec 4) (x : BitVec 256) : (t.setV i x).pcc = t.pcc := rfl
@[simp] theorem Thread.setV_epcc (t : Thread) (i : BitVec 4) (x : BitVec 256) : (t.setV i x).epcc = t.epcc := rfl
@[simp] theorem Thread.setV_g (t : Thread) (i : BitVec 4) (x : BitVec 256) : (t.setV i x).g = t.g := rfl
@[simp] theorem Thread.setV_a (t : Thread) (i : BitVec 4) (x : BitVec 256) : (t.setV i x).a = t.a := rfl
@[simp] theorem Thread.setV_k (t : Thread) (i : BitVec 4) (x : BitVec 256) : (t.setV i x).k = t.k := rfl
@[simp] theorem Thread.setV_state (t : Thread) (i : BitVec 4) (x : BitVec 256) : (t.setV i x).state = t.state := rfl
@[simp] theorem Thread.setV_lcore (t : Thread) (i : BitVec 4) (x : BitVec 256) : (t.setV i x).lcore = t.lcore := rfl
@[simp] theorem Thread.setV_ctxid (t : Thread) (i : BitVec 4) (x : BitVec 256) : (t.setV i x).ctxid = t.ctxid := rfl
@[simp] theorem Thread.setV_fpcsr (t : Thread) (i : BitVec 4) (x : BitVec 256) : (t.setV i x).fpcsr = t.fpcsr := rfl
@[simp] theorem Thread.setV_srstrm (t : Thread) (i : BitVec 4) (x : BitVec 256) : (t.setV i x).srstrm = t.srstrm := rfl
@[simp] theorem Thread.setV_srctr (t : Thread) (i : BitVec 4) (x : BitVec 256) : (t.setV i x).srctr = t.srctr := rfl
@[simp] theorem Thread.setV_jseed (t : Thread) (i : BitVec 4) (x : BitVec 256) : (t.setV i x).jseed = t.jseed := rfl
@[simp] theorem Thread.setV_tcause (t : Thread) (i : BitVec 4) (x : BitVec 256) : (t.setV i x).tcause = t.tcause := rfl
@[simp] theorem Thread.setV_tval (t : Thread) (i : BitVec 4) (x : BitVec 256) : (t.setV i x).tval = t.tval := rfl
@[simp] theorem Thread.setV_tepc (t : Thread) (i : BitVec 4) (x : BitVec 256) : (t.setV i x).tepc = t.tepc := rfl
@[simp] theorem Thread.setV_tfpc (t : Thread) (i : BitVec 4) (x : BitVec 256) : (t.setV i x).tfpc = t.tfpc := rfl
@[simp] theorem Thread.setV_tvec (t : Thread) (i : BitVec 4) (x : BitVec 256) : (t.setV i x).tvec = t.tvec := rfl
@[simp] theorem Thread.setV_tstatus (t : Thread) (i : BitVec 4) (x : BitVec 256) : (t.setV i x).tstatus = t.tstatus := rfl
@[simp] theorem Thread.setV_hscr (t : Thread) (i : BitVec 4) (x : BitVec 256) : (t.setV i x).hscr = t.hscr := rfl
@[simp] theorem Thread.setV_tmcmp (t : Thread) (i : BitVec 4) (x : BitVec 256) : (t.setV i x).tmcmp = t.tmcmp := rfl
@[simp] theorem Thread.setV_pfx (t : Thread) (i : BitVec 4) (x : BitVec 256) : (t.setV i x).pfx = t.pfx := rfl
@[simp] theorem Thread.setV_rel (t : Thread) (i : BitVec 4) (x : BitVec 256) : (t.setV i x).rel = t.rel := rfl
@[simp] theorem Thread.setV_dfr (t : Thread) (i : BitVec 4) (x : BitVec 256) : (t.setV i x).dfr = t.dfr := rfl
@[simp] theorem Thread.setV_watch (t : Thread) (i : BitVec 4) (x : BitVec 256) : (t.setV i x).watch = t.watch := rfl
@[simp] theorem Thread.setV_wait (t : Thread) (i : BitVec 4) (x : BitVec 256) : (t.setV i x).wait = t.wait := rfl
@[simp] theorem Thread.setV_parkAt (t : Thread) (i : BitVec 4) (x : BitVec 256) : (t.setV i x).parkAt = t.parkAt := rfl
@[simp] theorem Thread.setV_strm (t : Thread) (i : BitVec 4) (x : BitVec 256) : (t.setV i x).strm = t.strm := rfl
@[simp] theorem Thread.setV_rbuf (t : Thread) (i : BitVec 4) (x : BitVec 256) : (t.setV i x).rbuf = t.rbuf := rfl
@[simp] theorem Thread.setV_sbuf (t : Thread) (i : BitVec 4) (x : BitVec 256) : (t.setV i x).sbuf = t.sbuf := rfl
@[simp] theorem Thread.setV_undo (t : Thread) (i : BitVec 4) (x : BitVec 256) : (t.setV i x).undo = t.undo := rfl
@[simp] theorem Thread.setV_yld (t : Thread) (i : BitVec 4) (x : BitVec 256) : (t.setV i x).yld = t.yld := rfl
@[simp] theorem Thread.setV_miss (t : Thread) (i : BitVec 4) (x : BitVec 256) : (t.setV i x).miss = t.miss := rfl
@[simp] theorem Thread.setV_pre (t : Thread) (i : BitVec 4) (x : BitVec 256) : (t.setV i x).pre = t.pre := rfl
@[simp] theorem Thread.setV_cmds (t : Thread) (i : BitVec 4) (x : BitVec 256) : (t.setV i x).cmds = t.cmds := rfl
@[simp] theorem Thread.setV_inbox (t : Thread) (i : BitVec 4) (x : BitVec 256) : (t.setV i x).inbox = t.inbox := rfl
@[simp] theorem Thread.setK_pc (t : Thread) (i : BitVec 3) (m : BitVec 32) : (t.setK i m).pc = t.pc := by unfold Thread.setK; split <;> rfl
@[simp] theorem Thread.setK_pcc (t : Thread) (i : BitVec 3) (m : BitVec 32) : (t.setK i m).pcc = t.pcc := by unfold Thread.setK; split <;> rfl
@[simp] theorem Thread.setK_epcc (t : Thread) (i : BitVec 3) (m : BitVec 32) : (t.setK i m).epcc = t.epcc := by unfold Thread.setK; split <;> rfl
@[simp] theorem Thread.setK_g (t : Thread) (i : BitVec 3) (m : BitVec 32) : (t.setK i m).g = t.g := by unfold Thread.setK; split <;> rfl
@[simp] theorem Thread.setK_a (t : Thread) (i : BitVec 3) (m : BitVec 32) : (t.setK i m).a = t.a := by unfold Thread.setK; split <;> rfl
@[simp] theorem Thread.setK_v (t : Thread) (i : BitVec 3) (m : BitVec 32) : (t.setK i m).v = t.v := by unfold Thread.setK; split <;> rfl
@[simp] theorem Thread.setK_state (t : Thread) (i : BitVec 3) (m : BitVec 32) : (t.setK i m).state = t.state := by unfold Thread.setK; split <;> rfl
@[simp] theorem Thread.setK_lcore (t : Thread) (i : BitVec 3) (m : BitVec 32) : (t.setK i m).lcore = t.lcore := by unfold Thread.setK; split <;> rfl
@[simp] theorem Thread.setK_ctxid (t : Thread) (i : BitVec 3) (m : BitVec 32) : (t.setK i m).ctxid = t.ctxid := by unfold Thread.setK; split <;> rfl
@[simp] theorem Thread.setK_fpcsr (t : Thread) (i : BitVec 3) (m : BitVec 32) : (t.setK i m).fpcsr = t.fpcsr := by unfold Thread.setK; split <;> rfl
@[simp] theorem Thread.setK_srstrm (t : Thread) (i : BitVec 3) (m : BitVec 32) : (t.setK i m).srstrm = t.srstrm := by unfold Thread.setK; split <;> rfl
@[simp] theorem Thread.setK_srctr (t : Thread) (i : BitVec 3) (m : BitVec 32) : (t.setK i m).srctr = t.srctr := by unfold Thread.setK; split <;> rfl
@[simp] theorem Thread.setK_jseed (t : Thread) (i : BitVec 3) (m : BitVec 32) : (t.setK i m).jseed = t.jseed := by unfold Thread.setK; split <;> rfl
@[simp] theorem Thread.setK_tcause (t : Thread) (i : BitVec 3) (m : BitVec 32) : (t.setK i m).tcause = t.tcause := by unfold Thread.setK; split <;> rfl
@[simp] theorem Thread.setK_tval (t : Thread) (i : BitVec 3) (m : BitVec 32) : (t.setK i m).tval = t.tval := by unfold Thread.setK; split <;> rfl
@[simp] theorem Thread.setK_tepc (t : Thread) (i : BitVec 3) (m : BitVec 32) : (t.setK i m).tepc = t.tepc := by unfold Thread.setK; split <;> rfl
@[simp] theorem Thread.setK_tfpc (t : Thread) (i : BitVec 3) (m : BitVec 32) : (t.setK i m).tfpc = t.tfpc := by unfold Thread.setK; split <;> rfl
@[simp] theorem Thread.setK_tvec (t : Thread) (i : BitVec 3) (m : BitVec 32) : (t.setK i m).tvec = t.tvec := by unfold Thread.setK; split <;> rfl
@[simp] theorem Thread.setK_tstatus (t : Thread) (i : BitVec 3) (m : BitVec 32) : (t.setK i m).tstatus = t.tstatus := by unfold Thread.setK; split <;> rfl
@[simp] theorem Thread.setK_hscr (t : Thread) (i : BitVec 3) (m : BitVec 32) : (t.setK i m).hscr = t.hscr := by unfold Thread.setK; split <;> rfl
@[simp] theorem Thread.setK_tmcmp (t : Thread) (i : BitVec 3) (m : BitVec 32) : (t.setK i m).tmcmp = t.tmcmp := by unfold Thread.setK; split <;> rfl
@[simp] theorem Thread.setK_pfx (t : Thread) (i : BitVec 3) (m : BitVec 32) : (t.setK i m).pfx = t.pfx := by unfold Thread.setK; split <;> rfl
@[simp] theorem Thread.setK_rel (t : Thread) (i : BitVec 3) (m : BitVec 32) : (t.setK i m).rel = t.rel := by unfold Thread.setK; split <;> rfl
@[simp] theorem Thread.setK_dfr (t : Thread) (i : BitVec 3) (m : BitVec 32) : (t.setK i m).dfr = t.dfr := by unfold Thread.setK; split <;> rfl
@[simp] theorem Thread.setK_watch (t : Thread) (i : BitVec 3) (m : BitVec 32) : (t.setK i m).watch = t.watch := by unfold Thread.setK; split <;> rfl
@[simp] theorem Thread.setK_wait (t : Thread) (i : BitVec 3) (m : BitVec 32) : (t.setK i m).wait = t.wait := by unfold Thread.setK; split <;> rfl
@[simp] theorem Thread.setK_parkAt (t : Thread) (i : BitVec 3) (m : BitVec 32) : (t.setK i m).parkAt = t.parkAt := by unfold Thread.setK; split <;> rfl
@[simp] theorem Thread.setK_strm (t : Thread) (i : BitVec 3) (m : BitVec 32) : (t.setK i m).strm = t.strm := by unfold Thread.setK; split <;> rfl
@[simp] theorem Thread.setK_rbuf (t : Thread) (i : BitVec 3) (m : BitVec 32) : (t.setK i m).rbuf = t.rbuf := by unfold Thread.setK; split <;> rfl
@[simp] theorem Thread.setK_sbuf (t : Thread) (i : BitVec 3) (m : BitVec 32) : (t.setK i m).sbuf = t.sbuf := by unfold Thread.setK; split <;> rfl
@[simp] theorem Thread.setK_undo (t : Thread) (i : BitVec 3) (m : BitVec 32) : (t.setK i m).undo = t.undo := by unfold Thread.setK; split <;> rfl
@[simp] theorem Thread.setK_yld (t : Thread) (i : BitVec 3) (m : BitVec 32) : (t.setK i m).yld = t.yld := by unfold Thread.setK; split <;> rfl
@[simp] theorem Thread.setK_miss (t : Thread) (i : BitVec 3) (m : BitVec 32) : (t.setK i m).miss = t.miss := by unfold Thread.setK; split <;> rfl
@[simp] theorem Thread.setK_pre (t : Thread) (i : BitVec 3) (m : BitVec 32) : (t.setK i m).pre = t.pre := by unfold Thread.setK; split <;> rfl
@[simp] theorem Thread.setK_cmds (t : Thread) (i : BitVec 3) (m : BitVec 32) : (t.setK i m).cmds = t.cmds := by unfold Thread.setK; split <;> rfl
@[simp] theorem Thread.setK_inbox (t : Thread) (i : BitVec 3) (m : BitVec 32) : (t.setK i m).inbox = t.inbox := by unfold Thread.setK; split <;> rfl
@[simp] theorem Thread.retired_pcc (t : Thread) (n : Nat) : (t.retired n).pcc = t.pcc := rfl
@[simp] theorem Thread.retired_epcc (t : Thread) (n : Nat) : (t.retired n).epcc = t.epcc := rfl
@[simp] theorem Thread.retired_g (t : Thread) (n : Nat) : (t.retired n).g = t.g := rfl
@[simp] theorem Thread.retired_a (t : Thread) (n : Nat) : (t.retired n).a = t.a := rfl
@[simp] theorem Thread.retired_v (t : Thread) (n : Nat) : (t.retired n).v = t.v := rfl
@[simp] theorem Thread.retired_k (t : Thread) (n : Nat) : (t.retired n).k = t.k := rfl
@[simp] theorem Thread.retired_lcore (t : Thread) (n : Nat) : (t.retired n).lcore = t.lcore := rfl
@[simp] theorem Thread.retired_ctxid (t : Thread) (n : Nat) : (t.retired n).ctxid = t.ctxid := rfl
@[simp] theorem Thread.retired_fpcsr (t : Thread) (n : Nat) : (t.retired n).fpcsr = t.fpcsr := rfl
@[simp] theorem Thread.retired_srstrm (t : Thread) (n : Nat) : (t.retired n).srstrm = t.srstrm := rfl
@[simp] theorem Thread.retired_srctr (t : Thread) (n : Nat) : (t.retired n).srctr = t.srctr := rfl
@[simp] theorem Thread.retired_jseed (t : Thread) (n : Nat) : (t.retired n).jseed = t.jseed := rfl
@[simp] theorem Thread.retired_tcause (t : Thread) (n : Nat) : (t.retired n).tcause = t.tcause := rfl
@[simp] theorem Thread.retired_tval (t : Thread) (n : Nat) : (t.retired n).tval = t.tval := rfl
@[simp] theorem Thread.retired_tepc (t : Thread) (n : Nat) : (t.retired n).tepc = t.tepc := rfl
@[simp] theorem Thread.retired_tfpc (t : Thread) (n : Nat) : (t.retired n).tfpc = t.tfpc := rfl
@[simp] theorem Thread.retired_tvec (t : Thread) (n : Nat) : (t.retired n).tvec = t.tvec := rfl
@[simp] theorem Thread.retired_tstatus (t : Thread) (n : Nat) : (t.retired n).tstatus = t.tstatus := rfl
@[simp] theorem Thread.retired_hscr (t : Thread) (n : Nat) : (t.retired n).hscr = t.hscr := rfl
@[simp] theorem Thread.retired_tmcmp (t : Thread) (n : Nat) : (t.retired n).tmcmp = t.tmcmp := rfl
@[simp] theorem Thread.retired_rel (t : Thread) (n : Nat) : (t.retired n).rel = t.rel := rfl
@[simp] theorem Thread.retired_dfr (t : Thread) (n : Nat) : (t.retired n).dfr = t.dfr := rfl
@[simp] theorem Thread.retired_watch (t : Thread) (n : Nat) : (t.retired n).watch = t.watch := rfl
@[simp] theorem Thread.retired_parkAt (t : Thread) (n : Nat) : (t.retired n).parkAt = t.parkAt := rfl
@[simp] theorem Thread.retired_strm (t : Thread) (n : Nat) : (t.retired n).strm = t.strm := rfl
@[simp] theorem Thread.retired_rbuf (t : Thread) (n : Nat) : (t.retired n).rbuf = t.rbuf := rfl
@[simp] theorem Thread.retired_sbuf (t : Thread) (n : Nat) : (t.retired n).sbuf = t.sbuf := rfl
@[simp] theorem Thread.retired_yld (t : Thread) (n : Nat) : (t.retired n).yld = t.yld := rfl
@[simp] theorem Thread.retired_miss (t : Thread) (n : Nat) : (t.retired n).miss = t.miss := rfl
@[simp] theorem Thread.retired_pre (t : Thread) (n : Nat) : (t.retired n).pre = t.pre := rfl
@[simp] theorem Thread.retired_cmds (t : Thread) (n : Nat) : (t.retired n).cmds = t.cmds := rfl
@[simp] theorem Thread.retired_inbox (t : Thread) (n : Nat) : (t.retired n).inbox = t.inbox := rfl

/-- A register written reads back; g0 reads as zero (R10). -/
theorem Thread.gr_setG_self (t : Thread) (r : BitVec 5) (v : Word) : (t.setG r v).gr r = if r = 0 then 0 else v := by
  unfold Thread.gr Thread.setG
  split
  · rfl
  · simp [vget]

/-- A register written leaves every other register. -/
theorem Thread.gr_setG_other (t : Thread) (r q : BitVec 5) (v : Word) (h : r ≠ q) : (t.setG r v).gr q = t.gr q := by
  unfold Thread.gr Thread.setG
  split
  · rfl
  · split
    · rfl
    · have : r.toNat ≠ q.toNat := fun e => h (BitVec.eq_of_toNat_eq e)
      simp [vget, this]

@[simp] theorem Thread.gr_retired (t : Thread) (n : Nat) (q : BitVec 5) : (t.retired n).gr q = t.gr q := rfl
@[simp] theorem Thread.ar_setA_self (t : Thread) (i : BitVec 4) (c : Cap) : (t.setA i c).ar i = c := by simp [Thread.ar, Thread.setA, vget]
theorem Thread.ar_setA_other (t : Thread) (i j : BitVec 4) (c : Cap) (h : i ≠ j) : (t.setA i c).ar j = t.ar j := by
  have : i.toNat ≠ j.toNat := fun e => h (BitVec.eq_of_toNat_eq e)
  simp [Thread.ar, Thread.setA, vget, this]
@[simp] theorem Thread.gr_setA (t : Thread) (i : BitVec 4) (c : Cap) (r : BitVec 5) : (t.setA i c).gr r = t.gr r := rfl

end Sys2Proof.Machine
end

