-- ==== Sys2Proof/Laws/Operands.lean ====
section
/-! SUPPORT. How effects run, what the operand forms give, and how an instruction retires (R10, R54, R56, R83, R123). -/

namespace Sys2Proof.Machine

/-! ## Running an effect -/

theorem bind_ok {α β : Type} {m : Eff α} {f : α → Eff β} {s t : State} {a : α} (h : m s = .ok (a, t)) : (m >>= f) s = f a t := by
  show (Bind.bind (m s) fun p => f p.1 p.2) = _
  rw [h]; rfl

theorem bind_error {α β : Type} {m : Eff α} {f : α → Eff β} {s : State} {e : Stop} (h : m s = .error e) : (m >>= f) s = .error e := by
  show (Bind.bind (m s) fun p => f p.1 p.2) = _
  rw [h]; rfl

/-- What a sequence does when it succeeds: its parts succeed one after the other. -/
theorem bind_inv {α β : Type} {m : Eff α} {f : α → Eff β} {s u : State} {b : β} (h : (m >>= f) s = .ok (b, u)) :
    ∃ a t, m s = .ok (a, t) ∧ f a t = .ok (b, u) := by
  cases e : m s with
  | error x => rw [bind_error e] at h; cases h
  | ok p => rw [bind_ok (a := p.1) (t := p.2) e] at h; exact ⟨p.1, p.2, rfl, h⟩

@[simp] theorem run_pure {α : Type} (a : α) (s : State) : (pure a : Eff α) s = .ok (a, s) := rfl
@[simp] theorem run_gets {α : Type} (f : State → α) (s : State) : gets f s = .ok (f s, s) := rfl
@[simp] theorem run_mods (f : State → State) (s : State) : mods f s = .ok ((), f s) := rfl
@[simp] theorem run_modTh (f : Thread → Thread) (s : State) : modTh f s = .ok ((), s.setTh (f s.th)) := rfl
@[simp] theorem run_modCc (f : Core → Core) (s : State) : modCc f s = .ok ((), s.setCc (f s.cc)) := rfl
@[simp] theorem run_modCcl (f : Cluster → Cluster) (s : State) : modCcl f s = .ok ((), s.setCcl (f s.ccl)) := rfl
@[simp] theorem run_stop {α : Type} (x : Stop) (s : State) : (stop x : Eff α) s = .error x := rfl
@[simp] theorem run_trapWith {α : Type} (c : Cause) (v : Word) (s : State) : (trapWith c v : Eff α) s = .error (.trap c v) := rfl
@[simp] theorem run_parkWith {α : Type} (st : TState) (w : Wait) (s : State) : (parkWith st w : Eff α) s = .error (.park st w) := rfl
@[simp] theorem run_waitIn (st : TState) (w : Wait) (s : State) : waitIn st w s = .ok ((), s.parkTh st w) := rfl
@[simp] theorem run_demand (ok : Bool) (c : Cause) (v : Word) (s : State) :
    demand ok c v s = if ok then .ok ((), s) else .error (.trap c v) := by cases ok <;> rfl

@[simp] theorem run_pure_bind {α β : Type} (a : α) (f : α → Eff β) (s : State) : (pure a >>= f) s = f a s := rfl
@[simp] theorem run_gets_bind {α β : Type} (g : State → α) (f : α → Eff β) (s : State) : (gets g >>= f) s = f (g s) s := rfl
@[simp] theorem run_mods_bind {β : Type} (g : State → State) (f : Unit → Eff β) (s : State) : (mods g >>= f) s = f () (g s) := rfl
@[simp] theorem run_modTh_bind {β : Type} (g : Thread → Thread) (f : Unit → Eff β) (s : State) :
    (modTh g >>= f) s = f () (s.setTh (g s.th)) := rfl
@[simp] theorem run_modCc_bind {β : Type} (g : Core → Core) (f : Unit → Eff β) (s : State) :
    (modCc g >>= f) s = f () (s.setCc (g s.cc)) := rfl
@[simp] theorem run_modCcl_bind {β : Type} (g : Cluster → Cluster) (f : Unit → Eff β) (s : State) :
    (modCcl g >>= f) s = f () (s.setCcl (g s.ccl)) := rfl
@[simp] theorem run_waitIn_bind {β : Type} (st : TState) (w : Wait) (f : Unit → Eff β) (s : State) :
    (waitIn st w >>= f) s = f () (s.parkTh st w) := rfl
@[simp] theorem run_demand_bind {β : Type} (ok : Bool) (c : Cause) (v : Word) (f : Unit → Eff β) (s : State) :
    (demand ok c v >>= f) s = if ok then f () s else .error (.trap c v) := by cases ok <;> rfl

theorem run_bind_assoc {α β γ : Type} (m : Eff α) (f : α → Eff β) (g : β → Eff γ) (s : State) :
    ((m >>= f) >>= g) s = (m >>= fun a => f a >>= g) s := by
  cases e : m s with
  | error x => rw [bind_error e, bind_error (bind_error e)]
  | ok p =>
    rw [bind_ok (a := p.1) (t := p.2) e]
    cases e2 : f p.1 p.2 with
    | error x => rw [bind_error e2]; exact bind_error (by rw [bind_ok (a := p.1) (t := p.2) e]; exact e2)
    | ok q => rw [bind_ok (a := q.1) (t := q.2) e2]; exact bind_ok (by rw [bind_ok (a := p.1) (t := p.2) e]; exact e2)

theorem go_ok {m : Eff Unit} {s t : State} (h : m s = .ok ((), t)) : m.go s = .next t := by simp [Eff.go, h]
theorem go_error {m : Eff Unit} {s : State} {x : Stop} (h : m s = .error x) : m.go s = x.finish s := by simp [Eff.go, h]

/-- A stop always leaves a next state. -/
theorem finish_next (s : State) (x : Stop) : ∃ t, x.finish s = .next t := by
  cases x <;> exact ⟨_, rfl⟩

/-- A meaning that runs an effect always has a next state. -/
theorem go_next (m : Eff Unit) (s : State) : ∃ t, m.go s = .next t := by
  cases e : m s with
  | error x => rw [go_error e]; exact finish_next s x
  | ok p => exact ⟨p.2, go_ok e⟩

/-! ## General registers -/

/-- No relaxed access of the thread has g r as its destination, and no recorded fault names it (R123, R124). -/
def Thread.clearG (t : Thread) (r : BitVec 5) : Prop :=
  (∀ x ∈ t.rel, x.setsG r = false) ∧ ∀ d ∈ t.dfr, d.dest ≠ some (false, if r = 0 then 63 else r.zeroExtend 6)

theorem hazard_ok (s : State) (hit : RelAcc → Bool) (dest : Bool × BitVec 6) (h1 : ∀ x ∈ s.th.rel, hit x = false)
    (h2 : ∀ d ∈ s.th.dfr, d.dest ≠ some dest) : hazard hit dest s = .ok ((), s) := by
  have e1 : s.th.rel.find? hit = none := List.find?_eq_none.2 (fun x hx => by simp [h1 x hx])
  have e2 : s.th.dfr.any (fun d => d.dest == some dest) = false := by
    simp only [List.any_eq_false, beq_iff_eq]
    exact fun d hd => h2 d hd
  simp only [hazard, run_gets_bind, e1, e2]
  rfl

@[simp] theorem useG_ok (s : State) (r : BitVec 5) (h : s.th.clearG r) : useG r s = .ok ((), s) := hazard_ok s _ _ h.1 h.2

theorem readG_ok (s : State) (r : BitVec 5) (h : s.th.clearG r) : readG r s = .ok (s.th.gr r, s) := by
  rw [readG, bind_ok (useG_ok s r h)]; rfl

theorem writeG_ok (s : State) (r : BitVec 5) (v : Word) (h : s.th.clearG r) : writeG r v s = .ok ((), s.setTh (s.th.setG r v)) := by
  rw [writeG, bind_ok (useG_ok s r h)]; rfl

/-- Reading a register changes nothing. -/
theorem hazard_inv {s t : State} {hit : RelAcc → Bool} {dest : Bool × BitVec 6} (h : hazard hit dest s = .ok ((), t)) : t = s := by
  simp only [hazard, run_gets_bind] at h
  cases e : s.th.rel.find? hit with
  | some x => simp only [e] at h; cases h
  | none =>
    simp only [e] at h
    cases e2 : s.th.dfr.any (fun d => d.dest == some dest) with
    | false => simp only [e2] at h; cases h; rfl
    | true =>
      simp only [e2] at h
      cases e3 : s.th.dfr with
      | nil => simp only [e3] at h; cases h; rfl
      | cons d r => simp only [e3] at h; cases h

theorem readG_inv {s t : State} {r : BitVec 5} {v : Word} (h : readG r s = .ok (v, t)) : t = s ∧ v = s.th.gr r := by
  obtain ⟨_, u, h1, h2⟩ := bind_inv h
  cases hazard_inv h1
  cases h2
  exact ⟨rfl, rfl⟩

/-! ## Capability registers -/

/-- Capability register i can be read: no relaxed access of the thread loads it, and no recorded fault names it (R123, R124). -/
def Thread.readyA (t : Thread) (i : BitVec 4) : Prop :=
  (∀ x ∈ t.rel, x.setsA i = false) ∧ ∀ d ∈ t.dfr, d.dest ≠ some (true, i.zeroExtend 6)

/-- It can be written: besides, no relaxed store of the thread keeps its capability in it. -/
def Thread.clearA (t : Thread) (i : BitVec 4) : Prop := t.readyA i ∧ ∀ x ∈ t.rel, x.keepsA i = false

theorem readA_ok (s : State) (i : BitVec 4) (h : s.th.readyA i) : readA i s = .ok (s.th.ar i, s) := by
  rw [readA, bind_ok (hazard_ok s _ _ h.1 h.2)]; rfl

theorem writeA_ok (s : State) (i : BitVec 4) (c : Cap) (h : s.th.clearA i) : writeA i c s = .ok ((), s.setTh (s.th.setA i c)) := by
  rw [writeA, bind_ok (hazard_ok s _ _ (fun x hx => by simp [h.1.1 x hx, h.2 x hx]) h.1.2)]; rfl

/-! ## Retirement -/

@[simp] theorem run_retire (s : State) (len : Nat) : retire len s = .ok ((), s.setTh (s.th.retired len)) := rfl

@[simp] theorem writeFx_none (s : State) : writeFx Fx.none s = .ok ((), s) := rfl

@[simp] theorem retireFx_none (s : State) (len : Nat) : retireFx len Fx.none s = .ok ((), s.setTh (s.th.retired len)) := rfl

/-- What an instruction writes as it retires leaves all but FPCSR, SRCTR and CFLAGS, and always succeeds. -/
theorem retireFx_total (s : State) (len : Nat) (x : Fx) : ∃ t, retireFx len x s = .ok ((), t) := by
  obtain ⟨fl, draw⟩ := x
  by_cases h : fl = 0 <;> cases draw <;> simp only [retireFx, writeFx, h, if_true, if_false, Bool.false_eq_true] <;> exact ⟨_, rfl⟩

/-- A send buffer with fewer than four words is not offered: the instruction retires (R56). -/
theorem offer_skip (s : State) (b : Fin 2) (len : Nat) (x : Fx) (redo : Bool) (h : (s.th.sbuf.get b).length < 4) :
    offer b len x redo s = retireFx len x s := by
  simp [offer, h]

/-- An offer always answers: the instruction retires, traps, or waits (R56, R136). -/
theorem offer_total (s : State) (b : Fin 2) (len : Nat) (x : Fx) (redo : Bool) : ∃ t, offer b len x redo s = .ok ((), t) := by
  simp only [offer, run_gets_bind]
  split
  · exact retireFx_total ..
  · split
    · exact ⟨_, rfl⟩
    · split
      · exact ⟨_, rfl⟩
      · split
        · exact retireFx_total ..
        · exact ⟨_, rfl⟩

/-- The end of an instruction always answers. -/
theorem endDst_total (s : State) (d : Dst) (len : Nat) (x : Fx) (redo : Bool) : ∃ t, endDst d len x redo s = .ok ((), t) := by
  cases d with
  | g r => exact retireFx_total ..
  | q6 => exact offer_total ..
  | q7 => exact offer_total ..

@[simp] theorem endDst_g (s : State) (r : BitVec 5) (len : Nat) (redo : Bool) :
    endDst (.g r) len Fx.none redo s = .ok ((), s.setTh (s.th.retired len)) := rfl

/-! ## Instructions with a destination -/

theorem resuming_g (t : Thread) (r : BitVec 5) : t.resuming (.g r) = false := rfl

/-- An instruction that writes d: its value, its destination, its end. -/
theorem withFx_ok {s s1 s2 t : State} {d : Dst} {len : Nat} {body : Eff (Word × Fx)} {v : Word × Fx} (h1 : useDst d s = .ok ((), s))
    (h2 : s.th.resuming d = false) (h3 : body s = .ok (v, s1)) (h4 : writeDst d v.1 s1 = .ok ((), s2))
    (h5 : endDst d len v.2 true s2 = .ok ((), t)) : withFx d len body s = .ok ((), t) := by
  rw [withFx, bind_ok h1]
  simp only [run_gets_bind, h2, Bool.false_eq_true, if_false]
  rw [bind_ok h3, bind_ok h4, h5]

theorem withD_ok {s s1 s2 t : State} {d : Dst} {len : Nat} {body : Eff Word} {v : Word} (h1 : useDst d s = .ok ((), s))
    (h2 : s.th.resuming d = false) (h3 : body s = .ok (v, s1)) (h4 : writeDst d v s1 = .ok ((), s2))
    (h5 : endDst d len Fx.none true s2 = .ok ((), t)) : withD d len body s = .ok ((), t) :=
  withFx_ok (v := (v, Fx.none)) h1 h2 (by rw [bind_ok h3]; rfl) h4 h5

/-- With a general register as its destination. -/
theorem withD_g {s s1 : State} {r : BitVec 5} {len : Nat} {body : Eff Word} {v : Word} (h1 : s.th.clearG r)
    (h3 : body s = .ok (v, s1)) (h4 : s1.th.clearG r) :
    withD (.g r) len body s = .ok ((), s1.setTh ((s1.th.setG r v).retired len)) := by
  refine withD_ok (useG_ok s r h1) rfl h3 (writeG_ok s1 r v h4) ?_
  rw [endDst_g]
  simp

theorem alu2_ok {s s1 s2 s3 t : State} {d : Dst} {p q : Src} {f : Word → Word → Word} {a b : Word} (h1 : useDst d s = .ok ((), s))
    (h2 : s.th.resuming d = false) (h3 : readSrc p s = .ok (a, s1)) (h4 : readSrc q s1 = .ok (b, s2))
    (h5 : writeDst d (f a b) s2 = .ok ((), s3)) (h6 : endDst d (len2 p q) Fx.none true s3 = .ok ((), t)) : (alu2 d p q f).go s = .next t :=
  go_ok (withD_ok h1 h2 (by rw [bind_ok h3, bind_ok h4]; rfl) h5 h6)

theorem alu1_ok {s s1 s2 t : State} {d : Dst} {p : Src} {f : Word → Word} {a : Word} (h1 : useDst d s = .ok ((), s))
    (h2 : s.th.resuming d = false) (h3 : readSrc p s = .ok (a, s1)) (h5 : writeDst d (f a) s1 = .ok ((), s2))
    (h6 : endDst d (len1 p) Fx.none true s2 = .ok ((), t)) : (alu1 d p f).go s = .next t :=
  go_ok (withD_ok h1 h2 (by rw [bind_ok h3]; rfl) h5 h6)

theorem alu3_ok {s s1 s2 : State} {d : BitVec 5} {p q : Src} {f : Word → Word → Word → Word} {a b : Word} (h1 : s.th.clearG d)
    (h3 : readSrc p s = .ok (a, s1)) (h4 : readSrc q s1 = .ok (b, s2)) (h5 : s2.th.clearG d) :
    (alu3 d p q f).go s = .next (s2.setTh ((s2.th.setG d (f (s.th.gr d) a b)).retired (len2 p q))) :=
  go_ok (withD_g h1 (by rw [bind_ok (readG_ok s d h1), bind_ok h3, bind_ok h4]; rfl) h5)

end Sys2Proof.Machine
end

