-- ==== Sys2Proof/Safety.lean ====
section
/-! DEFINITION. What a safe run is: the model neither stops with a fault nor refuses. -/

namespace Sys2Proof.Machine

/-- No fault and no refusal within n steps from s. -/
def SafeFor (n : Nat) (s : State) : Prop :=
  ∀ k, k ≤ n → ∃ t, Sys2Proof.core.run k s = .next t

/-- No fault and no refusal, ever. -/
def Safe (s : State) : Prop := ∀ n, SafeFor n s

end Sys2Proof.Machine
end

