-- ==== Sys2Proof/Certificates/Slice0/Obligations.lean ====
section
/-! DEFINITION. The statements for the provers. Each docstring names the rules of spec/ it formalises; what a statement says of a value
that the spec leaves open holds for every such value. -/

open Sys2Proof Sys2Proof.Machine

/-! ## Scalar instructions: operands, results, frames -/

namespace Sys2Proof.Spec

/-- The bit a relation is written as (R94). -/
def flag (p : Prop) [Decidable p] : Word := if p then 1 else 0

/-- The two-source integer instructions, with the result in exact arithmetic (R85, R88, R91-R94). -/
def twoSource (d : Dst) (p q : Src) : List (Instr × (Word → Word → Word)) :=
  [(.add d p q, fun a b => BitVec.ofInt 64 (a.toInt + b.toInt)),
   (.sub d p q, fun a b => BitVec.ofInt 64 (a.toInt - b.toInt)),
   (.and d p q, fun a b => a &&& b),
   (.or d p q, fun a b => a ||| b),
   (.xor d p q, fun a b => a ^^^ b),
   (.andn d p q, fun a b => a &&& ~~~b),
   (.orn d p q, fun a b => a ||| ~~~b),
   (.min d p q, fun a b => BitVec.ofInt 64 (Min.min a.toInt b.toInt)),
   (.max d p q, fun a b => BitVec.ofInt 64 (Max.max a.toInt b.toInt)),
   (.minu d p q, fun a b => BitVec.ofNat 64 (Min.min a.toNat b.toNat)),
   (.maxu d p q, fun a b => BitVec.ofNat 64 (Max.max a.toNat b.toNat)),
   (.shl d p q, fun a b => BitVec.ofNat 64 (a.toNat * 2 ^ (b.toNat % 64))),
   (.shr d p q, fun a b => BitVec.ofNat 64 (a.toNat / 2 ^ (b.toNat % 64))),
   (.sar d p q, fun a b => BitVec.ofInt 64 (a.toInt / 2 ^ (b.toNat % 64))),
   (.rotl d p q, fun a b => BitVec.ofNat 64 (a.toNat * 2 ^ (b.toNat % 64) % 2 ^ 64 + a.toNat / 2 ^ (64 - b.toNat % 64))),
   (.bfx d p q, fun a b => BitVec.ofNat 64 (a.toNat / 2 ^ (b.toNat % 64) % 2 ^ Min.min (b.toNat / 256 % 128) 64)),
   (.mul d p q, fun a b => BitVec.ofInt 64 (a.toInt * b.toInt)),
   (.mulh d p q, fun a b => BitVec.ofInt 64 (a.toInt * b.toInt / 2 ^ 64)),
   (.mulhu d p q, fun a b => BitVec.ofNat 64 (a.toNat * b.toNat / 2 ^ 64)),
   (.div d p q, fun a b => if b = 0 then 0xFFFFFFFFFFFFFFFF else BitVec.ofInt 64 (a.toInt.tdiv b.toInt)),
   (.rem d p q, fun a b => if b = 0 then a else BitVec.ofInt 64 (a.toInt - a.toInt.tdiv b.toInt * b.toInt)),
   (.divu d p q, fun a b => if b = 0 then 0xFFFFFFFFFFFFFFFF else BitVec.ofNat 64 (a.toNat / b.toNat)),
   (.remu d p q, fun a b => if b = 0 then a else BitVec.ofNat 64 (a.toNat - a.toNat / b.toNat * b.toNat)),
   (.seq d p q, fun a b => flag (a.toNat = b.toNat)),
   (.sne d p q, fun a b => flag (a.toNat ≠ b.toNat)),
   (.slt d p q, fun a b => flag (a.toInt < b.toInt)),
   (.sltu d p q, fun a b => flag (a.toNat < b.toNat)),
   (.sle d p q, fun a b => flag (a.toInt ≤ b.toInt)),
   (.sleu d p q, fun a b => flag (a.toNat ≤ b.toNat))]

/-- The low n bits of a number read as a signed value. -/
def signedLow (n a : Nat) : Int := if a % 2 ^ n < 2 ^ (n - 1) then (a % 2 ^ n : Nat) else (a % 2 ^ n : Nat) - (2 ^ n : Nat)

/-- The one-source integer instructions, with their result (R87, R89, R90). -/
def oneSource (d : Dst) (p : Src) : List (Instr × (Word → Word)) :=
  [(.mov d p, fun a => a),
   (.clz d p, fun a => BitVec.ofNat 64 (((List.range 64).find? (fun i => a.getLsbD (63 - i))).getD 64)),
   (.ctz d p, fun a => BitVec.ofNat 64 (((List.range 64).find? (fun i => a.getLsbD i)).getD 64)),
   (.popc d p, fun a => BitVec.ofNat 64 ((List.range 64).filter (fun i => a.getLsbD i)).length),
   (.sextB d p, fun a => BitVec.ofInt 64 (signedLow 8 a.toNat)),
   (.sextH d p, fun a => BitVec.ofInt 64 (signedLow 16 a.toNat)),
   (.sextW d p, fun a => BitVec.ofInt 64 (signedLow 32 a.toNat)),
   (.zextB d p, fun a => BitVec.ofNat 64 (a.toNat % 2 ^ 8)),
   (.zextH d p, fun a => BitVec.ofNat 64 (a.toNat % 2 ^ 16)),
   (.zextW d p, fun a => BitVec.ofNat 64 (a.toNat % 2 ^ 32))]

/-- Bits POS to POS + WID - 1 of a register, those below 64 (R91). -/
def fieldBits (spec : Word) (i : Nat) : Bool :=
  decide (spec.toNat % 64 ≤ i ∧ i < spec.toNat % 64 + Min.min (spec.toNat / 256 % 128) 64)

/-- A destination can be written: no relaxed access of the thread and no recorded fault names it (R123, R124), and the instruction is not
one that has been resumed only to offer its full send buffer again (R56). -/
def Ready (d : Dst) (s : State) : Prop := useDst d s = .ok ((), s) ∧ s.th.resuming d = false

end Sys2Proof.Spec

open Sys2Proof.Spec

/-- R85, R88, R91 (bfx), R92, R93, R94. Every two-source integer instruction, for every form of its operands whose reads succeed,
completes: it writes its result to its destination and retires, whatever the state. -/
def Sys2Proof.Spec.IntegerTwoSourceResult : Prop :=
  ∀ (d : Dst) (p q : Src), ∀ x ∈ twoSource d p q,
    ∀ (s s1 s2 s3 : State) (a b : Word), Ready d s → readSrc p s = .ok (a, s1) → readSrc q s1 = .ok (b, s2) →
      writeDst d (x.2 a b) s2 = .ok ((), s3) →
      ∃ t, exec x.1 s = .next t ∧ endDst d (4 + p.litBytes + q.litBytes) Fx.none true s3 = .ok ((), t)

/-- R87, R89, R90. The same for the one-source integer instructions. -/
def Sys2Proof.Spec.IntegerOneSourceResult : Prop :=
  ∀ (d : Dst) (p : Src), ∀ x ∈ oneSource d p,
    ∀ (s s1 s2 : State) (a : Word), Ready d s → readSrc p s = .ok (a, s1) → writeDst d (x.2 a) s1 = .ok ((), s2) →
      ∃ t, exec x.1 s = .next t ∧ endDst d (4 + p.litBytes) Fx.none true s2 = .ok ((), t)

/-- R86, R91 (bfi). sel and bfi read their destination first; bfi replaces the bits of the field and keeps the others. -/
def Sys2Proof.Spec.DestinationReadResult : Prop :=
  ∀ (d : BitVec 5) (p q : Src) (s s1 s2 : State) (a b : Word), s.th.clearG d → readSrc p s = .ok (a, s1) → readSrc q s1 = .ok (b, s2) →
    s2.th.clearG d →
    exec (.sel d p q) s = .next (s2.setTh ((s2.th.setG d (if s.th.gr d ≠ 0 then a else b)).retired (4 + p.litBytes + q.litBytes))) ∧
    ∃ v : Word, (∀ i, i < 64 → v.getLsbD i = if fieldBits b i then a.getLsbD (i - b.toNat % 64) else (s.th.gr d).getLsbD i) ∧
      exec (.bfi d p q) s = .next (s2.setTh ((s2.th.setG d v).retired (4 + p.litBytes + q.litBytes)))

/-- R85-R94. Together: the integer instructions write their results to the destination and retire. -/
def Obligations.IntegerResult : Prop := Sys2Proof.Spec.IntegerTwoSourceResult ∧ Sys2Proof.Spec.IntegerOneSourceResult ∧ Sys2Proof.Spec.DestinationReadResult

namespace Sys2Proof.Spec

/-- What no scalar register instruction changes: memory, tags and full/empty bits, every other thread, every core but for its threads,
every cluster but for CFLAGS, and the rest of the module. -/
def Untouched (s t : State) : Prop :=
  (∀ k, Memory.read t.mem k = Memory.read s.mem k) ∧ t.tags = s.tags ∧ t.empties = s.empties ∧
  (∀ n k, ¬(n = s.cur.core ∧ k = s.cur.slot) → t.thAt n k = s.thAt n k) ∧
  (∀ n, { t.core n with th := (s.core n).th } = s.core n) ∧ (∀ n, { t.cluster n with cflags := (s.cluster n).cflags } = s.cluster n) ∧
  t = { s with cores := t.cores, clusters := t.clusters }

/-- Every special register of a thread but FPCSR, SRCTR and PC is unchanged. -/
def SameSpecial (t u : Thread) : Prop :=
  u.pcc = t.pcc ∧ u.epcc = t.epcc ∧ u.v = t.v ∧ u.k = t.k ∧ u.ctxid = t.ctxid ∧ u.srstrm = t.srstrm ∧ u.jseed = t.jseed ∧
  u.tcause = t.tcause ∧ u.tval = t.tval ∧ u.tepc = t.tepc ∧ u.tfpc = t.tfpc ∧ u.tvec = t.tvec ∧ u.tstatus = t.tstatus ∧ u.hscr = t.hscr ∧
  u.tmcmp = t.tmcmp ∧ u.lcore = t.lcore ∧ u.rel = t.rel ∧ u.dfr = t.dfr ∧ u.strm = t.strm ∧ u.rbuf = t.rbuf ∧ u.sbuf = t.sbuf

/-- A source operand that is no queue register, and can be read. -/
def Plain (s : State) : Src → Prop
  | .g r => s.th.clearG r
  | .q _ => False
  | .const _ | .lit32 _ | .lit64 _ => True

/-- The value of such an operand (R10, R54). -/
def value (s : State) : Src → Word
  | .g r => if r = 0 then 0 else s.th.g.get r.toFin
  | .const c => BitVec.ofNat 64 c.toNat
  | .lit32 v => BitVec.ofInt 64 v.toInt
  | .lit64 v => v
  | .q _ => 0

end Sys2Proof.Spec

/-- R10, R54. The value of every operand that is no queue register; reading it changes nothing. -/
def Sys2Proof.Spec.PlainOperandValue : Prop := ∀ (s : State) (p : Src), Plain s p → readSrc p s = .ok (value s p, s)

/-- R14, R54, R55. A stream queue as an operand: an element is popped and the thread's other registers stay; an unbound queue, and a
closed one without elements, is QMISUSE with the operand code as TVAL, a broken one without elements BROKEN; an open one that has no
element yet makes the thread wait. -/
def Sys2Proof.Spec.StreamOperand : Prop :=
  ∀ (s : State) (i : BitVec 3) (h : i.toNat < 4),
    let q := s.th.strm.get ⟨i.toNat, h⟩
    (q.bound = false → readSrc (.q i) s = .error (.trap .qMisuse (48 + BitVec.ofNat 64 i.toNat))) ∧
    (∀ w r, q.bound = true → q.elems = w :: r → ∃ t, readSrc (.q i) s = .ok (w, t) ∧ (t.th.strm.get ⟨i.toNat, h⟩).elems = r ∧
      (∀ j : Fin 4, j.val ≠ i.toNat → t.th.strm.get j = s.th.strm.get j) ∧ t.th.g = s.th.g ∧ t.th.a = s.th.a ∧ t.th.v = s.th.v ∧
      t.th.pc = s.th.pc ∧ (∀ k, Memory.read t.mem k = Memory.read s.mem k)) ∧
    (q.bound = true → q.elems = [] → q.broken = true → readSrc (.q i) s = .error (.trap .broken (48 + BitVec.ofNat 64 i.toNat))) ∧
    (q.bound = true → q.elems = [] → q.broken = false → q.closed = true →
      readSrc (.q i) s = .error (.trap .qMisuse (48 + BitVec.ofNat 64 i.toNat))) ∧
    (q.bound = true → q.elems = [] → q.broken = false → q.closed = false → readSrc (.q i) s = .error (.park .waitMem .reissue))

/-- R14, R54, R286. A channel as an operand, q4 (b = 0) and q5 (b = 1): the next word of the thread's receive buffer; with an empty buffer
the next slot is taken, its first word is the operand and the other three stay in the buffer; q6 and q7 are no sources. -/
def Sys2Proof.Spec.ChannelOperand : Prop :=
  ∀ (s : State) (b : Fin 2),
    let e := s.cc.ep.get ⟨b.val, by omega⟩
    let i : BitVec 3 := 4 + BitVec.ofNat 3 b.val
    let code : Word := 52 + BitVec.ofNat 64 b.val
    (∀ w r, s.th.rbuf.get b = w :: r → ∃ t, readSrc (.q i) s = .ok (w, t) ∧ t.th.rbuf.get b = r ∧ t.th.g = s.th.g ∧ t.cc.ep = s.cc.ep) ∧
    (s.th.rbuf.get b = [] → e.bound = false ∨ e.tether = true → readSrc (.q i) s = .error (.trap .qMisuse code)) ∧
    (s.th.rbuf.get b = [] → e.bound = true → e.tether = false →
      (∀ x r, e.slots = x :: r → s.aheadIn (popsFrom ⟨b.val, by omega⟩) ≤ r.length →
        ∃ t, readSrc (.q i) s = .ok (x.extractLsb' 0 64, t) ∧
          t.th.rbuf.get b = [x.extractLsb' 64 64, x.extractLsb' 128 64, x.extractLsb' 192 64] ∧
          (t.cc.ep.get ⟨b.val, by omega⟩).slots = r ∧ t.th.g = s.th.g ∧ (∀ k, Memory.read t.mem k = Memory.read s.mem k)) ∧
      (e.slots = [] → e.broken = true → readSrc (.q i) s = .error (.trap .broken code)) ∧
      (e.slots = [] → e.broken = false → e.closed = true → readSrc (.q i) s = .error (.trap .qMisuse code)) ∧
      (e.slots = [] → e.broken = false → e.closed = false → readSrc (.q i) s = .error (.park .parkQ (.popq ⟨b.val, by omega⟩)))) ∧
    readSrc (.q (6 + BitVec.ofNat 3 b.val)) s = .error (.trap .qMisuse (54 + BitVec.ofNat 64 b.val))

/-- R10, R14, R54, R55, R286. Together: what every form of source operand gives, and when it waits or traps. -/
def Obligations.SourceOperands : Prop := Sys2Proof.Spec.PlainOperandValue ∧ Sys2Proof.Spec.StreamOperand ∧ Sys2Proof.Spec.ChannelOperand

/-- R10, R54, R56, R164. A destination: a general register takes the value, g0 discards it, and no other register changes; q6 (b = 0) and
q7 (b = 1) append the word to the thread's send buffer, where the endpoint is bound, open and whole; the first word of a Tether slot is
not written this way, and its other words are. -/
def Sys2Proof.Spec.DestinationOperand : Prop :=
  ∀ (s : State) (v : Word),
    (∀ r, s.th.clearG r → ∃ u, writeDst (.g r) v s = .ok ((), s.setTh u) ∧ u.gr r = (if r = 0 then 0 else v) ∧
      (∀ q, q ≠ r → u.gr q = s.th.gr q) ∧
      SameSpecial s.th u ∧ u.a = s.th.a ∧ u.pc = s.th.pc ∧ u.fpcsr = s.th.fpcsr ∧ u.srctr = s.th.srctr) ∧
    (∀ b : Fin 2,
      let d := if b = 0 then Dst.q6 else Dst.q7
      let e := s.cc.ep.get ⟨2 + b.val, by omega⟩
      let code : Word := 54 + BitVec.ofNat 64 b.val
      (e.bound = false → writeDst d v s = .error (.trap .qMisuse code)) ∧
      (e.bound = true → e.broken = true → writeDst d v s = .error (.trap .broken code)) ∧
      (e.bound = true → e.broken = false → e.closed = true → writeDst d v s = .error (.trap .qMisuse code)) ∧
      (e.bound = true → e.broken = false → e.closed = false → e.tether = true → s.th.sbuf.get b = [] →
        writeDst d v s = .error (.trap .qMisuse code)) ∧
      (e.bound = true → e.broken = false → e.closed = false → e.tether = false ∨ s.th.sbuf.get b ≠ [] →
        ∃ u, writeDst d v s = .ok ((), s.setTh u) ∧ u.sbuf.get b = s.th.sbuf.get b ++ [v] ∧ u.g = s.th.g ∧ u.a = s.th.a ∧ u.pc = s.th.pc))

namespace Sys2Proof.Spec

/-- An instruction of len bytes has retired (R52, R83, R96, R105): PC moves past it and past its ORD prefix, the flags it raises are in
FPCSR and in the cluster's CFLAGS, SRCTR moves by its draw, and no other register changes. -/
def Retired (s t : State) (len : Nat) (x : Fx) : Prop :=
  t.th.pc = s.th.pc + BitVec.ofNat 48 (len + if s.th.pfx.isSome then 4 else 0) ∧ t.th.pfx = none ∧ t.th.wait = .none ∧
  (∀ q, t.th.gr q = s.th.gr q) ∧ t.th.a = s.th.a ∧ t.th.v = s.th.v ∧ t.th.k = s.th.k ∧
  t.th.fpcsr = s.th.fpcsr ||| (x.fl ++ 0#3) ∧ t.ccl.cflags = s.ccl.cflags ||| (x.fl ++ 0#3) ∧
  t.th.srctr = s.th.srctr + (if x.draw then 1 else 0)

end Sys2Proof.Spec

/-- R52, R56, R83, R96, R105, R136. The end of an instruction of len bytes that has written its destination. With a general register it
retires, and so it does with q6 (b = 0) or q7 (b = 1) while the send buffer has fewer than four words. A buffer with its fourth word goes
out as one slot, word 0 lowest, where the channel takes it, and the instruction retires; where it does not, the thread waits in PARK_Q, and
has neither retired nor raised a flag. An endpoint that broke while it waited traps BROKEN, again with no flag raised. -/
def Sys2Proof.Spec.Retirement : Prop :=
  ∀ (s : State) (len : Nat) (x : Fx) (redo : Bool),
    (∃ t, retire len s = .ok ((), t) ∧ Retired s t len Fx.none ∧ SameSpecial s.th t.th) ∧
    (∀ r, ∃ t, endDst (.g r) len x redo s = .ok ((), t) ∧ Retired s t len x ∧ t.net = s.net ∧ t.th.sbuf = s.th.sbuf) ∧
    (∀ b : Fin 2,
      let d := if b = 0 then Dst.q6 else Dst.q7
      let e := s.cc.ep.get ⟨2 + b.val, by omega⟩
      ((s.th.sbuf.get b).length < 4 → ∃ t, endDst d len x redo s = .ok ((), t) ∧ Retired s t len x ∧ t.net = s.net ∧
        t.th.sbuf = s.th.sbuf) ∧
      (∀ w0 w1 w2 w3 : Word, s.th.sbuf.get b = [w0, w1, w2, w3] →
        (e.bound = true → e.broken = false → e.closed = false → s.maySend e = true →
          ∃ t, endDst d len x redo s = .ok ((), t) ∧ Retired s t len x ∧
            t.net = s.net ++ [.slot s.cur.core e.peer e.peerEp (w3 ++ w2 ++ w1 ++ w0)] ∧ t.th.sbuf.get b = []) ∧
        (e.bound = true → e.broken = false → e.closed = false → s.maySend e = false →
          ∃ t, endDst d len x redo s = .ok ((), t) ∧ t.net = s.net ∧ t.th.state = .parkQ ∧
            t.th.wait = .send (BitVec.ofNat 1 b.val) len x redo ∧ t.th.pc = s.th.pc ∧ t.th.sbuf = s.th.sbuf ∧ t.th.fpcsr = s.th.fpcsr ∧
            t.th.srctr = s.th.srctr ∧ t.clusters = s.clusters) ∧
        (e.broken = true → s.th.cprv = false →
          ∃ t, endDst d len x redo s = .ok ((), t) ∧ t.net = s.net ∧ t.th.tcause = 0x0F ∧ t.th.tval = 54 + BitVec.ofNat 64 b.val ∧
            t.th.tepc = s.th.pc.zeroExtend 64 ∧ t.th.fpcsr = s.th.fpcsr ∧ t.th.srctr = s.th.srctr ∧ (∀ q, t.th.gr q = s.th.gr q))))

/-- R10, R52, R54, R56, R83, R96, R105, R136, R164. Together: what every form of destination takes, and how an instruction retires. -/
def Obligations.DestinationAndRetirement : Prop := Sys2Proof.Spec.DestinationOperand ∧ Sys2Proof.Spec.Retirement

namespace Sys2Proof.Spec

/-- The classes of a pattern of FP64 or FP32 (R95, R238). -/
def frac (f : Fmt) (x : Nat) : Nat := x % 2 ^ f.m
def mag (f : Fmt) (x : Nat) : Nat := x % 2 ^ (f.w - 1)
def neg (f : Fmt) (x : Nat) : Bool := x / 2 ^ (f.w - 1) % 2 == 1
def isNaN (f : Fmt) (x : Nat) : Bool := decide ((2 ^ f.eb - 1) * 2 ^ f.m < mag f x)
def isSNaN (f : Fmt) (x : Nat) : Bool := isNaN f x && decide (frac f x < 2 ^ (f.m - 1))
def isInf (f : Fmt) (x : Nat) : Bool := decide (mag f x = (2 ^ f.eb - 1) * 2 ^ f.m)
def isZero (f : Fmt) (x : Nat) : Bool := decide (mag f x = 0)

/-- The order of the values of patterns: -0 and +0 are equal. -/
def key (f : Fmt) (x : Nat) : Int := if neg f x then -(mag f x : Int) else mag f x

/-- The order of fmin and fmax: -0 lies below +0. -/
def key0 (f : Fmt) (x : Nat) : Int := if neg f x then -(mag f x : Int) - 1 else mag f x

/-- The canonical NaN of a format with infinities (R95). -/
def quiet (f : Fmt) : Nat := (2 ^ f.eb - 1) * 2 ^ f.m + 2 ^ (f.m - 1)

/-- The canonical NaN (R95). -/
def canonical : FTy → Nat
  | .d => 0x7FF8000000000000
  | .s => 0x7FC00000

def nv (p : Bool) : Fl := if p then flNV else 0

/-- A comparison (R101). -/
def relation (f : Fmt) (any : Bool) (holds : Int → Int → Bool) (a b : Nat) : Fr :=
  { bits := if !isNaN f a && !isNaN f b && holds (key f a) (key f b) then 1 else 0
    fl := nv (if any then isNaN f a || isNaN f b else isSNaN f a || isSNaN f b) }

/-- fmin (up false) and fmax (R99). -/
def lowerOf (f : Fmt) (up : Bool) (a b : Nat) : Fr :=
  { bits := if isNaN f a && isNaN f b then quiet f
      else if isNaN f a then b % 2 ^ f.w
      else if isNaN f b then a % 2 ^ f.w
      else if (key0 f a < key0 f b) != up then a % 2 ^ f.w else b % 2 ^ f.w
    fl := nv (isSNaN f a || isSNaN f b) }

/-- The two-source floating instructions: the result and the flags of two patterns in a mode (R97, R99, R101). -/
def floatTwo (y : FTy) (d : Dst) (p q : Src) : List (Instr × (BitVec 3 → Nat → Nat → Fr)) :=
  [(.fadd y d p q, y.fmt.add), (.fsub y d p q, y.fmt.sub), (.fmul y d p q, y.fmt.mul), (.fdiv y d p q, y.fmt.div),
   (.fmin y d p q, fun _ => lowerOf y.fmt false), (.fmax y d p q, fun _ => lowerOf y.fmt true),
   (.feq y d p q, fun _ => relation y.fmt false (fun a b => a == b)), (.flt y d p q,
     fun _ => relation y.fmt true (fun a b => decide (a < b))),
   (.fle y d p q, fun _ => relation y.fmt true (fun a b => decide (a ≤ b)))]

/-- What a scalar floating instruction writes as it retires: its flags (R96). -/
def raising (f : Fl) : Fx := { fl := f, draw := false }

/-- The mode of arithmetic: SR acts as RNE (R24, R96). -/
def mode (s : State) : BitVec 3 := if s.th.fpcsr.extractLsb' 0 3 = 5 then 0 else s.th.fpcsr.extractLsb' 0 3

end Sys2Proof.Spec

/-- R95, R96, R97, R99, R101. A two-source floating instruction completes for every form of its operands whose reads succeed: the
result in the mode read at issue goes to the destination, and its flags into FPCSR and CFLAGS as it retires. -/
def Sys2Proof.Spec.FloatTwoSourceResult : Prop :=
  ∀ (y : FTy) (d : Dst) (p q : Src), ∀ x ∈ floatTwo y d p q, ∀ (s s1 s2 s3 : State) (a b : Word), Ready d s →
    readSrc p s = .ok (a, s1) → readSrc q s1 = .ok (b, s2) →
      let r := x.2 (mode s2) a.toNat b.toNat
      writeDst d (BitVec.ofNat 64 r.bits) s2 = .ok ((), s3) →
      ∃ t, exec x.1 s = .next t ∧ endDst d (4 + p.litBytes + q.litBytes) (raising r.fl) true s3 = .ok ((), t)

/-- R97, R98, R100, R102. fsqrt, fma (whose destination is the addend, read first), fsgn and fcls complete: their results and flags. fcls
sets one bit of ten, and fsgn and fcls raise no flag. -/
def Sys2Proof.Spec.FloatOtherResult : Prop :=
  ∀ (y : FTy) (d : Dst) (r : BitVec 5) (p q : Src) (s s1 s2 s3 : State) (a b : Word),
    (Ready d s → readSrc p s = .ok (a, s1) →
      (let x := y.fmt.sqrt (mode s1) a.toNat
       writeDst d (BitVec.ofNat 64 x.bits) s1 = .ok ((), s3) →
       ∃ t, exec (.fsqrt y d p) s = .next t ∧ endDst d (4 + p.litBytes) (raising x.fl) true s3 = .ok ((), t)) ∧
      (let f := y.fmt
       let n : Nat := a.toNat
       let c : Nat := if isNaN f n then (if isSNaN f n then 8 else 9) else if isInf f n then (if neg f n then 0 else 7)
         else if isZero f n then (if neg f n then 3 else 4) else if mag f n < 2 ^ f.m then
           (if neg f n then 2 else 5) else (if neg f n then 1 else 6)
       writeDst d (1 <<< c) s1 = .ok ((), s3) → 
         ∃ t, exec (.fcls y d p) s = .next t ∧ endDst d (4 + p.litBytes) Fx.none true s3 = .ok ((), t))) ∧
    (Ready d s → readSrc p s = .ok (a, s1) → readSrc q s1 = .ok (b, s2) →
      writeDst d (BitVec.ofNat 64 (mag y.fmt a.toNat + if neg y.fmt b.toNat then 2 ^ (y.fmt.w - 1) else 0)) s2 = .ok ((), s3) →
      ∃ t, exec (.fsgn y d p q) s = .next t ∧ endDst d (4 + p.litBytes + q.litBytes) Fx.none true s3 = .ok ((), t)) ∧
    (s.th.clearG r → readSrc p s = .ok (a, s1) → readSrc q s1 = .ok (b, s2) →
      let x := y.fmt.fma (mode s2) a.toNat b.toNat (s.th.gr r).toNat
      writeDst (.g r) (BitVec.ofNat 64 x.bits) s2 = .ok ((), s3) →
      ∃ t, exec (.fma y r p q) s = .next t ∧ endDst (.g r) (4 + p.litBytes + q.litBytes) (raising x.fl) true s3 = .ok ((), t))

/-- R95, R97, R98. The special cases of floating arithmetic, in every mode: the invalid operations give the canonical NaN with NV, a
finite non-zero number over zero gives an infinity with DZ, a quiet NaN operand gives the canonical NaN without a flag and a signalling
one with NV, and infinity times zero in an fma is invalid whatever the addend. -/
def Sys2Proof.Spec.FloatSpecialCases : Prop :=
  ∀ (y : FTy) (rm : BitVec 3) (a b c : Nat), a < 2 ^ y.fmt.w → b < 2 ^ y.fmt.w → c < 2 ^ y.fmt.w →
    let f := y.fmt
    let invalid : Fr := { bits := canonical y, fl := flNV }
    (isInf f a → isInf f b → neg f a ≠ neg f b → f.add rm a b = invalid) ∧
      (isInf f a → isInf f b → neg f a = neg f b → f.sub rm a b = invalid) ∧
    (isZero f a → isInf f b → f.mul rm a b = invalid ∧ f.mul rm b a = invalid) ∧
    (isZero f a → isZero f b → f.div rm a b = invalid) ∧ (isInf f a → isInf f b → f.div rm a b = invalid) ∧
    (!isNaN f a → !isZero f a → neg f a → f.sqrt rm a = invalid) ∧ (isZero f a → f.sqrt rm a = { bits := a, fl := 0 }) ∧
    (!isNaN f a → !isInf f a → !isZero f a → isZero f b →
      f.div rm a b = { bits := (2 ^ f.eb - 1) * 2 ^ f.m + (if neg f a != neg f b then 2 ^ (f.w - 1) else 0), fl := flDZ }) ∧
    (isNaN f a ∨ isNaN f b → ∀ op ∈ [f.add, f.sub, f.mul, f.div],
      op rm a b = { bits := canonical y, fl := nv (isSNaN f a || isSNaN f b) }) ∧
    (isInf f a → isZero f b → f.fma rm a b c = invalid ∧ f.fma rm b a c = invalid)

/-- R104, R238, R242. Rounding a number that the format holds gives that number's own pattern, in every mode, and raises no flag. -/
def Sys2Proof.Spec.RoundingExact : Prop :=
  ∀ f ∈ [fp64, fp32, bf16, fp16, e5m2, e4m3], ∀ (rm : BitVec 3) (draw bits : Nat) (sign : Bool) (m : Nat) (e : Int), bits < 2 ^ f.w →
    f.decode bits = .fin sign m e → f.round rm sign { m := m, e := e, st := false } draw = { bits := bits, fl := 0 }

namespace Sys2Proof.Spec

/-- How k times 2^q compares with an exact magnitude. -/
abbrev Exact := Nat → Int → Ordering

/-- The comparison with n times 2^e over d times 2^0. -/
def ratio (n : Nat) (e : Int) (d : Nat) : Exact := fun k q =>
  let low := Min.min q e
  compare (k * d * 2 ^ (q - low).toNat) (n * 2 ^ (e - low).toNat)

/-- The comparison with n times 2^e. -/
def number (n : Nat) (e : Int) : Exact := ratio n e 1

/-- The comparison with the square root of n times 2^e. -/
def root (n : Nat) (e : Int) : Exact := fun k q => number n e (k * k) (2 * q)

/-- The exponent of a format's least magnitude (R238). -/
def lowExp (f : Fmt) : Int := 2 - (2 ^ (f.eb - 1) : Nat) - (f.m : Int)

/-- The magnitude k times 2^q of a pattern without its sign, the exponent taken as unbounded (R238). -/
def place (f : Fmt) (p : Nat) : Nat × Int :=
  if p / 2 ^ f.m = 0 then (p, lowExp f) else (p % 2 ^ f.m + 2 ^ f.m, lowExp f + (p / 2 ^ f.m : Nat) - 1)

/-- Whether k + 1 is chosen for an exact magnitude between k and k + 1 units of 2^q (R24, R242): by the half way point and, on it, by the
last bit of k (RNE); never (RTZ); by the sign (RUP, RDN); from half way on (RNA); by the draw of SR. -/
def Upward (rm : BitVec 3) (neg : Bool) (x : Exact) (draw k : Nat) (q : Int) : Prop :=
  x k q ≠ .eq ∧
    (if rm = 1 then False else if rm = 2 then neg = false else if rm = 3 then neg = true
     else if rm = 4 then x (2 * k + 1) (q - 1) ≠ .gt
     else if rm = 5 then x (k * 2 ^ 16 + draw + 1) (q - 16) ≠ .gt
     else x (2 * k + 1) (q - 1) = .lt ∨ (x (2 * k + 1) (q - 1) = .eq ∧ k % 2 = 1))

/-- The largest finite pattern of a format, and that of infinity (R238). -/
def largest (f : Fmt) : Nat := if f.fin then 2 ^ (f.eb + f.m) - 2 else (2 ^ f.eb - 1) * 2 ^ f.m - 1
def infinity (f : Fmt) : Nat := (2 ^ f.eb - 1) * 2 ^ f.m

/-- What an overflow gives (R104): the largest finite magnitude in E4M3, in RTZ and SR, and toward it in RUP and RDN; else infinity. -/
def overflown (f : Fmt) (rm : BitVec 3) (neg : Bool) : Nat :=
  if f.fin = true ∨ rm = 1 ∨ rm = 5 ∨ (rm = 2 ∧ neg = true) ∨ (rm = 3 ∧ neg = false) then largest f else infinity f

def signed (f : Fmt) (neg : Bool) (p : Nat) : Nat := p + if neg then 2 ^ (f.w - 1) else 0

/-- The correctly rounded result of an exact non-zero magnitude (R96, R104, R242), with its flags: OF and NX on an overflow, NX where it is
inexact, and UF with it where the number is tiny after rounding to the format's precision with an unbounded exponent. -/
def Rounded (f : Fmt) (rm : BitVec 3) (neg : Bool) (x : Exact) (draw : Nat) (r : Fr) : Prop :=
  ∃ p v : Nat,
    let k := (place f p).1
    let q := (place f p).2
    let least := lowExp f + f.m
    x k q ≠ .gt ∧ x (k + 1) q = .gt ∧ (Upward rm neg x draw k q → v = p + 1) ∧ (¬ Upward rm neg x draw k q → v = p) ∧
    (largest f < v → r = { bits := signed f neg (overflown f rm neg), fl := flOF ||| flNX }) ∧
    (v ≤ largest f → r.bits = signed f neg v ∧ (x k q = .eq → r.fl = 0) ∧
      (x k q ≠ .eq →
        let reaches := x (2 ^ (f.m + 1) - 1) (lowExp f - 1) ≠ .gt ∧ Upward rm neg x draw (2 ^ (f.m + 1) - 1) (lowExp f - 1)
        (x 1 least = .gt → ¬ reaches → r.fl = flNX ||| flUF) ∧ (x 1 least ≠ .gt ∨ reaches → r.fl = flNX)))

/-- A pattern that is neither a NaN nor an infinity, as a signed whole number of units 2^q. -/
def units (f : Fmt) (a : Nat) (q : Int) : Int :=
  let m : Int := (place f (mag f a)).1 * 2 ^ ((place f (mag f a)).2 - q).toNat
  if neg f a then -m else m

def exponent (f : Fmt) (a : Nat) : Int := (place f (mag f a)).2
def digits (f : Fmt) (a : Nat) : Nat := (place f (mag f a)).1
def finite (f : Fmt) (a : Nat) : Prop := isNaN f a = false ∧ isInf f a = false

/-- The rounding of an exact sum of n units of 2^q (R96): a sum of zero is +0, and -0 in RDN or where every term is -0. -/
def SumRounded (f : Fmt) (rm : BitVec 3) (n q : Int) (zeros minus : Bool) (r : Fr) : Prop :=
  (n ≠ 0 → Rounded f rm (decide (n < 0)) (number n.natAbs q) 0 r) ∧
  (n = 0 → r = { bits := signed f (if zeros then minus else decide (rm = 3)) 0, fl := 0 })

end Sys2Proof.Spec

/-- R96, R97, R98, R238, R242. Floating arithmetic on finite numbers is correctly rounded: a sum, a difference, a product, a fused multiply
and add, a quotient and a square root give the one result that their exact value rounds to in the mode, with the flags of it. -/
def Sys2Proof.Spec.CorrectRounding : Prop :=
  (∀ f ∈ [fp64, fp32, bf16, fp16, e5m2, e4m3], ∀ (rm : BitVec 3) (neg : Bool) (m : Nat) (e : Int) (draw : Nat), m ≠ 0 →
    Rounded f rm neg (number m e) draw (f.round rm neg { m := m, e := e, st := false } draw)) ∧
  ∀ f ∈ [fp64, fp32], ∀ (rm : BitVec 3) (a b c : Nat), finite f a → finite f b → finite f c → a < 2 ^ f.w → b < 2 ^ f.w → c < 2 ^ f.w →
    let q := Min.min (exponent f a) (exponent f b)
    let qp := exponent f a + exponent f b
    let qs := Min.min qp (exponent f c)
    let minus := neg f a != neg f b
    let product : Int := if minus then -(digits f a * digits f b : Nat) else (digits f a * digits f b : Nat)
    SumRounded f rm (units f a q + units f b q) q (isZero f a && isZero f b && !minus) (neg f a) (f.add rm a b) ∧
    SumRounded f rm (units f a q - units f b q) q (isZero f a && isZero f b && minus) (neg f a) (f.sub rm a b) ∧
    SumRounded f rm product qp true minus (f.mul rm a b) ∧
    SumRounded f rm (product * 2 ^ (qp - qs).toNat + units f c qs) qs ((isZero f a || isZero f b) && isZero f c && (minus == neg f c)) minus
      (f.fma rm a b c) ∧
    (isZero f b = false →
      (isZero f a = false → Rounded f rm minus (ratio (digits f a) (exponent f a - exponent f b) (digits f b)) 0 (f.div rm a b)) ∧
      (isZero f a = true → f.div rm a b = { bits := signed f minus 0, fl := 0 })) ∧
    (isZero f a = false → neg f a = false → Rounded f rm false (root (digits f a) (exponent f a)) 0 (f.sqrt rm a))

/-- R95-R98, R104, R238, R242. Together: the special cases of floating-point arithmetic, and its correct rounding. -/
def Obligations.FloatArithmetic : Prop := Sys2Proof.Spec.FloatSpecialCases ∧ Sys2Proof.Spec.RoundingExact ∧ Sys2Proof.Spec.CorrectRounding

/-- R103, R104, R105. fcvt completes: the source is read in the low bits of its type, converted in the thread's mode, and an integer result
of a signed type is sign-extended; under SR, and only then, SRCTR advances by one as the instruction retires. The value: a NaN gives 0 with
NV in an integer type and the canonical NaN in a floating one; a number is rounded, to the nearest values of the type in the mode; one
beyond an integer type, above or below it, gives its nearest bound with NV, and NX says that a fraction was lost. -/
def Sys2Proof.Spec.ConvertResult : Prop :=
  (∀ (dty sty : LaneTy) (d : Dst) (p : Src) (s s1 s2 : State) (a : Word), Ready d s → readSrc p s = .ok (a, s1) →
    let r := convert dty sty s1.th.rm (srField s1.th.jseed s1.th.lcore s1.th.srstrm s1.th.srctr 0) (a.toNat % 2 ^ sty.width)
    writeDst d (if dty.isSigned then BitVec.ofInt 64 (signedLow dty.width r.bits) else BitVec.ofNat 64 r.bits) s1 = .ok ((), s2) →
    ∃ t, exec (.fcvt dty sty d p) s = .next t ∧
      endDst d (4 + p.litBytes) { fl := r.fl, draw := decide (s1.th.fpcsr.extractLsb' 0 3 = 5) } true s2 = .ok ((), t)) ∧
  (∀ (dty sty : LaneTy) (rm : BitVec 3) (draw bits : Nat),
    (∀ sig, sty.value bits = .nan sig → convert dty sty rm draw bits = (match dty.fmt with
      | none => { bits := 0, fl := flNV }
      | some f => { bits := if f.fin then 2 ^ (f.eb + f.m) - 1 else infinity f + 2 ^ (f.m - 1), fl := nv sig })) ∧
    (∀ sign, sty.value bits = .inf sign → convert dty sty rm draw bits = (match dty.fmt with
      | none => { bits := ((if sign then dty.lo else dty.hi) % (2 ^ dty.width : Nat)).toNat, fl := flNV }
      | some f => if f.fin then { bits := 2 ^ (f.eb + f.m) - 1, fl := flNV } else { bits := signed f sign (infinity f), fl := 0 })) ∧
    (∀ f sign m e, dty.fmt = some f → sty.value bits = .fin sign m e →
      (m = 0 → convert dty sty rm draw bits = { bits := signed f sign 0, fl := 0 }) ∧
      (m ≠ 0 → Rounded f rm sign (number m e) draw (convert dty sty rm draw bits))) ∧
    (∀ sign m e, dty.fmt = none → sty.value bits = .fin sign m e → ∃ k u : Nat,
      number m e k 0 ≠ .gt ∧ number m e (k + 1) 0 = .gt ∧ (Upward rm sign (number m e) draw k 0 → u = k + 1) ∧
      (¬ Upward rm sign (number m e) draw k 0 → u = k) ∧
      let v : Int := if sign then -(u : Int) else u
      convert dty sty rm draw bits = if v < dty.lo then { bits := (dty.lo % (2 ^ dty.width : Nat)).toNat, fl := flNV }
        else if dty.hi < v then { bits := (dty.hi % (2 ^ dty.width : Nat)).toNat, fl := flNV }
        else { bits := (v % (2 ^ dty.width : Nat)).toNat, fl := if number m e k 0 = .eq then 0 else flNX }))

/-- R95-R105. Together: the floating-point instructions and conversions write their results, and raise their flags. -/
def Obligations.FloatResult : Prop := Sys2Proof.Spec.FloatTwoSourceResult ∧ Sys2Proof.Spec.FloatOtherResult ∧ Sys2Proof.Spec.ConvertResult

namespace Sys2Proof.Spec

/-- The state after an instruction of len bytes has written capability register d and retired. -/
def withCap (s : State) (d : BitVec 4) (n : Cap) (len : Nat) : State := s.setTh ((s.th.setA d n).retired len)

/-- The tag of a result (R106). -/
def keptTag (k : Cap) : Bool := k.tag && k.bits.toNat / 2 ^ 116 == 0

/-- The properties cget reads, and ctag (R111, R112). -/
def capProperties (d : Dst) (c : BitVec 4) : List (Instr × (BitVec 6 → Cap → Word)) :=
  [(.cgetCur d c, fun _ k => BitVec.ofNat 64 (k.bits.toNat % 2 ^ 48)),
   (.cgetBase d c, fun _ k => BitVec.ofNat 64 k.base), (.cgetTop d c, fun _ k => BitVec.ofNat 64 k.top),
   (.cgetLen d c, fun _ k => BitVec.ofNat 64 (k.top - k.base)),
   (.cgetPerm d c, fun _ k => BitVec.ofNat 64 (k.bits.toNat / 2 ^ 101 % 2 ^ 6)),
   (.cgetTen d c, fun _ k => BitVec.ofNat 64 (k.bits.toNat / 2 ^ 107 % 2 ^ 6)),
   (.cgetKind d c, fun _ k => BitVec.ofNat 64 (k.bits.toNat / 2 ^ 113 % 2 ^ 3)), (.cgetTag d c, fun _ k => flag (k.tag = true)),
   (.ctag d c, fun ten k => flag (k.tag = true ∧ k.bits.toNat / 2 ^ 116 = 0 ∧ k.ten = ten ∧ k.e ≤ 24 ∧ k.base ≤ k.top))]

/-- The branches, with the condition on their operand as a signed value (R114). -/
def branches (p : Src) (disp : BitVec 16) : List (Instr × (Int → Bool)) :=
  [(.bEq p disp, fun v => decide (v = 0)), (.bNe p disp, fun v => decide (v ≠ 0)), (.bLt p disp, fun v => decide (v < 0)),
   (.bGe p disp, fun v => decide (0 ≤ v)), (.bLe p disp, fun v => decide (v ≤ 0)), (.bGt p disp, fun v => decide (0 < v))]

/-- PC takes a value and nothing else of the thread changes. -/
def OnlyPc (s1 t : State) (pc : Addr) : Prop :=
  ∃ u, t = s1.setTh u ∧ u.pc = pc ∧ u.pfx = none ∧ (∀ q, u.gr q = s1.th.gr q) ∧ u.a = s1.th.a ∧ SameSpecial s1.th u ∧
    u.fpcsr = s1.th.fpcsr ∧
    u.srctr = s1.th.srctr

/-- PC takes a value, g r another, and nothing else of the thread changes. -/
def PcAndReg (s1 t : State) (pc : Addr) (r : BitVec 5) (v : Word) : Prop :=
  ∃ u, t = s1.setTh u ∧ u.pc = pc ∧ u.gr r = v ∧ (∀ q, q ≠ r → u.gr q = s1.th.gr q) ∧ u.a = s1.th.a ∧ SameSpecial s1.th u ∧
    u.fpcsr = s1.th.fpcsr ∧ u.srctr = s1.th.srctr

/-- The target of a transfer: the word's address and four times its signed displacement (R61). -/
def target (s : State) (disp : BitVec 16) : Addr := s.th.wordAt + BitVec.ofInt 48 (4 * disp.toInt)

end Sys2Proof.Spec

/-- R106, R107, R109, R110. cadd and cset replace the cursor modulo 2^48, cperm keeps the permissions its mask names, cmov copies; every
other bit stays, and the tag with it, unless reserved bits are set. Each completes whatever the capability. -/
def Sys2Proof.Spec.CapabilityResult : Prop :=
  ∀ (d c : BitVec 4) (p : Src) (s s1 : State) (b : Word), s.th.readyA c → readSrc p s = .ok (b, s1) → s1.th.clearA d →
    let k := s.th.ar c
    (∃ n : Cap, exec (.cadd d c p) s = .next (withCap s1 d n (4 + p.litBytes)) ∧
      n.bits.toNat % 2 ^ 48 = (k.bits.toNat + b.toNat) % 2 ^ 48 ∧ n.bits.toNat / 2 ^ 48 = k.bits.toNat / 2 ^ 48 ∧ n.tag = keptTag k) ∧
    (∃ n : Cap, exec (.cset d c p) s = .next (withCap s1 d n (4 + p.litBytes)) ∧
      n.bits.toNat % 2 ^ 48 = b.toNat % 2 ^ 48 ∧ n.bits.toNat / 2 ^ 48 = k.bits.toNat / 2 ^ 48 ∧ n.tag = keptTag k) ∧
    (∃ n : Cap, exec (.cperm d c p) s = .next (withCap s1 d n (4 + p.litBytes)) ∧
      n.bits.toNat % 2 ^ 101 = k.bits.toNat % 2 ^ 101 ∧ n.bits.toNat / 2 ^ 107 = k.bits.toNat / 2 ^ 107 ∧
      n.perms = k.perms &&& BitVec.ofNat 6 b.toNat ∧ n.tag = keptTag k) ∧
    (s.th.clearA d → exec (.cmov d c) s = .next (withCap s d { k with tag := keptTag k } 4))

/-- R108. cbnd gives the least bounds of the format that cover [cursor, cursor + Src(t)): its exponent e is the smallest for which the top
mantissa fits 0xFF_FFFF, and 24 with the mantissa 0, which stands for 2^48, where none does. Every other field stays. CAPBOUND with the
cursor as TVAL where the capability is tagged and the range ends above 2^48, the source's bounds are no bounds, or they would not hold the
new ones; an untagged capability never traps. -/
def Sys2Proof.Spec.SetBoundsResult : Prop :=
  ∀ (d c : BitVec 4) (p : Src) (s s1 : State) (b : Word), s.th.readyA c → readSrc p s = .ok (b, s1) →
    let k := s.th.ar c
    let cur := k.bits.toNat % 2 ^ 48
    let top := cur + b.toNat
    let mant := fun e : Nat => (top + 2 ^ e - 1) / 2 ^ e
    ∃ (n : Cap) (e : Nat), e ≤ 24 ∧ (∀ j, j < e → 0xFFFFFF < mant j) ∧ (e < 24 → mant e ≤ 0xFFFFFF) ∧
      n.bits.toNat / 2 ^ 96 % 2 ^ 5 = e ∧ n.bits.toNat / 2 ^ 48 % 2 ^ 24 = cur / 2 ^ e ∧
      n.bits.toNat / 2 ^ 72 % 2 ^ 24 = (if mant e ≤ 0xFFFFFF then mant e else 0) ∧
      n.bits.toNat % 2 ^ 48 = cur ∧ n.bits.toNat / 2 ^ 101 = k.bits.toNat / 2 ^ 101 ∧ n.tag = keptTag k ∧
      (top ≤ 2 ^ 48 → n.base ≤ cur ∧ cur < n.base + 2 ^ e ∧ top ≤ n.top ∧ n.top < top + 2 ^ e) ∧
      let bad := 2 ^ 48 < top ∨ 24 < k.bits.toNat / 2 ^ 96 % 2 ^ 5 ∨ k.top < k.base ∨ n.base < k.base ∨ k.top < n.top
      (k.tag = false ∨ ¬ bad → s1.th.clearA d → exec (.cbnd d c p) s = .next (withCap s1 d n (4 + p.litBytes))) ∧
      (k.tag = true → bad → exec (.cbnd d c p) s = .next (s.trapSync .capBound (BitVec.ofNat 64 cur) s.th.pc))

/-- R111, R112. cget and ctag write the property they name, for every destination; no property traps. -/
def Sys2Proof.Spec.CapabilityProperty : Prop :=
  ∀ (d : Dst) (c : BitVec 4), ∀ x ∈ capProperties d c, ∀ (s s2 : State), Ready d s → s.th.readyA c →
    writeDst d (x.2 s.cc.tenant (s.th.ar c)) s = .ok ((), s2) → ∃ t, exec x.1 s = .next t ∧ endDst d 4 Fx.none true s2 = .ok ((), t)

/-- R106-R112. Together: the instructions on capability registers. -/
def Obligations.CapabilityInstructions : Prop := Sys2Proof.Spec.CapabilityResult ∧ Sys2Proof.Spec.SetBoundsResult ∧ Sys2Proof.Spec.CapabilityProperty

/-- R61, R113, R114. A branch whose operand can be read goes to its target where its condition holds for the operand as a signed
value, else to the next word; b and jmp always go to their target. No register changes. -/
def Sys2Proof.Spec.BranchResult : Prop :=
  (∀ (p : Src) (disp : BitVec 16), ∀ x ∈ branches p disp, ∀ (s s1 : State) (v : Word), readSrc p s = .ok (v, s1) →
    s1.th.pc = s.th.pc → s1.th.pfx = s.th.pfx →
    ∃ t, exec x.1 s = .next t ∧ OnlyPc s1 t (if x.2 v.toInt then target s disp else s.th.wordAt + 4)) ∧
  (∀ (disp : BitVec 16) (s : State), (∃ t, exec (.b disp) s = .next t ∧ OnlyPc s t (target s disp)) ∧
    ∃ t, exec (.jmp disp) s = .next t ∧ OnlyPc s t (target s disp))

/-- R115, R116, R117. dbnz decrements its register and branches while it is not zero; call and callr leave the address after them in
g31; jmpr, callr and ret go to the address in a register, and raise ALIGN with it where its two lowest bits are not zero. -/
def Sys2Proof.Spec.TransferResult : Prop :=
  ∀ (s : State),
    (∀ (r : BitVec 5) (disp : BitVec 16), s.th.clearG r → ∃ t, exec (.dbnz r disp) s = .next t ∧
      PcAndReg s t (if s.th.gr r - 1 ≠ 0 then target s disp else s.th.wordAt + 4) r (if r = 0 then 0 else s.th.gr r - 1)) ∧
    (∀ disp : BitVec 16, s.th.clearG 31 → ∃ t, exec (.call disp) s = .next t ∧
      PcAndReg s t (target s disp) 31 ((s.th.wordAt + 4).zeroExtend 64)) ∧
    (∀ (p : Src) (v : Word) (s1 : State), readSrc p s = .ok (v, s1) → s1.th.clearG 31 → s1.th.pc = s.th.pc → s1.th.pfx = s.th.pfx →
      (v.toNat % 4 = 0 → (∃ t, exec (.jmpr p) s = .next t ∧ OnlyPc s1 t (BitVec.ofNat 48 v.toNat)) ∧
        ∃ t, exec (.callr p) s = .next t ∧ PcAndReg s1 t (BitVec.ofNat 48 v.toNat) 31 ((s.th.wordAt + BitVec.ofNat 48 (4 + p.litBytes)).zeroExtend 64)) ∧
      (v.toNat % 4 ≠ 0 → exec (.jmpr p) s = .next (s.trapSync .align v s.th.pc) ∧
        exec (.callr p) s = .next (s.trapSync .align v s.th.pc))) ∧
    (s.th.clearG 31 →
      ((s.th.gr 31).toNat % 4 = 0 → ∃ t, exec .ret s = .next t ∧ OnlyPc s t (BitVec.ofNat 48 (s.th.gr 31).toNat)) ∧
      ((s.th.gr 31).toNat % 4 ≠ 0 → exec .ret s = .next (s.trapSync .align (s.th.gr 31) s.th.pc)))

/-- R52, R66, R77. nop only moves PC; ORD holds its order and scope for the next word, and moves nothing, PC included. -/
def Sys2Proof.Spec.NopAndPrefix : Prop :=
  ∀ (s : State), (∃ t, exec .nop s = .next t ∧ OnlyPc s t (s.th.wordAt + 4)) ∧
    ∀ (o : Order) (sc : Scope), exec (.ord o sc) s = .next (s.setTh { s.th with pfx := some { order := o, scope := sc } })

/-- R52, R61, R66, R77, R113-R117. Together: branches, jumps, calls, the ORD prefix and nop. -/
def Obligations.ControlTransfer : Prop := Sys2Proof.Spec.BranchResult ∧ Sys2Proof.Spec.TransferResult ∧ Sys2Proof.Spec.NopAndPrefix

/-- R83, R85-R94 (frame). With a general register as destination and operands that are no queue registers, an integer instruction changes
that register and PC, and nothing else: no other register, no flag, no byte of memory. -/
def Sys2Proof.Spec.IntegerFrame : Prop :=
  ∀ (r : BitVec 5) (p q : Src) (s : State), s.th.clearG r → Plain s p → Plain s q →
    ∀ x ∈ ((twoSource (.g r) p q).map (fun x => (x.1, 4 + p.litBytes + q.litBytes))) ++
      ((oneSource (.g r) p).map (fun x => (x.1, 4 + p.litBytes)))
      ++ [(.sel r p q, 4 + p.litBytes + q.litBytes), (.bfi r p q, 4 + p.litBytes + q.litBytes)],
      ∃ t, exec x.1 s = .next t ∧ Untouched s t ∧ SameSpecial s.th t.th ∧ t.th.a = s.th.a ∧ (∀ g, g ≠ r → t.th.gr g = s.th.gr g) ∧
        t.th.gr 0 = 0 ∧ t.th.pc = s.th.wordAt + BitVec.ofNat 48 x.2 ∧ t.th.fpcsr = s.th.fpcsr ∧ t.th.srctr = s.th.srctr ∧
          t.clusters = s.clusters

/-- R83, R96-R105 (frame). The same for the floating instructions, which also raise flags, the same ones in FPCSR and in the cluster's
CFLAGS, never AL; RM stays, and SRCTR changes for fcvt alone. -/
def Sys2Proof.Spec.FloatFrame : Prop :=
  ∀ (y : FTy) (dty sty : LaneTy) (r : BitVec 5) (p q : Src) (s : State), s.th.clearG r → Plain s p → Plain s q →
    ∀ i ∈ (floatTwo y (.g r) p q).map Prod.fst ++ [.fsqrt y (.g r) p, .fma y r p q, .fsgn y (.g r) p q, .fcls y (.g r) p,
      .fcvt dty sty (.g r) p],
      ∃ t f, exec i s = .next t ∧ Untouched s t ∧ SameSpecial s.th t.th ∧ t.th.a = s.th.a ∧ (∀ g, g ≠ r → t.th.gr g = s.th.gr g) ∧
        t.th.fpcsr = s.th.fpcsr ||| ((f : BitVec 6) ++ 0#3) ∧ t.ccl.cflags = s.ccl.cflags ||| (f ++ 0#3) ∧ f.getLsbD 5 = false ∧
        (∀ n, n ≠ clusterOf s.cur.core → t.cluster n = s.cluster n) ∧ (i ≠ .fcvt dty sty (.g r) p → t.th.srctr = s.th.srctr)

/-- R83, R85-R94, R96-R105. Together: what register instructions leave unchanged. -/
def Obligations.RegisterFrames : Prop := Sys2Proof.Spec.IntegerFrame ∧ Sys2Proof.Spec.FloatFrame

/-! ## Memory -/

namespace Sys2Proof.Spec

/-- An access of the current thread through a capability register passes its checks and is translated (R17, R20, R255). -/
def Located (s s1 : State) (a : BitVec 4) (k : Cap) (addr size : Nat) (need : BitVec 6) (acc : Acc) (t : Tgt) : Prop :=
  readA a s = .ok (k, s) ∧ capCheck k addr size need kindMem size s = .ok ((), s) ∧ home addr acc s = .ok (t, s1)

/-- The order of the access is not relaxed, and a release has nothing to wait for (R66, R260). -/
def Ordered (s : State) : Prop := prefixOf s = .ok (s.th.pfx.getD { order := .plain, scope := .thread }, s) ∧
  (s.th.pfx.getD { order := .plain, scope := .thread }).order ≠ .relaxed ∧
    beforeAccess (s.th.pfx.getD { order := .plain, scope := .thread }) s = .ok ((), s)

/-- The address of format M (R60). -/
def addrOf (k : Cap) (off : BitVec 14) : Nat := (((k.bits.toNat : Int) + off.toInt) % 2 ^ 48).toNat

/-- The number whose little-endian bytes these are (R7). -/
def little : List Byte → Nat
  | [] => 0
  | b :: r => b.toNat + 256 * little r

/-- The order and scope of the current instruction (R66). -/
def ordering (s : State) : Pfx := s.th.pfx.getD { order := .plain, scope := .thread }

/-- A release whose scope is a core, a cluster or a die and does not reach the home of its address misses (R257, R261). -/
def Misses (p : Pfx) (s : State) (x : Nat) : Prop :=
  (p.order = .release ∨ p.order = .acqRel) ∧ 1 ≤ scopeRank p.scope ∧ scopeRank p.scope ≤ 3 ∧
  scopeRank p.scope < s.homeScope s.agent s.cur.core x

/-- A release has nothing to wait for: it is none, or it reached its home (R261). -/
def Passes (p : Pfx) (s : State) (x : Nat) : Prop := ¬ Misses p s x ∧ s.th.missOpen = false

/-- A release that missed has not retired: the thread waits for the message, which has yet to be counted (R261). -/
def AwaitsMessage (s t : State) (x : Nat) (d : Option Dst) (len : Nat) (v : Word) (fx : Fx) : Prop :=
  t.th.state = .waitMem ∧ t.th.wait = .missed d len v fx ∧ t.th.pc = s.th.pc ∧ (∀ r, t.th.gr r = s.th.gr r) ∧
  ∃ m, t.th.miss = some m ∧ m.addr.toNat = x ∧ m.counted = false

/-- A destination takes a result: its register has no hazard, or its queue is bound, open and whole (R54, R56, R123). -/
def Takes (d : Dst) (s : State) : Prop := ∀ v, ∃ s2, writeDst d v s = .ok ((), s2)

/-- A value goes to its destination, and the instruction of len bytes ends. -/
def Ends (d : Dst) (len : Nat) (redo : Bool) (v : Word) (s t : State) : Prop :=
  ∃ s2, writeDst d v s = .ok ((), s2) ∧ endDst d len Fx.none redo s2 = .ok ((), t)

/-- The state after an instruction of len bytes has retired. -/
def after (s : State) (len : Nat) : State := s.setTh (s.th.retired len)

end Sys2Proof.Spec

/-- R17. The checks of an access come in one order: the tag and the reserved bits, the tenant, the kind and the permissions, the bounds,
the alignment; the first that fails gives the cause. -/
def Sys2Proof.Spec.CapCheckOrder : Prop :=
  ∀ (ten : BitVec 6) (c : Cap) (addr size : Nat) (need : BitVec 6) (kind : BitVec 3) (align : Nat),
    let tagged := c.tag = true ∧ c.bits.toNat / 2 ^ 116 = 0
    let owned := c.bits.toNat / 2 ^ 107 % 2 ^ 6 = ten.toNat
    let allowed := c.bits.toNat / 2 ^ 113 % 2 ^ 3 = kind.toNat ∧ ∀ i, i < 6 → need.getLsbD i = true → c.bits.getLsbD (101 + i) = true
    let inside := c.bits.toNat / 2 ^ 96 % 2 ^ 5 ≤ 24 ∧ c.base ≤ addr ∧ addr + size ≤ c.top
    (¬ tagged → capFault ten c addr size need kind align = some .capTag) ∧
    (tagged → ¬ owned → capFault ten c addr size need kind align = some .capTenant) ∧
    (tagged → owned → ¬ allowed → capFault ten c addr size need kind align = some .capPerm) ∧
    (tagged → owned → allowed → ¬ inside → capFault ten c addr size need kind align = some .capBound) ∧
    (tagged → owned → allowed → inside → addr % align ≠ 0 → capFault ten c addr size need kind align = some .align) ∧
    (tagged → owned → allowed → inside → addr % align = 0 → capFault ten c addr size need kind align = none)

/-- R15, R16. The bounds a capability's fields give: mantissas times two to the exponent, and 2^48 for a top mantissa of 0 at exponent
24. -/
def Sys2Proof.Spec.CapabilityBounds : Prop :=
  ∀ (c : Cap) (n e t : Nat), n = c.bits.toNat → e = n / 2 ^ 96 % 2 ^ 5 → t = n / 2 ^ 72 % 2 ^ 24 →
    c.base = n / 2 ^ 48 % 2 ^ 24 * 2 ^ e ∧ c.top = (if e = 24 ∧ t = 0 then 2 ^ 48 else t * 2 ^ e) ∧
    c.perms.toNat = n / 2 ^ 101 % 2 ^ 6 ∧ c.ten.toNat = n / 2 ^ 107 % 2 ^ 6 ∧ c.kind.toNat = n / 2 ^ 113 % 2 ^ 3

/-- R15-R17. Together: the checks of an access, in their order, and the bounds a capability gives. -/
def Obligations.CapabilityCheck : Prop := Sys2Proof.Spec.CapCheckOrder ∧ Sys2Proof.Spec.CapabilityBounds

/-- R7, R18, R255. Bytes written at their home in a slice or in host memory read back in their order, no other byte changes, the tags of
the granules they touch are cleared and no other tag, and no full/empty bit changes. -/
def Obligations.WriteTakesEffect : Prop :=
  ∀ (s : State) (k : Nat) (bs : List Byte), Memory.wf s.mem = true →
    (∀ j, Memory.read (s.poke k bs).mem j = if k ≤ j ∧ j < k + bs.length then (bs[j - k]?).getD 0 else Memory.read s.mem j) ∧
    Memory.wf (s.poke k bs).mem = true ∧
    (∀ g, g ∈ (s.poke k bs).tags ↔ g ∈ s.tags ∧ ¬ (g * 16 < k + bs.length ∧ k < g * 16 + 16 ∧ bs ≠ [])) ∧
    (s.poke k bs).empties = s.empties ∧ (s.poke k bs).regions = s.regions ∧ (s.poke k bs).clusters = s.clusters

/-- R60, R121. A load that is not relaxed completes: the bytes at the home of the address, lowest first, sign-extended by ld and
zero-extended by ld.zext, go to the destination. -/
def Sys2Proof.Spec.LoadResult : Prop :=
  ∀ (d : Dst) (a : BitVec 4) (off : BitVec 14) (sz : BitVec 2) (s s1 s2 : State) (k : Cap) (t : Tgt), (ordering s).order ≠ .relaxed →
    Ready d s → Located s s1 a k (addrOf k off) (2 ^ sz.toNat) permR .read t →
    let v := little (s1.readAt s.cc.tenant t (2 ^ sz.toNat))
    (writeDst d (BitVec.ofInt 64 (signedLow (8 * 2 ^ sz.toNat) v)) s1 = .ok ((), s2) →
      ∃ u, exec (.ld d a off sz) s = .next u ∧ endDst d 4 Fx.none false s2 = .ok ((), u)) ∧
    (writeDst d (BitVec.ofNat 64 v) s1 = .ok ((), s2) →
      ∃ u, exec (.ldZext d a off sz) s = .next u ∧ endDst d 4 Fx.none false s2 = .ok ((), u))

/-- R7, R60, R121, R261. A store that is not relaxed writes the low bytes of its source, lowest first, at the home of its address, and
retires; a release outside its scope waits for its message first. -/
def Sys2Proof.Spec.StoreResult : Prop :=
  ∀ (p : Src) (a : BitVec 4) (off : BitVec 14) (sz : BitVec 2) (s s1 s2 : State) (x : Word) (k : Cap) (t : Tgt), Ordered s →
    readSrc p s = .ok (x, s1) → Located s1 s2 a k (addrOf k off) (2 ^ sz.toNat) permW .write t →
    let s3 := s2.writeAt s2.agent t ((List.range (2 ^ sz.toNat)).map (fun i => BitVec.ofNat 8 (x.toNat / 256 ^ i))) 0x01
    (Passes (ordering s) s3 (addrOf k off) → exec (.st p a off sz) s = .next (after s3 (4 + p.litBytes))) ∧
    (Misses (ordering s) s3 (addrOf k off) → ∃ u, exec (.st p a off sz) s = .next u ∧ u.mem = s3.mem ∧
      AwaitsMessage s3 u (addrOf k off) none (4 + p.litBytes) 0 Fx.none)

/-- R18, R122, R261. ldc reads 16 bytes and the granule's tag, which stays set only where the register admits capabilities (RC); stc writes
both, and needs WC for a tagged capability: without it CAPPERM, with the address as TVAL. -/
def Sys2Proof.Spec.CapabilityMemory : Prop :=
  ∀ (c a : BitVec 4) (off : BitVec 14) (s s1 : State) (k : Cap) (t : Tgt), Ordered s →
    (Located s s1 a k (addrOf k off) 16 permR .read t → s1.th.clearA c →
      exec (.ldc c a off) s = .next (withCap s1 c
        { bits := BitVec.ofNat 128 (little (s1.readAt s.cc.tenant t 16)), tag := s1.tagAt t && k.perms.getLsbD 2 } 4)) ∧
    (s.th.readyA c → Located s s1 a k (addrOf k off) 16 permW .write t →
      let v := s.th.ar c
      (v.tag = false ∨ k.perms.getLsbD 3 = true →
        let s3 := (s1.writeAt s1.agent t ((List.range 16).map (fun i => BitVec.ofNat 8 (v.bits.toNat / 256 ^ i))) 0x02).setTag t v.tag
        (Passes (ordering s) s3 (addrOf k off) → exec (.stc c a off) s = .next (after s3 4)) ∧
        (Misses (ordering s) s3 (addrOf k off) → ∃ u, exec (.stc c a off) s = .next u ∧ u.mem = s3.mem ∧
          AwaitsMessage s3 u (addrOf k off) none 4 0 Fx.none)) ∧
      (v.tag = true → k.perms.getLsbD 3 = false →
        exec (.stc c a off) s = .next (s.trapSync .capPerm (BitVec.ofNat 64 (addrOf k off)) s.th.pc)))

/-- R7, R18, R60, R121, R122, R261. Together: loads and stores of data and of capabilities. -/
def Obligations.LoadStore : Prop := Sys2Proof.Spec.LoadResult ∧ Sys2Proof.Spec.StoreResult ∧ Sys2Proof.Spec.CapabilityMemory

/-- R121-R124, R259. A relaxed load or store whose checks pass joins the thread's outstanding accesses, at most four, and retires; its
memory is not touched yet. A fifth makes the thread wait. -/
def Sys2Proof.Spec.RelaxedIssue : Prop :=
  ∀ (r : BitVec 5) (p : Src) (a : BitVec 4) (off : BitVec 14) (sz : BitVec 2) (s s1 : State) (k : Cap) (x : Word) (sc : Scope),
    s.th.pfx = some { order := .relaxed, scope := sc } → s.th.clearG r →
    (s.th.rel.length < 4 → readA a s = .ok (k, s) → capCheck k (addrOf k off) (2 ^ sz.toNat) permR kindMem (2 ^ sz.toNat) s = .ok ((), s) →
      ∀ i ∈ [Instr.ld (.g r) a off sz, .ldZext (.g r) a off sz], ∃ t y, exec i s = .next t ∧ t.th.rel = s.th.rel ++ [y] ∧ y.op = .ld ∧
        y.addr.toNat = addrOf k off ∧ y.reg.toNat = r.toNat ∧ y.stage = .issued ∧ t.mem = s.mem ∧ (∀ g, t.th.gr g = s.th.gr g) ∧
        t.th.pc = s.th.wordAt + 4) ∧
    (s.th.rel.length < 4 → readSrc p s = .ok (x, s1) → readA a s1 = .ok (k, s1) → s1.th.pfx = s.th.pfx → s1.th.rel = s.th.rel →
      capCheck k (addrOf k off) (2 ^ sz.toNat) permW kindMem (2 ^ sz.toNat) s1 = .ok ((), s1) →
      ∃ t y, exec (.st p a off sz) s = .next t ∧ t.th.rel = s.th.rel ++ [y] ∧ y.op = .st ∧ y.addr.toNat = addrOf k off ∧ y.val = x ∧
        y.stage = .issued ∧ t.mem = s1.mem ∧ (∀ g, t.th.gr g = s1.th.gr g)) ∧
    (s.th.rel.length = 4 → ∀ i ∈ [Instr.ld (.g r) a off sz, .ldZext (.g r) a off sz, .st p a off sz],
      exec i s = .next (s.parkTh .waitMem .room))

/-! ## Full/empty words, atomics, watches, fences and scope misses -/

namespace Sys2Proof.Spec

/-- The doubleword of a slice that a full/empty operation names (R125): its owner and its key in memory. -/
def FeWord (s : State) (a : BitVec 4) (off : BitVec 14) (need : BitVec 6) (owner key : Nat) : Prop :=
  ∃ k o, readA a s = .ok (k, s) ∧ capCheck k (addrOf k off) 8 need kindMem 8 s = .ok ((), s) ∧
    s.rowOf s.agent (addrOf k off) = .slice owner o ∧ key = 2 ^ 48 + owner * 0x10000 + o

/-- The bytes of a number, lowest first (R7). -/
def lowBytes (n v : Nat) : List Byte := (List.range n).map (fun i => BitVec.ofNat 8 (v / 256 ^ i))

/-- The request a waiting full/empty operation leaves in a slice's table (R127). -/
def request (s : State) (key : Nat) (op : BitVec 2) (v : Word) : FeReq :=
  { key := key, core := s.cur.core, slot := s.cur.slot, op := op, val := v }

/-- The state of a request whose condition does not hold: it joins the end of the table, or waits to be sent again where the table is
full (R127). -/
def queued (s : State) (owner : Nat) (q : FeReq) (d : Option Dst) (len : Nat) : State :=
  if (s.core owner).feWait.length < 32 then
    (s.setCore owner { s.core owner with feWait := (s.core owner).feWait ++ [q] }).parkTh .parkFe (.fe d len)
  else s.parkTh .parkFe (.feRef owner q d len)

/-- What each atomic leaves in an n-bit word that held x and the operand's low bits y; sgn where the old value comes back sign-extended, in
the order of the function codes (R129). -/
def amoFunctions (n : Nat) : List (Bool × (Nat → Nat → Nat)) :=
  [(false, fun x y => (x + y) % 2 ^ n), (false, fun x y => x &&& y), (false, fun x y => x ||| y), (false, fun x y => x ^^^ y),
   (true, fun x y => if signedLow n y < signedLow n x then y else x), (true, fun x y => if signedLow n x < signedLow n y then y else x),
   (false, fun x y => Min.min x y), (false, fun x y => Max.max x y), (false, fun _ y => y)]

/-- The atomics, with what each leaves and gives. -/
def atomics (d : Dst) (a : BitVec 4) (p : Src) (dbl : Bool) : List (Instr × Bool × (Nat → Nat → Nat)) :=
  [.amoAdd d a p dbl, .amoAnd d a p dbl, .amoOr d a p dbl, .amoXor d a p dbl, .amoMin d a p dbl, .amoMax d a p dbl, .amoMinu d a p dbl,
   .amoMaxu d a p dbl, .amoSwap d a p dbl].zip (amoFunctions (if dbl then 64 else 32))

/-- The old value as an atomic gives it: of n bytes, sign-extended or not. -/
def oldValue (sgn : Bool) (n old : Nat) : Word := if sgn then BitVec.ofInt 64 (signedLow (8 * n) old) else BitVec.ofNat 64 old

/-- An atomic of the current thread passes its checks and is translated (R129). -/
def AtomicAt (s s1 : State) (a : BitVec 4) (k : Cap) (n : Nat) (t : Tgt) : Prop :=
  readA a s = .ok (k, s) ∧ atomicCheck k n s = .ok ((), s) ∧ home (k.bits.toNat % 2 ^ 48) .atomic s = .ok (t, s1)

end Sys2Proof.Spec

/-- R125, R126, R127. ldf and ldfe of a full word complete: they give its value, ldfe leaves it empty, and those who wait for the word are
served; of an empty word they wait in the slice's table. fes gives the bit. -/
def Sys2Proof.Spec.FullEmptyLoad : Prop :=
  ∀ (d : Dst) (a : BitVec 4) (off : BitVec 14) (s s2 : State) (owner key : Nat), Ready d s → FeWord s a off (permR ||| permA) owner key →
    s.th.missOpen = false →
    let v := BitVec.ofNat 64 (little (Memory.readN s.mem key 8))
    (s.full key = true →
      (writeDst d v s = .ok ((), s2) →
        ∃ t, exec (.ldf d a off) s = .next (t.feServeAll owner key) ∧ endDst d 4 Fx.none false s2 = .ok ((), t)) ∧
      (writeDst d v ((s.setFull key false).hitWatches (key / 64)) = .ok ((), s2) →
        ∃ t, exec (.ldfe d a off) s = .next (t.feServeAll owner key) ∧ endDst d 4 Fx.none false s2 = .ok ((), t))) ∧
    (s.full key = false → dstCheck d s = .ok ((), s) →
      exec (.ldf d a off) s = .next (queued s owner (request s key 0 0) (some d) 4) ∧
      exec (.ldfe d a off) s = .next (queued s owner (request s key 1 0) (some d) 4)) ∧
    (writeDst d (flag (s.full key = true)) s = .ok ((), s2) →
      ∃ t, exec (.fes d a off) s = .next t ∧ endDst d 4 Fx.none true s2 = .ok ((), t))

/-- R125, R126, R127, R261. stef writes an empty word and fills it, and waits at a full one; stf writes and fills whatever the bit was; empt
empties. Each is followed by the service of those who wait for the word; a release outside its scope waits for its message. -/
def Sys2Proof.Spec.FullEmptyStore : Prop :=
  ∀ (p : Src) (a : BitVec 4) (off : BitVec 14) (s s1 : State) (x : Word) (owner key : Nat), Ordered s →
    (readSrc p s = .ok (x, s1) → FeWord s1 a off (permW ||| permA) owner key →
      let at_ := addrOf (s1.th.ar a) off
      let s3 := (s1.writeAt s1.agent (sramOf key) (lowBytes 8 x.toNat) 0x04).setFull key true
      let s4 := (s1.writeAt s1.agent (sramOf key) (lowBytes 8 x.toNat) 0x03).setFull key true
      (Passes (ordering s) s1 at_ →
        (s1.full key = false → exec (.stef p a off) s = .next ((after s3 (4 + p.litBytes)).feServeAll owner key)) ∧
        (s1.full key = true → exec (.stef p a off) s = .next (queued s1 owner (request s1 key 2 x) none (4 + p.litBytes)))) ∧
      (Passes (ordering s) s4 at_ → exec (.stf p a off) s = .next ((after s4 (4 + p.litBytes)).feServeAll owner key)) ∧
      (Misses (ordering s) s4 at_ → ∃ u, exec (.stf p a off) s = .next (u.feServeAll owner key) ∧ u.mem = s4.mem ∧
        AwaitsMessage s4 u at_ none (4 + p.litBytes) 0 Fx.none)) ∧
    (FeWord s a off (permW ||| permA) owner key →
      let at_ := addrOf (s.th.ar a) off
      let s3 := ((s.setFull key false).hitWatches (key / 64)).trace s.agent owner (key - (2 ^ 48 + owner * 0x10000)) 8 0x05
      (Passes (ordering s) s3 at_ → exec (.empt a off) s = .next ((after s3 4).feServeAll owner key)) ∧
      (Misses (ordering s) s3 at_ → ∃ u, exec (.empt a off) s = .next (u.feServeAll owner key) ∧
        AwaitsMessage s3 u at_ none 4 0 Fx.none))

/-- R127. A word's requests are served from the oldest, for as long as its condition holds; one that proceeds leaves the table. A request
that a full table refused is sent again: it joins the table, or proceeds. -/
def Sys2Proof.Spec.FullEmptyService : Prop :=
  ∀ (s : State) (owner key n : Nat),
    ((s.core owner).feWait.find? (·.key == key) = none → s.feServe owner key n = s) ∧
    (∀ q, (s.core owner).feWait.find? (·.key == key) = some q → s.full key = (q.op == 2) → s.feServe owner key n = s) ∧
    (∀ q, (s.core owner).feWait.find? (·.key == key) = some q → s.full key ≠ (q.op == 2) →
      let s1 := s.setCore owner { s.core owner with feWait := (s.core owner).feWait.erase q }
      s.feServe owner key (n + 1) = ((s1.feApply q).2.feAnswer q (s1.feApply q).1).feServe owner key n) ∧
    (∀ (q : FeReq) (d : Option Dst) (len : Nat), s.th.wait = .feRef owner q d len → q.core = s.cur.core → q.slot = s.cur.slot →
      s.full q.key = (q.op == 2) → (∀ r, d = some r → dstCheck r s = .ok ((), s)) → exec .feResend s = .next (queued s owner q d len))

/-- R125-R127, R261. Together: operations on full/empty words, and the service of those that wait. -/
def Obligations.FullEmpty : Prop := Sys2Proof.Spec.FullEmptyLoad ∧ Sys2Proof.Spec.FullEmptyStore ∧ Sys2Proof.Spec.FullEmptyService

/-- R129, R261. An atomic that is not relaxed reads its word, leaves the function's value there in one step, and gives the old value:
sign-extended by min and max, else zero-extended. amo.fadd.s adds as FP32 and raises its flags as it retires. A release outside its scope
has had its effect and waits for its message. -/
def Sys2Proof.Spec.AtomicResult : Prop :=
  ∀ (d : Dst) (a : BitVec 4) (p : Src) (dbl : Bool) (s s1 s2 s4 : State) (k : Cap) (b : Word) (t : Tgt), Ordered s → Ready d s →
    readSrc p s = .ok (b, s1) →
    let at_ := k.bits.toNat % 2 ^ 48
    (AtomicAt s1 s2 a k (if dbl then 8 else 4) t → ∀ x ∈ atomics d a p dbl,
      let n := if dbl then 8 else 4
      let old := little (s2.readAt s1.cc.tenant t n)
      let s3 := s2.writeAt s2.agent t (lowBytes n (x.2.2 old (b.toNat % 2 ^ (8 * n)))) 0x06
      (Passes (ordering s) s3 at_ → writeDst d (oldValue x.2.1 n old) s3 = .ok ((), s4) →
        ∃ u, exec x.1 s = .next u ∧ endDst d (4 + p.litBytes) Fx.none false s4 = .ok ((), u)) ∧
      (Misses (ordering s) s3 at_ → ∃ u, exec x.1 s = .next u ∧ u.mem = s3.mem ∧
        AwaitsMessage s3 u at_ (some d) (4 + p.litBytes) (oldValue x.2.1 n old) Fx.none)) ∧
    (AtomicAt s1 s2 a k 4 t →
      let old := little (s2.readAt s1.cc.tenant t 4)
      let r := fp32.add (mode s2) old (b.toNat % 2 ^ 32)
      let s3 := s2.writeAt s2.agent t (lowBytes 4 r.bits) 0x06
      Passes (ordering s) s3 at_ → writeDst d (BitVec.ofNat 64 old) s3 = .ok ((), s4) →
        ∃ u, exec (.amoFaddS d a p) s = .next u ∧ endDst d (4 + p.litBytes) (raising r.fl) false s4 = .ok ((), u))

/-- R129, R261. cas writes its operand where the word equals the destination register, read first, and gives the old value in that
register. -/
def Sys2Proof.Spec.CompareAndSwapResult : Prop :=
  ∀ (r : BitVec 5) (a : BitVec 4) (p : Src) (dbl : Bool) (s s1 s2 s4 : State) (k : Cap) (b : Word) (t : Tgt), Ordered s → s.th.clearG r →
    readSrc p s = .ok (b, s1) → AtomicAt s1 s2 a k (if dbl then 8 else 4) t →
      let n := if dbl then 8 else 4
      let at_ := k.bits.toNat % 2 ^ 48
      let old := little (s2.readAt s1.cc.tenant t n)
      let s3 := if old = (s.th.gr r).toNat % 2 ^ (8 * n) then s2.writeAt s2.agent t (lowBytes n b.toNat) 0x07 else s2
      (Passes (ordering s) s3 at_ → writeDst (.g r) (BitVec.ofNat 64 old) s3 = .ok ((), s4) →
        exec (.cas r a p dbl) s = .next (after s4 (4 + p.litBytes))) ∧
      (Misses (ordering s) s3 at_ → ∃ u, exec (.cas r a p dbl) s = .next u ∧ u.mem = s3.mem ∧
        AwaitsMessage s3 u at_ (some (.g r)) (4 + p.litBytes) (BitVec.ofNat 64 old) Fx.none)

/-- R129, R261. Together: the atomics. -/
def Obligations.AtomicOperation : Prop := Sys2Proof.Spec.AtomicResult ∧ Sys2Proof.Spec.CompareAndSwapResult

/-- R123, R255, R259, R263. An outstanding relaxed access of the current thread that no earlier one to the same bytes holds up takes effect
at its home in one step: HOME_REQUEST does it for a load or a store, RESERVATION_GRANT for an atomic, read and write together. A load and
an atomic keep what they read; what a store or an atomic writes is in memory. ACCESS_REPLY then writes the register, and the access is
outstanding no longer. -/
def Sys2Proof.Spec.RelaxedEffect : Prop :=
  ∀ (s s1 : State) (x : RelAcc) (t : Tgt), s.th.rel[s.cur.idx]? = some x →
    (s.relReady s.cur.core s.cur.slot x = true → s.windowFault s.agent x.addr.toNat x.size = none →
      s.resolve s.agent x.addr.toNat x.kind = .ok (t, s1) →
      let old := little (s1.readAt s.cc.tenant t x.size)
      (x.op = .ld → ∃ u y, exec .homeRequest s = .next u ∧ u.th.rel[s.cur.idx]? = some y ∧ y.stage = .applied ∧ u.mem = s1.mem ∧
        y.res = oldValue (!x.fn.getLsbD 2) x.size old ∧ (∀ g, u.th.gr g = s.th.gr g)) ∧
      (x.op = .st → ∃ u y, exec .homeRequest s = .next u ∧ u.th.rel[s.cur.idx]? = some y ∧ y.stage = .applied ∧
        u.mem = (s1.writeAt s.agent t (lowBytes x.size x.val.toNat) 0x01).mem) ∧
      (x.op = .ldc → ∃ u y, exec .homeRequest s = .next u ∧ u.th.rel[s.cur.idx]? = some y ∧ y.stage = .applied ∧ u.mem = s1.mem ∧
        y.rcap = { bits := BitVec.ofNat 128 (little (s1.readAt s.cc.tenant t 16)), tag := s1.tagAt t && x.cap.tag }) ∧
      (x.op = .stc → ∃ u y, exec .homeRequest s = .next u ∧ u.th.rel[s.cur.idx]? = some y ∧ y.stage = .applied ∧
        u.mem = (s1.writeAt s.agent t (lowBytes 16 x.cap.bits.toNat) 0x02).mem ∧ u.tagAt t = ((s1.setTag t x.cap.tag).tagAt t)) ∧
      (x.op = .amo → ∀ (i : Nat) (f : Bool × (Nat → Nat → Nat)), (amoFunctions (8 * x.size))[i]? = some f →
        x.fn.toNat % 16 = i → ∃ u y, exec .reservationGrant s = .next u ∧ u.th.rel[s.cur.idx]? = some y ∧ y.stage = .applied ∧
          y.res = oldValue f.1 x.size old ∧
          u.mem = (s1.writeAt s.agent t (lowBytes x.size (f.2 old (x.val.toNat % 2 ^ (8 * x.size)))) 0x06).mem) ∧
      (x.op = .amo → x.fn.toNat = 0x29 ∨ x.fn.toNat = 0x09 →
        let r := fp32.add x.rm old (x.val.toNat % 2 ^ 32)
        ∃ u y, exec .reservationGrant s = .next u ∧ u.th.rel[s.cur.idx]? = some y ∧ y.stage = .applied ∧ y.res = BitVec.ofNat 64 old ∧
          u.mem = (s1.writeAt s.agent t (lowBytes 4 r.bits) 0x06).mem ∧ u.th.fpcsr = s.th.fpcsr ||| (r.fl ++ 0#3)) ∧
      (x.op = .cas → ∃ u y, exec .reservationGrant s = .next u ∧ u.th.rel[s.cur.idx]? = some y ∧ y.stage = .applied ∧
        y.res = BitVec.ofNat 64 old ∧
        u.mem = (if old = x.exp.toNat % 2 ^ (8 * x.size) then s1.writeAt s.agent t (lowBytes x.size x.val.toNat) 0x07 else s1).mem)) ∧
    (x.stage = .applied → ∃ u, exec .accessReply s = .next (s.setTh u) ∧ u.rel = s.th.rel.eraseIdx s.cur.idx ∧ u.pc = s.th.pc ∧
      (x.op = .ld ∨ x.op = .amo ∨ x.op = .cas → x.reg.toNat < 32 → x.reg ≠ 0 → u.gr (BitVec.ofNat 5 x.reg.toNat) = x.res ∧
        ∀ g : BitVec 5, g.toNat ≠ x.reg.toNat → u.gr g = s.th.gr g) ∧
      (x.op = .ldc → x.reg.toNat < 16 → u.ar (BitVec.ofNat 4 x.reg.toNat) = x.rcap) ∧
      (x.op = .st ∨ x.op = .stc → u.g = s.th.g ∧ u.a = s.th.a))

/-- R121-R124, R255, R259, R263. Together: relaxed accesses, as they issue and as they take effect. -/
def Obligations.RelaxedAccess : Prop := Sys2Proof.Spec.RelaxedIssue ∧ Sys2Proof.Spec.RelaxedEffect

/-- R130, R131. mon arms a watch on the line of its address, or waits for room in the store; mwait gives MODE without a watch, OK at once
where the line has been written since, and else waits; the write, or the limit, ends the wait with OK or TIMEOUT and drops the watch. An
entry that a full store evicts counts as written. -/
def Sys2Proof.Spec.MonitorAndWait : Prop :=
  ∀ (s s1 s2 : State) (a : BitVec 4) (k : Cap) (t : Tgt) (d : Dst) (p : Src) (b : Word),
    (readA a s = .ok (k, s) → capCheck k (k.bits.toNat % 2 ^ 48) 1 permR kindMem 1 s = .ok ((), s) → inHostWindow k.cur = false →
      home (k.bits.toNat % 2 ^ 48) .read s = .ok (t, s1) →
      let s3 := s1.dropWatch s1.cur.core s1.cur.slot
      let h := watchHome t
      ((s3.watches.filter (·.home == h)).length < watchRoom h → ∃ u, exec (.mon a) s = .next u ∧
        u.th.watch = some { line := t.key / 64, hit := false } ∧ u.watches = s3.watches ++
          [{ home := h, line := t.key / 64, core := s.cur.core, slot := s.cur.slot, since := s.cycle }] ∧ (∀ g, u.th.gr g = s.th.gr g)) ∧
      (watchRoom h ≤ (s3.watches.filter (·.home == h)).length → exec (.mon a) s = .next (s3.parkTh .waitMem (.monFull h)))) ∧
    (Ready d s → readSrc p s = .ok (b, s1) →
      (s1.th.watch = none → writeDst d 3 s1 = .ok ((), s2) →
        ∃ t, exec (.mwait d p) s = .next t ∧ endDst d (4 + p.litBytes) Fx.none false s2 = .ok ((), t)) ∧
      (∀ w, s1.th.watch = some w → w.hit = true → writeDst d 0 (s1.dropWatch s1.cur.core s1.cur.slot) = .ok ((), s2) →
        ∃ t, exec (.mwait d p) s = .next t ∧ endDst d (4 + p.litBytes) Fx.none false s2 = .ok ((), t)) ∧
      (∀ w, s1.th.watch = some w → w.hit = false → dstCheck d s1 = .ok ((), s1) → exec (.mwait d p) s =
        .next (s1.parkTh .parkMon (.mwait d (4 + p.litBytes) (if b = 0 then none else some (s1.cycle + b.toNat)))))) ∧
    (∀ len e w, s.th.wait = .mwait d len e → s.th.watch = some w → w.hit = true →
      writeDst d 0 (s.dropWatch s.cur.core s.cur.slot) = .ok ((), s2) →
      ∃ t, exec .mwaitWake s = .next t ∧ endDst d len Fx.none false s2 = .ok ((), t)) ∧
    (∀ len e, s.th.wait = .mwait d len (some e) → e ≤ s.cycle → writeDst d 2 (s.dropWatch s.cur.core s.cur.slot) = .ok ((), s2) →
      ∃ t, exec .mwaitTimeout s = .next t ∧ endDst d len Fx.none false s2 = .ok ((), t)) ∧
    (∀ w : WatchE, s.watches.find? (·.home == s.cur.idx) = some w → watchRoom s.cur.idx ≤ (s.watches.filter (·.home == s.cur.idx)).length →
      w.since + 8192 ≤ s.cycle → ∃ u, exec .watchEvict s = .next u ∧ u.watches = s.watches.erase w ∧
        ∀ x, (s.thAt w.core w.slot).watch = some x → (u.thAt w.core w.slot).watch = some { x with hit := true })

/-- R124, R132. A fence, whatever its scope, retires once no relaxed access is outstanding and no recorded fault is left; it waits for the
accesses, and delivers the earliest recorded fault as DEFER with its address and its PC. -/
def Sys2Proof.Spec.FenceResult : Prop :=
  ∀ (sc : Scope) (s : State),
    (s.th.rel = [] → s.th.dfr = [] → ∃ t, exec (.fence sc) s = .next t ∧ OnlyPc s t (s.th.wordAt + 4)) ∧
    (s.th.rel ≠ [] → ∃ st ∈ [TState.waitMem, .parkXl], exec (.fence sc) s = .next (s.parkTh st .reissue)) ∧
    (∀ x r, s.th.rel = [] → s.th.dfr = x :: r → s.th.cprv = false → ∃ t, exec (.fence sc) s = .next t ∧ t.th.tcause = 0x09 ∧
      t.th.tval = BitVec.ofNat 64 x.addr.toNat ∧ t.th.tfpc = BitVec.ofNat 64 x.pc.toNat ∧ t.th.tepc = BitVec.ofNat 64 s.th.pc.toNat ∧
        t.th.dfr = [])

/-- R124, R130-R132. Together: watches and fences. -/
def Obligations.MonitorAndFence : Prop := Sys2Proof.Spec.MonitorAndWait ∧ Sys2Proof.Spec.FenceResult

/-- R261, R262. The message of a scope miss reaches the core and SMCOUNT rises by one; a release that waited for it retires, with its result
in its destination. At the boundary after it, a release issued in U in a region with a scope-miss routine traps with SCOPEMISS and the
address; elsewhere the default handling waits for the relaxed accesses, writes the word again and clears the miss. -/
def Obligations.ScopeMiss : Prop :=
  ∀ (s : State) (m : Miss), s.th.miss = some m →
    (m.counted = false →
      let s1 := s.setTh { s.th with miss := some { m with counted := true } }
      let s2 := s1.setCc { s1.cc with smcount := s1.cc.smcount + 1 }
      (s.th.wait = .none → exec .scopeMissMessage s = .next s2) ∧
      (∀ len v x, s.th.wait = .missed none len v x → ∃ t, exec .scopeMissMessage s = .next t ∧ Retired s2 t len x ∧ t.mem = s.mem) ∧
      (∀ d len v x s3, s.th.wait = .missed (some d) len v x → writeDst d v s2 = .ok ((), s3) →
        ∃ t, exec .scopeMissMessage s = .next t ∧ endDst d len x false s3 = .ok ((), t))) ∧
    (s.th.missDue = true → s.holds (.thread s.cur.core s.cur.slot) = false → s.smissOf s.cur.core ≠ 0 → s.th.cprv = false →
      ∃ t, exec .scopeMissHandling s = .next t ∧ t.th.tcause = 0x13 ∧
      t.th.tval = BitVec.ofNat 64 m.addr.toNat ∧ t.th.pc = BitVec.ofNat 48 s.th.tvec.toNat ∧ t.th.cprv = true ∧ t.th.miss = none) ∧
    (s.th.missDue = true → s.holds (.thread s.cur.core s.cur.slot) = false → s.smissOf s.cur.core = 0 ∨ s.th.cprv = true →
      (s.th.rel ≠ [] → ∃ st ∈ [TState.waitMem, .parkXl], exec .scopeMissHandling s = .next (s.parkTh st .handling)) ∧
      (s.th.rel = [] → s.th.dfr = [] →
        (m.rewrite = none → ∃ t, exec .scopeMissHandling s = .next t ∧ t.th.miss = none ∧ t.th.wait = .none ∧ t.mem = s.mem) ∧
        (∀ x s1, m.rewrite = some false → home m.addr.toNat .write s = .ok (x, s1) → ∃ t, exec .scopeMissHandling s = .next t ∧
          t.th.miss = none ∧ t.th.wait = .none ∧ t.mem = (s1.writeAt s1.agent x (lowBytes m.size m.value.toNat) 0x01).mem)))

/-! ## Queue registers and channels -/

namespace Sys2Proof.Spec

/-- The thread's endpoint of q6 (b = 0) or q7 (b = 1) and its code. -/
def sendQ (b : Fin 2) : BitVec 3 := 6 + BitVec.ofNat 3 b.val

end Sys2Proof.Spec

/-- R134, R135, R138. qstat, qpoll and qcnt give the state of a queue register: an unbound one reads as 0; qpoll tells whether the next
access would complete without parking; qcnt counts the words that can be read, or the slots that can be sent. qwait ends at once with OK
where qpoll gives 1, MODE where the register is unbound, CANCELLED where it is drained and BROKEN where it is broken. -/
def Sys2Proof.Spec.QueueState : Prop :=
  ∀ (d : Dst) (q : BitVec 3) (s : State), Ready d s →
    (Takes d s → ∃ t, exec (.qpoll d q) s = .next t ∧ Ends d 4 true (flag (s.polls q = true)) s t) ∧
    (q.toNat < 6 → (s.view q).bound = true → (s.polls q = true ↔ ∃ v s1, readSrc (.q q) s = .ok (v, s1))) ∧
    ((s.view q).bound = false → (Takes d s → ∃ t, exec (.qstat d q) s = .next t ∧ Ends d 4 true 0 s t) ∧
      (Takes d s → ∃ t, exec (.qcnt d q) s = .next t ∧ Ends d 4 true 0 s t) ∧
      ∀ p b s1, s.th.wait = .none → readSrc p s = .ok (b, s1) → s1.view q = s.view q →
        (Takes d s1 → ∃ t, exec (.qwait d q p) s = .next t ∧ Ends d (4 + p.litBytes) false 3 s1 t)) ∧
    ((s.view q).bound = true →
      (∀ v : Word, v.toNat = 1 + 2 * (s.view q).closed.toNat + 4 * (s.view q).broken.toNat + 8 * (s.view q).drained.toNat
          + 256 * ((s.view q).buf % 256) + 65536 * ((s.view q).pend % 65536) + 2 ^ 32 * ((s.view q).allow % 65536) →
        (Takes d s → ∃ t, exec (.qstat d q) s = .next t ∧ Ends d 4 true v s t)) ∧
      (Takes d s → ∃ t, exec (.qcnt d q) s = .next t ∧ Ends d 4 true (BitVec.ofNat 64 (if q = 4 ∨
        q = 5 then (s.view q).buf + 4 * (s.view q).pend else (s.view q).pend)) s t) ∧
      ∀ p b s1, s.th.wait = .none → readSrc p s = .ok (b, s1) → s1.view q = s.view q → s1.polls q = s.polls q →
        (s.polls q = true → (Takes d s1 → ∃ t, exec (.qwait d q p) s = .next t ∧ Ends d (4 + p.litBytes) false 0 s1 t)) ∧
        (s.polls q = false → (s.view q).drained = true → (Takes d s1 → ∃ t, exec (.qwait d q p) s = .next t ∧
          Ends d (4 + p.litBytes) false 6 s1 t)) ∧
        (s.polls q = false → (s.view q).drained = false → (s.view q).broken = true →
          (Takes d (s1.noteFsum s1.cur.core 4) → ∃ t, exec (.qwait d q p) s = .next t ∧
            Ends d (4 + p.litBytes) false 1 (s1.noteFsum s1.cur.core 4) t)))

/-- R138. A qwait whose limit has passed ends with TIMEOUT where nothing else has ended it. -/
def Sys2Proof.Spec.QueueWaitTimeout : Prop :=
  ∀ (s : State) (q : BitVec 3) (d : Dst) (len e : Nat), s.th.wait = .qwait q d len (some e) → e ≤ s.cycle →
    (s.qwaitEnd q = none → (Takes d s → ∃ t, exec .qwaitTimeout s = .next t ∧ Ends d len false 2 s t)) ∧
      (s.qwaitEnd q = some 0 → (Takes d s → ∃ t, exec .qwaitTimeout s = .next t ∧ Ends d len false 0 s t))

/-- R136. qclose of a stream unbinds it and gives OK; of an open send endpoint with an empty buffer it closes the endpoint and sends its
close marker behind what has been sent; a buffer that holds words gives FULL and changes nothing; a broken endpoint BROKEN; a receive
endpoint, and what is unbound or closed already, MODE. -/
def Sys2Proof.Spec.QueueClose : Prop :=
  ∀ (d : Dst) (s : State), Ready d s →
    (∀ (q : BitVec 3) (h : q.toNat < 4), (s.th.strm.get ⟨q.toNat, h⟩).bound = true →
      ∃ s1, s1.th.strm.get ⟨q.toNat, h⟩ = Stream.none ∧ (Takes d s1 → ∃ t, exec (.qclose d q) s = .next t ∧ Ends d 4 false 0 s1 t)) ∧
    (∀ (q : BitVec 3) (h : q.toNat < 4), (s.th.strm.get ⟨q.toNat, h⟩).bound = false →
      (Takes d s → ∃ t, exec (.qclose d q) s = .next t ∧ Ends d 4 false 3 s t)) ∧
    (∀ q ∈ [4#3, 5#3], (Takes d s → ∃ t, exec (.qclose d q) s = .next t ∧ Ends d 4 false 3 s t)) ∧
    (∀ b : Fin 2, let e := s.cc.ep.get ⟨2 + b.val, by omega⟩
      (e.bound = true → e.broken = true → (Takes d (s.noteFsum s.cur.core 4) → ∃ t, exec (.qclose d (sendQ b)) s = .next t ∧
        Ends d 4 false 1 (s.noteFsum s.cur.core 4) t)) ∧
      (e.bound = true → e.broken = false → s.th.sbuf.get b ≠ [] → (Takes d s → ∃ t, exec (.qclose d (sendQ b)) s = .next t ∧
        Ends d 4 false 4 s t)) ∧
      (e.bound = true → e.broken = false → s.th.sbuf.get b = [] → e.closed = false →
        ∃ s1, s1.net = s.net ++ [.close s.cur.core e.peer e.peerEp] ∧ (s1.cc.ep.get ⟨2 + b.val, by omega⟩).closed = true ∧
          (Takes d s1 → ∃ t, exec (.qclose d (sendQ b)) s = .next t ∧ Ends d 4 false 0 s1 t)) ∧
      (e.bound = false ∨ (e.broken = false ∧ e.closed = true ∧ s.th.sbuf.get b = []) →
        (Takes d s → ∃ t, exec (.qclose d (sendQ b)) s = .next t ∧ Ends d 4 false 3 s t)))

/-- R137, R171, R286, R333. Messages of one link arrive in the order in which they left: a slot goes to the end of its endpoint and pulses
crossbar input 4 or 5; the last sender's close marker closes the endpoint; an announcement raises the bound of its link and never lowers
it. Each leaves the network. -/
def Sys2Proof.Spec.MessageArrival : Prop :=
  ∀ (s : State) (src dst : Nat) (e : BitVec 1),
    (∀ w, s.arriving s.cur.idx = some (.slot src dst e w) → ∃ t, exec .slotArrival s = .next t ∧ t.net = s.net.eraseIdx s.cur.idx ∧
      ((t.core dst).ep.get (recvEp e)).slots = ((s.core dst).ep.get (recvEp e)).slots ++ [w] ∧ t.mem = s.mem ∧
      ∀ i : Fin 8, (t.core dst).xblatch.get i = if (xbImask ((s.core dst).xbcfg.get i)).getLsbD (4 + e.toNat)
        then (t.core dst).xblatch.get i ||| (1#24 <<< (4 + e.toNat)) else (t.core dst).xblatch.get i) ∧
    (s.arriving s.cur.idx = some (.close src dst e) → ∃ t, exec .closeMarkerArrival s = .next t ∧ t.net = s.net.eraseIdx s.cur.idx ∧
      ((t.core dst).ep.get (recvEp e)).senders = ((s.core dst).ep.get (recvEp e)).senders - 1 ∧
      (((s.core dst).ep.get (recvEp e)).senders ≤ 1 → ((t.core dst).ep.get (recvEp e)).closed = true)) ∧
    (∀ b, s.arriving s.cur.idx = some (.announce src dst e b) → ∃ t, exec .tetherAnnounceArrival s = .next t ∧
      t.net = s.net.eraseIdx s.cur.idx ∧
      ((t.core dst).ep.get (recvEp e)).bnd.toNat = Max.max ((s.core dst).ep.get (recvEp e)).bnd.toNat b.toNat) ∧
    (∀ m, s.arriving s.cur.idx = some m → ∀ i x, i < s.cur.idx → s.net[i]? = some x → m.link ≠ none → x.link ≠ m.link)

/-- R56, R96, R266, R286. A thread that waits on its fourth word goes on when its channel takes the slot: the slot leaves, and the
instruction retires, with the flags it raises. -/
def Sys2Proof.Spec.ChannelSlotFreed : Prop :=
  ∀ (s : State) (b : Fin 2) (len : Nat) (x : Fx) (redo : Bool) (w0 w1 w2 w3 : Word), s.th.wait = .send (BitVec.ofNat 1 b.val) len x redo →
    s.th.sbuf.get b = [w0, w1, w2, w3] →
    let e := s.cc.ep.get ⟨2 + b.val, by omega⟩
    e.bound = true → e.broken = false → e.closed = false → s.maySend e = true → ∃ t, exec .channelSlotFreed s = .next t ∧
      Retired s t len x ∧
      t.net = s.net ++ [.slot s.cur.core e.peer e.peerEp (w3 ++ w2 ++ w1 ++ w0)] ∧ t.th.sbuf.get b = []
/-! ## Cluster barriers -/

/-- R56, R96, R134-R138, R171, R266, R286, R333. Together: the queue instructions, and the messages of channels. -/
def Obligations.Queues : Prop := Sys2Proof.Spec.QueueState ∧ Sys2Proof.Spec.QueueWaitTimeout ∧ Sys2Proof.Spec.QueueClose ∧ Sys2Proof.Spec.MessageArrival ∧ Sys2Proof.Spec.ChannelSlotFreed

namespace Sys2Proof.Spec

/-- The slot of the current cluster after this thread has named it (R139): only who uses it has changed. -/
def named (s : State) (n : Fin 32) (used : Bool) : State := s.useBar (clusterOf s.cur.core) n s.cc.rid used

/-- A thread that waited has gone on: its instruction of len bytes has written v to g r and retired. -/
def WentOn (s t : State) (n : Nat) (k : Fin 8) (r : BitVec 5) (len : Nat) (v : Word) : Prop :=
  let a := s.thAt n k
  let b := t.thAt n k
  b.wait = .none ∧ b.state = a.active ∧ b.pc = a.pc + BitVec.ofNat 48 (len + if a.pfx.isSome then 4 else 0) ∧
  b.gr r = (if r = 0 then 0 else v) ∧ ∀ g, g ≠ r → b.gr g = a.gr g

end Sys2Proof.Spec

/-- R139, R140, R141. barv: MODE on a SYS slot or for no arrivals, BROKEN on a broken slot, FULL where the arrivals would pass EXP, else
the arrivals count; the phase before comes back with the status. bexp adds expected bytes, bini sets a slot afresh and wakes its waiters
with CANCELLED; a slot above 31 gives MODE. -/
def Sys2Proof.Spec.BarrierResult : Prop :=
  ∀ (d : Dst) (p q : Src) (s s1 s2 : State) (n x : Word), Ready d s → readSrc p s = .ok (n, s1) → readSrc q s1 = .ok (x, s2) →
    let len := 4 + p.litBytes + q.litBytes
    let cl := clusterOf s2.cur.core
    (32 ≤ n.toNat → ∀ i ∈ [Instr.barv d p q, .bexp d p q, .bini d p q, .barw d p q],
      (Takes d s2 → ∃ t, exec i s = .next t ∧ Ends d len false 3 s2 t)) ∧
    (∀ h : n.toNat < 32,
      let k : Fin 32 := ⟨n.toNat, h⟩
      let b := s2.bar cl k
      let ph : Word := if b.ph then 1 else 0
      let s3 := named s2 k true
      (b.sys = true → ∀ i ∈ [Instr.barv d p q, .bexp d p q, .bini d p q],
        (Takes d s3 → ∃ t, exec i s = .next t ∧ Ends d len false 3 s3 t)) ∧
      (2 ^ 48 ≤ x.toNat → (Takes d s3 → ∃ t, exec (.bexp d p q) s = .next t ∧ Ends d len false 3 s3 t)) ∧
      (b.sys = false → b.brk = true → (Takes d (s3.noteFsum s3.cur.core 4) → ∃ t, exec (.barv d p q) s = .next t ∧
        Ends d len false (1 <<< 60 ||| ph) (s3.noteFsum s3.cur.core 4) t) ∧
        (x.toNat < 2 ^ 48 → (Takes d (s3.noteFsum s3.cur.core 4) → ∃ t, exec (.bexp d p q) s = .next t ∧
          Ends d len false 1 (s3.noteFsum s3.cur.core 4) t))) ∧
      (b.sys = false → b.brk = false →
        (x = 0 → (Takes d s3 → ∃ t, exec (.barv d p q) s = .next t ∧ Ends d len false (3 <<< 60 ||| ph) s3 t)) ∧
        (x ≠ 0 → b.exp.toNat < b.arr.toNat + x.toNat → (Takes d s3 → ∃ t, exec (.barv d p q) s = .next t ∧
          Ends d len false (4 <<< 60 ||| ph) s3 t)) ∧
        (x ≠ 0 → b.arr.toNat + x.toNat ≤ b.exp.toNat → (Takes d ((s3.modBar cl k (fun b =>
          { b with arr := b.arr + BitVec.ofNat 16 x.toNat })).barCheck cl k) → ∃ t, exec (.barv d p q) s = .next t ∧
            Ends d len false ph ((s3.modBar cl k (fun b => { b with arr := b.arr + BitVec.ofNat 16 x.toNat })).barCheck cl k) t)) ∧
        (x.toNat < 2 ^ 48 → (Takes d ((s3.modBar cl k (fun b => { b with pb := b.pb + BitVec.ofNat 48 x.toNat })).barCheck cl k) → ∃ t,
          exec (.bexp d p q) s = .next t ∧ Ends d len false 0 ((s3.modBar cl k (fun b =>
            { b with pb := b.pb + BitVec.ofNat 48 x.toNat })).barCheck cl k) t))) ∧
      (b.sys = false → 1 ≤ x.toNat → x.toNat ≤ 65535 → (Takes d ((s3.modBar cl k (fun b =>
        { b with exp := BitVec.ofNat 16 x.toNat, arr := 0, pb := 0, ph := false, brk := false })).wakeBar cl k 6) → ∃ t,
          exec (.bini d p q) s = .next t ∧ Ends d len false 0 ((s3.modBar cl k (fun b =>
            { b with exp := BitVec.ofNat 16 x.toNat, arr := 0, pb := 0, ph := false, brk := false })).wakeBar cl k 6) t)) ∧
      (b.sys = false → x.toNat = 0 ∨ 65535 < x.toNat → (Takes d s3 → ∃ t, exec (.bini d p q) s = .next t ∧ Ends d len false 3 s3 t)))

/-- R140, R141. barw goes on at once where the phase differs from its operand's lowest bit, or the slot is broken; else it waits. A slot is
released when its arrivals have reached EXP and no byte is pending: the phase flips, the arrivals are cleared, and those who wait for it go
on with OK, whoever they are. -/
def Sys2Proof.Spec.BarrierWaitAndRelease : Prop :=
  (∀ (d : Dst) (p q : Src) (s s1 s2 : State) (n x : Word) (h : n.toNat < 32), Ready d s → readSrc p s = .ok (n, s1) →
    readSrc q s1 = .ok (x, s2) →
    let len := 4 + p.litBytes + q.litBytes
    let k : Fin 32 := ⟨n.toNat, h⟩
    let b := s2.bar (clusterOf s2.cur.core) k
    let s3 := named s2 k false
    (b.brk = false → b.ph ≠ x.getLsbD 0 → (Takes d s3 → ∃ t, exec (.barw d p q) s = .next t ∧ Ends d len false 0 s3 t)) ∧
    (b.brk = true → (Takes d (s3.noteFsum s3.cur.core 4) → ∃ t, exec (.barw d p q) s = .next t ∧
      Ends d len false 1 (s3.noteFsum s3.cur.core 4) t)) ∧
    (b.brk = false → b.ph = x.getLsbD 0 → dstCheck d s3 = .ok ((), s3) →
      exec (.barw d p q) s = .next (s3.parkTh .parkBar (.barw k d len)))) ∧
  (∀ (s : State) (cl : Nat) (k : Fin 32),
    (((s.bar cl k).arr ≠ (s.bar cl k).exp ∨ (s.bar cl k).pb ≠ 0) → s.barCheck cl k = s) ∧
    ((s.bar cl k).arr = (s.bar cl k).exp → (s.bar cl k).pb = 0 →
      ((s.barCheck cl k).bar cl k).ph = !(s.bar cl k).ph ∧ ((s.barCheck cl k).bar cl k).arr = 0 ∧
        ((s.barCheck cl k).bar cl k).exp = (s.bar cl k).exp ∧
      (s.barCheck cl k).mem = s.mem ∧
      (((s.barWaiters cl k).map (fun w => (w.1, w.2.1))).Nodup → ∀ n j r len, (n, j, Dst.g r, len) ∈ s.barWaiters cl k →
        (s.thAt n j).clearG r → WentOn s (s.barCheck cl k) n j r len 0)))

/-- R139-R141. Together: the cluster barrier. -/
def Obligations.ClusterBarrier : Prop := Sys2Proof.Spec.BarrierResult ∧ Sys2Proof.Spec.BarrierWaitAndRelease

/-! ## Tasks -/

namespace Sys2Proof.Spec

/-- The registers of a block can be read and written. -/
def BlockClear (s : State) (b : BitVec 5) : Prop := s.th.clearG b ∧ s.th.clearG (b + 1) ∧ s.th.clearG (b + 2) ∧ s.th.clearG (b + 3)

/-- A task entry as a number (R151): the PC, the kind in bit 63, and three words. -/
def entryNat (pc : Nat) (range : Bool) (w1 w2 w3 : Word) : Nat :=
  pc % 2 ^ 48 + (if range then 2 ^ 63 else 0) + w1.toNat * 2 ^ 64 + w2.toNat * 2 ^ 128 + w3.toNat * 2 ^ 192

/-- The entry that a block of registers stands for (R151, R158). -/
def blockEntry (s : State) (b : BitVec 5) (range : Bool) : BitVec 256 :=
  BitVec.ofNat 256 (entryNat (s.th.gr b).toNat range (s.th.gr (b + 1)) (s.th.gr (b + 2)) (s.th.gr (b + 3)))

/-- The four words of an entry. -/
def entWord (e : BitVec 256) (j : Nat) : Word := BitVec.ofNat 64 (e.toNat / 2 ^ (64 * j))

/-- A thread has been delivered an entry (R152): PC is its PC, g1 to g3 its words, and no other register has changed. -/
def Delivered (s t : State) (e : BitVec 256) : Prop :=
  t.th.pc.toNat = e.toNat % 2 ^ 48 ∧ t.th.gr 1 = entWord e 1 ∧ t.th.gr 2 = entWord e 2 ∧ t.th.gr 3 = entWord e 3 ∧
  (∀ g : BitVec 5, g ∉ [1#5, 2#5, 3#5] → t.th.gr g = s.th.gr g) ∧ t.th.a = s.th.a ∧ SameSpecial s.th t.th ∧ t.mem = s.mem

/-- The thread waits for a steal: a token of its stage's steal counter is on its way (R154). -/
def Stealing (s t : State) (d : Option Dst) (b : BitVec 5) : Prop :=
  t.th.wait = .steal s.fresh none d b 4 ∧ t.th.state = .waitMem ∧ t.fresh = s.fresh + 1 ∧
  ∃ f ∈ t.flits, f.id = s.fresh ∧ f.kind = .token ∧ f.tenant = s.cc.tenant ∧ f.ctr = s.stealCounter ∧ f.core = s.cur.core ∧
    f.slot = s.cur.slot

end Sys2Proof.Spec

/-- R151, R158. fork and pushr put an entry at the bottom of the own deque, dsp at the tail of the dispenser: OK, or FULL without room; an
empty range is MODE; an entry address that is not aligned is ALIGN. A push waits as a release at module scope does. -/
def Sys2Proof.Spec.TaskPush : Prop :=
  ∀ (d : Dst) (b : BitVec 5) (s : State), Ready d s → BlockClear s b → pushOrder s = .ok ((), s) →
    ((s.th.gr b).toNat % 4 = 0 →
      (s.cc.deque.length < 16 → (Takes d (s.setCc { s.cc with deque := blockEntry s b false :: s.cc.deque }) → ∃ t,
        exec (.fork d b) s = .next t ∧ Ends d 4 false 0 (s.setCc { s.cc with deque := blockEntry s b false :: s.cc.deque }) t) ∧
        ((s.th.gr (b + 1)).toNat < (s.th.gr (b + 2)).toNat →
          (Takes d (s.setCc { s.cc with deque := blockEntry s b true :: s.cc.deque }) → ∃ t, exec (.pushr d b) s = .next t ∧
            Ends d 4 false 0 (s.setCc { s.cc with deque := blockEntry s b true :: s.cc.deque }) t))) ∧
      (16 ≤ s.cc.deque.length → (Takes d s → ∃ t, exec (.fork d b) s = .next t ∧ Ends d 4 false 4 s t) ∧
        ((s.th.gr (b + 1)).toNat < (s.th.gr (b + 2)).toNat → (Takes d s → ∃ t, exec (.pushr d b) s = .next t ∧ Ends d 4 false 4 s t))) ∧
      ((s.th.gr (b + 2)).toNat ≤ (s.th.gr (b + 1)).toNat → (Takes d s → ∃ t, exec (.pushr d b) s = .next t ∧ Ends d 4 false 3 s t)) ∧
      (s.ccl.disp.length + s.ccl.kept.length < 256 → s.ccl.upcalls = [] →
        (Takes d (s.setCcl { s.ccl with disp := s.ccl.disp ++ [{ rid := s.cc.rid, stage := s.cc.stage, words := blockEntry s b false }] }) →
          ∃ t, exec (.dsp d b) s = .next t ∧ Ends d 4 false 0 (s.setCcl { s.ccl with disp := s.ccl.disp ++ [{ rid := s.cc.rid, stage := s.cc.stage, words := blockEntry s b false }] }) t)) ∧
      (256 ≤ s.ccl.disp.length + s.ccl.kept.length → (Takes d s → ∃ t, exec (.dsp d b) s = .next t ∧ Ends d 4 false 4 s t))) ∧
    ((s.th.gr b).toNat % 4 ≠ 0 → ∀ i ∈ [Instr.fork d b, .pushr d b, .dsp d b],
      exec i s = .next (s.trapSync .align (BitVec.ofNat 64 ((s.th.gr b).toNat % 2 ^ 48)) s.th.pc))

/-- R161. popr takes the bottom range of the own deque into a block; splitr takes at most its operand's count of elements from it, and
leaves the rest; an empty deque is CANCELLED, a bottom entry that is no range, or a count of 0, MODE. steal waits for its counter, and
is MODE in a stage of one core. -/
def Sys2Proof.Spec.TaskTake : Prop :=
  ∀ (d : Dst) (b : BitVec 5) (p : Src) (s : State) (g : Word), Ready d s → BlockClear s b → Plain s p → value s p = g →
    (s.cc.deque = [] → (Takes d s → ∃ t, exec (.popr d b) s = .next t ∧ Ends d 4 false 6 s t) ∧
      (g ≠ 0 → (Takes d s → ∃ t, exec (.splitr d b p) s = .next t ∧ Ends d (4 + p.litBytes) false 6 s t))) ∧
    (g = 0 → (Takes d s → ∃ t, exec (.splitr d b p) s = .next t ∧ Ends d (4 + p.litBytes) false 3 s t)) ∧
    (∀ e r, s.cc.deque = e :: r → e.getLsbD 63 = false → (Takes d s → ∃ t, exec (.popr d b) s = .next t ∧ Ends d 4 false 3 s t) ∧
      (g ≠ 0 → (Takes d s → ∃ t, exec (.splitr d b p) s = .next t ∧ Ends d (4 + p.litBytes) false 3 s t))) ∧
    (∀ e r, s.cc.deque = e :: r → e.getLsbD 63 = true →
      let lo := entWord e 1
      let hi := entWord e 2
      let n := (hi - lo).toNat
      (∀ s1, writeBlock b e (s.setCc { s.cc with deque := r }) = .ok ((), s1) →
        (Takes d s1 → ∃ t, exec (.popr d b) s = .next t ∧ Ends d 4 false 0 s1 t) ∧
        (g ≠ 0 → n ≤ g.toNat → (Takes d s1 → ∃ t, exec (.splitr d b p) s = .next t ∧ Ends d (4 + p.litBytes) false 0 s1 t))) ∧
      (g ≠ 0 → g.toNat < n → ∃ e1 e2 : BitVec 256, entWord e1 0 = entWord e 0 ∧ entWord e1 1 = lo ∧ entWord e1 2 = lo + g ∧
        entWord e1 3 = entWord e 3 ∧
        entWord e2 0 = entWord e 0 ∧ entWord e2 1 = lo + g ∧ entWord e2 2 = hi ∧ entWord e2 3 = entWord e 3 ∧
        ∀ s1, writeBlock b e1 (s.setCc { s.cc with deque := e2 :: r }) = .ok ((), s1) →
          (Takes d s1 → ∃ t, exec (.splitr d b p) s = .next t ∧ Ends d (4 + p.litBytes) false 0 s1 t))) ∧
    (s.cc.scnt = 1 → (Takes d s → ∃ t, exec (.steal d b) s = .next t ∧ Ends d 4 false 3 s t)) ∧
    (s.cc.scnt ≠ 1 → dstCheck d s = .ok ((), s) → ∃ t, exec (.steal d b) s = .next t ∧ Stealing s t (some d) b)

/-- R151, R161. A block written: the four words of the entry stand in its registers, and no other register changes. -/
def Sys2Proof.Spec.BlockWritten : Prop :=
  ∀ (s : State) (b : BitVec 5) (e : BitVec 256), BlockClear s b → b.toNat ≤ 28 →
    ∃ u, writeBlock b e s = .ok ((), s.setTh u) ∧
      (∀ j, j < 4 → u.gr (b + BitVec.ofNat 5 j) = if b.toNat + j = 0 then 0 else entWord e j) ∧
      (∀ g : BitVec 5, g.toNat < b.toNat ∨ b.toNat + 3 < g.toNat → u.gr g = s.th.gr g) ∧ u.a = s.th.a ∧ u.pc = s.th.pc ∧ SameSpecial s.th u

/-- R151, R158, R161. Together: pushing, splitting and taking tasks. -/
def Obligations.Tasks : Prop := Sys2Proof.Spec.TaskPush ∧ Sys2Proof.Spec.TaskTake ∧ Sys2Proof.Spec.BlockWritten

/-- R155, R156. waitw and tend, in U: the bottom entry of the own deque is delivered, else the first entry of the stage in the
dispenser, else the thread goes to steal, or into IDLEW in a stage of one core. tend waits for the relaxed accesses first. In S both are
ILLEGAL. -/
def Sys2Proof.Spec.SearchResult : Prop :=
  ∀ (s : State), ∀ i ∈ [Instr.waitw, .tend],
    (s.th.cprv = true → exec i s = .next (s.trapSync .illegal (BitVec.ofNat 64 (encodeWord i).toNat) s.th.pc)) ∧
    (s.th.cprv = false → (i = .tend → s.th.rel = [] ∧ s.th.dfr = []) → (i = .waitw → ∀ g ∈ [1#5, 2#5, 3#5], s.th.clearG g) →
      (∀ e r, s.cc.deque = e :: r → ∃ t, exec i s = .next t ∧ Delivered s t e ∧ t.cc.deque = r) ∧
      (∀ x, s.cc.deque = [] → s.ccl.disp.find? (fun x => x.rid == s.cc.rid && x.stage == s.cc.stage) = some x →
        ∃ t, exec i s = .next t ∧ Delivered s t x.words ∧ t.ccl.disp = s.ccl.disp.erase x) ∧
      (s.cc.deque = [] → s.ccl.disp.find? (fun x => x.rid == s.cc.rid && x.stage == s.cc.stage) = none →
        (s.cc.scnt = 1 → ∃ t, exec i s = .next t ∧ t.th.state = .idleW ∧ t.th.wait = .idle s.cycle ∧ t.mem = s.mem) ∧
        (s.cc.scnt ≠ 1 → ∃ t, exec i s = .next t ∧ Stealing s t none 0)))

/-- R154, R155, R291. A thief's request reaches its victim: it takes the top entry, or the upper half of a range of two or more
elements, which for a search is delivered; an empty deque, or a core that has executed done, gives nothing, and the search idles. A
thread in IDLEW searches again when its core's deque has an entry. -/
def Sys2Proof.Spec.StealAnswered : Prop :=
  ∀ (s : State) (fl v len : Nat) (b : BitVec 5), s.th.wait = .steal fl (some v) none b len → v ≠ s.cur.core →
    ((s.core v).done = false → ∀ l e, (s.core v).deque = l ++ [e] →
      (e.getLsbD 63 = false ∨ (entWord e 2).toNat ≤ (entWord e 1).toNat + 1 →
        ∃ t, exec .stealRequest s = .next t ∧ Delivered s t e ∧ (t.core v).deque = l) ∧
      (e.getLsbD 63 = true → (entWord e 1).toNat + 1 < (entWord e 2).toNat → ∃ t e1 e2, exec .stealRequest s = .next t ∧ Delivered s t e1 ∧
        (t.core v).deque = l ++ [e2] ∧ entWord e1 2 = entWord e 2 ∧ entWord e2 1 = entWord e 1 ∧ entWord e1 1 = entWord e2 2 ∧
        (entWord e1 1).toNat = (entWord e 1).toNat + ((entWord e 2).toNat - (entWord e 1).toNat) / 2)) ∧
    ((s.core v).done = true ∨ (s.core v).deque = [] → ∃ t, exec .stealRequest s = .next t ∧ t.th.state = .idleW ∧
      (t.core v).deque = (s.core v).deque) ∧
    (∀ n e r, s.cc.deque = e :: r → (s.setTh { s.th with state := .idleW, wait := .idle n }).dequeTurn s.cur.core s.cur.slot = true →
      ∃ t, exec .idlewRetry (s.setTh { s.th with state := .idleW, wait := .idle n }) = .next t ∧ Delivered s t e ∧ t.cc.deque = r)

/-- R154-R156, R291. Together: the search for work, and steals. -/
def Obligations.Stealing : Prop := Sys2Proof.Spec.SearchResult ∧ Sys2Proof.Spec.StealAnswered

/-- R160. jdec decrements the counter of its join block: MODE at 0; OK and the count left; at the last one the continuation goes to the
bottom of the own deque, FULL where there is no room for it. -/
def Sys2Proof.Spec.JoinDecrement : Prop :=
  ∀ (d : Dst) (a : BitVec 4) (s s1 : State) (k : Cap) (t : Tgt), Ready d s →
    beforeAccess { order := .acqRel, scope := .module } s = .ok ((), s) →
    readA a s = .ok (k, s) → capCheck k (k.bits.toNat % 2 ^ 48) 32 (permR ||| permW ||| permA) kindMem 32 s = .ok ((), s) →
    inHostWindow k.cur = false → home (k.bits.toNat % 2 ^ 48) .atomic s = .ok (t, s1) →
    let w := little (s1.readAt s.cc.tenant t 32)
    let n := w % 2 ^ 64
    let s2 := s1.writeAt s1.agent t (lowBytes 8 (n - 1)) 0x06
    (n = 0 → (Takes d s1 → ∃ t, exec (.jdec d a) s = .next t ∧ Ends d 4 false (3 <<< 60) s1 t)) ∧
    (1 < n → (Takes d s2 → ∃ t, exec (.jdec d a) s = .next t ∧ Ends d 4 false (BitVec.ofNat 64 ((n - 1) % 2 ^ 60)) s2 t)) ∧
    (n = 1 → s2.cc.deque.length < 16 → ∃ e : BitVec 256, e.toNat = entryNat (w / 2 ^ 64) false (BitVec.ofNat 64 (w / 2 ^ 128))
        (BitVec.ofNat 64 (k.bits.toNat % 2 ^ 48)) (BitVec.ofNat 64 (w / 2 ^ 192)) ∧
      (Takes d (s2.setCc { s2.cc with deque := e :: s2.cc.deque }) → ∃ t, exec (.jdec d a) s = .next t ∧
        Ends d 4 false 0 (s2.setCc { s2.cc with deque := e :: s2.cc.deque }) t)) ∧
    (n = 1 → 16 ≤ s2.cc.deque.length → (Takes d s2 → ∃ t, exec (.jdec d a) s = .next t ∧ Ends d 4 false (4 <<< 60) s2 t))

/-- R156, R157, R159, R291. yield retires and lets every READY sibling issue once, or 16 cycles pass. tend, in U with nothing outstanding,
ends its task: the next entry is delivered in its place, and without one, in a stage of one core, the thread has passed tend and idles.
done, in U with no relaxed access outstanding, waits until the core's work is complete; then its deque moves to the dispenser, bottom
first, where that has room, and every sibling is sent to EMPTY; once they are, the thread is EMPTY, ACCOWN is 0 and the core is done. -/
def Sys2Proof.Spec.YieldAndDone : Prop :=
  ∀ (s : State),
    (∃ t, exec .yield s = .next t ∧ t.th.pc = s.th.wordAt + 4 ∧ (∀ g, t.th.gr g = s.th.gr g) ∧ t.mem = s.mem ∧
      t.th.yld = (let l := (List.finRange 8).filter (fun k => k != s.cur.slot && (s.thAt s.cur.core k).state == .ready)
                  if l = [] then s.th.yld else some (s.cycle + 16, l))) ∧
    (∀ e l, s.th.yld = some (e, l) → e ≤ s.cycle → exec .yieldExpire s = .next (s.setTh { s.th with yld := none })) ∧
    (s.th.cprv = false → s.th.rel = [] → s.th.dfr = [] →
      exec .done s = .next (s.parkTh .waitMem .done) ∧
      (∀ e r, s.cc.deque = e :: r → ∃ t, exec .tend s = .next t ∧ Delivered s t e ∧ t.cc.deque = r) ∧
      (s.cc.deque = [] → s.ccl.disp.find? (fun x => x.rid == s.cc.rid && x.stage == s.cc.stage) = none → s.cc.scnt = 1 →
        ∃ t, exec .tend s = .next t ∧ t.th.state = .idleW ∧ t.th.wait = .idle s.cycle ∧ t.th.pc = s.th.wordAt + 4)) ∧
    (s.th.wait = .done → s.hasStreams s.cur.core = false → s.cc.quiet s.cur.slot = true →
      (s.roomForDeque s.cur.core = true → ∃ t, exec .doneProceed s = .next t ∧ t.cc.deque = [] ∧ t.th.wait = .doneEnd ∧
        t.ccl.disp = s.ccl.disp ++ s.cc.deque.map (fun e => { rid := s.cc.rid, stage := s.cc.stage, words := e }) ∧
        ∀ k, k ≠ s.cur.slot → (t.thAt s.cur.core k).state = .empty ∨ (t.thAt s.cur.core k).pre = some .ended) ∧
      (s.roomForDeque s.cur.core = false → exec .doneProceed s = .next (s.setTh { s.th with wait := .doneRoom }))) ∧
    (s.th.wait = .doneEnd → s.cc.alone s.cur.slot = true → ∃ t, exec .doneProceed s = .next t ∧ t.cc.done = true ∧ t.cc.accown = 0 ∧
      t.th.state = .empty)

/-- R156, R157, R159, R160, R291. Together: the instructions jdec, yield, tend and done. -/
def Obligations.TaskEnd : Prop := Sys2Proof.Spec.JoinDecrement ∧ Sys2Proof.Spec.YieldAndDone

/-! ## The Bridle -/

namespace Sys2Proof.Spec

/-- The Bridle instructions, with the flit each sends and the permissions it needs (R143, R301). -/
def bridleOps (d : Dst) (a : BitVec 4) (p : Src) : List (Instr × FlitKind × BitVec 6) :=
  [(.binc d a p, .token, permA), (.bdec d a p, .anti, permA), (.bcan d a p, .cancel, permA), (.bbar d a p, .barToken, permA),
   (.bbw d a p, .wait, permR), (.bcfg d a p, .configure, permW ||| permA), (.bpeek d a p, .peek, permR)]

/-- The flit of an instruction: its input wire is the core's number where the t field is 0, else the operand's low six bits (R143). -/
def flitOf (s : State) (k : FlitKind) (id : Nat) (p : Src) (v : Word) : Flit :=
  { id := s.fresh, kind := k, tenant := s.cc.tenant, fe := false, ctr := id, core := s.cur.core, slot := s.cur.slot
    wire := if p = .g 0 then s.th.lcore else v.toNat % 64, arg := v, at_ := .injection }

/-- A flit of the module, by its number. -/
def theFlit (s : State) (f : Flit) : Prop := s.flits.find? (·.id == s.cur.idx) = some f ∧ f.id = s.cur.idx

/-- The flit stands with its result, on its way back. -/
def Answered (s t : State) (f : Flit) (v : Word) : Prop :=
  t.flits = s.flits.map (fun x => if x.id = f.id then { x with at_ := .result v } else x) ∧ t.mem = s.mem ∧ t.cores = s.cores

/-- The exit cell answers the flit with a value. -/
def Answers (s : State) (f : Flit) (v : Word) : Prop := ∃ t, exec .exitCellServe s = .next t ∧ Answered s t f v

end Sys2Proof.Spec

/-- R143, R148, R301. A Bridle instruction whose checks pass sends its flit to its counter and waits for the result; a configuration word
that is not valid gives MODE and sends nothing. A binc or bdec with release order waits for the relaxed accesses first. -/
def Sys2Proof.Spec.BridleSend : Prop :=
  ∀ (d : Dst) (a : BitVec 4) (p : Src), ∀ x ∈ bridleOps d a p, ∀ (s s1 : State) (v : Word) (c : Cap) (id : Nat), Ready d s →
    (x.2.1 = .token ∨ x.2.1 = .anti → bridleOrder s = .ok ((), s)) → readSrc p s = .ok (v, s1) → readA a s1 = .ok (c, s1) →
    bridleCheck c x.2.2 s1 = .ok (id, s1) →
    (x.2.1 ≠ .configure ∨ cfgOk v = true → dstCheck d s1 = .ok ((), s1) →
      let s2 := s1.parkTh .waitMem (.bridle s1.fresh d (4 + p.litBytes))
      exec x.1 s = .next ({ s2 with fresh := s1.fresh + 1, flits := s1.flits ++ [flitOf s1 x.2.1 id p v] }.inject (flitOf s1 x.2.1 id p v))) ∧
    (x.2.1 = .configure → cfgOk v = false → (Takes d s1 → ∃ t, exec x.1 s = .next t ∧ Ends d (4 + p.litBytes) false 3 s1 t))

/-- R143, R148, R307. What a counter does with a flit that reaches it: it is held while a bcfg drains the counter or a release is pending; a
token on a broken counter is BROKEN, one in the wrong mode MODE; a token that is taken counts in its tenant's INJ and goes to its input
wire; a bcfg that arrives makes the counter drain. -/
def Sys2Proof.Spec.BridleInjection : Prop :=
  ∀ (s : State) (f : Flit), let c := s.ctr f.ctr
    (c.pending = true ∨ c.cfg.isSome = true → (s.inject f).counters = s.counters ∧ (s.inject f).parts = s.parts ∧
      (s.inject f).flits = s.flits.map (fun x => if x.id = f.id then { x with at_ := .injection } else x)) ∧
    (c.pending = false → c.cfg = none → f.kind = .token ∨ f.kind = .anti ∨ f.kind = .barToken →
      (c.broken = true → Answered s (s.inject f) f (1 <<< 60)) ∧
      (c.broken = false → (f.kind = .barToken ↔ c.mode ≠ .barrier) → Answered s (s.inject f) f (3 <<< 60)) ∧
      (c.broken = false → (f.kind = .barToken ↔ c.mode = .barrier) → (s.inject f).counters = s.counters ∧
        (s.inject f).flits = s.flits.map (fun x => if x.id = f.id then { x with at_ := placeOn c.lw (f.wire % 2 ^ c.lw) } else x) ∧
        (s.inject f).parts = s.parts.map (fun p => if p.id = f.tenant.toNat then { p with inj := (p.inj + 1) % 2 ^ 48 } else p))) ∧
    (c.pending = false → c.cfg = none → f.kind = .configure → (s.inject f).ctr f.ctr = { c with cfg := some f.arg } ∧
      (s.inject f).flits = s.flits.map (fun x => if x.id = f.id then { x with at_ := .exit 0 } else x))

/-- R143, R148, R301, R307. Together: Bridle instructions send flits, which enter their counters. -/
def Obligations.BridleTokens : Prop := Sys2Proof.Spec.BridleSend ∧ Sys2Proof.Spec.BridleInjection

/-- R145, R146, R302. A balancer passes a token to the output its bit names and an antitoken to the other, and its bit flips. -/
def Sys2Proof.Spec.BalancerServed : Prop :=
  ∀ (s : State) (f : Flit) (w j : Nat), theFlit s f → f.at_ = .wire w → cellOf (s.ctr f.ctr).lw w = .balancer j →
    let c := s.ctr f.ctr
    let bottom := if f.kind = .anti then !c.bit j else c.bit j
    ∃ t, exec .balancerServe s = .next t ∧ t.ctr f.ctr = { c with bal := listSet c.bal j (fun _ => !c.bit j) } ∧
      t.flits = s.flits.map (fun x => if x.id = f.id then { x with at_ := placeOn c.lw (outOf c.lw j bottom) } else x) ∧ t.mem = s.mem ∧
      t.cores = s.cores

/-- R145, R146, R147, R149, R150, R302. At exit i of a counter of width W that is not broken: a token takes the exit's latest hole, or the
value i + W c and counts; an antitoken takes the last value back, with HOLE where it is a hole, which is filled, MODE where there is none;
a cancel makes a hole of a value given out, MODE where it was not; a barrier token counts up to the exit's quota, FULL beyond it, and with
the last one a release is pending; a peek gives the count, the holes, the mode. On a broken counter every flit but a peek is BROKEN. A
token or an antitoken counts in its tenant's EXT. -/
def Sys2Proof.Spec.ExitCellServed : Prop :=
  ∀ (s : State) (f : Flit) (i : Nat), theFlit s f → f.at_ = .exit i → let c := s.ctr f.ctr
    let W := 2 ^ c.lw
    let n := c.count i
    let val := fun x : Nat => BitVec.ofNat 64 ((if c.mode = .spread then x % c.param else x) % 2 ^ 60)
    (c.broken = false → i < W → c.cnt.length = W → c.holes.length = W →
      (f.kind = .token → c.hole i = [] → ∃ t, exec .exitCellServe s = .next t ∧ (t.ctr f.ctr).count i = (n + 1) % 2 ^ 48 ∧
        (t.ctr f.ctr).hole i = [] ∧
        t.flits = s.flits.map (fun x => if x.id = f.id then { x with at_ := .result (val (i + W * n)) } else x) ∧ t.mem = s.mem ∧
          t.cores = s.cores) ∧
      (f.kind = .token → ∀ h r, c.hole i = h :: r → ∃ t, exec .exitCellServe s = .next t ∧ (t.ctr f.ctr).count i = (n + 1) % 2 ^ 48 ∧
        (t.ctr f.ctr).hole i = (i + W * n) :: r ∧
        t.flits = s.flits.map (fun x => if x.id = f.id then { x with at_ := .result (val h) } else x)) ∧
      (f.kind = .anti → n = 0 → ∃ t, exec .exitCellServe s = .next t ∧ t.ctr f.ctr = c ∧
        t.flits = s.flits.map (fun x => if x.id = f.id then { x with at_ := .result (3 <<< 60) } else x)) ∧
      (f.kind = .anti → n ≠ 0 → (i + W * (n - 1)) ∉ c.hole i → ∃ t, exec .exitCellServe s = .next t ∧ (t.ctr f.ctr).count i = n - 1 ∧
        (t.ctr f.ctr).hole i = c.hole i ∧
        t.flits = s.flits.map (fun x => if x.id = f.id then { x with at_ := .result (val (i + W * (n - 1))) } else x)) ∧
      (f.kind = .anti → n ≠ 0 → (i + W * (n - 1)) ∈ c.hole i → ∃ t, exec .exitCellServe s = .next t ∧ (t.ctr f.ctr).count i = n - 1 ∧
        (t.ctr f.ctr).hole i = (c.hole i).erase (i + W * (n - 1)) ∧
        t.flits = s.flits.map (fun x => if x.id = f.id then { x with at_ := .result (5 <<< 60 ||| val (i + W * (n - 1))) } else x)) ∧
      (f.kind = .barToken → n < c.quota i → ∃ t, exec .exitCellServe s = .next t ∧ (t.ctr f.ctr).count i = n + 1 ∧
        t.flits = s.flits.map (fun x => if x.id = f.id then { x with at_ := .result (BitVec.ofNat 64 c.gen.toNat) } else x) ∧
        ((t.ctr f.ctr).pending = true ↔ ∀ j, j < W → c.quota j ≤ (t.ctr f.ctr).count j)) ∧
      (f.kind = .barToken → c.quota i ≤ n → ∃ t, exec .exitCellServe s = .next t ∧ t.ctr f.ctr = c ∧
        t.flits = s.flits.map (fun x => if x.id = f.id then { x with at_ := .result (4 <<< 60 ||| BitVec.ofNat 64 c.gen.toNat) } else x)) ∧
      (f.kind = .peek → Answers s f (BitVec.ofNat 64 (n % 2 ^ 48 + c.mode.code.toNat * 2 ^ 54 + (c.hole i).length % 8 * 2 ^ 56))) ∧
      (f.kind = .wait → c.mode = .barrier → c.gen.toNat ≠ f.arg.toNat % 2 ^ 16 → Answers s f 0) ∧
      (f.kind = .cancel → let v := f.arg.toNat
        let j := v % W
        (c.mode ≠ .count ∨ j + W * c.count j ≤ v ∨ v ∈ c.hole j → Answers s f 3) ∧
        (c.mode = .count → v < j + W * c.count j → v ∉ c.hole j → 4 ≤ (c.hole j).length → Answers s f 4) ∧
        (c.mode = .count → v < j + W * c.count j → v ∉ c.hole j → (c.hole j).length < 4 → Answers s f 0 ∧
          ∃ t, exec .exitCellServe s = .next t ∧ (t.ctr f.ctr).hole j = v :: c.hole j ∧ (t.ctr f.ctr).cnt = c.cnt))) ∧
    (c.broken = true → (f.kind = .token ∨ f.kind = .anti ∨ f.kind = .barToken → Answers s f (1 <<< 60)) ∧
      (f.kind = .cancel ∨ f.kind = .wait → Answers s f 1)) ∧
    (f.kind = .token ∨ f.kind = .anti ∨ f.kind = .barToken → ∃ t, exec .exitCellServe s = .next t ∧
      t.parts = s.parts.map (fun p => if p.id = f.tenant.toNat then { p with ext := (p.ext + 1) % 2 ^ 48 } else p))

/-- R145-R147, R149, R150, R302. Together: balancers and exit cells serve flits. -/
def Obligations.BridleService : Prop := Sys2Proof.Spec.BalancerServed ∧ Sys2Proof.Spec.ExitCellServed

/-- R148, R149, R301, R306. The result of a flit reaches its thread, whose instruction writes it and retires. A counter whose network has
drained takes its new configuration; those who wait in bbw on it go on with CANCELLED, and the flits held for it go on. A barrier counter
whose exits have all reached their quotas starts a new generation; those who wait for the one that has ended go on with OK, and the flits
held for it go on. -/
def Obligations.BridleEvents : Prop :=
  ∀ (s : State),
    (∀ f v d len, theFlit s f → f.at_ = .result v → f.core = s.cur.core → f.slot = s.cur.slot → s.th.wait = .bridle f.id d len →
      f.kind = .token → v.toNat / 2 ^ 60 ≠ 1 →
      let s1 := { s with flits := s.flits.filter (·.id != f.id) }
      Takes d s1 → ∃ t, exec .bridleResult s = .next t ∧ Ends d len false v s1 t) ∧
    ((∀ f ∈ s.flits, f.ctr = s.cur.idx → f.at_ = .injection → f.kind ≠ .configure) → s.inNet s.cur.idx = false →
      let waiters := s.bbwWaiters s.cur.idx
      let apart := (waiters.map (fun w => (w.1, w.2.1))).Nodup
      (∀ w, (s.ctr s.cur.idx).cfg = some w → ∃ t, exec .bcfgDrainDone s = .next t ∧ t.mem = s.mem ∧
        (let c := t.ctr s.cur.idx
         c.cfg = none ∧ c.lw = w.toNat % 8 ∧ c.param = w.toNat / 256 % 2 ^ 48 ∧ c.gen = 0 ∧ c.broken = false ∧ c.pending = false ∧
         (∀ i, c.count i = 0 ∧ c.hole i = []) ∧ (∀ j, c.bit j = false)) ∧
        (∀ f ∈ t.flits, f.ctr = s.cur.idx → f.at_ ≠ .injection) ∧
        (apart → ∀ n k g r len, (n, k, g, Dst.g r, len) ∈ waiters → (s.thAt n k).clearG r → WentOn s t n k r len 6)) ∧
      ((s.ctr s.cur.idx).pending = true → (s.ctr s.cur.idx).cfg = none → ∃ t, exec .bridleBarrierRelease s = .next t ∧ t.mem = s.mem ∧
        (t.ctr s.cur.idx).gen = (s.ctr s.cur.idx).gen + 1 ∧ (t.ctr s.cur.idx).pending = false ∧ (∀ i, (t.ctr s.cur.idx).count i = 0) ∧
        (∀ f ∈ t.flits, f.ctr = s.cur.idx → f.at_ ≠ .injection) ∧
        (apart → ∀ n k g r len, (n, k, g, Dst.g r, len) ∈ waiters → (s.thAt n k).clearG r →
          (g = (s.ctr s.cur.idx).gen → WentOn s t n k r len 0) ∧
          (g ≠ (s.ctr s.cur.idx).gen → t.thAt n k = s.thAt n k))))

/-! ## Tether mode -/

namespace Sys2Proof.Spec

/-- The clock and the bounds of a core as lists of numbers (R163, R330): held times, head times, and bounds of the inbound links. -/
def refTime (s : State) : Nat := match s.cc.held.get s.cur.slot with | some h => h.time.toNat | none => s.cc.vt

end Sys2Proof.Spec

/-- R163, R330. The local virtual time of a core is its least held time where it holds one, else the least of its safe bound and its head
times; no head is taken before its time is safe. -/
def Sys2Proof.Spec.VirtualTime : Prop :=
  ∀ (c : Core),
    (c.heldTimes ≠ [] → c.vt ∈ c.heldTimes ∧ ∀ x ∈ c.heldTimes, c.vt ≤ x) ∧
    (c.heldTimes = [] → (c.vt = c.tsafe ∨ c.vt ∈ c.heads) ∧ c.vt ≤ c.tsafe ∧ ∀ x ∈ c.heads, c.vt ≤ x) ∧
    (c.lb ≤ c.tsafe ∧ (∀ x ∈ c.heads, c.lb ≤ x) ∧ ∀ x ∈ c.heldTimes, c.lb ≤ x) ∧
    (∀ e, c.safeHead = some e → ∃ t, c.headTime e = some t ∧ t < c.tsafe ∧ ∀ e' ∈ c.inLinks, ∀ t', c.headTime e' = some t' → t ≤ t')

/-- R164, R336. trecv takes the earliest safe event: its time goes to d, its link to e, the slot holds the event, and its other words are in
the thread's buffer; it is MODE outside Tether mode or with an event held, and waits where no head is safe. -/
def Sys2Proof.Spec.TetherReceive : Prop :=
  ∀ (d e : BitVec 5) (s : State), s.th.clearG d → s.th.clearG e →
    (s.cc.tether = false ∨ (s.cc.held.get s.cur.slot).isSome = true → ∃ t, exec (.trecv (.g d) e) s = .next t ∧
      t.th.gr d = 0 ∧ (e ≠ d → e ≠ 0 → t.th.gr e = 3 <<< 60) ∧ t.mem = s.mem ∧ t.th.pc = s.th.wordAt + 4) ∧
    (s.cc.tether = true → s.cc.held.get s.cur.slot = none → s.th.rbuf.get 0 = [] → s.th.rbuf.get 1 = [] →
      (∀ x w r, s.cc.safeHead = some x → s.aheadIn isTrecv = 0 → (s.cc.ep.get (recvEp x)).slots = w :: r →
        ∃ t, exec (.trecv (.g d) e) s = .next t ∧ (d ≠ 0 → t.th.gr d = w.extractLsb' 0 64) ∧
          (e ≠ d → e ≠ 0 → t.th.gr e = BitVec.ofNat 64 x.toNat) ∧
          (t.cc.ep.get (recvEp x)).slots = r ∧ t.cc.held.get s.cur.slot = some { time := w.extractLsb' 0 64, ep := x } ∧
          t.th.rbuf.get ⟨x.toNat, by omega⟩ = [w.extractLsb' 64 64, w.extractLsb' 128 64, w.extractLsb' 192 64] ∧ t.mem = s.mem) ∧
      (s.cc.safeHead = none → (∃ x ∈ s.cc.inLinks, ¬((s.cc.ep.get (recvEp x)).closed = true ∧ (s.cc.ep.get (recvEp x)).slots = [])) →
        (∀ x ∈ s.cc.inLinks, (s.cc.ep.get (recvEp x)).broken = false) → exec (.trecv (.g d) e) s = .next (s.parkTh .parkTether .trecv)))

/-- R165, R166, R167, R168, R332. On an open outbound Tether link: tsend puts a time that keeps the link's lookahead and floor into the send
buffer, and traps LAHEAD with one that does not; tann announces a higher bound, and nothing where it is no higher; tlah sets the
lookahead, and traps ZEROLA for 0 on a link without a certificate; tdone lets go of the held event. The network interface announces by
itself where the bound has risen by a quantum. -/
def Sys2Proof.Spec.TetherSend : Prop :=
  ∀ (d : Dst) (b : Fin 2) (p : Src) (s s1 : State) (v : Word), Ready d s → readSrc p s = .ok (v, s1) → s1.cc.tether = true →
    let e := s1.cc.ep.get ⟨2 + b.val, by omega⟩
    let len := 4 + p.litBytes
    (e.bound = true → e.tether = true → e.broken = false → e.closed = false →
      (s1.th.sbuf.get b = [] → refTime s1 + e.lout.toNat ≤ v.toNat → e.floor.toNat ≤ v.toNat →
        ∃ s2, s2 = s1.setTh { s1.th with sbuf := s1.th.sbuf.set b.val [v] b.isLt } ∧
          (Takes d s2 → ∃ t, exec (.tsend d (sendQ b) p) s = .next t ∧ Ends d len false 0 s2 t)) ∧
      (s1.th.sbuf.get b = [] → v.toNat < refTime s1 + e.lout.toNat ∨ v.toNat < e.floor.toNat →
        exec (.tsend d (sendQ b) p) s = .next (s.trapSync .lAhead v s.th.pc)) ∧
      (s1.th.sbuf.get b ≠ [] → (Takes d s1 → ∃ t, exec (.tsend d (sendQ b) p) s = .next t ∧ Ends d len false 3 s1 t)) ∧
      (let w := Min.min (2 ^ 64 - 1) (v.toNat + e.lout.toNat)
       (w ≤ e.floor.toNat → (Takes d s1 → ∃ t, exec (.tann d (sendQ b) p) s = .next t ∧ Ends d len false 0 s1 t)) ∧
       (e.floor.toNat < w → ∃ s2, s2.net = s1.net ++ [.announce s1.cur.core e.peer e.peerEp (BitVec.ofNat 64 w)] ∧
         (s2.cc.ep.get ⟨2 + b.val, by omega⟩).floor = BitVec.ofNat 64 w ∧
           (Takes d s2 → ∃ t, exec (.tann d (sendQ b) p) s = .next t ∧ Ends d len false 0 s2 t))) ∧
      (v = 0 → e.cert = false → exec (.tlah d (sendQ b) p) s = .next (s.trapSync .zeroLa (54 + BitVec.ofNat 64 b.val) s.th.pc)) ∧
      (v ≠ 0 ∨ e.cert = true → v.toNat < 2 ^ 63 → ∃ s2, (s2.cc.ep.get ⟨2 + b.val, by omega⟩).lout = v ∧
        (Takes d s2 → ∃ t, exec (.tlah d (sendQ b) p) s = .next t ∧ Ends d len false 0 s2 t))) ∧
    (s.cc.tether = true → ∀ h, s.cc.held.get s.cur.slot = some h → ∃ s2, s2.cc.held.get s.cur.slot = none ∧
      s2.th.rbuf.get ⟨h.ep.toNat, by omega⟩ = [] ∧
      (Takes d s2 → ∃ t, exec (.tdone d) s = .next t ∧ Ends d 4 false 0 s2 t)) ∧
    (s.cc.held.get s.cur.slot = none → (Takes d s → ∃ t, exec (.tdone d) s = .next t ∧ Ends d 4 false 3 s t)) ∧
    (s.cur.idx = b.val → s.cc.announces (BitVec.ofNat 1 b.val) = true → ∃ t, exec .tetherAnnounce s = .next t ∧
      let w := BitVec.ofNat 64 (Min.min (2 ^ 64 - 1) (s.cc.lb + (s.cc.ep.get ⟨2 + b.val, by omega⟩).lout.toNat))
      t.net = s.net ++ [.announce s.cur.core (s.cc.ep.get ⟨2 + b.val, by omega⟩).peer (s.cc.ep.get ⟨2 + b.val, by omega⟩).peerEp w] ∧
      (t.cc.ep.get ⟨2 + b.val, by omega⟩).floor = w)

/-- R163-R168, R330, R332, R336. Together: virtual time, and the Tether instructions. -/
def Obligations.Tether : Prop := Sys2Proof.Spec.VirtualTime ∧ Sys2Proof.Spec.TetherReceive ∧ Sys2Proof.Spec.TetherSend

/-! ## Engines, their commands and the event crossbar -/

namespace Sys2Proof.Spec

/-- The registers and flags of the thread are unchanged, and PC is past the word. -/
def RetiredPlain (s t : State) (len : Nat) : Prop :=
  t.th.pc = s.th.wordAt + BitVec.ofNat 48 len ∧ (∀ g, t.th.gr g = s.th.gr g) ∧ t.th.a = s.th.a ∧ SameSpecial s.th t.th ∧
    t.th.fpcsr = s.th.fpcsr

/-- The slot check of a command (R33): none in S; else the slot is free, or the thread's context owns it. -/
def SlotFree (s : State) (i : Instr) : Prop :=
  ∀ n, cmdSlot i = some n → s.th.cprv = true ∨
    (let f := s.cc.accown.toNat / 2 ^ (16 * n.toNat) % 2 ^ 16
     f / 2 ^ 15 = 0 ∨ f % 2 ^ 11 = s.th.ctxid.toNat)

/-- Command j of an engine runs, and has work left; it is the head of its queue. -/
def Runs (s : State) (e : Eng) (j : Instr) (c : Cmd) : Prop := s.runningCmd e j = some c

/-- The cycles a command needs of the Drogue when it starts (R220, R323). -/
def cyclesOf (c : Cmd) : Nat := match decodeCmd c.word with | some i => mmulCycles i | none => 0

/-- The command at the head of the engine's queue in the next state. -/
def HeadIs (t : State) (e : Eng) (c : Cmd) : Prop := t.cc.engHead e = some c

/-- A command of total elements in no specified order (R211): the step takes an element k that has not been written. It reads it, or, where
it has been read, writes its n bytes at the home of its address, aligned to al, and the element has been written. -/
def ByElements (e : Eng) (j : Instr) (s : State) (c : Cmd) (total : Nat) (rd : Nat → EngM (Nat × Fl)) (k : Cap) (addr : Nat → Nat)
    (n al : Nat) : Prop :=
  Runs s e j c → c.cursor < total → c.written c.cursor = false → ∃ x, x < total ∧ c.written x = false ∧
    ((∀ v, c.elems.find? (fun y => y.1 == x) ≠ some (x, some v)) → ∀ v fl s1, rd x s = .ok ((v, fl), s1) →
      exec j s = .next (s1.setHead s1.cur.core e { c with elems := insert c.elems x (some v), flags := c.flags ||| fl })) ∧
    (∀ v l s1, c.elems.find? (fun y => y.1 == x) = some (x, some v) → engCheck e c k (addr x) n al .write false s = .ok (l, s1) →
      ∃ u c1, exec j s = .next u ∧ HeadIs u e c1 ∧ c1.written x = true ∧ c1.uid = c.uid ∧
        u.mem = (s1.writeSpans (c.agent s1 s1.cur.core e) (lowBytes n v) 0x09 l).mem)

/-- Base of a command's operand: the cursor of its capability and its offset, modulo 2^48 (R208). -/
def baseOf (c : Cmd) (a : AOp) : Nat := ((((c.cap a.cap).bits.toNat : Int) + a.off.toInt) % 2 ^ 48).toNat

/-- An address of a command: its base and a displacement, exactly (R7, R229). -/
def addressOf (c : Cmd) (a : AOp) (x : Nat) : Nat := baseOf c a + x

/-- An address along the strides of a descriptor, modulo 2^48 (R227). -/
def strided (c : Cmd) (a : AOp) (x : Int) : Nat := (((baseOf c a : Int) + x) % 2 ^ 48).toNat

/-- Bits of element x of a register of elements of w bits. -/
def elemAt (w v x : Nat) : Nat := v / 2 ^ (w * x) % 2 ^ w

/-- An accumulator slot as a number. -/
def slotNat (s : State) (n : BitVec 2) : Nat := (s.cc.acc.get n.toFin).toNat

/-- The ten mmul commands with their shape and sum (R220, R247-R249). -/
def mmuls (h : CmdHdr) (f : MmulF) : List (Instr × MulMode) :=
  [(.mmulF64 h f, modeF64), (.mmulF32 h f, modeF32), (.mmulBf16 h f, modeNarrow bf16 bf16 4 32), (.mmulF16 h f, modeNarrow fp16 fp16 4 32),
   (.mmulE4m3 h f, modeNarrow e4m3 e4m3 8 64), (.mmulE5m2 h f, modeNarrow e5m2 e5m2 8 64), (.mmulE4e5 h f, modeNarrow e4m3 e5m2 8 64),
   (.mmulNq4e4 h f, modeNq4 e4m3 128 2048), (.mmulNq4b h f, modeNq4 bf16 256 8192), (.mmulI8 h f, modeI8)]

/-- A signed byte. -/
def signedByte (x : Nat) : Int := signedLow 8 x

/-- The operations of cscata on n-byte words, with the value each leaves (R230); ety 0xA and 0xC are the signed types. -/
def scatters (ety : BitVec 4) : List (Nat × (Nat → Nat → Nat)) :=
  let n := 8 * codeBytes ety
  let sg := ety = 0xA ∨ ety = 0xC
  [(0, fun x y => (x + y) % 2 ^ n), (1, fun x y => x &&& y), (2, fun x y => x ||| y), (3, fun x y => x ^^^ y),
   (4, fun x y => if sg then (if signedLow n y < signedLow n x then y else x) else Min.min x y),
   (5, fun x y => if sg then (if signedLow n x < signedLow n y then y else x) else Max.max x y)]

end Sys2Proof.Spec

/-- R33, R81, R169, R217. enqm and enqc, with no vector work of the thread outstanding: a word that fails the checks of R81 is ENGCMD with
OP and the lowest bit of the field. One that passes joins its queue, with RMS, the capability registers and the generator as they are now,
and the instruction retires; where the queue is full, or a thread waits on it, the thread parks in PARK_ENGQ. A slot that another context
owns is ACCOWN. -/
def Sys2Proof.Spec.CommandEnqueue : Prop :=
  ∀ (v : BitVec 4) (s : State), ∀ x ∈ [(Instr.enqm v, Eng.matrix), (.enqc v, .copy)], let w := s.th.vr v
    s.vecBusy s.cur.core s.cur.slot = false →
    (∀ b, s.cmdReject x.2 w = some b → exec x.1 s =
      .next (s.trapSync .engCmd (BitVec.ofNat 64 (w.toNat / 2 ^ 248 + 256 * (b % 256))) s.th.pc)) ∧
    (∀ j, s.cmdReject x.2 w = none → rawCmd w = some j →
      cmdCapChecks (cmdCaps j ++ if (hdrOf w).cmode.getLsbD 0 then [((hdrOf w).ccap, permW ||| permA)] else []) s = .ok ((), s) →
      (SlotFree s j →
        ((s.cc.engQ x.2).length < 2 → s.cc.engWaiters x.2 = [] → ∃ t c, exec x.1 s = .next t ∧
          t.cc.engQ x.2 = s.cc.engQ x.2 ++ [c] ∧ c.word.toNat % 2 ^ 229 = w.toNat % 2 ^ 229 ∧ c.word.toNat / 2 ^ 229 % 8 = s.th.rm.toNat ∧
          c.word.toNat / 2 ^ 232 = w.toNat / 2 ^ 232 ∧ c.caps = s.th.a ∧ c.lcore = s.th.lcore ∧ c.jseed = s.th.jseed ∧
            c.srstrm = s.th.srstrm ∧
          c.srctr = s.th.srctr ∧ c.running = false ∧ (c.uid, x.2) ∈ t.th.cmds ∧ t.mem = s.mem ∧ RetiredPlain s t 4) ∧
        (2 ≤ (s.cc.engQ x.2).length ∨ s.cc.engWaiters x.2 ≠ [] → ∃ t, exec x.1 s = .next t ∧ t.th.state = .parkEngq ∧
          t.cc.engQ x.2 = s.cc.engQ x.2 ∧ t.th.pc = s.th.pc ∧ t.mem = s.mem)) ∧
      (∀ n, cmdSlot j = some n → ¬ SlotFree s j → exec x.1 s = .next (s.trapSync .accOwn (BitVec.ofNat 64 n.toNat) s.th.pc)))

/-- R170. ewait waits while a command or vector instruction of the thread on a selected engine is not complete; then it gives bit 0 for a
matrix command and bit 2 for a copy command that ended with a status other than OK, and forgets the commands it has reported. -/
def Sys2Proof.Spec.EngineWait : Prop :=
  ∀ (d : Dst) (p : Src) (s s1 : State) (m : Word), Ready d s → s.th.wait = .none → readSrc p s = .ok (m, s1) →
    let sel := fun e : Eng => match e with | .matrix => m.getLsbD 0 | .copy => m.getLsbD 2
    let busy := (∃ x ∈ s1.th.cmds, sel x.2 = true ∧ s1.cmdOpen x.1 = true) ∨
      (m.getLsbD 1 = true ∧ s1.vecBusy s1.cur.core s1.cur.slot = true)
    let bad := fun e : Eng => s1.th.cmds.any (fun x => sel x.2 && x.2 == e && s1.failed.contains x.1)
    (busy → dstCheck d s1 = .ok ((), s1) → exec (.ewait d p) s = .next (s1.parkTh .waitMem (.ewait (BitVec.ofNat 3 m.toNat)))) ∧
    (¬ busy → ∃ s2, s2.th.cmds = s1.th.cmds.filter (fun x => !sel x.2) ∧ s2.mem = s1.mem ∧ (∀ g, s2.th.gr g = s1.th.gr g) ∧
      (Takes d s2 → ∃ t, exec (.ewait d p) s = .next t ∧
        Ends d (4 + p.litBytes) false (BitVec.ofNat 64 ((bad .matrix).toNat + 4 * (bad .copy).toNat)) s2 t))

/-- R33, R81, R169, R170, R217. Together: commands enter an engine's queue, and ewait waits for them. -/
def Obligations.CommandQueue : Prop := Sys2Proof.Spec.CommandEnqueue ∧ Sys2Proof.Spec.EngineWait

/-- R171, R172, R173. A pulse of input j: each enabled counter that counts j goes down by one modulo 2^16, is reloaded where it goes from 1
to 0, and latches are set as the masks name them, and stay where they were set. Every term that has all it needs fires, loses its latches
and marks the outputs that name it; every output that is marked becomes pending. xbset, xbp and a write of XBCFGi act as they say. -/
def Obligations.EventCrossbar : Prop :=
  (∀ (c : Core) (j : Fin 16) (i : Fin 8),
    let x := (c.xbcfg.get i).toNat
    let counts := fun k : Fin 8 => (c.xbcfg.get k).toNat % 2 = 1 ∧ (c.xbcfg.get k).toNat / 2 ^ 44 % 16 = j.val
    (¬ counts i → (c.pulse j).xbcount.get i = c.xbcount.get i) ∧
    (counts i → (c.pulse j).xbcount.get i = if c.xbcount.get i = 1 then BitVec.ofNat 16 (x / 2 ^ 48) else c.xbcount.get i - 1) ∧
    (∀ n, n < 16 → ((c.pulse j).xblatch.get i).getLsbD n = ((c.xblatch.get i).getLsbD n || (n == j.val && x.testBit (8 + n)))) ∧
    (∀ k : Fin 8, ((c.pulse j).xblatch.get i).getLsbD (16 + k.val) =
      ((c.xblatch.get i).getLsbD (16 + k.val) || (decide (counts k ∧ c.xbcount.get k = 1) && x.testBit (24 + k.val))))) ∧
  (∀ (s : State) (i : Fin 8), s.cur.idx = i.val →
    let ready := fun k : Fin 8 => (s.cc.xbcfg.get k).toNat / 2 ^ 8 % 2 ^ 24 ≠ 0 ∧
      (s.cc.xblatch.get k).toNat &&& ((s.cc.xbcfg.get k).toNat / 2 ^ 8 % 2 ^ 24) = (s.cc.xbcfg.get k).toNat / 2 ^ 8 % 2 ^ 24
    (∃ t, exec .xbarTermFire s = .next t ∧ (ready i → t.cc.xblatch.get i = 0) ∧ (¬ ready i → t.cc.xblatch.get i = s.cc.xblatch.get i) ∧
      (∀ o : Fin 8, t.cc.xbfired.getLsbD o.val = true ↔
        s.cc.xbfired.getLsbD o.val = true ∨ ∃ k : Fin 8, ready k ∧ (s.cc.xbcfg.get o).toNat.testBit (32 + k.val) = true) ∧
      t.cc.xbcount = s.cc.xbcount ∧ t.cc.xbpend = s.cc.xbpend ∧ t.mem = s.mem) ∧
    (∃ t, exec .xbarOutputPending s = .next t ∧ t.cc.xbpend = s.cc.xbpend ||| s.cc.xbfired ∧ t.cc.xbfired = 0 ∧
      t.cc.xblatch = s.cc.xblatch ∧ t.mem = s.mem) ∧
    (¬(s.cycle % 1024 = 0 ∧ s.cc.usesInput 6 = true ∧ s.cc.xbtick = s.cycle / 1024) → ∃ t, exec .xbcfgWrite s = .next t ∧
      t.cc.xbcount.get i = BitVec.ofNat 16 (s.cur.val.toNat / 2 ^ 48) ∧ t.cc.xblatch.get i = 0 ∧
      t.cc.xbpend.getLsbD i.val = false ∧ (∀ k, k ≠ i → t.cc.xbcfg.get k = s.cc.xbcfg.get k ∧ t.cc.xbcount.get k = s.cc.xbcount.get k) ∧
      (t.cc.xbcfg.get i).toNat / 2 ^ 44 = s.cur.val.toNat / 2 ^ 44 ∧ (t.cc.xbcfg.get i).toNat / 2 ^ 8 % 2 ^ 32 =
        s.cur.val.toNat / 2 ^ 8 % 2 ^ 32 ∧
      t.mem = s.mem)) ∧
  (∀ (s : State), s.cc.xbtick < s.cycle / 1024 → ∃ t, exec .xbarTickPulse s = .next t ∧ t.cc.xbtick = s.cc.xbtick + 1 ∧
    t.cc.xbcount = (s.cc.pulse 6).xbcount ∧ t.cc.xblatch = (s.cc.pulse 6).xblatch ∧ t.mem = s.mem) ∧
  (∀ (p : Src) (s s1 : State) (u : Word), readSrc p s = .ok (u, s1) → s1.th.pc = s.th.pc → s1.th.pfx = s.th.pfx →
    (∃ t, exec (.xbset p) s = .next t ∧ RetiredPlain s1 t (4 + p.litBytes) ∧ t.cc.xbcfg = s1.cc.xbcfg ∧ t.mem = s1.mem ∧ ∀ i : Fin 8,
      (i.val = u.toNat % 8 → t.cc.xbcount.get i = BitVec.ofNat 16 (u.toNat / 2 ^ 16) ∧
        t.cc.xblatch.get i = (if u.getLsbD 8 then 0 else s1.cc.xblatch.get i) ∧
        t.cc.xbpend.getLsbD i.val = (s1.cc.xbpend.getLsbD i.val && !u.getLsbD 9)) ∧
      (i.val ≠ u.toNat % 8 → t.cc.xbcount.get i = s1.cc.xbcount.get i ∧ t.cc.xblatch.get i = s1.cc.xblatch.get i ∧
        t.cc.xbpend.getLsbD i.val = s1.cc.xbpend.getLsbD i.val)) ∧
    (∀ j : Fin 16, j.val = 7 + u.toNat % 4 → ∃ t, exec (.xbp p) s = .next t ∧ RetiredPlain s1 t (4 + p.litBytes) ∧
      t.cc.xbcount = (s1.cc.pulse j).xbcount ∧ t.cc.xblatch = (s1.cc.pulse j).xblatch ∧ t.mem = s1.mem))

/-- R172, R211, R214, R215, R216, R223, R234, R324. The head of a queue starts where its gate is 0xF or its output is pending, which it
clears. A command that has ended leaves its queue: its flags are in CFLAGS, its status is kept for ewait, and its completion word, where it
has one in a slice within bounds, holds its status, flags and cursor. A tile of mrot is written whole in its latch. A stream's element
joins the end of its queue, and the last closes it. The Drogue of a cluster: the windows that have passed give way to the one of now, and in
each cycle as many of the engines that ask are granted as units are left; those that are not count as stalls. -/
def Obligations.EngineProgress : Prop :=
  ∀ (s : State),
    (∀ c, let e := engOf s.cur.idx
      let g := (hdrOf c.word).gate
      s.cc.engHead e = some c → (∀ h p t y q, decodeCmd c.word ≠ some (.cstrm h p t y q)) → c.running = false →
      (g = 0xF ∨ s.cc.xbpend.getLsbD g.toNat = true → ∃ u, exec .engineCommandStart s = .next u ∧
        u.cc.engQ e = { c with running := true, left := cyclesOf c } :: (s.cc.engQ e).tail ∧
        u.cc.xbpend = (if g = 0xF then s.cc.xbpend else s.cc.xbpend &&& ~~~(1#8 <<< g.toNat)) ∧ u.mem = s.mem)) ∧
    (∀ c, let e := engOf s.cur.idx
      s.ended s.cur.core e = true → s.cc.engHead e = some c → ∃ u, exec .commandComplete s = .next u ∧
        (s.cc.engWaiters e = [] → s.barWaiters (clusterOf s.cur.core) (hdrOf c.word).bslot.toFin = [] → (s.core s.cur.core).feWait = [] →
          u.cc.engQ e = (s.cc.engQ e).tail) ∧
        (∀ i, i < 6 → c.flags.getLsbD i = true → u.ccl.cflags.getLsbD (3 + i) = true) ∧
        (c.status ≠ 0 → c.uid ∈ u.failed) ∧ ((hdrOf c.word).cmode.getLsbD 0 = false → u.mem = s.mem) ∧
        (∀ o f, let k := c.cap (hdrOf c.word).ccap
          let addr := ((k.bits.toNat : Int) + (hdrOf c.word).coff.toInt) % 2 ^ 48
          (hdrOf c.word).cmode = 1 → (hdrOf c.word).smode ≠ 2 → s.rowOf (c.agent s s.cur.core e) addr.toNat = .slice o f → k.e ≤ 24 →
          (k.base : Int) ≤ addr → addr + 8 ≤ k.top → addr % 8 = 0 → (s.core o).feWait = [] →
          u.mem = (s.writeAt (c.agent s s.cur.core e) (.sram o f) (lowBytes 8 (c.status.toNat * 2 ^ 56 +
            (if (hdrOf c.word).smode = 0 then 0 else c.flags.toNat * 2 ^ 48))) 0x09).mem ∧ u.full (2 ^ 48 + o * 0x10000 + f) = true)) ∧
    (∀ src d uid dl lt sc, s.net[s.cur.idx]? = some (.tile src d uid dl lt sc) → s.tileReady (.tile src d uid dl lt sc) = true →
      ∃ u, exec .mrotTileArrive s = .next u ∧ u.net = s.net.eraseIdx s.cur.idx ∧ (u.core d).latch.get dl.toFin = lt ∧
        (u.core d).scale.get dl.toFin = sc ∧ (∀ x ∈ (u.core src).mq, x.uid = uid → x.finished = true) ∧ u.mem = s.mem ∧
        ∀ n, n ≠ d → (u.core n).latch = (s.core n).latch) ∧
    (∀ j m k h p t y q dd v s1, s.cc.strms[s.cur.idx]? = some j → s.fedBy s.cur.core j = some (m, k) →
      decodeCmd j.cmd.word = some (.cstrm h p t y q) → j.cmd.desc = some dd → ((s.thAt m k).strm.get j.q).elems.length < 8 →
      engRead .copy j.cmd (j.cmd.cap p.cap) (strided j.cmd p (descOff j.next dd.counts dd.sstr)) (codeBytes y) (codeBytes y) s =
        .ok (v, s1) →
      ∃ u, exec .streamElementDelivery s = .next u ∧
        ((u.thAt m k).strm.get j.q).elems = ((s1.thAt m k).strm.get j.q).elems ++ [BitVec.ofNat 64 v] ∧
        ((u.thAt m k).strm.get j.q).closed = decide (j.total ≤ j.next + 1)) ∧
    (let c := s.cluster s.cur.idx
     let now := s.cycle / 1024
     let b := Nat.max 1024 (Nat.min 65536 (Nat.max 1024 c.grantB) * s.fw.f / 65536)
     (s.asking s.cur.idx = [] → c.window < now → ∃ u, exec .drogueWindow s = .next u ∧ u.mem = s.mem ∧ u.cores = s.cores ∧
      let x := u.cluster s.cur.idx
      x.window = now ∧ x.budget = b ∧ x.slew = c.grantS ∧ x.used = 0 ∧ x.drgstat = c.drgstat ∧
      x.allow = if c.grantS = 0 then b else Nat.min b ((if now = c.window + 1 then c.used else 0) + c.grantS)) ∧
     (s.asking s.cur.idx ≠ [] → s.cycle = c.drgAt + 1 → c.window = c.drgAt / 1024 → now = c.window → c.used ≤ c.allow →
      ∃ u, exec .drogueWindow s = .next u ∧ u.mem = s.mem ∧
      let x := u.cluster s.cur.idx
      let ask := ((s.asking s.cur.idx).filter (fun y => y.2 != 0)).length
      x.used = c.used + Nat.min ask (c.allow - c.used) ∧ x.drgstat = c.drgstat + BitVec.ofNat 48 (ask - (c.allow - c.used)) ∧
      x.window = c.window ∧ x.allow = c.allow))

/-- R219, R220, R221, R222, R223, R247, R248, R249. mzero clears its slot. mmul forms, for each element, the sum of its mode over a row of A
in the core's own slice and a column of the latch, and leaves it in its place in the slot; no other slot changes. INT8 sums are exact modulo
2^32. mlatch and mtrans put the rows they have read in the latch, by rows or by columns, and the scales in the scale store. mrot sends the
latch and its scales to the next core of the ring. -/
def Obligations.MatrixCommands : Prop :=
  ∀ (h : CmdHdr) (s : State) (c : Cmd),
    (∀ n, Runs s .matrix (.mzero h n) c → ∃ t, exec (.mzero h n) s = .next t ∧ HeadIs t .matrix { c with finished := true } ∧
      slotNat t n = 0 ∧
      (∀ m, m ≠ n → slotNat t m = slotNat s m) ∧ t.cc.latch = s.cc.latch ∧ t.mem = s.mem) ∧
    (∀ (f : MmulF), ∀ x ∈ mmuls h f, Runs s .matrix x.1 c → ∀ off : Nat → Nat,
      (∀ i, i < x.2.side → engCheckIn (inSlice s.cur.core) .matrix c (c.cap f.a.cap) (addressOf c f.a (i * f.str.toNat)) x.2.row 32 .read false s =
        .ok ([(.sram s.cur.core (off i), x.2.row)], s)) →
      ∃ t c1, exec x.1 s = .next t ∧ HeadIs t .matrix c1 ∧ c1.finished = true ∧ c1.status = c.status ∧ c1.left = c.left ∧ t.mem = s.mem ∧
        t.cc.latch = s.cc.latch ∧ (∀ m, m ≠ f.slot → slotNat t m = slotNat s m) ∧
        ∀ i j, i < x.2.side → j < x.2.side →
          let row := (List.range x.2.kt).map (elemAt x.2.aw (little (s.readAt c.tenant (.sram s.cur.core (off i)) x.2.row)))
          let col := (List.range x.2.kt).map (fun k => elemAt x.2.bw (s.cc.latch.get f.latch.toFin).toNat (k * x.2.side + j))
          let old := elemAt x.2.accw (slotNat s f.slot) (i * x.2.side + j)
          elemAt x.2.accw (slotNat t f.slot) (i * x.2.side + j) =
            (x.2.dot (hdrOf c.word).rms j (s.cc.scale.get f.latch.toFin).toNat old row col).bits % 2 ^ x.2.accw) ∧
    (∀ (acc : Nat) (as bs : List Nat) (rm : BitVec 3) (j sc : Nat),
      (((modeI8.dot rm j sc acc as bs).bits : Int) - (acc + ((as.zip bs).map (fun y => signedByte y.1 * signedByte y.2)).sum)) % 2 ^ 32 =
        0) ∧
    (∀ (f : MlatchF), ∀ x ∈ [(Instr.mlatch h f, false, latchRow f.fmt f.nq), (.mtrans h f, true, transRow f.fmt f.nq)],
      Runs s .matrix x.1 c → let w := (tileShape f.fmt f.nq).1
      let kt := (tileShape f.fmt f.nq).2.1
      let n := (tileShape f.fmt f.nq).2.2
      ∀ rows s1, forRows (fun i => engRead .matrix c (c.cap f.b.cap) (addressOf c f.b (i * f.str.toNat)) x.2.2 16) (List.range (if x.2.1 then n else kt)) s
          = .ok (rows, s1) →
        let fills := fun t : State => (∀ k j, k < kt → j < n →
          elemAt w (t.cc.latch.get f.latch.toFin).toNat (k * n + j) = elemAt w (rows.getD (if x.2.1 then j else k) 0) (if x.2.1 then
            k else j)) ∧
          t.cc.acc = s1.cc.acc ∧ t.mem = s1.mem ∧ HeadIs t .matrix { c with finished := true, status := 0 }
        (f.nq = false → ∃ t, exec x.1 s = .next t ∧ fills t ∧ t.cc.scale = s1.cc.scale) ∧
        (f.nq = true → ∀ v s2, engRead .matrix c (c.cap f.sc.cap) (addressOf c f.sc 0) 68 4 s1 = .ok (v, s2) → s2.cc.acc = s1.cc.acc →
          s2.mem = s1.mem →
          ∃ t, exec x.1 s = .next t ∧ fills t ∧ t.cc.scale.get f.latch.toFin = BitVec.ofNat 544 v)) ∧
    (∀ sl dl d, Runs s .matrix (.mrot h sl dl) c → c.elems = [] → s.ringNext s.cur.core = some d → ∃ t c1,
      exec (.mrot h sl dl) s = .next t ∧
      t.net = s.net ++ [.tile s.cur.core d c.uid dl (s.cc.latch.get sl.toFin) (s.cc.scale.get sl.toFin)] ∧ HeadIs t .matrix c1 ∧
        c1.finished = false ∧
      t.cc.latch = s.cc.latch ∧ t.mem = s.mem)

/-- R210, R211, R214, R224, R225, R228, R233, R235. The commands that move elements in no specified order. mstore writes the elements of its
slot, converted; mspill and mfill move a slot 32 bytes at a time; ccopy reads an element of its source and writes it converted to its
destination; cfill writes the low bytes of its value; cbcast writes to each core of its set. -/
def Obligations.ElementCommands : Prop :=
  ∀ (h : CmdHdr) (s : State) (c : Cmd) (p q t : AOp) (x y : BitVec 4) (n : BitVec 2),
    (∀ str, let w := 8 * codeBytes x
      let b := codeBytes y
      ByElements .matrix (.mstore h p str x y n) s c (accSide x * accSide x)
        (fun k s => .ok (c.convert y x k (elemAt w (slotNat s n) k), s)) (c.cap p.cap)
        (fun k => addressOf c p (k / accSide x * str.toNat + k % accSide x * b)) b b) ∧
    (ByElements .matrix (.mspill h p n) s c 128 (fun k s => .ok ((elemAt 256 (slotNat s n) k, 0), s)) (c.cap p.cap)
      (fun k => addressOf c p (32 * k)) 32 32) ∧
    (Runs s .matrix (.mfill h p n) c → c.cursor < 128 → c.written c.cursor = false → ∃ k, k < 128 ∧ c.written k = false ∧
      ((∀ v, c.elems.find? (fun z => z.1 == k) ≠ some (k, some v)) → ∀ v s1,
        engRead .matrix c (c.cap p.cap) (addressOf c p (32 * k)) 32 32 s = .ok (v, s1) →
        exec (.mfill h p n) s = .next (s1.setHead s1.cur.core .matrix { c with elems := insert c.elems k (some v), flags := c.flags ||| 0 })) ∧
      (∀ v, v < 2 ^ 256 → c.elems.find? (fun z => z.1 == k) = some (k, some v) → ∃ u c1, exec (.mfill h p n) s = .next u ∧
        HeadIs u .matrix c1 ∧
        c1.written k = true ∧ u.mem = s.mem ∧ elemAt 256 (slotNat u n) k = v ∧
          (∀ m, m < 128 → m ≠ k → elemAt 256 (slotNat u n) m = elemAt 256 (slotNat s n) m) ∧
        ∀ m, m ≠ n → slotNat u m = slotNat s m)) ∧
    (∀ d, c.desc = some d → ByElements .copy (.ccopy h p q t x y) s c d.total
      (fun k s => (engRead .copy c (c.cap p.cap) (strided c p (descOff k d.counts d.sstr)) (codeBytes x) (codeBytes x) s).map
        (fun r => (c.convert y x k r.1, r.2)))
      (c.cap q.cap) (fun k => strided c q (descOff k d.counts d.dstr)) (codeBytes y) (codeBytes y)) ∧
    (∀ d s1, Runs s .copy (.ccopy h p q t x y) c → c.desc = none → readDesc c t s = .ok (d, s1) →
      ((hdrOf c.word).rms = 5 ∧ x ≠ y ∧ 2 ^ 26 < d.total → ∃ u c1, exec (.ccopy h p q t x y) s = .next u ∧ HeadIs u .copy c1 ∧
        c1.finished = true ∧
        c1.status = 0x03 ∧ u.mem = s1.mem) ∧
      (¬((hdrOf c.word).rms = 5 ∧ x ≠ y ∧ 2 ^ 26 < d.total) → ∃ u, exec (.ccopy h p q t x y) s = .next u ∧ u.mem = s1.mem ∧
        HeadIs u .copy { c with desc := some d, declared := d.total * codeBytes y })) ∧
    (∀ v d, c.desc = some d → ByElements .copy (.cfill h p t v x) s c d.total (fun _ s =>
      .ok ((v.toNat % 2 ^ (8 * codeBytes x), 0), s)) (c.cap p.cap)
      (fun k => strided c p (descOff k d.counts d.dstr)) (codeBytes x) (codeBytes x)) ∧
    (∀ v d s1, Runs s .copy (.cfill h p t v x) c → c.desc = none → readDesc c t s = .ok (d, s1) → ∃ u, exec (.cfill h p t v x) s = .next u ∧
      u.mem = s1.mem ∧ HeadIs u .copy { c with desc := some d, declared := d.total * codeBytes x }) ∧
    (∀ dcap doff len sc, let cores := s.bcastCores s.cur.core sc
      let m := len.toNat / 32
      ByElements .copy (.cbcast h p dcap doff len sc) s c (m * cores.length)
        (fun k s => (engRead .copy c (c.cap p.cap) (addressOf c p (32 * (k % m) : Nat)) 32 1 s).map (fun r => ((r.1, 0), r.2)))
        (c.cap dcap) (fun k => 0x400000000000 + (s.core (cores.getD (k / m) 0)).lcore * 0x10000 + doff.toNat + 32 * (k % m)) 32 1)

/-- R229, R230. cgath, cscat and cscata move the element at their cursor: the index is read from the list, and names the source of cgath and
the destination of the others; cscata leaves the old element combined with the source element, in one step. An index that leads out of
bounds ends cgath with the cursor at it and the index in the auxiliary word. -/
def Sys2Proof.Spec.IndexedCommands : Prop :=
  ∀ (h : CmdHdr) (s s1 s2 s3 : State) (c : Cmd) (f : GathF) (x v : Nat) (a b : Spans), let n := codeBytes f.ety
    let iw := if f.iw then 8 else 4
    let k := c.cursor
    engRead .copy c (c.cap f.i.cap) (addressOf c f.i (k * iw)) iw iw s = .ok (x, s1) →
    let next := fun (t : State) => ∃ c1, HeadIs t .copy c1 ∧ c1.cursor = k + 1 ∧ c1.finished = decide (f.count.toNat ≤ k + 1)
    (Runs s .copy (.cgath h f) c → engCheck .copy c (c.cap f.s.cap) (addressOf c f.s (x * n)) n n .read true s1 = .ok (a, s2) →
      engCheck .copy c (c.cap f.d.cap) (addressOf c f.d (k * n)) n n .write false s2 = .ok (b, s3) → ∃ t, exec (.cgath h f) s = .next t ∧
        next t ∧
        t.mem = (s3.writeSpans (c.agent s3 s3.cur.core .copy) (lowBytes n (little (s2.readSpans c.tenant a))) 0x09 b).mem) ∧
    (Runs s .copy (.cscat h f) c → engRead .copy c (c.cap f.s.cap) (addressOf c f.s (k * n)) n n s1 = .ok (v, s2) →
      engCheck .copy c (c.cap f.d.cap) (addressOf c f.d (x * n)) n n .write true s2 = .ok (b, s3) → ∃ t, exec (.cscat h f) s = .next t ∧
        next t ∧
        t.mem = (s3.writeSpans (c.agent s3 s3.cur.core .copy) (lowBytes n v) 0x09 b).mem) ∧
    (Runs s .copy (.cscata h f) c → engRead .copy c (c.cap f.s.cap) (addressOf c f.s (k * n)) n n s1 = .ok (v, s2) →
      engCheck .copy c (c.cap f.d.cap) (addressOf c f.d (x * n)) n n .atomic true s2 = .ok (b, s3) →
      let old := little (s3.readSpans c.tenant b)
      (f.ety ∈ [0xA#4, 0xB#4, 0xC#4, 0xD#4] → ∀ o ∈ scatters f.ety, f.aop.toNat = o.1 → ∃ t, exec (.cscata h f) s = .next t ∧ next t ∧
        t.mem = (s3.writeSpans (c.agent s3 s3.cur.core .copy) (lowBytes n (o.2 old v)) 0x09 b).mem) ∧
      (f.ety = 1 → f.aop = 6 → ∃ t, exec (.cscata h f) s = .next t ∧ next t ∧
        t.mem = (s3.writeSpans (c.agent s3 s3.cur.core .copy) (lowBytes n (fp32.add (arithMode (hdrOf c.word).rms) old v).bits) 0x09 b).mem)) ∧
    (∀ st, Runs s .copy (.cgath h f) c → engCheck .copy c (c.cap f.s.cap) (addressOf c f.s (x * n)) n n .read true s1 =
      .error (.status st) →
      ∃ t c1, exec (.cgath h f) s = .next t ∧ HeadIs t .copy c1 ∧ c1.finished = true ∧ c1.status = st ∧ c1.cursor = k ∧
        c1.aux.getLsbD 63 = false ∧
        c1.aux.toNat % 2 ^ 48 = x % 2 ^ 48)

/-- R231. cmerge takes the lesser of the two entries it meets next, A's where they are equal: its value is added to the pending entry of its
coordinate; another pending entry is written first; an entry out of order ends the command with SORT_VIOLATION and writes nothing. -/
def Sys2Proof.Spec.MergeCommand : Prop :=
  ∀ (h : CmdHdr) (s s1 s2 : State) (c : Cmd) (p q o : AOp) (na nb : BitVec 24) (dup int : Bool) (ea eb : Option (Nat × Nat)) (ba bb : Bool),
    let i := Instr.cmerge h p q o na nb dup int
    Runs s .copy i c → mergeHead c p na.toNat false dup s = .ok ((ea, ba), s1) → mergeHead c q nb.toNat true dup s1 = .ok ((eb, bb), s2) →
    (ba = true ∨ bb = true → ∃ t c1, exec i s = .next t ∧ HeadIs t .copy c1 ∧ c1.finished = true ∧ c1.status = 0x0A ∧ c1.cursor = c.cursor ∧
      t.mem = (if ba then s1 else s2).mem ∧ c1.aux.getLsbD 63 = !ba ∧
      c1.aux.toNat % 2 ^ 48 = ((c.reg (if ba then regA else regB)).getD 0) % 2 ^ 48) ∧
    (ba = false → bb = false → ea = none → eb = none → c.reg pendCoord = none → ∃ t c1, exec i s = .next t ∧ HeadIs t .copy c1 ∧
      c1.finished = true ∧ c1.status = c.status ∧ c1.cursor = c.cursor ∧ t.mem = s2.mem) ∧
    (∀ x v, ba = false → bb = false →
      (ea = some (x, v) ∧ ∀ y w, eb = some (y, w) → x ≤ y) ∨ (eb = some (x, v) ∧ ∀ y w, ea = some (y, w) → x < y) →
      (c.reg pendCoord = some x → ∃ t c1, exec i s = .next t ∧ HeadIs t .copy c1 ∧ c1.finished = c.finished ∧ c1.reg pendCoord = some x ∧
        t.mem = s2.mem ∧
        c1.reg pendValue = some (if int then ((c.reg pendValue).getD 0 + v) % 2 ^ 32
          else (fp32.add (arithMode (hdrOf c.word).rms) ((c.reg pendValue).getD 0) v).bits)) ∧
      (c.reg pendCoord = none → ∃ t c1, exec i s = .next t ∧ HeadIs t .copy c1 ∧ c1.reg pendCoord = some x ∧ c1.reg pendValue = some v ∧
        c1.cursor = c.cursor ∧ t.mem = s2.mem) ∧
      (∀ z l s3, z ≠ x → c.reg pendCoord = some z →
        engCheck .copy c (c.cap o.cap) (addressOf c o (8 * c.cursor)) 8 8 .write false s2 = .ok (l, s3) →
        ∃ t c1, exec i s = .next t ∧ HeadIs t .copy c1 ∧ c1.reg pendCoord = some x ∧ c1.reg pendValue = some v ∧ c1.cursor = c.cursor + 1 ∧
          t.mem = (s3.writeSpans (c.agent s3 s3.cur.core .copy) (lowBytes 8 (z + (c.reg pendValue).getD 0 * 2 ^ 32)) 0x09 l).mem))

/-- R229-R231. Together: gathers, scatters and merges. -/
def Obligations.IndexedAndMerge : Prop := Sys2Proof.Spec.IndexedCommands ∧ Sys2Proof.Spec.MergeCommand

/-- R232, R234, R236, R240. cred adds the elements it reads to its stage's channel. cstrm binds its queue of the enqueuing thread, gives the
stream over and leaves the engine, or ends with MODE where the queue is bound. cquant ends with MODE where a value is not finite; else it
keeps, for each block, a code nearest to each value, the even one of two as near, with the value's sign, and then writes block by block. -/
def Obligations.StreamReduceQuantise : Prop :=
  ∀ (h : CmdHdr) (s : State) (c : Cmd) (p k v : AOp),
    (∀ ridx g ch vs s1, Runs s .copy (.cred h p ridx) c → s.stageOf s.cur.core = some g → g.red[ridx.toNat]? = some ch →
      (g.groupBrk && ch.xg) = false →
      forRows (fun i => engRead .copy c (c.cap p.cap) (addressOf c p (i * (ch.ty.width / 8))) (ch.ty.width / 8) (ch.ty.width / 8)) (List.range ch.count) s
        = .ok (vs, s1) → ∃ t, exec (.cred h p ridx) s = .next t ∧ HeadIs t .copy { c with finished := true } ∧ t.mem = s1.mem ∧
        t.regions = (s1.modStage s1.cc.rid s1.cc.stage (fun g =>
          { g with contribs := g.contribs ++ vs.mapIdx (fun i x => { ch := ridx.toNat, elem := i, bits := BitVec.ofNat 64 x }) })).regions) ∧
    (∀ ety q m slot, Runs s .copy (.cstrm h p k ety q) c → s.ownerOf c.uid = some (m, slot) →
      (((s.thAt m slot).strm.get q.toFin).bound = true → ∃ t, exec (.cstrm h p k ety q) s = .next t ∧ t.mem = s.mem ∧
        HeadIs t .copy { c with finished := true, status := 0x03 }) ∧
      (∀ d s1, ((s.thAt m slot).strm.get q.toFin).bound = false → readDesc c k s = .ok (d, s1) → s1.cc.streamRoom = true →
        s1.cc.engWaiters .copy = [] →
        ∃ t j, exec (.cstrm h p k ety q) s = .next t ∧ t.mem = s1.mem ∧ t.cc.cq = s1.cc.cq.tail ∧ t.cc.strms = s1.cc.strms ++ [j] ∧
          j.cmd.uid = c.uid ∧
          j.next = 0 ∧ j.total = d.total ∧ let u := (t.thAt m slot).strm.get q.toFin
          u.bound = true ∧ u.elems = [] ∧ u.closed = false ∧ u.broken = false ∧ u.width = codeBytes ety)) ∧
    (∀ nblk xs s1, Runs s .copy (.cquant h p k v nblk) c → c.reg nblk.toNat = none →
      forRows (fun i => engRead .copy c (c.cap p.cap) (addressOf c p (4 * i)) 4 4) (List.range (64 * nblk.toNat)) s = .ok (xs, s1) →
      (xs.any (fun x => x / 2 ^ 23 % 2 ^ 8 == 255) = true → ∃ t, exec (.cquant h p k v nblk) s = .next t ∧
        HeadIs t .copy { c with finished := true, status := 0x03 } ∧ t.mem = s.mem) ∧
      (xs.any (fun x => x / 2 ^ 23 % 2 ^ 8 == 255) = false → ∃ t c1, exec (.cquant h p k v nblk) s = .next t ∧ HeadIs t .copy c1 ∧
        t.mem = s1.mem ∧
        c1.finished = c.finished ∧ ∃ top : Nat, c1.reg nblk.toNat = some top)) ∧
    (∀ (sm sb x m : Nat), x % 2 ^ 31 < 0x7F800000 → m < 8 → x < 2 ^ 32 → let code := quantCode sm sb x
      code < 16 ∧ (x % 2 ^ 31 ≠ 0 → (8 ≤ code ↔ 2 ^ 31 ≤ x) ∧ quantDist sm sb ((quantMag x).getD 0) (code % 8) ≤
        quantDist sm sb ((quantMag x).getD 0) m ∧
        (quantDist sm sb ((quantMag x).getD 0) m = quantDist sm sb ((quantMag x).getD 0) (code % 8) → m % 2 = 0 → m ≠ code % 8 →
          code % 2 = 0)) ∧
      (x % 2 ^ 31 = 0 → code = 0)) ∧
    (∀ nblk top t0 t1 t2 s0 s1 s2 w0, Runs s .copy (.cquant h p k v nblk) c → c.reg nblk.toNat = some top →
      (hdrOf c.word).cmode.getLsbD 1 = false →
      let put := fun (z : State) (t : Spans) (n x : Nat) => z.writeSpans (c.agent z z.cur.core .copy) (lowBytes n x) 0x09 t
      let x := (c.reg c.cursor).getD 0
      (c.cursor = 0 → engCheck .copy c (c.cap v.cap) (addressOf c v 0) 4 4 .write false s = .ok (t0, s0) ∧ w0 = put s0 t0 4 top) →
      (c.cursor ≠ 0 → w0 = s) →
      engCheck .copy c (c.cap v.cap) (addressOf c v (4 + c.cursor)) 1 1 .write false w0 = .ok (t1, s1) →
      engCheck .copy c (c.cap k.cap) (addressOf c k (32 * c.cursor)) 32 1 .write false (put s1 t1 1 (x % 256)) = .ok (t2, s2) →
      ∃ t c1, exec (.cquant h p k v nblk) s = .next t ∧ HeadIs t .copy c1 ∧ c1.cursor = c.cursor + 1 ∧
        c1.finished = decide (nblk.toNat ≤ c.cursor + 1) ∧ t.mem = (put s2 t2 32 (x / 256)).mem)

/-! ## The vector engine -/

namespace Sys2Proof.Spec

/-- The vector and mask instructions that read no general register and touch neither memory nor an accumulator slot. -/
def registerVector (vd vs vt : BitVec 4) (km kd ks kt : BitVec 3) (gd : BitVec 4) (ty : LaneTy) : List Instr :=
  [.vadd vd vs vt km ty, .vsub vd vs vt km ty, .vmul vd vs vt km ty, .vfma vd vs vt km ty, .vmin vd vs vt km ty, .vmax vd vs vt km ty,
   .vabs vd vs km ty, .vneg vd vs km ty, .vsclb vd vs vt km ty, .vand vd vs vt km ty, .vor vd vs vt km ty, .vxor vd vs vt km ty,
   .vshl vd vs vt km ty, .vshr vd vs vt km ty, .vsar vd vs vt km ty, .vcmpEq kd vs vt km ty, .vcmpNe kd vs vt km ty,
   .vcmpLt kd vs vt km ty, .vcmpLe kd vs vt km ty, .vcmpGt kd vs vt km ty, .vcmpGe kd vs vt km ty, .vsel vd vs vt km ty, .vcls vd vs km ty,
   .vperm vd vs vt km ty, .vred vd vs km ty, .vdot vd vs vt km ty, .vexp2 vd vs km ty, .vlog2 vd vs km ty, .vrcp vd vs km ty,
   .vrsq vd vs km ty, .kand kd ks kt, .kor kd ks kt, .kxor kd ks kt, .knot kd ks, .kmovKk kd ks, .kmovGk gd ks, .kpop gd ks]

/-- The destination lanes that a vcvt of part p from sty writes in dty, where their mask bits are 1 (R196). -/
def part (dty sty : LaneTy) (p : BitVec 4) (j : Nat) : Bool :=
  decide (j < dty.lanes) && (decide (dty.lanes ≤ sty.lanes) || decide (j / sty.lanes = p.toNat))

/-- The lanes below j that a vcvt writes. -/
def written (m : BitVec 32) (dty sty : LaneTy) (p : BitVec 4) (j : Nat) : Nat :=
  ((List.range j).filter (fun i => part dty sty p i && m.getLsbD i)).length

/-- The draws an instruction takes as it is accepted (R197). -/
def draws (i : Instr) (t : Thread) : Nat :=
  match i with
  | .vcvt _ _ p km dty sty => if t.fpcsr.extractLsb' 0 3 = 5 then (written (t.kr km) dty sty p dty.lanes + 3) / 4 else 0
  | _ => 0

/-- An instruction goes to the vector engine with what it reads outside it: it joins the queue and retires, or, where it writes a general
register, waits for it; with a full queue, or behind a thread that waits, it parks (R183, R184). after: the matrix commands it starts
after. -/
def Issued (i : Instr) (s : State) (gs gt : Word) (k : Cap) (after : List Nat) : Prop :=
  (∀ g, vDest i = some g → s.th.clearG (0#1 ++ g)) →
  (s.cc.vq.length < 2 → s.cc.vecWaiters = [] → ∃ t o, exec i s = .next t ∧ t.cc.vq = s.cc.vq ++ [o] ∧ o.instr = i ∧ o.gs = gs ∧
    o.gt = gt ∧ o.cap = k ∧ o.after = after ∧ o.rm = s.th.rm ∧ o.slot = s.cur.slot ∧ t.mem = s.mem ∧ (∀ g, t.th.gr g = s.th.gr g) ∧
    t.th.a = s.th.a ∧ SameSpecial s.th t.th ∧ t.th.fpcsr = s.th.fpcsr ∧ t.cc.acc = s.cc.acc ∧ o.srctr = s.th.srctr ∧
    t.th.srctr = s.th.srctr + BitVec.ofNat 64 (draws i s.th) ∧
    match vDest i with
    | none => t.th.pc = s.th.wordAt + 4
    | some g => t.th.state = .waitMem ∧ t.th.wait = .vres g 4 ∧ t.th.pc = s.th.pc) ∧
  (2 ≤ s.cc.vq.length ∨ s.cc.vecWaiters ≠ [] → ∃ t, exec i s = .next t ∧ t.th.state = .parkEngq ∧ t.cc.vq = s.cc.vq ∧ t.th.pc = s.th.pc ∧
    (∀ g, t.th.gr g = s.th.gr g) ∧ t.mem = s.mem)

/-- Lane i of a register. -/
def lane (ty : LaneTy) (x : BitVec 256) (i : Nat) : Nat := elemAt ty.width x.toNat i

/-- A lane as a number of its type. -/
def laneValue (ty : LaneTy) (x : Nat) : Int := if ty.isSigned then signedLow ty.width x else x

/-- The lane operations of every type on bits (R192). -/
def bitLanes (vd vs vt : BitVec 4) (km : BitVec 3) (ty : LaneTy) : List (Instr × (Nat → Nat → Nat → Nat)) :=
  [(.vand vd vs vt km ty, fun a b _ => a &&& b), (.vor vd vs vt km ty, fun a b _ => a ||| b), (.vxor vd vs vt km ty, fun a b _ => a ^^^ b),
   (.vshl vd vs vt km ty, fun a b _ => a * 2 ^ (b % ty.width)), (.vshr vd vs vt km ty, fun a b _ => a / 2 ^ (b % ty.width)),
   (.vsar vd vs vt km ty, fun a b _ => ((signedLow ty.width a / 2 ^ (b % ty.width)) % 2 ^ ty.width).toNat)]

/-- The lane operations of the integer types (R191); each value is taken modulo two to the width. -/
def intLanes (vd vs vt : BitVec 4) (km : BitVec 3) (ty : LaneTy) : List (Instr × (Nat → Nat → Nat → Nat)) :=
  let w := ty.width
  [(.vadd vd vs vt km ty, fun a b _ => a + b), (.vsub vd vs vt km ty, fun a b _ => a + (2 ^ w - b)),
    (.vmul vd vs vt km ty, fun a b _ => a * b),
   (.vfma vd vs vt km ty, fun a b c => a * b + c), (.vmin vd vs vt km ty, fun a b _ => if laneValue ty a ≤ laneValue ty b then a else b),
   (.vmax vd vs vt km ty, fun a b _ => if laneValue ty a ≤ laneValue ty b then b else a),
   (.vabs vd vs km ty, fun a _ _ => if laneValue ty a < 0 then 2 ^ w - a else a), (.vneg vd vs km ty, fun a _ _ => 2 ^ w - a)]

/-- A result without a flag. -/
def silent (x : Nat) : Fr := { bits := x, fl := 0 }

/-- The lane operations of the floating types (R191, R194, R198), in the mode rm. -/
def floatLanes (vd vs vt : BitVec 4) (km : BitVec 3) (ty : LaneTy) (f : Fmt) (rm : BitVec 3) : List (Instr × (Nat → Nat → Nat → Fr)) :=
  [(.vadd vd vs vt km ty, fun a b _ => f.add rm a b), (.vsub vd vs vt km ty, fun a b _ => f.sub rm a b),
   (.vmul vd vs vt km ty, fun a b _ => f.mul rm a b), (.vfma vd vs vt km ty, fun a b c => f.fma rm a b c),
   (.vmin vd vs vt km ty, fun a b _ => lowerOf f false a b), (.vmax vd vs vt km ty, fun a b _ => lowerOf f true a b),
   (.vabs vd vs km ty, fun a _ _ => silent (a % 2 ^ (f.w - 1))), (.vneg vd vs km ty, fun a _ _ => silent (a ^^^ 2 ^ (f.w - 1))),
   (.vsclb vd vs vt km ty, fun a b _ => f.scale rm a (signedLow ty.width b)), (.vcls vd vs km ty, fun a _ _ => silent (2 ^ f.classBit a)),
   (.vexp2 vd vs km ty, fun a _ _ => f.exp2 rm a), (.vlog2 vd vs km ty, fun a _ _ => f.log2 rm a),
   (.vrcp vd vs km ty, fun a _ _ => f.rcp rm a), (.vrsq vd vs km ty, fun a _ _ => f.rsq rm a)]

/-- The comparisons (R193), for integer types. -/
def compares (kd : BitVec 3) (vs vt : BitVec 4) (km : BitVec 3) (ty : LaneTy) : List (Instr × (Int → Int → Bool)) :=
  [(.vcmpEq kd vs vt km ty, fun a b => a == b), (.vcmpNe kd vs vt km ty, fun a b => a != b),
    (.vcmpLt kd vs vt km ty, fun a b => decide (a < b)),
   (.vcmpLe kd vs vt km ty, fun a b => decide (a ≤ b)), (.vcmpGt kd vs vt km ty, fun a b => decide (a > b)),
     (.vcmpGe kd vs vt km ty, fun a b => decide (a ≥ b))]

/-- The comparisons of floating types (R193): whether any NaN raises NV, the relation of two numbers, and its value with a NaN. -/
def floatCompares (kd : BitVec 3) (vs vt : BitVec 4) (km : BitVec 3) (ty : LaneTy) : List (Instr × Bool × (Int → Int → Bool) × Bool) :=
  [(.vcmpEq kd vs vt km ty, false, (fun a b => a == b), false), (.vcmpNe kd vs vt km ty, false, (fun a b => a != b), true),
   (.vcmpLt kd vs vt km ty, true, (fun a b => decide (a < b)), false), (.vcmpLe kd vs vt km ty, true, (fun a b => decide (a ≤ b)), false),
   (.vcmpGt kd vs vt km ty, true, (fun a b => decide (a > b)), false), (.vcmpGe kd vs vt km ty, true, (fun a b => decide (a ≥ b)), false)]

/-- The flags of several results. -/
def allFlags (l : List Fl) : Fl := l.foldl (fun a b => a ||| b) 0

/-- The flags of a completed instruction are merged into FPCSR of its thread, whose RM stays, and into CFLAGS (R185, R190). -/
def Raised (s t : State) (n : Nat) (k : Fin 8) (fl : Fl) : Prop :=
  (t.thAt n k).fpcsr = (s.thAt n k).fpcsr ||| (fl ++ 0#3) ∧
  (t.cluster (clusterOf n)).cflags = (s.cluster (clusterOf n)).cflags ||| (fl ++ 0#3)

/-- The sum of lanes one at a time, with the flags of every step (R199). -/
def sumLanes (f : Fmt) (rm : BitVec 3) : List Nat → Fr
  | [] => silent 0
  | x :: r => r.foldl (fun z y => let w := f.add rm z.bits y; { w with fl := z.fl ||| w.fl }) (silent x)

/-- The sum of products onto an accumulator of format g, one at a time (R199). -/
def sumProducts (f g : Fmt) (rm : BitVec 3) (acc : Nat) (l : List (Nat × Nat)) : Fr :=
  l.foldl (fun z y => let w := g.fmaV rm (f.decode y.1) (f.decode y.2) (g.decode z.bits); { w with fl := z.fl ||| w.fl }) (silent acc)

/-- The only instruction that has started completes (R185). -/
def Completes (s t : State) : Prop := exec .vectorComplete s = .next t ∧ t.cc.vrun = []

/-- Vector register vd takes a value lane by lane, where the mask is 1; its other lanes, and every other vector and mask register, stay. -/
def LanesWritten (s t : State) (n : Nat) (k : Fin 8) (vd : BitVec 4) (km : BitVec 3) (ty : LaneTy) (f : Nat → Nat) : Prop :=
  (∀ i, i < ty.lanes → lane ty ((t.thAt n k).vr vd) i =
    if ((s.thAt n k).kr km).getLsbD i then f i % 2 ^ ty.width else lane ty ((s.thAt n k).vr vd) i) ∧
  (∀ r, r ≠ vd → (t.thAt n k).vr r = (s.thAt n k).vr r) ∧ (t.thAt n k).k = (s.thAt n k).k ∧ (t.thAt n k).g = (s.thAt n k).g ∧
  (t.thAt n k).pc = (s.thAt n k).pc

/-- Mask register kd takes a value; k0 stays. -/
def MaskWritten (s t : State) (n : Nat) (k : Fin 8) (kd : BitVec 3) (m : BitVec 32) : Prop :=
  (t.thAt n k).kr kd = (if kd = 0 then BitVec.allOnes 32 else m) ∧ (∀ r, r ≠ kd → (t.thAt n k).kr r = (s.thAt n k).kr r) ∧
  (t.thAt n k).v = (s.thAt n k).v ∧ (t.thAt n k).g = (s.thAt n k).g

end Sys2Proof.Spec

/-- R33, R183, R184, R197, R201, R202, R204, R205, R206. Every vector and mask instruction whose operands and checks pass goes to the vector
engine with the general register, the capability and the rounding mode it reads now. vldx, vstx, and vcvt under SR, wait for the thread's
earlier vector work first; an access that fails its check traps; vacr and vacw start after the matrix commands that name their slot, which
they claim in U where it is free or the context's own. -/
def Obligations.VectorIssue : Prop :=
  ∀ (vd vs vt : BitVec 4) (km kd ks kt : BitVec 3) (gd x y a : BitVec 4) (off : BitVec 11) (ty sty : LaneTy) (s : State) (c : Cap),
    (∀ i ∈ registerVector vd vs vt km kd ks kt gd ty, Issued i s 0 0 Cap.null []) ∧
    (s.th.rm ≠ 5 ∨ s.vecBusy s.cur.core s.cur.slot = false → Issued (.vcvt vd vs vt km ty sty) s 0 0 Cap.null []) ∧
    (s.th.rm = 5 → s.vecBusy s.cur.core s.cur.slot = true → exec (.vcvt vd vs vt km ty sty) s = .next (s.parkTh .waitMem .vecs)) ∧
    (s.th.clearG (0#1 ++ x) → let u := s.th.gr (0#1 ++ x)
      Issued (.kmovKg kd x) s u 0 Cap.null [] ∧ Issued (.vbc vd x km ty) s u 0 Cap.null [] ∧ Issued (.vmovg gd vs x ty) s 0 u Cap.null [] ∧
      Issued (.vrot vd vs x km ty) s 0 u Cap.null [] ∧ (s.th.clearG (0#1 ++ y) →
        Issued (.vins vd x y ty) s u (s.th.gr (0#1 ++ y)) Cap.null []) ∧
      let n := BitVec.ofNat 2 (u.toNat / 2 ^ 7)
      let f := s.cc.accown.toNat / 2 ^ (16 * n.toNat) % 2 ^ 16
      let own := fun t : State => t.cc.accown.toNat / 2 ^ (16 * n.toNat) % 2 ^ 16
      (s.th.cprv = true ∨ f < 2 ^ 15 ∨ f % 2 ^ 11 = s.th.ctxid.toNat →
        Issued (.vacr vd x km ty) s 0 u Cap.null (s.cc.namesSlot n) ∧ Issued (.vacw vs x km ty) s 0 u Cap.null (s.cc.namesSlot n)) ∧
      (∀ i ∈ [Instr.vacr vd x km ty, .vacw vs x km ty], ∀ t, exec i s = .next t →
        (s.th.cprv = true → t.cc.accown = s.cc.accown) ∧
        (s.th.cprv = false → f < 2 ^ 15 ∨ f % 2 ^ 11 = s.th.ctxid.toNat → own t = 2 ^ 15 + 2 ^ 11 * s.cur.slot.val + s.th.ctxid.toNat ∧
          ∀ m : BitVec 2, m ≠ n → t.cc.accown.toNat / 2 ^ (16 * m.toNat) % 2 ^ 16 = s.cc.accown.toNat / 2 ^ (16 * m.toNat) % 2 ^ 16)) ∧
      (s.th.cprv = false → 2 ^ 15 ≤ f → f % 2 ^ 11 ≠ s.th.ctxid.toNat → ∀ i ∈ [Instr.vacr vd x km ty, .vacw vs x km ty],
        exec i s = .next (s.trapSync .accOwn (BitVec.ofNat 64 n.toNat) s.th.pc))) ∧
    (readA a s = .ok (c, s) →
      (vecCheck c (vecAddr c off) 32 permR false s = .ok ((), s) → Issued (.vld vd a off km ty) s 0 0 c []) ∧
      (vecCheck c (vecAddr c off) 32 permW false s = .ok ((), s) → Issued (.vst vd a off km ty) s 0 0 c []) ∧
      (s.vecBusy s.cur.core s.cur.slot = true → ∀ i ∈ [Instr.vldx vd a vt km ty, .vstx vd a vt km ty],
        exec i s = .next (s.parkTh .waitMem .vecs)) ∧
      (s.vecBusy s.cur.core s.cur.slot = false →
        ((∀ i, i < ty.lanes → (s.th.kr km).getLsbD i = true →
          vecCheck c (laneAddr c ty (lane ty (s.th.vr vt) i)) (ty.width / 8) permR true s = .ok ((), s)) →
            Issued (.vldx vd a vt km ty) s 0 0 c []) ∧
        ((∀ i, i < ty.lanes → (s.th.kr km).getLsbD i = true →
          vecCheck c (laneAddr c ty (lane ty (s.th.vr vt) i)) (ty.width / 8) permW true s = .ok ((), s)) →
            Issued (.vstx vd a vt km ty) s 0 0 c []))) ∧
    (∀ o r, s.cc.vq = o :: r → s.vecCanStart s.cur.core = true → s.cc.vecWaiters = [] → ∃ t, exec .vectorStart s = .next t ∧ t.cc.vq = r ∧
      t.cc.vrun = s.cc.vrun ++ [o] ∧ t.mem = s.mem ∧ t.th = s.th)

/-- R185, R188, R190-R194, R196-R198, R200, R206. What a started vector instruction writes when it completes: the lanes its mask names, each
the function of its lanes; the other lanes stay. Integer arithmetic is exact modulo two to the width, floating arithmetic rounds in the mode
read at issue, and the flags of its active lanes are merged; vcvt converts the lanes of its part, with their draws under SR; a mask
instruction writes its mask register, and k0 stays all ones. -/
def Sys2Proof.Spec.VectorResult : Prop :=
  ∀ (vd vs vt : BitVec 4) (km kd ks kt : BitVec 3) (x y gd : BitVec 4) (ty : LaneTy) (s : State) (o : VOp), s.cc.vrun = [o] →
    s.cur.idx = 0 →
    let n := s.cur.core
    let k := o.slot
    let u := s.thAt n k
    let on := (List.range ty.lanes).filter (u.kr km).getLsbD
    let results := fun (l : List (Instr × (Nat → Nat → Nat → Nat))) => ∀ z ∈ l, o.instr = z.1 → ∃ t, Completes s t ∧ t.mem = s.mem ∧
      LanesWritten s t n k vd km ty (fun i => z.2 (lane ty (u.vr vs) i) (lane ty (u.vr vt) i) (lane ty (u.vr vd) i))
    results (bitLanes vd vs vt km ty) ∧
    (ty.fmt = none → results (intLanes vd vs vt km ty) ∧ ∀ z ∈ compares kd vs vt km ty, o.instr = z.1 → ∃ t m, Completes s t ∧
      MaskWritten s t n k kd m ∧ t.mem = s.mem ∧ ∀ i, i < 32 → m.getLsbD i =
        (decide (i < ty.lanes) && (u.kr km).getLsbD i && z.2 (laneValue ty (lane ty (u.vr vs) i)) (laneValue ty (lane ty (u.vr vt) i)))) ∧
    (∀ f, ty.fmt = some f →
      (∀ z ∈ floatLanes vd vs vt km ty f (arithMode o.rm), o.instr = z.1 → ∃ t, Completes s t ∧ t.mem = s.mem ∧
        let r := fun i => z.2 (lane ty (u.vr vs) i) (lane ty (u.vr vt) i) (lane ty (u.vr vd) i)
        LanesWritten s t n k vd km ty (fun i => (r i).bits) ∧ Raised s t n k (allFlags (on.map (fun i => (r i).fl)))) ∧
      ∀ z ∈ floatCompares kd vs vt km ty, o.instr = z.1 → ∃ t m, Completes s t ∧ MaskWritten s t n k kd m ∧ t.mem = s.mem ∧
        let a := fun i => lane ty (u.vr vs) i
        let b := fun i => lane ty (u.vr vt) i
        (∀ i, i < 32 → m.getLsbD i = (decide (i < ty.lanes) && (u.kr km).getLsbD i &&
          if isNaN f (a i) || isNaN f (b i) then z.2.2.2 else z.2.2.1 (key f (a i)) (key f (b i)))) ∧
        Raised s t n k (allFlags (on.map (fun i => (relation f z.2.1 z.2.2.1 (a i) (b i)).fl)))) ∧
    (∀ p sty, o.instr = .vcvt vd vs p km ty sty → ∃ t, Completes s t ∧ t.mem = s.mem ∧
      let from_ := fun j => if ty.lanes < sty.lanes then p.toNat * ty.lanes + j else if sty.lanes < ty.lanes then j % sty.lanes else j
      let r := fun j => convert ty sty o.rm (if o.rm = 5 then
        srField o.jseed o.lcore o.srstrm o.srctr (written (u.kr km) ty sty p j) else 0)
        (lane sty (u.vr vs) (from_ j))
      (∀ j, j < ty.lanes → lane ty ((t.thAt n k).vr vd) j =
        if part ty sty p j && (u.kr km).getLsbD j then (r j).bits % 2 ^ ty.width else lane ty (u.vr vd) j) ∧
      (∀ x, x ≠ vd → (t.thAt n k).vr x = u.vr x) ∧ (t.thAt n k).k = u.k ∧
      Raised s t n k (allFlags (((List.range ty.lanes).filter (fun j => part ty sty p j && (u.kr km).getLsbD j)).map (fun j =>
        (r j).fl)))) ∧
    (o.instr = .vsel vd vs vt km ty → ∃ t, Completes s t ∧ ∀ i, i < ty.lanes → lane ty ((t.thAt n k).vr vd) i =
      if (u.kr km).getLsbD i then lane ty (u.vr vs) i else lane ty (u.vr vt) i) ∧
    (o.instr = .vperm vd vs vt km ty → ∃ t, Completes s t ∧
      LanesWritten s t n k vd km ty (fun i => lane ty (u.vr vs) (lane ty (u.vr vt) i % ty.lanes))) ∧
    (o.instr = .vrot vd vs x km ty → ∃ t, Completes s t ∧ LanesWritten s t n k vd km ty (fun i =>
      lane ty (u.vr vs) ((i + o.gt.toNat) % ty.lanes))) ∧
    (o.instr = .vbc vd x km ty → ∃ t, Completes s t ∧ LanesWritten s t n k vd km ty (fun _ => o.gs.toNat)) ∧
    (o.instr = .vins vd x y ty → ∃ t, Completes s t ∧ ∀ i, i < ty.lanes → lane ty ((t.thAt n k).vr vd) i =
      if i = o.gt.toNat % ty.lanes then o.gs.toNat % 2 ^ ty.width else lane ty (u.vr vd) i) ∧
    (∀ z ∈ [(Instr.kand kd ks kt, u.kr ks &&& u.kr kt), (.kor kd ks kt, u.kr ks ||| u.kr kt), (.kxor kd ks kt, u.kr ks ^^^ u.kr kt),
        (.knot kd ks, ~~~(u.kr ks)), (.kmovKk kd ks, u.kr ks), (.kmovKg kd x, BitVec.ofNat 32 o.gs.toNat)],
      o.instr = z.1 → ∃ t, Completes s t ∧ MaskWritten s t n k kd z.2 ∧ t.mem = s.mem) ∧
    (∀ z ∈ [(Instr.kmovGk gd ks, BitVec.ofNat 64 (u.kr ks).toNat), (.kpop gd ks,
      BitVec.ofNat 64 ((List.range 32).filter (u.kr ks).getLsbD).length),
        (.vmovg gd vs x ty, BitVec.ofInt 64 (laneValue ty (lane ty (u.vr vs) (o.gt.toNat % ty.lanes))))],
      o.instr = z.1 → k = s.cur.slot → s.th.wait = .vres gd 4 → ∃ t, Completes s t ∧
        t.th.gr (0#1 ++ gd) = (if gd = 0 then 0 else z.2) ∧ (∀ r, r ≠ 0#1 ++ gd → t.th.gr r = s.th.gr r) ∧ t.th.pc = s.th.wordAt + 4 ∧
          t.th.v = s.th.v)

/-- R199, R201, R202, R204. vld and vldx read each active lane at its place in a slice, vst writes its active lanes and no other byte, vstx
writes its active lanes in order; vacr and vacw copy active lanes between a register and a chunk of an accumulator slot; vred and vdot sum
the active lanes in order, integers exactly and floating values with one rounding a step. -/
def Sys2Proof.Spec.VectorMemoryResult : Prop :=
  ∀ (vd vs vt a x : BitVec 4) (off : BitVec 11) (km : BitVec 3) (ty : LaneTy) (s : State) (o : VOp) (own base : Nat), s.cc.vrun = [o] →
    s.cur.idx = 0 →
    let n := s.cur.core
    let k := o.slot
    let u := s.thAt n k
    let b := ty.width / 8
    let on := (List.range ty.lanes).filter (u.kr km).getLsbD
    ((∀ i, i < ty.lanes → s.rowOf (o.agent s n) (vecAddr o.cap off + i * b) = .slice own (base + i * b)) →
      let at_ := fun i => 2 ^ 48 + own * 0x10000 + base + i * b
      (o.instr = .vld vd a off km ty → ∃ t, Completes s t ∧ t.mem = s.mem ∧
        LanesWritten s t n k vd km ty (fun i => little (Memory.readN s.mem (at_ i) b))) ∧
      (o.instr = .vst vd a off km ty → (s.core own).trcrng0 = 0 → (s.core own).trcrng1 = 0 → Memory.wf s.mem = true → ∃ t, Completes s t ∧
        (∀ i ∈ on, Memory.readN t.mem (at_ i) b = lowBytes b (lane ty (u.vr vd) i)) ∧
        (∀ j, (∀ i ∈ on, ¬(at_ i ≤ j ∧ j < at_ i + b)) → Memory.read t.mem j = Memory.read s.mem j) ∧ (t.thAt n k).v = u.v)) ∧
    (∀ at_ : Nat → Nat, (∀ i, i < ty.lanes → (u.kr km).getLsbD i = true →
      s.rowOf (o.agent s n) (laneAddr o.cap ty (lane ty (u.vr vt) i)) = .slice n (at_ i)) →
      o.instr = .vldx vd a vt km ty → ∃ t, Completes s t ∧ t.mem = s.mem ∧
        LanesWritten s t n k vd km ty (fun i => little (Memory.readN s.mem (2 ^ 48 + n * 0x10000 + at_ i) b))) ∧
    (∀ at_ : Nat → Nat, (∀ i ∈ on, s.rowOf (o.agent s n) (laneAddr o.cap ty (lane ty (u.vr vt) i)) = .slice n (at_ i)) →
      o.instr = .vstx vd a vt km ty → (s.core n).trcrng0 = 0 → (s.core n).trcrng1 = 0 → Memory.wf s.mem = true → ∃ t, Completes s t ∧
        (t.thAt n k).v = u.v ∧ let hits := fun (j i : Nat) => 2 ^ 48 + n * 0x10000 + at_ i ≤ j ∧ j < 2 ^ 48 + n * 0x10000 + at_ i + b
        (∀ j, (∀ i ∈ on, ¬ hits j i) → Memory.read t.mem j = Memory.read s.mem j) ∧
        ∀ j, ∀ i ∈ on, hits j i → (∀ l ∈ on, i < l → ¬ hits j l) →
          Memory.read t.mem j = BitVec.ofNat 8 (lane ty (u.vr vd) i / 256 ^ (j - (2 ^ 48 + n * 0x10000 + at_ i)))) ∧
    (let sl := BitVec.ofNat 2 (o.gt.toNat / 2 ^ 7)
     let ch := o.gt.toNat % 2 ^ 7
     let part := fun (t : State) (i : Nat) => elemAt ty.width (elemAt 256 (slotNat t sl) ch) i
     (o.instr = .vacr vd x km ty → ∃ t, Completes s t ∧ t.mem = s.mem ∧ t.cc.acc = s.cc.acc ∧ LanesWritten s t n k vd km ty (part s)) ∧
     (o.instr = .vacw vs x km ty → ∃ t, Completes s t ∧ t.mem = s.mem ∧ (t.thAt n k).v = u.v ∧ (∀ m, m ≠ sl → slotNat t m = slotNat s m) ∧
       (∀ i, i < ty.lanes → part t i = if (u.kr km).getLsbD i then lane ty (u.vr vs) i else part s i) ∧
       ∀ m, m < 128 → m ≠ ch → elemAt 256 (slotNat t sl) m = elemAt 256 (slotNat s sl) m)) ∧
    (∀ f, ty.fmt = some f →
      (o.instr = .vred vd vs km ty → let r := sumLanes f (arithMode o.rm) (on.map (lane ty (u.vr vs)))
        ∃ t, Completes s t ∧ lane ty ((t.thAt n k).vr vd) 0 = r.bits % 2 ^ ty.width ∧ Raised s t n k r.fl ∧
        ∀ i, 1 ≤ i → i < ty.lanes → lane ty ((t.thAt n k).vr vd) i = lane ty (u.vr vd) i) ∧
      (o.instr = .vdot vd vs vt km ty → let w := if ty.width = 64 then 64 else 32
        let r := sumProducts f (if ty.width = 64 then fp64 else fp32) (arithMode o.rm) (elemAt w (u.vr vd).toNat 0)
          (on.map (fun i => (lane ty (u.vr vs) i, lane ty (u.vr vt) i)))
        ∃ t, Completes s t ∧ ((t.thAt n k).vr vd).toNat / 2 ^ w = (u.vr vd).toNat / 2 ^ w ∧
          elemAt w ((t.thAt n k).vr vd).toNat 0 = r.bits % 2 ^ w ∧
          Raised s t n k r.fl)) ∧
    (ty.fmt = none →
      (o.instr = .vred vd vs km ty → ∃ t, Completes s t ∧ lane ty ((t.thAt n k).vr vd) 0 =
        ((on.map (lane ty (u.vr vs))).sum) % 2 ^ ty.width ∧
        ∀ i, 1 ≤ i → i < ty.lanes → lane ty ((t.thAt n k).vr vd) i = lane ty (u.vr vd) i) ∧
      (o.instr = .vdot vd vs vt km ty → let w := if ty.width = 64 then 64 else 32
        ∃ t, Completes s t ∧ ((t.thAt n k).vr vd).toNat / 2 ^ w = (u.vr vd).toNat / 2 ^ w ∧
          (((t.thAt n k).vr vd).toNat : Int) % 2 ^ w = (((u.vr vd).toNat : Int) +
            (on.map (fun i => laneValue ty (lane ty (u.vr vs) i) * laneValue ty (lane ty (u.vr vt) i))).sum) % 2 ^ w))

/-- R185, R188, R190-R194, R196-R202, R204, R206. Together: what vector and mask instructions write when they complete. -/
def Obligations.VectorEffect : Prop := Sys2Proof.Spec.VectorResult ∧ Sys2Proof.Spec.VectorMemoryResult

/-! ## System registers, traps, the Spool and pre-emption -/

namespace Sys2Proof.Spec

/-- The readable system registers but DRGSTAT, DRGBUD and XBCFG: number, supervisor only, and value (R22-R34). -/
def readable : List (BitVec 10 × Bool × (State → Word)) :=
  [(0x000, false, fun s => BitVec.ofNat 64 s.cur.slot.val), (0x001, false, fun s => BitVec.ofNat 64 s.th.lcore),
   (0x002, false, fun s => BitVec.ofNat 64 s.cc.sidx), (0x003, false, fun s => BitVec.ofNat 64 s.cc.scnt),
   (0x004, false, fun s => if s.cc.ringed then BitVec.ofNat 64 (s.cc.sidx / 16) else BitVec.ofInt 64 (-1)),
   (0x005, false, fun s => if s.cc.ringed then BitVec.ofNat 64 (s.cc.sidx % 16) else BitVec.ofInt 64 (-1)),
   (0x006, false, fun s => BitVec.ofNat 64 s.cc.tenant.toNat), (0x007, false, fun s => BitVec.ofNat 64 s.th.ctxid.toNat),
   (0x008, false, fun s => BitVec.ofNat 64 s.th.fpcsr.toNat), (0x009, false, fun s => s.th.srstrm), (0x00A, false, fun s => s.th.srctr),
   (0x00B, false, fun s => s.th.jseed), (0x00C, false, fun s => BitVec.ofNat 64 s.cycle),
   (0x00D, false, fun s => if s.cc.tether then BitVec.ofNat 64 s.cc.vt else 0),
   (0x00E, false, fun s => if s.cc.tether then BitVec.ofNat 64 s.cc.tsafe else BitVec.ofInt 64 (-1)),
   (0x00F, false, fun s => BitVec.ofNat 64 s.cc.smcount.toNat),
   (0x040, true, fun s => BitVec.ofNat 64 s.th.tcause.toNat), (0x041, true, fun s => s.th.tval), (0x042, true, fun s => s.th.tepc),
   (0x043, true, fun s => s.th.tfpc), (0x044, true, fun s => s.th.tvec),
   (0x045, true, fun s => BitVec.ofNat 64 (s.th.tstatus.toNat + 16 * (s.th.rel.length % 8))), (0x046, true, fun s => s.th.hscr),
   (0x047, true, fun s => s.th.tmcmp), (0x050, true, fun s => s.cc.accown), (0x052, true, fun s => BitVec.ofNat 64 s.ccl.cflags.toNat),
   (0x058, true, fun s => s.cc.trcbase), (0x059, true, fun s => s.cc.trclen), (0x05A, true, fun s => s.cc.trcrng0),
     (0x05B, true, fun s => s.cc.trcrng1)]

/-- Some bits of a word, from a to b - 1, in their places. -/
def keepBits (v : Word) (a b : Nat) : Word := BitVec.ofNat 64 (v.toNat % 2 ^ b / 2 ^ a * 2 ^ a)

/-- The writable system registers but DRGSTAT, XBCFG and FPCSR: number, supervisor only, and the state after a write (R22-R34). -/
def writable : List (BitVec 10 × Bool × (Word → State → State)) :=
  [(0x009, false, fun v s => s.setTh { s.th with srstrm := v }), (0x00A, false, fun v s => s.setTh { s.th with srctr := v }),
   (0x007, true, fun v s => s.setTh { s.th with ctxid := BitVec.ofNat 11 v.toNat }),
     (0x00B, true, fun v s => s.setTh { s.th with jseed := v }),
   (0x00F, true, fun v s => s.setCc { s.cc with smcount := BitVec.ofNat 32 v.toNat }),
   (0x040, true, fun v s => s.setTh { s.th with tcause := BitVec.ofNat 8 v.toNat }),
     (0x041, true, fun v s => s.setTh { s.th with tval := v }),
   (0x042, true, fun v s => s.setTh { s.th with tepc := v }), (0x043, true, fun v s => s.setTh { s.th with tfpc := v }),
   (0x044, true, fun v s => s.setTh { s.th with tvec := keepBits v 2 64 }), (0x046, true, fun v s => s.setTh { s.th with hscr := v }),
   (0x045, true, fun v s => s.setTh { s.th with tstatus := BitVec.ofNat 4 (v.toNat % 16 / 2 * 2 + s.th.tstatus.toNat % 2) }),
   (0x047, true, fun v s => s.setTh { s.th with tmcmp := v }), (0x050, true, fun v s => s.setCc { s.cc with accown := v }),
   (0x052, true, fun v s => s.setCcl { s.ccl with cflags := s.ccl.cflags &&& ~~~(BitVec.ofNat 9 (v.toNat % 2 ^ 9 / 8 * 8)) }),
   (0x058, true, fun v s => s.setCc { s.cc with trcbase := keepBits v 5 48 }),
   (0x059, true, fun v s => s.setCc { s.cc with trclen := BitVec.ofNat 64 (s.cc.trclen.toNat / 2 ^ 32 * 2 ^ 32 + v.toNat % 2 ^ 32) }),
   (0x05A, true, fun v s => s.setCc { s.cc with trcrng0 := keepBits v 63 64 ||| keepBits v 0 54 }),
   (0x05B, true, fun v s => s.setCc { s.cc with trcrng1 := keepBits v 63 64 ||| keepBits v 0 54 })]

/-- The numbers that name a system register (R22). -/
def assigned (n : Nat) : Prop :=
  n ≤ 0x010 ∨ (0x020 ≤ n ∧ n ≤ 0x027) ∨ (0x040 ≤ n ∧ n ≤ 0x047) ∨ (0x050 ≤ n ∧ n ≤ 0x052) ∨ (0x058 ≤ n ∧ n ≤ 0x05B)

/-- The word of an instruction as TVAL holds it. -/
def wordOf (i : Instr) : Word := BitVec.ofNat 64 (encodeWord i).toNat

/-- A trap taken by the current thread, entered from U (R30): what the trap registers, the mode and the two code capabilities hold after
it. -/
def Entered (s t : State) (cause : Nat) (tval : Word) (tepc tfpc : Addr) : Prop :=
  t.th.tcause.toNat = cause ∧ t.th.tval = tval ∧ t.th.tepc.toNat = tepc.toNat ∧ t.th.tfpc.toNat = tfpc.toNat ∧ t.th.cprv = true ∧
  t.th.pprv = s.th.cprv ∧ t.th.tie = false ∧ t.th.ptie = s.th.tie ∧ t.th.pc.toNat = s.th.tvec.toNat % 2 ^ 48 ∧ t.th.epcc = s.th.pcc ∧
  t.th.pcc = s.scap s.cur.core ∧ t.th.state = .handler ∧ t.th.wait = .none ∧ (∀ g, t.th.gr g = s.th.gr g) ∧ t.th.a = s.th.a ∧
    t.th.v = s.th.v ∧
  t.th.k = s.th.k ∧ t.th.fpcsr = s.th.fpcsr ∧ t.th.srctr = s.th.srctr ∧ t.th.rel = s.th.rel ∧ t.th.tvec = s.th.tvec ∧
    t.th.hscr = s.th.hscr ∧
  t.th.tmcmp = s.th.tmcmp ∧ t.mem = s.mem

/-- The U part of a context that an image holds equals that of a thread (R180). -/
def SameUser (x y : Thread) : Prop :=
  x.g = y.g ∧ x.a = y.a ∧ x.v = y.v ∧ x.k = y.k ∧ x.ctxid = y.ctxid ∧ x.fpcsr = y.fpcsr ∧ x.srstrm = y.srstrm ∧ x.srctr = y.srctr ∧
    x.tmcmp = y.tmcmp ∧
  x.epcc = y.epcc

/-- Frame k of the cluster of a core holds, under an index, an image of a thread of the core's region. -/
def Saved (t : State) (n : Nat) (k : Fin 64) (i : Option (Fin 64)) (u : Thread) : Prop :=
  ∃ f, (t.cluster (clusterOf n)).frames.get k = some f ∧ f.st = .held ∧ f.rid = (t.core n).rid ∧ f.index = i ∧ SameUser f.img.th u ∧
    f.img.th.pc = u.pc ∧
    f.img.th.tstatus = u.tstatus ∧ f.img.th.pcc = u.pcc

end Sys2Proof.Spec

/-- R21-R34, R174, R418. srd gives the value of its register; swr writes the fields its register has. A supervisor register in U is PRIV;
a number that names none, and a write of a read-only one, ILLEGAL; U may not write JSEED, CTXID, SMCOUNT or DRGSTAT; a write of FPCSR
with an RM of 6 or 7 is ILLEGAL, and FPCSR is read and written when the thread's vector work has completed. -/
def Obligations.SystemRegisters : Prop :=
  ∀ (d : Dst) (p : Src) (s s1 : State) (v : Word), Ready d s → readSrc p s = .ok (v, s1) →
    (∀ x ∈ readable, (x.2.1 = true → s.th.cprv = true) → (x.1 = 0x008 → s.vecBusy s.cur.core s.cur.slot = false) →
      (Takes d s → ∃ t, exec (.srd d x.1) s = .next t ∧ Ends d 4 true (x.2.2 s) s t)) ∧
    (∀ i : Fin 8, (Takes d s → ∃ t, exec (.srd d (0x020 + BitVec.ofNat 10 i.val)) s = .next t ∧ Ends d 4 true (s.cc.xbcfg.get i) s t)) ∧
    (let s2 := s.settleDrogue (clusterOf s.cur.core)
     s2.mem = s.mem ∧ s2.th = s.th ∧ (Takes d s2 →
        (∃ t, exec (.srd d 0x010) s = .next t ∧ Ends d 4 true (BitVec.ofNat 64 s2.ccl.drgstat.toNat) s2 t) ∧
        (s.th.cprv = true → ∃ t, exec (.srd d 0x051) s = .next t ∧
          Ends d 4 true (BitVec.ofNat 64 (s2.ccl.budget % 2 ^ 32 + s2.ccl.slew % 2 ^ 16 * 2 ^ 32)) s2 t))) ∧
    (s.th.cprv = true →
      let s2 := s1.settleDrogue (clusterOf s.cur.core)
      ∃ t, exec (.swr 0x010 p) s = .next t ∧ retire (4 + p.litBytes) (s2.setCcl { s2.ccl with drgstat := BitVec.ofNat 48 v.toNat }) =
        .ok ((), t)) ∧
    (∀ n : BitVec 10, ¬ assigned n.toNat → s.th.cprv = true ∨ n.toNat < 0x040 ∨ 0x200 ≤ n.toNat →
      exec (.srd d n) s = .next (s.trapSync .illegal (wordOf (.srd d n)) s.th.pc) ∧
      exec (.swr n p) s = .next (s.trapSync .illegal (wordOf (.swr n p)) s.th.pc)) ∧
    (∀ n : BitVec 10, 0x040 ≤ n.toNat → n.toNat < 0x200 → s.th.cprv = false →
      exec (.srd d n) s = .next (s.trapSync .priv (wordOf (.srd d n)) s.th.pc) ∧
        exec (.swr n p) s = .next (s.trapSync .priv (wordOf (.swr n p)) s.th.pc)) ∧
    (∀ x ∈ writable, (x.2.1 = true → s.th.cprv = true) → ∃ t, exec (.swr x.1 p) s = .next t ∧
      retire (4 + p.litBytes) (x.2.2 v s1) = .ok ((), t)) ∧
    (∀ i : Fin 8, ∃ t s2, exec (.swr (0x020 + BitVec.ofNat 10 i.val) p) s = .next t ∧
      exec .xbcfgWrite { s1 with cur := { s1.cur with idx := i.val, val := v } } =
      .next s2 ∧ retire (4 + p.litBytes) { s2 with cur := s1.cur } = .ok ((), t)) ∧
    (s.vecBusy s.cur.core s.cur.slot = false →
      (v.toNat % 8 ≤ 5 → ∃ t, exec (.swr 0x008 p) s = .next t ∧
        retire (4 + p.litBytes) (s1.setTh { s1.th with fpcsr := BitVec.ofNat 9 v.toNat }) = .ok ((), t)) ∧
      (6 ≤ v.toNat % 8 → exec (.swr 0x008 p) s = .next (s.trapSync .illegal (wordOf (.swr 0x008 p)) s.th.pc))) ∧
    (s.vecBusy s.cur.core s.cur.slot = true → exec (.swr 0x008 p) s = .next (s.parkTh .waitMem .vecs)) ∧
    (s.th.cprv = false → ∀ n ∈ [0x007#10, 0x00B, 0x00F, 0x010], exec (.swr n p) s = .next (s.trapSync .priv (wordOf (.swr n p)) s.th.pc)) ∧
    (s.th.cprv = true → ∀ n ∈ [0x000#10, 0x001, 0x002, 0x003, 0x004, 0x005, 0x006, 0x00C, 0x00D, 0x00E, 0x051],
      exec (.swr n p) s = .next (s.trapSync .illegal (wordOf (.swr n p)) s.th.pc)) ∧
    (s.cur.val.toNat % 8 ≤ 5 → s.vecBusy s.cur.core s.cur.slot = false →
      exec .fpcsrWrite s = .next (s.setTh { s.th with fpcsr := BitVec.ofNat 9 s.cur.val.toNat })) ∧
    exec .accownWrite s = .next (s.setCc { s.cc with accown := s.cur.val }) ∧
    exec .cflagsClear s = .next (s.setCcl { s.ccl with cflags := s.ccl.cflags &&& ~~~(BitVec.ofNat 9 (s.cur.val.toNat % 2 ^ 9 / 8 * 8)) })

/-- R30, R32, R175. A synchronous trap of a thread in U that has popped nothing enters its handler, with the PC of the instruction in TEPC;
one raised in S is the region's unhandled fault: the thread is EMPTY with its registers as they were, and the region is marked, with the
first such fault kept. -/
def Sys2Proof.Spec.TrapEntry : Prop :=
  ∀ (s : State) (c : Cause) (v : Word) (pc : Addr), s.th.undo = [] →
    (s.th.cprv = false → Entered s (s.trapSync c v pc) c.code.toNat v s.th.pc pc) ∧
    (s.th.cprv = true → let t := s.trapSync c v pc
      t.th.state = .empty ∧ (∀ g, t.th.gr g = s.th.gr g) ∧ t.th.a = s.th.a ∧ SameSpecial { s.th with rel := [], dfr := [] } t.th ∧
        t.mem = s.mem ∧
      ∀ r, (c ≠ .broken ∨ s.cc.bound = false) → s.region? s.cc.rid = some r → (s.regions.filter (·.rid == s.cc.rid)).length = 1 →
        ∃ r' f, t.region? s.cc.rid = some r' ∧ r'.faulted = true ∧ r'.fault = some f ∧
          (r.fault = none → f.tcause = c.code ∧ f.lcore = s.th.lcore ∧
          f.tslot = s.cur.slot) ∧ (∀ x, r.fault = some x → f = x))

/-- R27, R176, R177, R178. scall and ebrk retire, and their trap is taken at the boundary after them, with the operand as TVAL; tret goes
back to TEPC with the privilege, the interrupt enable and the code capability that were saved; trap ends the thread with the region's
unhandled fault, whose cause is TCAUSE and whose software code is its operand. TIMER is taken in U, with TIE set, where CYCLE has reached
TMCMP. -/
def Sys2Proof.Spec.TrapInstructions : Prop :=
  ∀ (p : Src) (s : State) (v : Word), Plain s p → value s p = v → s.th.undo = [] →
    (s.th.cprv = false → ∀ x ∈ [(Instr.scall p, 0x12), (.ebrk p, 0x11)], ∃ t, exec x.1 s = .next t ∧
      Entered s t x.2 v (s.th.wordAt + BitVec.ofNat 48 (4 + p.litBytes)) (s.th.wordAt + BitVec.ofNat 48 (4 + p.litBytes))) ∧
    (s.th.cprv = true → ∀ i ∈ [Instr.scall p, .ebrk p], ∃ t, exec i s = .next t ∧ t.th.state = .empty) ∧
    (∃ t, exec .tret s = .next t ∧ t.th.pc.toNat = s.th.tepc.toNat % 2 ^ 48 / 4 * 4 ∧ t.th.cprv = s.th.pprv ∧ t.th.pprv = s.th.pprv ∧
      t.th.tie = s.th.ptie ∧ t.th.ptie = s.th.ptie ∧ t.th.pcc = s.th.epcc ∧ t.th.state = (if s.th.pprv then .handler else .ready) ∧
      (∀ g, t.th.gr g = s.th.gr g) ∧ t.th.a = s.th.a ∧ t.th.epcc = s.th.epcc ∧ t.th.tepc = s.th.tepc ∧ t.th.tcause = s.th.tcause ∧
        t.th.fpcsr = s.th.fpcsr ∧
      t.mem = s.mem) ∧
    (∃ t, exec (.trap p) s = .next t ∧ t.th.state = .empty ∧ t.mem = s.mem ∧ ∀ r, s.region? s.cc.rid = some r → r.fault = none →
      ∃ r' f, t.region? s.cc.rid = some r' ∧ r'.fault = some f ∧ f.tcause = s.th.tcause ∧ f.soft = v ∧ f.tval = s.th.tval ∧
        f.tepc = s.th.tepc ∧
        f.tfpc = s.th.tfpc) ∧
    (s.timerDue s.th = true → ∃ t, exec .timer s = .next t ∧ Entered s t 0x0E (BitVec.ofNat 64 s.cycle) s.th.pc s.th.pc) ∧
    (s.timerDue s.th = true ↔ s.th.tie = true ∧ s.th.cprv = false ∧ s.th.pfx = none ∧ s.th.state = .ready ∧ s.th.miss = none ∧
      s.th.tmcmp.toNat ≤ s.cycle)

/-- R27, R30, R32, R175-R178. Together: taking a trap, and returning from it. -/
def Obligations.Traps : Prop := Sys2Proof.Spec.TrapEntry ∧ Sys2Proof.Spec.TrapInstructions

/-- R179-R182, R320, R337, R371. The Spool instructions, with no access outstanding: spsave puts the live context in an entry; spload takes
the U part of an entry, and frees it where its operand's bit 0 is 1; swapctx does both at once, the image's whole context becoming live; rth
brings an entry into an EMPTY slot, but for one whose Tether event another core keeps. An index above 63, and an entry of another region,
are MODE; an entry that has been evicted is refilled first. pth asks a sibling in U to stop, and waits. -/
def Obligations.SpoolInstructions : Prop :=
  ∀ (d : Dst) (p q : Src) (s s1 s2 : State) (x y : Word), Ready d s → s.vecBusy s.cur.core s.cur.slot = false → s.th.rel = [] →
    s.th.dfr = [] →
    readSrc p s = .ok (x, s1) → readSrc q s1 = .ok (y, s2) →
    let cl := clusterOf s.cur.core
    let len1 := 4 + p.litBytes
    let len2 := 4 + p.litBytes + q.litBytes
    (64 ≤ x.toNat → (Takes d s1 → ∃ t, exec (.spsave d p) s = .next t ∧ Ends d len1 false 3 s1 t) ∧
      (Takes d s2 → ∃ t, exec (.spload d p q) s = .next t ∧ Ends d len2 false 3 s2 t) ∧
      (64 ≤ y.toNat → (Takes d s2 → ∃ t, exec (.swapctx d p q) s = .next t ∧ Ends d len2 false 3 s2 t))) ∧
    (∀ h : x.toNat < 64, (s1.entry cl ⟨x.toNat, h⟩).foreign s1.cc.rid = true →
      (Takes d s1 → ∃ t, exec (.spsave d p) s = .next t ∧ Ends d len1 false 3 s1 t)) ∧
    (∀ (h : x.toNat < 64) e, s1.entry cl ⟨x.toNat, h⟩ = .out e → e.rid = s1.cc.rid →
      exec (.spsave d p) s = .next (s.parkTh .waitMem (.refill ⟨x.toNat, h⟩))) ∧
    (∀ (h : x.toNat < 64) k, (s1.entry cl ⟨x.toNat, h⟩ = .free ∧ s1.frameFor s1.cc.rid cl = some k) ∨
        (∃ f, s1.entry cl ⟨x.toNat, h⟩ = .frame k f ∧ f.rid = s1.cc.rid) →
      ∀ s3, writeDst d 0 s1 = .ok ((), s3) → ∃ t s4, endDst d len1 Fx.none false s3 = .ok ((), s4) ∧ exec (.spsave d p) s = .next t ∧
        Saved t s.cur.core k (some ⟨x.toNat, h⟩) s4.th ∧ t.th = s4.th ∧ t.mem = s4.mem) ∧
    (∀ (h : x.toNat < 64), s1.entry cl ⟨x.toNat, h⟩ = .free → s1.frameFor s1.cc.rid cl = none →
      (Takes d s1 → ∃ t, exec (.spsave d p) s = .next t ∧ Ends d len1 false 4 s1 t)) ∧
    (∀ (h : x.toNat < 64) k f, s2.entry cl ⟨x.toNat, h⟩ = .frame k f → f.rid = s2.cc.rid → ∃ s3, SameUser s3.th f.img.th ∧
      s3.th.pc = s2.th.pc ∧
      s3.th.pcc = s2.th.pcc ∧ s3.th.tstatus = s2.th.tstatus ∧ s3.th.tepc = s2.th.tepc ∧ s3.mem = s2.mem ∧
      (s3.cluster cl).frames.get k = (if y.getLsbD 0 then none else some f) ∧
        (Takes d s3 → ∃ t, exec (.spload d p q) s = .next t ∧ Ends d len2 false 0 s3 t)) ∧
    (∀ (hx : x.toNat < 64) (hy : y.toNat < 64) ki kj fi fj, s2.entry cl ⟨x.toNat, hx⟩ = .frame ki fi → fi.rid = s2.cc.rid →
      s2.entry cl ⟨y.toNat, hy⟩ = .frame kj fj → fj.rid = s2.cc.rid → fj.img.resume = .run → fj.img.th.inbox = [] →
        s2.eventElsewhere fj = false →
      (x = y ∧ ki = kj) ∨ (x ≠ y ∧ ki ≠ kj ∧ (s2.modFrame cl kj none).entry cl ⟨x.toNat, hx⟩ = .frame ki fi) →
      ∀ s3, writeDst d 0 s2 = .ok ((), s3) → ∃ t s4, endDst d len2 Fx.none false s3 = .ok ((), s4) ∧ exec (.swapctx d p q) s = .next t ∧
        Saved t s.cur.core ki (some ⟨x.toNat, hx⟩) s4.th ∧ (ki ≠ kj → (t.cluster cl).frames.get kj = none) ∧ SameUser t.th fj.img.th ∧
          t.th.pc = fj.img.th.pc ∧
        t.th.pcc = fj.img.th.pcc ∧ t.th.tstatus = fj.img.th.tstatus ∧ t.mem = s4.mem) ∧
    (∀ (hy : y.toNat < 64) k f m, m = (BitVec.ofNat 3 x.toNat).toFin → m ≠ s2.cur.slot → s2.entry cl ⟨y.toNat, hy⟩ = .frame k f →
      f.rid = s2.cc.rid →
      f.img.resume = .run → f.img.th.inbox = [] → s2.eventElsewhere f = false → (s2.thAt s.cur.core m).state = .empty → ∃ s3,
        SameUser (s3.thAt s.cur.core m) f.img.th ∧
        (s3.thAt s.cur.core m).pc = f.img.th.pc ∧ (s3.thAt s.cur.core m).state = (if f.img.th.cprv then .handler else .ready) ∧
        (s3.cluster cl).frames.get k = none ∧ s3.th = s2.th ∧ s3.mem = s2.mem ∧
          (Takes d s3 → ∃ t, exec (.rth d p q) s = .next t ∧ Ends d len2 false 0 s3 t)) ∧
    (∀ (hy : y.toNat < 64) k f, s2.entry cl ⟨y.toNat, hy⟩ = .frame k f → f.rid = s2.cc.rid → s2.eventElsewhere f = true →
      (Takes d s2 → ∃ t, exec (.rth d p q) s = .next t ∧ Ends d len2 false 3 s2 t)) ∧
    (∀ (hy : y.toNat < 64) m, m = (BitVec.ofNat 3 x.toNat).toFin → (s2.entry cl ⟨y.toNat, hy⟩ = .free ∨ ∃ k f,
      s2.entry cl ⟨y.toNat, hy⟩ = .frame k f ∧ f.rid = s2.cc.rid) →
      (m = s2.cur.slot ∨ (s2.thAt s.cur.core m).state = .empty ∨ (s2.thAt s.cur.core m).cprv = true →
        (Takes d s2 → ∃ t, exec (.pth d p q) s = .next t ∧ Ends d len2 false 3 s2 t)) ∧
      (m ≠ s2.cur.slot → (s2.thAt s.cur.core m).state ≠ .empty → (s2.thAt s.cur.core m).state ≠ .hold →
        (s2.thAt s.cur.core m).cprv = false →
        (s2.thAt s.cur.core m).pre = none → (∃ k, s2.entryFrame s2.cc.rid cl ⟨y.toNat, hy⟩ = .ok k) → dstCheck d s2 = .ok ((), s2) →
        ∃ t, exec (.pth d p q) s = .next t ∧
        (t.thAt s.cur.core m).pre = some (.pth s.cur.slot y.toNat) ∧ t.th.state = .waitMem ∧ t.th.wait = .pth d len2 ∧ t.mem = s2.mem))

/-- R179, R369, R370, R373-R377, R379. A pre-empted thread that has popped nothing leaves its slot EMPTY with its context in a frame, and a
slot of q4 or q5 that its parked read was owed stays reserved: on the same core its words come into the receive buffer, from another core it
goes back to the head. Where no frame can be given and its region has no save area, a slice's thread is held instead. A region's slice that
is over asks every thread; when it goes on its images come back. A frame is evicted to the save area, is FREE after the write, and is pinned
while a fault holds it; an evicted image comes back into a frame. -/
def Obligations.PreemptionAndSpool : Prop :=
  ∀ (s : State), let cl := clusterOf s.cur.core
    let rid := s.cc.rid
    let k := (⟨s.cur.idx % 64, Nat.mod_lt _ (by decide)⟩ : Fin 64)
    (∀ f, s.takeable s.cur.core s.cur.slot = true → s.th.state ≠ .empty → (s.th.pre = some .slice ∨ s.th.pre = some .hypervisor) →
      s.th.undo = [] →
      (∀ b len x, s.th.wait = .send b len x false → x = Fx.none) → s.frameFor rid cl = some f → ∃ t, exec .preemptThread s = .next t ∧
        t.th.state = .empty ∧ t.th.pre = none ∧ Saved t s.cur.core f none s.th ∧ t.mem = s.mem) ∧
    (s.takeable s.cur.core s.cur.slot = true → s.th.state ≠ .empty → s.th.pre = some .slice → s.frameFor rid cl = none →
      s.saveArea rid = 0 →
      (s.ccl.framesOf rid).all (fun f => f.st != .evicting) = true → s.th.undo = [] → ∃ t, exec .preemptThread s = .next t ∧
        t.th.state = .hold ∧
        t.th.pre = none ∧ (∀ g, t.th.gr g = s.th.gr g) ∧ t.th.pc = s.th.pc ∧ t.mem = s.mem) ∧
    (∀ r, s.region? s.cur.idx = some r → r.loop = none → s.sliceOver r = true → ∃ t, exec .sliceEnd s = .next t ∧ t.mem = s.mem ∧
      (∀ r', t.region? r.rid = some r' → r'.paused = true) ∧
      ∀ n c, (n, c) ∈ s.cores → c.bound = true → c.rid = r.rid → (s.cores.map Prod.fst).Nodup → ∀ j, (s.thAt n j).state ≠ .empty →
        (s.thAt n j).wait ≠ .back → ((t.thAt n j).pre).isSome = true) ∧
    (∀ r, s.region? s.cur.idx = some r → r.loop = none → s.canResume r = true → ∃ t, exec .sliceResume s = .next t ∧
      (s.clusters.all (fun x => (x.2.framesOf r.rid).isEmpty) = true → ∀ r', t.region? r.rid = some r' → r'.paused = false ∧
        r'.sliceAt = s.cycle)) ∧
    (s.th.state ≠ .empty → s.th.wait ≠ .back → s.th.pre = none → exec .hypervisorPreempt s =
      .next (s.setTh { s.th with pre := some .hypervisor })) ∧
    (∀ f, (s.cluster cl).frames.get k = some f →
      (s.evictDue cl k = true → exec .spoolEvict s = .next (s.modFrame cl k (some { f with st := .evicting }))) ∧
      (∀ ts s1, f.st = .evicting → s.granules (s.leafAgent f.core) (s.saveAddr f).toNat .write 128 = .ok (ts, s1) → ∃ t,
        exec .evictionDone s = .next t ∧
        (t.cluster cl).frames.get k = none ∧ (∃ e ∈ (t.cluster cl).evicted, e.rid = f.rid ∧ e.index = f.index ∧ e.addr = s.saveAddr f) ∧
        t.mem = (s1.writeImage (s.leafAgent f.core) f.img ts).mem) ∧
      (∀ ipa kind, f.st = .evicting → s.granules (s.leafAgent f.core) (s.saveAddr f).toNat .write 128 = .error (.stage2 ipa kind) →
        ∃ t, exec .evictionDone s = .next t ∧ (t.cluster cl).frames.get k = some { f with st := .pinned }) ∧
      (s.pinResolved cl k f = true → exec .framePinResolved s = .next (s.modFrame cl k (some { f with st := .evicting })))) ∧
    (∀ (e : Fin 2) w r f, s.takeable s.cur.core s.cur.slot = true → s.th.state ≠ .empty → s.th.pre = some .slice → s.th.undo = [] →
      s.th.inbox = [] → let e4 : Fin 4 := ⟨e.val, by omega⟩
      s.th.wait = .popq e4 → s.cc.before s.cur.slot e4 = 0 → (s.cc.ep.get e4).slots = w :: r → (s.cc.ep.get e4).kept = [] →
        s.frameFor rid cl = some f →
      (s.ccl.frames.get f).isNone = true → ∃ t x, exec .preemptThread s = .next t ∧ (t.cc.ep.get e4).slots = r ∧
        (t.cc.ep.get e4).kept = [(0, w)] ∧
        (t.ccl.frames.get f).map (·.img.th.inbox) = some [x] ∧
        ((t.giveInbox s.cur.core s.cur.slot s.cur.core x).th.rbuf.get e = t.th.rbuf.get e ++
            [w.extractLsb' 0 64, w.extractLsb' 64 64, w.extractLsb' 128 64, w.extractLsb' 192 64] ∧
          ((t.giveInbox s.cur.core s.cur.slot s.cur.core x).cc.ep.get e4).kept = []) ∧
        ∀ n k, n ≠ s.cur.core → (t.core n).bound = true → ((t.giveInbox n k s.cur.core x).cc.ep.get e4).slots = w :: r ∧
          (t.giveInbox n k s.cur.core x).mem = t.mem) ∧
    (∀ e i img s1 fr, s.holds (.refill s.cur.core s.cur.slot) = false → s.th.wait = .refill i →
      s.ccl.evicted.find? (fun e => e.index == some i) = some e → e.index = some i → e.core = s.cur.core →
      s.refill e = .ok (img, s1) → s1.clusters = s.clusters → s.ccl.freeFrame = some fr → ∃ t, exec .spoolRefillDone s = .next t ∧
        (∃ f, (t.cluster cl).frames.get fr = some f ∧ f.img = img ∧ f.index = some i ∧ f.st = .held ∧ f.rid = e.rid) ∧
          t.th.wait = .reissue ∧ t.mem = s1.mem)

/-! ## The front end: dispatch, blocks, launches, completion and teardown -/

namespace Sys2Proof.Spec

/-- An event that ends a block with a status, a reason and an exit code, what it reports being written from the state s2. Where the report
meets a stage-2 fault, the fault is recorded in the state before the event, which comes again (R366, R367, R394). -/
def Reports (i : Instr) (b : Block) (status reason exit : Nat) (summary finfo : Word) (rid : Option Nat) (s s2 : State) : Prop :=
  ∃ u, exec i s = .next u ∧ (∀ v, feComplete b status reason exit summary finfo rid s2 = .ok ((), v) → u = v) ∧
    (∀ t a k, feComplete b status reason exit summary finfo rid s2 = .error (.held t a k) → u = s.logFault t a k (some (.block b.seq)))

/-- The front end is at work on block b, of a type: it is the one the event names. -/
def At (s : State) (typ : Nat) (b : Block) : Prop := s.block? s.cur.idx false = some b ∧ b.active = true ∧ b.doomed = false ∧ b.typ = typ

/-- The header has only bits of a set, no byte from an offset on is set, and CREC, CFLAG and MSIX lie in their maps (R357). -/
def Laid (s : State) (b : Block) (bits : Nat → Bool) (off : Nat) : Prop :=
  (∀ i, i < 64 → b.raw.getLsbD i = true → bits i = true) ∧ b.raw.toNat / 2 ^ (8 * off) = 0 ∧ (s.compOf b.tenant false b.raw).2 = true

/-- TYPE and FENCE alone (R357). -/
def plainHeader (i : Nat) : Bool := decide (i < 9)

/-- The doubleword of a block at an offset (R357). -/
def at64 (raw : BitVec 1024) (off : Nat) : Nat := raw.toNat / 2 ^ (8 * off) % 2 ^ 64

/-- The front end as an agent of a block (R367, R391). -/
def agentFor (s : State) (b : Block) : Agent := feAgent b.tenant (s.anchorOf b.src)

/-- The record of a block written from s, leaving s1: at CREC, unless its page faults (R366, R367). -/
def RecordAt (s : State) (b : Block) (bytes : List Byte) (s1 : State) : Prop :=
  (b.comp.crec = 0 ∧ s1 = s) ∨
  (b.comp.crec ≠ 0 ∧ b.comp.crec.toNat % 32 = 0 ∧
    ((∃ t s0, fePlace (agentFor s b) b.comp.crec.toNat 32 .write .page s = .ok (t, s0) ∧ s1 = s0.writeAt (agentFor s b) t bytes 0x01) ∨
     (fePlace (agentFor s b) b.comp.crec.toNat 32 .write .page s = .error .page ∧ s1 = s)))

/-- CFLAG of a block written from s, leaving s1: its word is full, and those who wait for it are served (R367). -/
def FlagAt (s : State) (b : Block) (v : Word) (s1 : State) : Prop :=
  (b.comp.cflag = 0 ∧ s1 = s) ∨
  (b.comp.cflag ≠ 0 ∧ inSlices b.comp.cflag.toNat = true ∧
    ((∃ c off, s.target b b.comp.cflag.toNat = some (c, off) ∧
        s1 = ((s.writeAt (agentFor s b) (.sram c off) (lowBytes 8 v.toNat) 0x03).setFull (sramKey c off) true).feServeAll c (sramKey c off)) ∨
     (s.target b b.comp.cflag.toNat = none ∧ s1 = s)))

/-- A launch event is at work on block b. -/
def Launching (s : State) (b : Block) : Prop := s.launchBlock? = some b ∧ b.active = true ∧ b.doomed = false ∧ b.typ = 1 ∧ b.rid = none

/-- The sum of the first n stages' cores. -/
def coresBefore (l : List Stage) (n : Nat) : Nat := ((l.take n).map (·.cores)).foldl (· + ·) 0

/-- The stage at an index of a region. -/
def stageOf (t : State) (rid i : Nat) : Option Stage := (t.region? rid).bind (fun r => r.stages[i]?)

/-- Whether a tag place (R18). -/
def tagged : Tgt → Bool
  | .sram _ _ | .hbm _ => true
  | _ => false

end Sys2Proof.Spec

/-- R366, R367. The end of a block: CSTAT, SUMMARY, FINFO and USER at CREC; then CSTAT at CFLAG, as by stf, in the numbering of the anchor
that is left once the record is written; then the interrupt; and the block is gone. A field that is 0 writes nothing, and neither does one
whose address reaches nothing. A block that is silent, and a sub-launch, report nothing. -/
def Obligations.CompletionRecord : Prop :=
  ∀ (b : Block) (status reason exit : Nat) (sum fin : Word) (rid : Option Nat) (s s1 s3 : State), status < 256 → reason < 256 → exit < 256 →
    let cstat : Word := BitVec.ofNat 64 (status + reason * 2 ^ 8 + exit * 2 ^ 16 + b.seq.toNat * 2 ^ 32)
    let anchored := fun x : State => (rid.map x.dropAnchor).getD x
    (b.silent = true ∨ b.src.isSub = true → ∃ u, feComplete b status reason exit sum fin rid s = .ok ((), u) ∧
      (∀ x ∈ u.blocks, x.same b = false) ∧
      u.mem = s.mem ∧ u.out = s.out ∧ u.tags = s.tags ∧ u.empties = s.empties ∧ u.cores = s.cores ∧ u.regions = s.regions) ∧
    (b.silent = false → b.src.isSub = false →
      RecordAt s b (lowBytes 32 (cstat.toNat + sum.toNat * 2 ^ 64 + fin.toNat * 2 ^ 128 + b.comp.user.toNat * 2 ^ 192)) s1 →
      FlagAt (anchored s1) b cstat s3 → ∃ u, feComplete b status reason exit sum fin rid s = .ok ((), u) ∧
        (∀ x ∈ u.blocks, x.same b = false) ∧
        u.mem = s3.mem ∧ u.tags = s3.tags ∧ u.empties = s3.empties ∧ u.cores = s3.cores ∧ u.regions = s3.regions ∧
        u.out = (match b.comp.msix with | some vec => (s3.raise b.fn vec).out | none => s3.out))

/-- R355, R356, R366. A dispatch takes the head block of an eligible queue of the highest priority that anything eligible has: the block
gets the next sequence number, HEAD moves by one, and the block is at work; a NOP is complete with its dispatch. From the intake, the head
block starts its work. -/
def Obligations.Dispatch : Prop :=
  ∀ (s : State),
    (∀ t n s1, s.chooseQueue = some (t, n, s1) → ∃ pr, (pr, t, n) ∈ s.candidates ∧ ∀ x ∈ s.candidates, x.1 ≤ pr) ∧
    (s.chooseQueue = none → exec .dispatch s = .next s) ∧
    (∀ t n s1, s.chooseQueue = some (t, n, s1) → n ≠ 4096 → (s.queue n).inHost = true →
      let q := s.queue n
      let raw := blockOf (Memory.readN s.mem (2 ^ 50 + (q.qbase.toNat % 2 ^ 48 + 128 * (q.head.toNat % 2 ^ q.log2n))) 128)
      raw.toNat % 256 = 0 → ∃ u b s3, exec .dispatch s = .next u ∧ b.seq = s.seq ∧ b.src = .queue n ∧ b.raw = raw ∧
        s3.blocks = s.blocks ++ [b] ∧
        (s3.queue n).head = q.head + 1 ∧ s3.seq = s.seq + 1 ∧ s3.mem = s.mem ∧ ∀ v, feComplete b 0 0 0 0 0 none s3 = .ok ((), v) → u = v) ∧
    (∀ t n s1, s.chooseQueue = some (t, n, s1) → n ≠ 4096 → (s.queue n).inHost = true →
      let q := s.queue n
      let raw := blockOf (Memory.readN s.mem (2 ^ 50 + (q.qbase.toNat % 2 ^ 48 + 128 * (q.head.toNat % 2 ^ q.log2n))) 128)
      1 ≤ raw.toNat % 256 → raw.toNat % 256 ≤ 9 → (raw.toNat % 256 = 7 ∨ raw.toNat % 256 = 8 → q.fn = 0) →
        (raw.toNat % 256 = 8 → 1 ≤ headOp raw ∧ headOp raw ≤ 7) →
        ∃ u, exec .dispatch s = .next u ∧ (u.queue n).head = q.head + 1 ∧ (u.queue n).tail = q.tail ∧ u.seq = s.seq + 1 ∧ u.mem = s.mem ∧
          ∃ b, u.blocks = s.blocks ++ [b] ∧ b.seq = s.seq ∧ b.src = .queue n ∧ b.raw = raw ∧ b.typ = raw.toNat % 256 ∧ b.active = true ∧
            b.parsed = false ∧ b.fn = q.fn ∧ b.tenant = BitVec.ofNat 6 t ∧ b.at_ = s.cycle) ∧
    (∀ t s1 b, s.chooseQueue = some (t, 4096, s1) → s.intakeHead (BitVec.ofNat 6 t) = some b → ∃ u, exec .dispatch s = .next u ∧
      u.mem = s.mem ∧ u.seq = s.seq ∧ ∃ x ∈ u.blocks, x.seq = b.seq ∧ x.raw = b.raw ∧ x.active = true ∧ x.at_ = s.cycle)

/-- R357. The blocks that bind nothing, at work: NOP ends with OK; WAITW waits until its word is full, is CANCELLED where its address names
no core, and ends with TIMEOUT at its limit; SIGNAL stores, by stf at a slice; TSTAMP stores the CYCLE of its dispatch. A field outside its
map is REJECT with FORMAT. -/
def Sys2Proof.Spec.PlainBlocks : Prop :=
  ∀ (s : State) (b : Block),
    (At s 0 b → Reports .nopBlock b 0 0 0 0 0 none s s) ∧
    (At s 3 b → b.parsed = false → let a := at64 b.raw 0x08
      let us := at64 b.raw 0x10
      (¬ (Laid s b plainHeader 0x38 ∧ inSlices a = true) → Reports .waitwBlock b 1 8 0 0 0 none s s) ∧
      (Laid s b plainHeader 0x38 → inSlices a = true →
        let s2 := s.setBlock { b with parsed := true, deadline := if us = 0 then none else some (b.at_ + us * 800) }
        (s.target b a = none → Reports .waitwBlock b 2 0 0 0 0 none s s) ∧
        (∀ c off, s.target b a = some (c, off) → s.full (sramKey c off) = true → Reports .waitwBlock b 0 0 0 0 0 none s s2) ∧
        (∀ c off, s.target b a = some (c, off) → s.full (sramKey c off) = false → exec .waitwBlock s = .next s2))) ∧
    (At s 3 b → b.parsed = true → let a := at64 b.raw 0x08
      (s.target b a = none → Reports .waitwBlock b 2 0 0 0 0 none s s) ∧
      (∀ c off, s.target b a = some (c, off) → s.full (sramKey c off) = true → Reports .waitwBlock b 0 0 0 0 0 none s s) ∧
      (∀ c off, s.target b a = some (c, off) → s.full (sramKey c off) = false → exec .waitwBlock s = .next s)) ∧
    (At s 3 b → ∀ d, b.deadline = some d → d ≤ s.cycle → let a := at64 b.raw 0x08
      (s.target b a = none → Reports .waitwBlockTimeout b 2 0 0 0 0 none s s) ∧
      (∀ c off, s.target b a = some (c, off) → s.full (sramKey c off) = true → Reports .waitwBlockTimeout b 0 0 0 0 0 none s s) ∧
      (∀ c off, s.target b a = some (c, off) → s.full (sramKey c off) = false → Reports .waitwBlockTimeout b 5 0 0 0 0 none s s)) ∧
    (At s 3 b → (∀ d, b.deadline = some d → s.cycle < d) → exec .waitwBlockTimeout s = .next s) ∧
    (At s 4 b → let a := at64 b.raw 0x08
      let slice := decide (0x400000000000 ≤ a ∧ a < 0x500000000000)
      let formed := Laid s b plainHeader 0x38 ∧ a < 2 ^ 48 ∧ (slice = true → inSlices a = true)
      (¬ formed → Reports .signal b 1 8 0 0 0 none s s) ∧
      (formed → slice = true → s.target b a = none → Reports .signal b 2 0 0 0 0 none s s) ∧
      (formed → (slice = true → s.target b a ≠ none) → ∀ s2, feStf (agentFor s b) a (BitVec.ofNat 64 (at64 b.raw 0x10)) (.reject 8) s =
        .ok ((), s2) →
        Reports .signal b 0 0 0 0 0 none s s2) ∧
      (formed → (slice = true → s.target b a ≠ none) → feStf (agentFor s b) a (BitVec.ofNat 64 (at64 b.raw 0x10)) (.reject 8) s =
        .error (.reject 8) →
        Reports .signal b 1 8 0 0 0 none s s)) ∧
    (At s 5 b → let a := at64 b.raw 0x08
      let formed := Laid s b plainHeader 0x38 ∧ a < 2 ^ 48 ∧ a % 8 = 0 ∧ at64 b.raw 0x10 = 0
      (¬ formed → Reports .tstamp b 1 8 0 0 0 none s s) ∧
      (formed → ∀ s2, feWrite (agentFor s b) a (lowBytes 8 b.at_) (.reject 8) s = .ok ((), s2) → Reports .tstamp b 0 0 0 0 0 none s s2))

/-- R357, R394, R395, R400. INVAL drops the cached translations of the tenant that overlap its range, by the address of the stage, and with
stage 2 releases the accesses held there; stage 2 is the PF's. DIRTYSNAP writes a tenant's dirty bits of a window to host memory, bit j of
byte i for granule 8 i + j, and clears them. SEAL sets the tag of every granule of its range that is not zero and clears the others', where
all are of the tenant with their reserved bits zero. -/
def Sys2Proof.Spec.MaintenanceBlocks : Prop :=
  ∀ (s : State) (b : Block),
    (At s 6 b → let stages := b.raw.toNat / 2 ^ 16 % 4
      let base := at64 b.raw 0x08
      let len := at64 b.raw 0x10
      let hit := fun x size : Nat => x < base + len ∧ base < x + size
      let formed := Laid s b (fun i => decide (i < 9 ∨ i = 16 ∨ i = 17)) 0x38 ∧ stages ≠ 0
      (¬ formed → Reports .inval b 1 8 0 0 0 none s s) ∧
      (formed → stages ≠ 1 → b.fn ≠ 0 → Reports .inval b 1 9 0 0 0 none s s) ∧
      (formed → stages = 1 ∨ b.fn = 0 → ∃ s2, s2.mem = s.mem ∧
        (∀ e, e ∈ s2.mtu ↔ e ∈ s.mtu ∧ ¬ (e.tenant = b.tenant ∧ ((stages % 2 = 1 ∧ e.kind ≠ .stage2 ∧ hit e.va e.size) ∨
          (2 ≤ stages ∧ e.kind ≠ .stage1 ∧ hit e.ipa e.size)))) ∧
        (∀ f, f ∈ s2.xfaults ↔ f ∈ s.xfaults ∧ ¬ (f.tenant = b.tenant ∧ 2 ≤ stages ∧ hit f.ipa 1)) ∧
          Reports .inval b 0 0 0 0 0 none s s2)) ∧
    (At s 7 b → let t := at64 b.raw 0x08
      let addr := at64 b.raw 0x10
      let base := at64 b.raw 0x38
      let n := at64 b.raw 0x40
      let formed := Laid s b plainHeader 0x48 ∧ t < 64 ∧ addr < 2 ^ 48 ∧ base % 65536 = 0 ∧ base < 2 ^ 48 ∧ 64 ≤ n ∧ n ≤ 2 ^ 22 ∧ n % 64 = 0
      (¬ formed → Reports .dirtysnap b 1 8 0 0 0 none s s) ∧
      (formed → s.part? t = none → Reports .dirtysnap b 1 6 0 0 0 none s s) ∧
      (∀ p, formed → s.part? t = some p → p.dtrk = false → Reports .dirtysnap b 1 8 0 0 0 none s s) ∧
      (∀ p, formed → s.part? t = some p → p.dtrk = true → Memory.wf s.mem = true → ∃ s2, Reports .dirtysnap b 0 0 0 0 0 none s s2 ∧
        (∀ g, (BitVec.ofNat 6 t, g) ∈ s2.dirty ↔ (BitVec.ofNat 6 t, g) ∈ s.dirty ∧ ¬ (base / 65536 ≤ g ∧ g < base / 65536 + n)) ∧
        (∀ u g, u ≠ BitVec.ofNat 6 t → ((u, g) ∈ s2.dirty ↔ (u, g) ∈ s.dirty)) ∧
        (∀ i j, i < n / 8 → j < 8 → ((Memory.read s2.mem (2 ^ 50 + addr + i)).getLsbD j = true ↔
          (BitVec.ofNat 6 t, base / 65536 + 8 * i + j) ∈ s.dirty)))) ∧
    (At s 9 b → let a := at64 b.raw 0x08
      let n := at64 b.raw 0x10
      let formed := Laid s b plainHeader 0x38 ∧ a < 2 ^ 48 ∧ a % 16 = 0 ∧ 1 ≤ n ∧ n ≤ 65536
      (¬ formed → Reports .seal b 1 8 0 0 0 none s s) ∧
      (formed → ∀ x, sealCheck (agentFor s b) a n s = .error (.reject x) → Reports .seal b 1 x 0 0 0 none s s) ∧
      (formed → ∀ l s1, sealCheck (agentFor s b) a n s = .ok (l, s1) → (l.map (fun x => x.1.key)).Nodup → ∃ s2,
        Reports .seal b 0 0 0 0 0 none s s2 ∧
        s2.mem = s1.mem ∧ ∀ g, g ∈ s2.tags ↔ (∃ x ∈ l, tagged x.1 = true ∧ x.2 = true ∧ x.1.key / 16 = g) ∨
          (g ∈ s1.tags ∧ ¬ ∃ x ∈ l, tagged x.1 = true ∧ x.1.key / 16 = g))) ∧
    (∀ ag a n t s1, fePlace ag a 16 .write (.reject 8) s = .ok (t, s1) → let c := little (s1.readAt ag.tenant t 16)
      c ≠ 0 → c / 2 ^ 116 % 2 ^ 12 ≠ 0 ∨ c / 2 ^ 107 % 2 ^ 6 ≠ ag.tenant.toNat → sealCheck ag a (n + 1) s = .error (.reject 6))

/-- R357, R394, R395, R400. Together: the blocks that bind nothing. -/
def Obligations.FrontEndBlocks : Prop := Sys2Proof.Spec.PlainBlocks ∧ Sys2Proof.Spec.MaintenanceBlocks

/-- R295, R357-R360, R366. A host's LAUNCH block is parsed once: a breach is REJECT with the reason that comes first in FORMAT, DEPTH,
TENANT, THREADS, SRAM, CORES, CHANNELS, LOOKAHEAD, and nothing is bound. A stage descriptor gives the fields of its map, and the reasons
against it. -/
def Obligations.LaunchValidation : Prop :=
  (∀ (l : List Nat) (x : Nat), firstReason l = some x → x ∈ l ∧ x ∈ [8, 5, 6, 1, 2, 3, 4, 7] ∧
    ∀ y ∈ l, y ∈ [8, 5, 6, 1, 2, 3, 4, 7] → [8, 5, 6, 1, 2, 3, 4, 7].idxOf x ≤ [8, 5, 6, 1, 2, 3, 4, 7].idxOf y) ∧
  (∀ (s s1 : State) (b : Block) (p : Part) (r : Region) (bad : List Nat) (x : Nat), Launching s b → b.spec = none → b.waiting = false →
    s.part? b.tenant.toNat = some p →
    (¬ (Laid s b (fun i => decide (i < 9 ∨ (16 ≤ i ∧ i < 24))) 0x38 ∧ headOp b.raw ≠ 0 ∧ at64 b.raw 0x08 < 2 ^ 48 ∧
      at64 b.raw 0x08 % 256 = 0 ∧
        at64 b.raw 0x10 < 2 ^ 48 ∧ at64 b.raw 0x10 % 128 = 0) → Reports .launchBlock b 1 8 0 0 0 none s s) ∧
    (parseLaunch (agentFor s b) p true (s.partValues p) (s.usable p) b.raw false s = .ok ((r, bad), s1) → firstReason bad = some x →
      Reports .launchBlock b 1 x 0 0 0 none s s) ∧
    (parseLaunch (agentFor s b) p true (s.partValues p) (s.usable p) b.raw false s = .error (.reject x) →
      Reports .launchBlock b 1 x 0 0 0 none s s) ∧
    (parseLaunch (agentFor s b) p true (s.partValues p) (s.usable p) b.raw false s = .ok ((r, bad), s1) → firstReason bad = none →
      s1.blocks = s.blocks → let b1 := { b with parsed := true, spec := some r }
      let s2 := s1.setBlock b1
      s2.heldBack b1 = false → ∀ got u, s2.place? r = some got → bindRegion b1 r got s2 = .ok ((), u) → exec .launchBlock s = .next u)) ∧
  (∀ (ag : Agent) (p : Part) (host : Bool) (r : Region) (a : Nat) (s s1 s2 : State) (bs : List Byte) (st : Stage) (bad : List Nat),
    feRead ag a 512 badFormat s = .ok (bs, s2) → parseStage ag p host r a s = .ok ((st, bad), s1) →
    let w := fun off : Nat => little ((bs.drop off).take 8)
    st.entry.toNat = w 0 % 2 ^ 48 ∧ st.threads = w 0 / 2 ^ 48 % 16 ∧ (st.ringed = true ↔ w 0 / 2 ^ 52 % 2 = 1) ∧ st.cores = w 8 % 2 ^ 20 ∧
    st.sram = w 8 / 2 ^ 20 % 2 ^ 16 ∧ st.imgAddr.toNat = w 0x10 % 2 ^ 48 ∧ st.imgLen = w 0x10 / 2 ^ 48 ∧ st.raddr.toNat = w 0x50 % 2 ^ 48 ∧
    (∀ i : Fin 8, (st.args.get i).toNat = w (0x80 + 8 * i.val)) ∧
    (∀ e : Fin 4, st.eps.get e = (w 0x40 / 2 ^ (16 * e.val) % 2 ^ 7, w 0x40 / 2 ^ (16 * e.val + 7) % 2 ^ 9)) ∧
    (1 ∈ bad ↔ ¬ (1 ≤ st.threads ∧ st.threads ≤ 8 ∧ st.threads ≤ r.threads)) ∧
      (2 ∈ bad ↔ ¬ (st.sram ≤ 49152 ∧ st.sram ≤ r.sram ∧ st.imgLen ≤ st.sram)) ∧
    (3 ∈ bad ↔ st.ringed = true ∧ st.cores % 16 ≠ 0) ∧ (4 ∈ bad ↔ ∃ e, 64 < (st.eps.get e).1) ∧
    (st.entry.toNat % 4 ≠ 0 ∨ st.cores = 0 → 8 ∈ bad))

/-- R10, R11, R22, R126, R277, R278, R361, R362. A validated launch that nothing holds back binds: its stages take their cores in the order
of SIDX, and every thread of a core stands at the entry with the stage's arguments and capabilities; its slices hold the image and zeros,
without tags, every word full. Then its stages are released, one group joined by channels both ways after another, every group that a group
sends to before it: the threads of each core below the stage's thread count become READY, and with the last group the region runs. Without
cores, or behind an earlier launch, it waits, and binds when it can. Where an image cannot be read, the loop of a sub-launch ends with FAULT
(R347), and another region faults with cause PAGE (the model's choice, log entry 59). -/
def Sys2Proof.Spec.LaunchBinds : Prop :=
  ∀ (s : State) (b : Block) (spec : Region), Launching s b → b.spec = some spec →
    (b.waiting = false → s.heldBack b = true ∨ s.place? spec = none → ∃ u, exec .launchBlock s = .next u ∧ u.cores = s.cores ∧
      u.mem = s.mem ∧
      u.regions = s.regions ∧ ∃ x ∈ u.blocks, x.same b = true ∧ x.waiting = true ∧ x.spec = some spec ∧ x.rid = none) ∧
    (∀ got u, s.heldBack b = false → s.place? spec = some got → bindRegion b spec got s = .ok ((), u) →
      (b.waiting = false → exec .launchBlock s = .next u) ∧ (b.waiting = true → s.holds (.block b.seq) = false →
        exec .launchBindRetry s = .next u)) ∧
    (∀ got u imgs s0, bindRegion b spec got s = .ok ((), u) → let top := match s.parentOf spec with | some p => p.top | none => s.fresh
      readImages (feAgent spec.tenant top) (s.numbered b spec got).stages s = .ok (some imgs, s0) → s0.fresh = s.fresh → got.flatten.Nodup →
        (∀ st ∈ spec.stages, st.imgLen ≤ 49152) → Memory.wf s.mem = true →
      (∃ x ∈ u.blocks, x.same b = true ∧ x.rid = some s.fresh ∧ x.waiting = false) ∧ u.fresh = s.fresh + 1 ∧
      ∃ r ∈ u.regions, r.rid = s.fresh ∧ r.phase = .binding ∧ r.seq = b.seq ∧ r.parent = spec.parent ∧ r.depth = spec.depth ∧
        r.faulted = spec.faulted ∧
        r.stages.length = spec.stages.length ∧
        (∀ (i : Nat) (st st0 : Stage), r.stages[i]? = some st → spec.stages[i]? = some st0 → st.released = st0.released) ∧
        ∀ i st l j n, spec.stages[i]? = some st → got[i]? = some l → l[j]? = some n →
          let c := u.core n
          c.bound = true ∧ c.rid = s.fresh ∧ c.stage = i ∧ c.sidx = j ∧ c.scnt = st.cores ∧ c.tenant = spec.tenant ∧
          c.lcore = r.first + coresBefore spec.stages i + j ∧ c.done = false ∧ c.accown = 0 ∧ (∀ k, c.acc.get k = 0) ∧
            (∀ k, c.latch.get k = 0) ∧
          (∀ k : Fin 8, let t := u.thAt n k
            t.state = .empty ∧ t.lcore = c.lcore ∧ t.pc = st.entry ∧ t.pcc = st.pcc ∧ t.cprv = false ∧
            (∀ i : Fin 32, t.g.get i = (if h : 1 ≤ i.val ∧ i.val ≤ 8 then st.args[i.val - 1]'(by omega) else 0)) ∧
            (∀ i : Fin 16, st.slcm.getLsbD i.val = false → t.a.get i = st.caps.get i) ∧ t.tvec = spec.tvec ∧ t.jseed = spec.jseed ∧
            t.ctxid.toNat = k.val ∧ t.srstrm.toNat = k.val ∧ t.srctr = 0 ∧ t.fpcsr = 0 ∧ (∀ i, t.v.get i = 0) ∧ (∀ i, t.k.get i = 0)) ∧
          (∀ off, st.imgLen ≤ off → off < 49152 → Memory.read u.mem (2 ^ 48 + n * 0x10000 + off) = 0) ∧
          (∀ g ∈ u.tags, ¬ ((2 ^ 48 + n * 0x10000) / 16 ≤ g ∧ g < (2 ^ 48 + n * 0x10000 + 49152) / 16)) ∧
          (∀ off, off < 49152 → u.full (2 ^ 48 + n * 0x10000 + off) = true)) ∧
    (∀ st l u img s0, spec.stages = [st] → bindRegion b spec [l] s = .ok ((), u) → l.Nodup → st.imgLen ≤ 49152 → Memory.wf s.mem = true →
      feRead (feAgent spec.tenant (match s.parentOf spec with | some p => p.top | none => s.fresh)) st.imgAddr.toNat st.imgLen .page s =
        .ok (img, s0) →
      ∀ n ∈ l, ∀ off, off < st.imgLen → some (Memory.read u.mem (2 ^ 48 + n * 0x10000 + off)) = img[off]?) ∧
    (∀ got s0, s.heldBack b = false → s.place? spec = some got → b.waiting = false →
      readImages (feAgent spec.tenant (match s.parentOf spec with | some p => p.top | none => s.fresh)) (s.numbered b spec got).stages s =
        .ok (none, s0) →
      ∃ u, exec .launchBlock s = .next u ∧ u.mem = s0.mem ∧ u.cores = s0.cores ∧
        (∀ p r l, b.src = .ballast p → s0.region? p = some r → r.loop = some l → ∃ r' l', u.region? p = some r' ∧ r'.loop = some l' ∧
          l'.pos = .exit ∧
          l'.code = 5 ∧ l'.fault = none ∧ l'.sub = none ∧ ∀ x ∈ u.blocks, x.same b = false) ∧
        (b.src.isSub = false → ∃ r ∈ u.regions, r.rid = s.fresh ∧ r.faulted = true ∧ ∃ f, r.fault = some f ∧ f.tcause = 8)) ∧
    (∀ r : Region, r.nextGroup = none ↔ ∀ i st, r.stages[i]? = some st → st.released = true ∨
      ¬ releasable r.stages (channelEdges r.stages) i) ∧
    (∀ (r : Region) g, r.nextGroup = some g → ∀ i ∈ g, ∀ e ∈ channelEdges r.stages, e.1 = i → e.2 ∈ g ∨ ∀ st, r.stages[e.2]? = some st →
      st.released = true) ∧
    (∀ b r g, s.launchBlock? = some b → b.active = true → b.doomed = false → b.typ = 1 → b.waiting = false → b.rid = some r.rid →
      s.region? r.rid = some r → r.phase = .binding → r.paused = false → r.faulted = false → r.nextGroup = some g →
        (s.cores.map Prod.fst).Nodup →
      (r.stages.flatMap (·.pcores)).Nodup → (∀ st ∈ r.stages, ∀ n ∈ st.pcores, ∃ c, (n, c) ∈ s.cores) → ∃ u, exec .launchBlock s = .next u ∧
        u.mem = s.mem ∧
      (∀ i ∈ g, ∀ st, r.stages[i]? = some st → ∀ n ∈ st.pcores, ∀ k : Fin 8, (s.thAt n k).state = .empty →
        u.thAt n k = { s.thAt n k with state := if k.val < st.threads then .ready else .empty }) ∧
      (∀ n, (∀ i ∈ g, ∀ st, r.stages[i]? = some st → n ∉ st.pcores) → u.core n = s.core n) ∧
      ∃ r', u.region? r.rid = some r' ∧ (∀ (i : Nat) (st : Stage), r'.stages[i]? = some st → ∃ st0, r.stages[i]? = some st0 ∧
        st = { st0 with released := st0.released || g.contains i }) ∧
        (r'.phase = .running ↔ ∀ st ∈ r'.stages, st.released = true))

/-- R162, R356, R366. launch, ordered as a release: MODE with its reason where the block is rejected, with its record, a BALLAST block's by
the fields of its RESID block; FULL where the intake is, and OK with the block's SEQ where it joins the intake, from which the front end
takes it; while a stage-2 fault holds the front end's reading, the thread waits. -/
def Sys2Proof.Spec.LaunchInstruction : Prop :=
  ∀ (d : Dst) (a : BitVec 4) (s s1 s2 : State) (k : Cap) (t t2 : Tgt), Ready d s → s.th.rel = [] → s.th.dfr = [] →
    readA a s = .ok (k, s) → capCheck k (k.bits.toNat % 2 ^ 48) 128 permR kindMem 128 s = .ok ((), s) →
      home (k.bits.toNat % 2 ^ 48) .read s = .ok (t, s1) →
    (s1.intakeFull = true → (Takes d s1 → ∃ t, exec (.launch d a) s = .next t ∧ Ends d 4 false 0x4000000000000000 s1 t)) ∧
    (∀ r, s1.intakeFull = false → s1.region? s1.cc.rid = some r → home (k.bits.toNat % 2 ^ 48 + 64) .read s1 = .ok (t2, s2) →
      let raw := blockOf (s1.readAt s1.cc.tenant t 64 ++ s2.readAt s2.cc.tenant t2 64)
      (∀ v s3, submit s1 s1.cc r raw s2 = .ok (v, s3) → (Takes d s3 → ∃ t, exec (.launch d a) s = .next t ∧ Ends d 4 false v s3 t)) ∧
      (∀ tn ipa kd, submit s1 s1.cc r raw s2 = .error (.held tn ipa kd) →
        exec (.launch d a) s = .next ((s2.logFault tn ipa kd (some (.thread s2.cur.core s2.cur.slot))).parkTh .waitMem .reissue)) ∧
      ∃ b, b.seq = s1.seq ∧ b.raw = raw ∧ b.typ = raw.toNat % 256 ∧ b.tenant = s1.cc.tenant ∧
        b.src = .device s1.cur.core s1.cc.rid s1.cc.stage s1.cc.top ∧
        b.silent = false ∧ b.active = false ∧ b.prio = r.prio ∧ b.comp =
          (if raw.toNat % 256 = 2 then CompF.none else (s1.compOf s1.cc.tenant true raw).1) ∧
        (raw.toNat % 256 = 2 → ∀ sx sy bs, feRead (agentFor sx b) (at64 raw 0x08) 128 .page sx = .ok (bs, sy) →
          withResid b sx = .ok ({ b with comp := (sx.compOf b.tenant true (blockOf bs)).1 }, sy)) ∧
        ∀ b1 sx, withResid b ({ s2 with seq := s1.seq + 1 } : State) = .ok (b1, sx) →
          (∀ x subs resid s3, deviceParse s1.cc r raw sx = .ok ((x, subs, resid, []), s3) →
            submit s1 s1.cc r raw s2 = .ok (BitVec.ofNat 64 s1.seq.toNat,
              { s3 with blocks := s3.blocks ++ [{ b1 with spec := some x, subs := subs }] })) ∧
          (deviceParse s1.cc r raw sx = .error .page →
            submit s1 s1.cc r raw s2 = .ok (BitVec.ofNat 64 s1.seq.toNat,
              { sx with blocks := sx.blocks ++ [{ b1 with spec := none, subs := [] }] })) ∧
          (∀ x subs resid y rest s3 s4, deviceParse s1.cc r raw sx = .ok ((x, subs, resid, y :: rest), s3) →
            feComplete b1 1 y 0 0 0 none s3 = .ok ((), s4) →
            submit s1 s1.cc r raw s2 = .ok (0x3000000000000000 ||| BitVec.ofNat 64 (y % 2 ^ 60), s4)) ∧
          (∀ y s4, deviceParse s1.cc r raw sx = .error (.reject y) → feComplete b1 1 y 0 0 0 none sx = .ok ((), s4) →
            submit s1 s1.cc r raw s2 = .ok (0x3000000000000000 ||| BitVec.ofNat 64 (y % 2 ^ 60), s4)))

/-- R10, R11, R22, R126, R162, R277, R278, R356, R361, R362, R366. Together: a launch binds its region, and the launch instruction. -/
def Obligations.Launch : Prop := Sys2Proof.Spec.LaunchBinds ∧ Sys2Proof.Spec.LaunchInstruction

namespace Sys2Proof.Spec

/-- A pattern of a type that is an infinity or a NaN: E4M3 has one NaN and no infinity (R95). -/
def notFinite (ty : LaneTy) (f : Fmt) (b : Nat) : Bool :=
  if ty = .e4m3 then decide (mag f b = 127) else decide ((2 ^ f.eb - 1) * 2 ^ f.m ≤ mag f b)

end Sys2Proof.Spec

/-- R250, R251, R253. "For the same multiset of contributions, every result of R250-R253 is the same bits", whatever the order of arrival;
integer sums wrap at the type's width, a floating sum of the fixed-point formats is the exact sum rounded once in RNE with zero as +0, a
maximum or minimum is one of the contributions, and MAXABS the magnitude of one, which none exceeds. Contributions are patterns of the
type. -/
def Obligations.ReductionResult : Prop :=
  ∀ (op : Nat) (ty : LaneTy) (l m : List Nat), (∀ b ∈ l, b < 2 ^ ty.width) →
    (l.Perm m → (1 ≤ op ∧ op ≤ 4) ∨ (op = 5 ∧ ty = .f64) → reduce op ty l = reduce op ty m) ∧
    (ty ∈ [LaneTy.i32, .i64] → reduce 1 ty l = { bits := l.sum % 2 ^ ty.width, fl := 0, nan := false }) ∧
    (ty ∈ [LaneTy.i32, .i64] → l ≠ [] → (reduce 2 ty l).bits ∈ l ∧
      (reduce 3 ty l).bits ∈ l ∧ (reduce 4 ty l).bits ∈ l.map (fun b => (signedLow ty.width b).natAbs) ∧
      ∀ b ∈ l, signedLow ty.width b ≤ signedLow ty.width (reduce 2 ty l).bits ∧
        signedLow ty.width (reduce 3 ty l).bits ≤ signedLow ty.width b ∧ (signedLow ty.width b).natAbs ≤ (reduce 4 ty l).bits) ∧
    (∀ f, ty.fmt = some f → (∃ b ∈ l, notFinite ty f b = true) → reduce op ty l = { bits := f.nanBits, fl := 0, nan := true }) ∧
    (∀ f, ty.fmt = some f → f ∈ [fp32, bf16, fp16, e5m2, e4m3] → (∀ b ∈ l, notFinite ty f b = false) → l.length < 2 ^ 41 →
      let n := (l.map (fun b => units f b (-149))).sum
      (n = 0 → reduce 1 ty l = { bits := 0, fl := 0, nan := false }) ∧
      (n ≠ 0 → ∃ x, Rounded f 0 (decide (n < 0)) (number n.natAbs (-149)) 0 x ∧
        reduce 1 ty l = { bits := if mag f x.bits = 0 then 0 else x.bits, fl := x.fl &&& (flOF ||| flNX ||| flNV), nan := false })) ∧
    (∀ f, ty.fmt = some f → l ≠ [] → (∀ b ∈ l, notFinite ty f b = false) →
      (reduce 2 ty l).bits ∈ l ∧ (reduce 3 ty l).bits ∈ l ∧ (reduce 4 ty l).bits ∈ l.map (mag f) ∧
      ∀ b ∈ l, key0 f b ≤ key0 f (reduce 2 ty l).bits ∧ key0 f (reduce 3 ty l).bits ≤ key0 f b ∧ mag f b ≤ (reduce 4 ty l).bits)

namespace Sys2Proof.Spec

/-- The children of a node in its stage's tree (R289). -/
def children (g : Stage) (n : Node) : List Node := g.nodes.filter (fun m => m.up == some n.cluster)

/-- The combined status word of a node: its own cluster's contribution with the messages of its children, FSUM and FPF by OR and DONE by sum
(R289, R290). -/
def Combined (g : Stage) (n : Node) (w : Word) : Prop :=
  let words := (children g n).filterMap (·.sent)
  (∀ i, i < 16 → w.getLsbD (48 + i) = (n.fsum.getLsbD i || words.any (fun x => x.getLsbD (48 + i)))) ∧
  (∀ i, i < 6 → w.getLsbD (42 + i) = (n.fpf.getLsbD i || words.any (fun x => x.getLsbD (42 + i)))) ∧
  w.toNat / 2 ^ 36 % 2 ^ 6 = 0 ∧ w.toNat / 2 ^ 16 % 2 ^ 20 = (n.done + (words.map (fun x => x.toNat / 2 ^ 16 % 2 ^ 20)).sum) % 2 ^ 20 ∧
  w.toNat % 2 ^ 16 = g.red.length % 8

/-- A stage of a group whose reductions go on here (R415): it has a group channel and its root has sent its message. -/
def Reducing (s : State) (r : Region) (i : Nat) (g : Stage) (c : RedCh) : Prop :=
  s.region? r.rid = some r ∧ r.stages[i]? = some g ∧ g.red = [c] ∧ c.xg = true ∧ g.complete = false ∧ g.groupBrk = false ∧ g.groupRes = [] ∧
  g.rootSent = true ∧ s.groupStage (g.args.get 7) 0 = some (r.rid, i, g) ∧ s.groupIn = []

end Sys2Proof.Spec

/-- R289, R290, R366, R415. A node of the tree whose slot has released, and whose children have sent theirs, sends its message once,
combined with them; when the root has sent its own and every core is done, the stage is complete; a partial from another module is combined
exactly and rounded once, and every member gets the result, or the break; when every stage is complete and no child is left, the block ends
with OK and SUMMARY, its cores are unbound, and the region is gone. -/
def Obligations.CompletionTree : Prop :=
  ∀ (s : State) (r : Region), s.region? s.cur.idx = some r →
    (∀ g n, r.stages[s.cur.sub]? = some g → n ∈ g.nodes → (g.nodes.map (·.cluster)).Nodup → n.cluster = s.cur.core → n.sent = none →
      (n.slot = none ∨ n.released = true) → (∀ m ∈ children g n, m.sent ≠ none) →
      ∃ u w, exec .nodeDoneMessage s = .next u ∧ Combined g n w ∧ u.mem = s.mem ∧ u.cores = s.cores ∧ ∃ g',
        stageOf u r.rid s.cur.sub = some g' ∧
        g'.nodes = g.nodes.map (fun m => if m.cluster = n.cluster then { m with sent := some w } else m) ∧ g'.complete = g.complete ∧
        g'.contribs = g.contribs ∧
        (n.up ≠ none → g'.doneN = g.doneN ∧ g'.fsum = g.fsum ∧ g'.fpf = g.fpf) ∧
        (n.up = none → g'.doneN = w.toNat / 2 ^ 16 % 2 ^ 20 ∧ g'.fsum.toNat = g.fsum.toNat ||| (w.toNat / 2 ^ 48) ∧
          g'.fpf.toNat = g.fpf.toNat ||| (w.toNat / 2 ^ 42 % 2 ^ 6))) ∧
    (∀ g, r.stages[s.cur.sub]? = some g → g.nodes ≠ [] → (∀ n ∈ g.nodes, n.sent ≠ none) → g.released = true → g.complete = false →
      g.doneN = g.cores →
      s.groupReady g = true → g.raddr = 0 →
      ∃ u, exec .nodeDoneMessage s = .next u ∧ u.mem = s.mem ∧ u.cores = s.cores ∧ ∃ g', stageOf u r.rid s.cur.sub = some g' ∧
        g'.complete = true ∧
        g'.word.toNat = g.red.length % 8 + g.doneN % 2 ^ 20 * 2 ^ 16 + g'.fpf.toNat * 2 ^ 42 + g'.fsum.toNat * 2 ^ 48 ∧
        (g.red = [] → g'.fpf = g.fpf ∧ g'.fsum = g.fsum ∧ g'.results = []) ∧
        (∀ k ch e, g.red[k]? = some ch → e < ch.count → ch.xg = false →
          let x := reduce ch.op.toNat ch.ty ((g.contribs.filter (fun c => c.ch == k && c.elem == e)).map (fun c => c.bits.toNat))
          (k, e, BitVec.ofNat 64 x.bits) ∈ g'.results ∧ g'.fpf ||| x.fl = g'.fpf ∧ (x.nan = true → g'.fsum.getLsbD 3 = true)) ∧
        (∀ k ch e l x, g.red[k]? = some ch → e < ch.count → ch.xg = true → g.groupBrk = false → g.groupRes.find? (·.1 == k) = some (k, l) →
          l[e]? = some x →
          (k, e, BitVec.ofNat 64 x.bits) ∈ g'.results ∧ g'.fpf ||| x.fl = g'.fpf) ∧
        (∀ k ch e, g.red[k]? = some ch → e < ch.count → ch.xg = true → g.groupBrk = true → g'.fsum.getLsbD 2 = true ∧
          g'.fsum.getLsbD 3 = true ∧
          ∀ f, ch.ty.fmt = some f → (k, e, BitVec.ofNat 64 f.nanBits) ∈ g'.results)) ∧
    (s.cur.sub = r.stages.length → r.phase = .running → r.loop = none → r.faulted = false → (∀ g ∈ r.stages, g.complete = true) →
      (∀ c ∈ s.regions, c.parent ≠ some r.rid) → s.launchesOf r.rid = [] → ∀ b s2, s.blockFor r.rid = some b →
      feComplete b 0 0 0 (BitVec.ofNat 64 ((r.stages.foldl (fun (a : Word) (g : Stage) => a |||
        g.word) 0).toNat / 2 ^ 36 * 2 ^ 36)) 0 (some r.rid) s = .ok ((), s2) →
      (s2.cores.map Prod.fst).Nodup →
      ∃ u, exec .nodeDoneMessage s = .next u ∧ u.region? r.rid = none ∧ u.mem = s2.mem ∧ u.out = s2.out ∧
        (∀ n, (s2.core n).bound = true → (s2.core n).rid = r.rid → (u.core n).bound = false ∧ ∀ k, (u.thAt n k).state = .empty) ∧
        (∀ n, ¬ ((s2.core n).bound = true ∧ (s2.core n).rid = r.rid) → (u.core n).bound = (s2.core n).bound ∧ ∀ k g,
          (u.thAt n k).gr g = (s2.thAt n k).gr g)) ∧
    (∀ i g c gr o port, Reducing s r i g c → s.group = some gr → gr.others = [(o, port)] → s.linkDown.contains port = false →
      let tag := g.args.get 7
      (gr.me < o → twoPassed c.op.toNat c.ty = false → ∀ theirs : List (List Nat), theirs.length = c.count →
        let res := (List.range c.count).map (fun e =>
          reduce c.op.toNat c.ty ((g.contribs.filter (fun x => x.ch == 0 && x.elem == e)).map (fun x => x.bits.toNat) ++ theirs.getD e []))
        ∃ u g', exec (.groupPartial tag 0 o (.sums (theirs.map (redPart c.op.toNat c.ty none)))) s = .next u ∧ u.mem = s.mem ∧
          u.out = .groupOut port { tag := tag, ch := 0, src := gr.me, msg := .results res } :: s.out ∧ stageOf u r.rid i = some g' ∧
          g'.groupRes = [(0, res)] ∧ g'.contribs = g.contribs) ∧
      (o < gr.me → ∀ res, ∃ u g', exec (.groupPartial tag 0 o (.results res)) s = .next u ∧ u.mem = s.mem ∧ stageOf u r.rid i = some g' ∧
        g'.groupRes = [(0, res)]) ∧
      (∃ u g', exec (.groupPartial tag 0 o .broken) s = .next u ∧ u.mem = s.mem ∧ stageOf u r.rid i = some g' ∧ g'.groupBrk = true ∧
        (gr.me < o → u.out = .groupOut port { tag := tag, ch := 0, src := gr.me, msg := .broken } :: s.out)))

/-- R291, R364, R365, R366, R380-R382. A region with an unhandled fault is torn down: its threads are EMPTY, and so are those of its
descendants; its record, when they are gone, is FAULT with FINFO where a fault tore the region down and else TORNDOWN, and a launch that
lost its parent is CANCELLED. A message to a core that has executed done is a region fault, and so is the retirement of a bound core. A torn
tenant's counters are as at reset once INJ = EXT. -/
def Obligations.Teardown : Prop :=
  ∀ (s : State),
    (∀ r, s.cur.sub = 0 → s.region? s.cur.idx = some r → r.faulted = true → r.phase ≠ .torn → r.loop = none → r.fdom = false →
      ∃ u, exec .regionTeardown s = .next u ∧ u.mem = s.mem ∧ (∀ r', u.region? r.rid = some r' → r'.phase = .torn ∧
        (r.fault ≠ none → r'.byFault = true)) ∧
        (∀ n, (s.core n).bound = true → (s.core n).rid = r.rid → ∀ k, (u.thAt n k).state = .empty ∧
          ((∀ c ∈ s.regions, c.parent ≠ some r.rid) → ∀ g, (u.thAt n k).gr g = (s.thAt n k).gr g)) ∧
        (∀ r' ∈ u.regions, r'.parent = some r.rid → r'.phase = .torn)) ∧
    (∀ r b s2, s.cur.sub = 0 → s.region? s.cur.idx = some r → r.phase = .torn → (∀ c ∈ s.regions, c.parent ≠ some r.rid) →
      s.launchesOf r.rid = [] →
      s.blockFor r.rid = some b →
      let finfo : Word := match (if r.byFault then r.fault else none) with
        | some f => BitVec.ofNat 64 (f.tcause.toNat + f.code.toNat * 2 ^ 8 + f.lcore % 2 ^ 20 * 2 ^ 16 + f.tslot.val * 2 ^ 36)
        | none => 0
      feComplete b (if r.byFault then 3 else 4) 0 0 r.summary finfo (some r.rid) s = .ok ((), s2) →
      ∃ u, exec .regionTeardown s = .next u ∧ u.mem = s2.mem ∧ u.region? r.rid = none) ∧
    (∀ b, s.cur.sub = 1 → s.block? s.cur.idx false = some b → b.doomed = true → ∀ b1 s1, withResid b s = .ok (b1, s1) →
      Reports .regionTeardown b1 2 0 0 0 0 none s s1) ∧
    (∀ p, s.cur.sub = 2 → s.part? s.cur.idx = some p → p.draining = true → p.inj = p.ext → ∃ u, exec .regionTeardown s = .next u ∧
      u.mem = s.mem ∧
      (∀ x, x ∈ u.counters ↔ x ∈ s.counters ∧ ¬ (p.bbase ≤ x.1 ∧ x.1 < p.blimit)) ∧ ∀ q, u.part? p.id = some q → q.draining = false) ∧
    (∀ m r, s.toDone s.cur.idx = some m → s.region? (s.core m.dst).rid = some r → r.phase ≠ .torn → ∃ u, exec .msgToDone s = .next u ∧
      u.net = s.net.eraseIdx s.cur.idx ∧
      u.mem = s.mem ∧ u.cores = s.cores ∧ ∃ r' f, u.region? r.rid = some r' ∧ r'.faulted = true ∧ r'.fault = some f ∧
        (r.fault = none → f.tcause = 0 ∧ f.code = 1 ∧ f.lcore = (s.core m.dst).lcore) ∧ ∀ x, r.fault = some x → f = x) ∧
    (∃ u, exec .coreRetire s = .next u ∧ (u.core s.cur.core).retired = true ∧ u.mem = s.mem ∧ (∀ n, n ≠ s.cur.core → u.core n = s.core n) ∧
      ∀ r, s.cc.bound = true → s.cc.retired = false → s.region? s.cc.rid = some r → r.phase ≠ .torn → ∃ r' f, u.region? r.rid = some r' ∧
        r'.faulted = true ∧
        r'.fault = some f ∧ (r.fault = none → f.tcause = 0 ∧ f.code = 0 ∧ f.lcore = s.cc.lcore))

/-! ## Ballast -/

namespace Sys2Proof.Spec

/-- A finite FP64 number that is not negative, in units of 2^-1074. -/
def quanta (w : Word) : Nat :=
  let e := w.toNat / 2 ^ 52 % 2 ^ 11
  if e = 0 then w.toNat % 2 ^ 52 else (2 ^ 52 + w.toNat % 2 ^ 52) * 2 ^ (e - 1)

/-- A finite FP64 number that is not negative, -0 among them (R340). -/
def Norm (w : Word) : Prop := w.toNat / 2 ^ 52 % 2 ^ 11 ≠ 2047 ∧ (w.toNat / 2 ^ 63 = 0 ∨ w.toNat = 2 ^ 63)

/-- The doubleword of a block at an offset, as a word. -/
def word64 (raw : BitVec 1024) (off : Nat) : Word := BitVec.ofNat 64 (at64 raw off)

/-- MAXIT (R339). -/
def raw32 (b : Block) : Nat := b.raw.toNat / 2 ^ 32 % 2 ^ 32

/-- The loop of a region. -/
def loopOf (t : State) (rid : Nat) : Option Loop := (t.region? rid).bind (fun r => r.loop)

/-- The loop of region r, on block b, takes its next step. -/
def Looping (s : State) (r : Region) (l : Loop) (b : Block) : Prop :=
  s.region? s.cur.idx = some r ∧ r.loop = some l ∧ s.blockFor r.rid = some b ∧ r.phase = .running ∧ r.paused = false ∧ l.saved = false ∧
  s.holds (.region r.rid) = false

/-- The exit record (R345). -/
def exitBytes (code r k : Nat) (upd : Bool) (norm finfo bnorm : Word) : List Byte :=
  lowBytes 32 (code + r * 2 ^ 8 + (if upd then
    2 ^ 16 else 0) + k % 2 ^ 32 * 2 ^ 32 + norm.toNat * 2 ^ 64 + finfo.toNat * 2 ^ 128 + bnorm.toNat * 2 ^ 192)

/-- Bytes written by a loop at its history area (R344). -/
def Wrote (s : State) (r : Region) (a : Nat) (bytes : List Byte) (s1 : State) : Prop := feWrite (ballastAgent r) a bytes .page s =
  .ok ((), s1)

end Sys2Proof.Spec

/-- R342. A test on finite norms that are not negative: c counts the stagnating ratios in a row, the ratio is rounded to nearest even, and
the first of CONVERGED, DIVERGED, STAGNATED, MAXITER that applies is the decision, the comparisons exact; a norm that is not finite is
DIVERGED. The loop climbs where it stagnates, or diverges with DACT = 1, below the top rung. -/
def Obligations.BallastDecision : Prop :=
  ∀ (raw : BitVec 1024) (l : Loop) (n n0 bn : Word), l.n = some n → l.n0 = some n0 → l.bn = some bn →
    let t := Machine.ballastTest raw l
    let tau := word64 raw 0x50
    let taur := word64 raw 0x58
    let rhos := word64 raw 0x60
    let delta := word64 raw 0x68
    (n.toNat / 2 ^ 52 % 2 ^ 11 = 2047 → t.dec = .diverged ∧ t.climb = false) ∧
    (Norm n → Norm n0 → Norm bn → Norm tau → Norm taur → Norm rhos → Norm delta → (∀ p, l.rprev = some p → Norm p) →
      let converged := quanta n ≤ quanta tau ∨ quanta n * 2 ^ 1074 ≤ quanta taur * quanta bn
      let diverged := quanta delta ≠ 0 ∧ quanta delta * quanta n0 < quanta n * 2 ^ 1074
      (l.rprev = none → t.c = 0 ∧ t.ratio = 0) ∧
      (∀ p, l.rprev = some p → t.ratio = BitVec.ofNat 64 (fp64.div 0 n.toNat p.toNat).bits ∧
        (quanta rhos * quanta p < quanta n * 2 ^ 1074 → t.c = l.c + 1) ∧ (¬ quanta rhos * quanta p < quanta n * 2 ^ 1074 → t.c = 0)) ∧
      (converged → t.dec = .converged) ∧ (¬ converged → diverged → t.dec = .diverged) ∧
      (¬ converged → ¬ diverged → raw.toNat / 2 ^ 16 % 2 ^ 16 ≤ t.c → t.dec = .stagnated) ∧
      (¬ converged → ¬ diverged → ¬ raw.toNat / 2 ^ 16 % 2 ^ 16 ≤ t.c → l.k = raw.toNat / 2 ^ 32 % 2 ^ 32 → t.dec = .maxiter) ∧
      (¬ converged → ¬ diverged → ¬ raw.toNat / 2 ^ 16 % 2 ^ 16 ≤ t.c → l.k ≠ raw.toNat / 2 ^ 32 % 2 ^ 32 → t.dec = .cont) ∧
      (t.climb = true ↔ (t.dec = .stagnated ∨ (t.dec = .diverged ∧ raw.getLsbD 11 = true)) ∧ l.r < raw.toNat / 2 ^ 8 % 4))

/-- R341, R342, R344-R348. The loop's steps: the exit record with code 0; FACTOR, RESIDUAL and SOLVE sub-launches with the Ballast word in
arg8; the end of each, with FAULT where the sub-launch faulted; the test's record and what it decides; the final exit record; and the
block's end with the exit code. A loop whose region is pre-empted is saved and goes on from there. A stage-1 fault on a record ends the loop
with FAULT. -/
def Sys2Proof.Spec.BallastLoop : Prop :=
  ∀ (s : State) (r : Region) (l : Loop) (b : Block), Looping s r l b →
    let hist := at64 b.raw 0x70 % 2 ^ 48
    let hlen := at64 b.raw 0x70 / 2 ^ 48
    let norm := fun w : Word => if b.raw.getLsbD 10 then BitVec.ofNat 64 (fp64.sqrt 0 w.toNat).bits else w
    let word := fun kind => (BitVec.ofNat 64 (kind * 2 ^ 56 + l.r * 2 ^ 48 + l.k % 2 ^ 32) : Word)
    (l.pos = .start → l.r < 256 → l.code = 0 → l.n = none → l.bn = none → l.finfo = 0 → l.upd = false → ∀ s1,
      Wrote s r hist (exitBytes 0 l.r l.k false 0 0 0) s1 →
      ∃ u, exec .ballastTest s = .next u ∧ u.mem = s1.mem ∧ loopOf u r.rid = some { l with pos := .launchFact }) ∧
    (∀ x ∈ [(LPos.launchFact, 1, 1 + l.r, LPos.runFact), (.launchSolv, 2, 5 + l.r, .runSolv), (.launchResid, 3, 0, .runResid)],
      l.pos = x.1 →
      ∀ spec, b.subs.find? (·.1 == x.2.2.1) = some (x.2.2.1, spec) → ∃ u sub, exec .ballastTest s = .next u ∧ u.mem = s.mem ∧
        loopOf u r.rid = some { l with pos := x.2.2.2 } ∧ u.blocks = s.blocks ++ [sub] ∧ sub.src = .ballast r.rid ∧ sub.seq = b.seq ∧
          sub.prio = r.prio ∧
        sub.active = true ∧ sub.tenant = b.tenant ∧ ∃ spec', sub.spec = some spec' ∧ spec'.parent = some r.rid ∧
          spec'.stages = spec.stages.map (fun st => { st with args := st.args.set 7 (word x.2.1) })) ∧
    (∀ x ∈ [(LPos.runFact, 1), (.runSolv, 2), (.runResid, 3)], l.pos = x.1 → s.subOver r l = true → ∀ f, l.fault = some f →
      ∃ u l', exec .ballastTest s = .next u ∧ u.mem = s.mem ∧ loopOf u r.rid = some l' ∧ l'.pos = .exit ∧ l'.code = 5 ∧
        l'.finfo = BitVec.ofNat 64 (x.2 + l.r * 2 ^ 8 + f.tcause.toNat * 2 ^ 16) ∧ l'.fault = some f) ∧
    (l.pos = .runFact → s.subOver r l = true → l.fault = none → ∃ u l', exec .ballastTest s = .next u ∧ u.mem = s.mem ∧
      loopOf u r.rid = some l' ∧ l'.r = l.r ∧
      l'.k = l.k ∧ (l.climbed = false → l'.pos = .launchResid) ∧ (l.climbed = true → l.k ≠ raw32 b → l'.pos = .launchSolv) ∧
      (l.climbed = true → l.k = raw32 b → l'.pos = .exit ∧ l'.code = 4)) ∧
    (l.pos = .runSolv → s.subOver r l = true → l.fault = none → ∃ u, exec .ballastTest s = .next u ∧ u.mem = s.mem ∧
      loopOf u r.rid = some { l with pos := .launchResid, k := l.k + 1 }) ∧
    (l.pos = .runResid → s.subOver r l = true → l.fault = none → ∃ u l', exec .ballastTest s = .next u ∧ u.mem = s.mem ∧
      loopOf u r.rid = some l' ∧ l'.pos = .test ∧ l'.n = some (norm l.norm0) ∧ l'.k = l.k ∧ l'.c = l.c ∧
      (l.n = none → l'.n0 = some (norm l.norm0) ∧ l'.bn = some (norm (l.norm1.getD l.norm0)) ∧ l'.rprev = l.rprev) ∧
      (∀ p, l.n = some p → l'.rprev = some p ∧ l'.n0 = l.n0 ∧ l'.bn = l.bn)) ∧
    (l.pos = .test → let t := Machine.ballastTest b.raw l
      let dec := match t.dec with
        | .cont => 0 | .converged => 1 | .stagnated => if t.climb then 2 else 3 | .diverged => if t.climb then 4 else 5 | .maxiter => 6
      ∀ s1, (if hlen = 0 then s1 = s else Wrote s r (hist + 32 + 32 * (l.k % hlen)) (lowBytes 32 (l.k % 2 ^ 32 + l.r % 2 ^ 8 * 2 ^ 32 + t.c % 2 ^ 16 * 2 ^ 40 +
        dec * 2 ^ 56 + (l.n.getD 0).toNat * 2 ^ 64 + t.ratio.toNat * 2 ^ 128 + s.cycle % 2 ^ 64 * 2 ^ 192)) s1) → l.r < 256 →
      ∃ u l', exec .ballastTest s = .next u ∧ u.mem = s1.mem ∧ loopOf u r.rid = some l' ∧ l'.k = l.k ∧ l'.n = l.n ∧ l'.lastW = word 3 ∧
        (t.climb = true → l'.pos = .launchFact ∧ l'.r = l.r + 1 ∧ l'.c = 0) ∧ (t.climb = false → l'.r = l.r ∧ l'.c = t.c) ∧
        (t.climb = false → t.dec = .cont → l'.pos = .launchSolv) ∧
        (t.climb = false → t.dec ≠ .cont → l'.pos = .exit ∧ l'.code =
          (match t.dec with | .converged => 1 | .stagnated => 2 | .diverged => 3 | .maxiter => 4 | .cont => 0))) ∧
    (l.pos = .exit → l.code < 256 → l.r < 256 → let up := decide (l.code = 3 ∧ b.raw.getLsbD 11 = false)
      ∀ s1, Wrote s r hist (exitBytes l.code l.r l.k up (l.n.getD 0) l.finfo (l.bn.getD 0)) s1 → ∃ u l', exec .ballastTest s = .next u ∧
        u.mem = s1.mem ∧
        loopOf u r.rid = some l' ∧ l'.code = l.code ∧ l'.pos = (if up then .upcall else .finish)) ∧
    (l.pos = .start ∨ (l.pos = .test ∧ hlen ≠ 0) → feWrite (ballastAgent r) (if l.pos = .start then hist else hist + 32 + 32 * (l.k % hlen))
        (if l.pos = .start then exitRecord l else historyRecord l (Machine.ballastTest b.raw l) s.cycle) .page s = .error .page →
      ∃ u l', exec .ballastTest s = .next u ∧ u.mem = s.mem ∧ loopOf u r.rid = some l' ∧ l'.pos = .exit ∧ l'.code = 5 ∧ l'.fault = none ∧
        l'.finfo = BitVec.ofNat 64 (l.r * 2 ^ 8 + 8 * 2 ^ 16)) ∧
    (l.pos = .finish → l.code < 256 → ∀ s2, feComplete b (if l.code = 5 then 3 else 0) 0 l.code r.summary (finfoOf l.fault) (some r.rid) s =
      .ok ((), s2) →
      l.code ≠ 5 → ∃ u, exec .ballastTest s = .next u ∧ u.mem = s2.mem ∧ u.out = s2.out ∧ u.region? r.rid = none) ∧
    (exec .ballastTest (s.modRegion r.rid (fun r => { r with paused := true, loop := some { l with saved := true } })) =
      .next (s.modRegion r.rid (fun r => { r with paused := true, loop := some { l with saved := true } }))) ∧
    (∀ s0 s1, s0 = s.modRegion r.rid (fun r => { r with paused := true }) →
      Wrote s0 r (r.rcb.toNat + 0xC0) ((List.range 64).map Config.savedLoopByte) s1 →
      ∃ u, exec .ballastTest s0 = .next u ∧ u.mem = s1.mem ∧ loopOf u r.rid = some { l with saved := true }) ∧
    (∀ s1, s1 = s.modRegion r.rid (fun r => { r with loop := some { l with saved := true } }) → s1.loopsUsed < 32 →
      ∃ u, exec .ballastTest s1 = .next u ∧ u.mem = s.mem ∧ loopOf u r.rid = some { l with saved := false })

/-- R339-R341, R346, R347. A BALLAST block that its launch or its parse has accepted becomes a region with a loop at its start; one that is
rejected ends with its reason, reported as its RESID block asks; one of whose named blocks faults ends with FAULT, exit code 5 and the exit
record. The upcall joins the dispenser of the launching core's cluster, waits for room, or is dropped with UPD = 0 where the stage has
completed. -/
def Sys2Proof.Spec.BallastBlockAndUpcall : Prop :=
  ∀ (s : State) (b : Block),
    (At s 2 b → b.rid = none →
      (∀ spec, b.spec = some spec → ∃ u, exec .ballastBlock s = .next u ∧ u.mem = s.mem ∧ u.cores = s.cores ∧ u.fresh = s.fresh + 1 ∧
        (∃ r, u.regions = s.regions ++ [r] ∧ r.rid = s.fresh ∧ r.seq = b.seq ∧ r.phase = .running ∧ r.depth = spec.depth ∧
          r.stages = spec.stages ∧
          ∃ l, r.loop = some l ∧ l.pos = .start ∧ l.r = 0 ∧ l.k = 0 ∧ l.c = 0 ∧ l.rprev = none ∧ l.n = none ∧ l.code = 0 ∧
            l.saved = false) ∧
        ∃ x ∈ u.blocks, x.same b = true ∧ x.rid = some s.fresh ∧ x.subs = b.subs) ∧
      (∀ p b1 s2, b.spec = none → (∃ q, b.src = .queue q) → s.part? b.tenant.toNat = some p → withResid b s = .ok (b1, s2) →
        let parse := parseBallast (agentFor s b) p true (s.partValues p) (s.usable p) none b.raw s
        (∀ spec subs resid x rest s1, parse = .ok ((spec, subs, resid, x :: rest), s1) → Reports .ballastBlock b1 1 x 0 0 0 none s s2) ∧
        (∀ x, parse = .error (.reject x) → Reports .ballastBlock b1 1 x 0 0 0 none s s2) ∧
        (∀ s3 u, parse = .error .page →
          feWrite (agentFor s2 b1) (at64 b.raw 0x70 % 2 ^ 48) (exitBytes 5 0 0 false 0 0x80000 0) .page s2 = .ok ((), s3) →
          feComplete b1 3 0 5 0 0 none s3 = .ok ((), u) → exec .ballastBlock s = .next u)) ∧
      (∀ core rid stage top b1 s2 s3 u, b.spec = none → b.src = .device core rid stage top → withResid b s = .ok (b1, s2) →
        feWrite (agentFor s2 b1) (at64 b.raw 0x70 % 2 ^ 48) (exitBytes 5 0 0 false 0 0x80000 0) .page s2 = .ok ((), s3) →
        feComplete b1 3 0 5 0 0 none s3 = .ok ((), u) → ∃ t, exec .ballastBlock s = .next t ∧ t.mem = u.mem ∧ t.out = u.out ∧
          ∀ r g, u.region? rid = some r → r.stages[stage]? = some g → ∃ g', stageOf t rid stage = some g' ∧ g'.fsum = g.fsum ||| 1)) ∧
    (∀ r l core rid stage top, Looping s r l b → l.pos = .upcall → b.src = .device core rid stage top →
      let cl := clusterOf core
      let c := s.cluster cl
      let mine := fun u : Nat × DispEntry => u.1 == b.seq.toNat
      let entry := entryNat ((at64 b.raw 0x78) % 2 ^ 48) false (BitVec.ofNat 64 (at64 b.raw 0x70 % 2 ^ 48)) l.lastW 0
      (s.stageGone rid stage = false → c.disp.length < 256 → (c.upcalls = [] ∨ ∃ u rest, c.upcalls = u :: rest ∧ mine u = true) →
        ∃ t, exec .ballastUpcall s = .next t ∧ t.mem = s.mem ∧ (∀ l', loopOf t r.rid = some l' → l'.pos = .finish) ∧
          ∃ e, (t.cluster cl).disp = c.disp ++ [e] ∧ e.rid = rid ∧ e.stage = stage ∧ e.words.toNat = entry ∧ ∀ u ∈ (t.cluster cl).upcalls,
            mine u = false) ∧
      (s.stageGone rid stage = false → 256 ≤ c.disp.length → c.upcalls.any mine = false → ∃ t e, exec .ballastUpcall s = .next t ∧
        t.mem = s.mem ∧
        (t.cluster cl).upcalls = c.upcalls ++ [e] ∧ mine e = true ∧ (t.cluster cl).disp = c.disp) ∧
      (s.stageGone rid stage = true → l.code < 256 → l.r < 256 → ∀ s1,
        Wrote s r (at64 b.raw 0x70 % 2 ^ 48) (exitBytes l.code l.r l.k false (l.n.getD 0) l.finfo (l.bn.getD 0)) s1 → ∃ t,
          exec .ballastUpcall s = .next t ∧
          t.mem = s1.mem ∧ (t.cluster cl).disp = (s1.cluster cl).disp ∧ ∀ l', loopOf t r.rid = some l' → l'.pos = .finish ∧ l'.upd = false))

/-- R339-R342, R344-R348. Together: the Ballast loop, its block and its upcall. -/
def Obligations.Ballast : Prop := Sys2Proof.Spec.BallastLoop ∧ Sys2Proof.Spec.BallastBlockAndUpcall

/-! ## Partitions, function registers, function resets, interrupts -/

namespace Sys2Proof.Spec

/-- A PART block of an operation is at work. -/
def PartAt (s : State) (op : Nat) (b : Block) : Prop := At s 8 b ∧ b.raw.toNat / 2 ^ 16 % 256 = op

/-- The operations of PART that are parsed, with the rows they use (R388). -/
def partOps : List (Nat × Instr × List Nat) :=
  [(1, .partCreate, [0x38, 0x40, 0x48, 0x50, 0x58, 0x60]), (2, .partModify, [0x38, 0x40, 0x48, 0x50, 0x58, 0x60]), (3, .partDestroy, []),
   (4, .qassign, [0x68]), (5, .partStatus, [0x10]), (6, .partStop, [0x10, 0x38, 0x40, 0x48]), (7, .partStart, [])]

/-- A block whose operands lie in their maps. -/
def Formed (s : State) (b : Block) (used : List Nat) : Prop := partLayout b.raw used = true ∧ (s.compOf b.tenant false b.raw).2 = true

/-- The ID, level, function and flags of PID (R388). -/
def pid (b : Block) : Nat := at64 b.raw 8 % 64
def pidLevel (b : Block) : Bool := b.raw.getLsbD (64 + 8)
def pidFn (b : Block) : Nat := at64 b.raw 8 / 2 ^ 16 % 2 ^ 7

/-- A cluster of the mesh lies in a partition's rectangle (R386). -/
def Cell (p : Part) (x y : Nat) : Prop := p.x0 ≤ x ∧ x < p.x0 + p.wd ∧ p.y0 ≤ y ∧ y < p.y0 + p.ht

/-- A partition's budgets after the operands of CREATE or MODIFY: a row that is zero keeps what was there (R388). -/
def Shaped (old p : Part) (raw : BitVec 1024) : Prop :=
  let w := fun off : Nat => at64 raw off
  (if w 0x38 = 0 then p.x0 = old.x0 ∧ p.y0 = old.y0 ∧ p.wd = old.wd ∧ p.ht = old.ht
   else p.x0 = w 0x38 % 128 ∧ p.y0 = w 0x38 / 2 ^ 8 % 128 ∧ p.wd = w 0x38 / 2 ^ 16 % 256 ∧ p.ht = w 0x38 / 2 ^ 24 % 256) ∧
  (if w 0x40 = 0 then p.share = old.share ∧ p.weight = old.weight ∧ p.slice = old.slice
   else p.share = w 0x40 % 512 ∧ p.weight = w 0x40 / 2 ^ 16 % 256 ∧ p.slice = w 0x40 / 2 ^ 32) ∧
  (if w 0x48 = 0 then p.bbase = old.bbase ∧ p.blimit = old.blimit else p.bbase = w 0x48 % 2 ^ 16 ∧ p.blimit = w 0x48 / 2 ^ 16 % 2 ^ 17) ∧
  (if w 0x50 = 0 then p.s2root = old.s2root else p.s2root = w 0x50) ∧
  (if w 0x58 = 0 then p.vec0 = old.vec0 ∧ p.vecN = old.vecN else p.vec0 = w 0x58 % 2 ^ 11 ∧ p.vecN = w 0x58 / 2 ^ 16 % 2 ^ 11) ∧
  (if w 0x60 = 0 then p.xflog = old.xflog ∧ p.xvec = old.xvec else p.xflog = w 0x60 / 2 ^ 12 % 2 ^ 36 * 4096 ∧
    p.xvec = w 0x60 / 2 ^ 48 % 2 ^ 11)

end Sys2Proof.Spec

/-- R386-R388, R396. A PART block with a bit outside its maps is FORMAT. CREATE gives a tenant its budgets, a fresh key, TSTATE 1, its
clusters the default grant and barrier slots as at reset, and its counters as at reset; MODIFY replaces the budgets it names, a new share or
weight from the next window of 1,024 cycles on. A breach of R387 is FORMAT, or CORES where rectangles meet; an ID that cannot be used is
TENANT. -/
def Sys2Proof.Spec.PartitionShape : Prop :=
  ∀ (s : State) (b : Block),
    (∀ x ∈ partOps, PartAt s x.1 b → b.parsed = false →
      (¬ Formed s b x.2.2 → Reports x.2.1 b 1 8 0 0 0 none s s) ∧
      (∀ off ∈ [0x10, 0x38, 0x40, 0x48, 0x50, 0x58, 0x60, 0x68], off ∉ x.2.2 → at64 b.raw off ≠ 0 → ¬ Formed s b x.2.2)) ∧
    (∀ p q : Part, p.meets q = true ↔ ∃ x y, Cell p x y ∧ Cell q x y) ∧
    (PartAt s 1 b → Formed s b [0x38, 0x40, 0x48, 0x50, 0x58, 0x60] → ∃ p, p.id = pid b ∧ p.level2 = pidLevel b ∧ p.func = pidFn b ∧
      p.cascade = b.raw.getLsbD (64 + 24) ∧ p.dtrk = b.raw.getLsbD (64 + 25) ∧ p.tstate = 1 ∧ p.faulted = false ∧
        Shaped Part.blank p b.raw ∧
      (s.budgetsOk p = false → Reports .partCreate b 1 8 0 0 0 none s s) ∧
      (s.budgetsOk p = true → s.pidFree b.raw = false → Reports .partCreate b 1 6 0 0 0 none s s) ∧
      (s.budgetsOk p = true → s.pidFree b.raw = true → s.rectOk p = false → Reports .partCreate b 1 3 0 0 0 none s s) ∧
      (s.budgetsOk p = true → s.pidFree b.raw = true → s.rectOk p = true → ∃ s2, Reports .partCreate b 0 0 0 0 0 none s s2 ∧
        (∃ q ∈ s2.parts, q = { p with keyGen := s.fresh }) ∧ s2.fresh = s.fresh + 1 ∧
          (∀ x, (p.id, x) ∉ s2.dirty.map (fun d => (d.1.toNat, d.2))) ∧
        (∀ x ∈ s2.counters, ¬ (p.bbase ≤ x.1 ∧ x.1 < p.blimit)) ∧
        (∀ x y, Cell p x y → (s2.cluster (128 * y + x)).grantB = 65536 ∧ (s2.cluster (128 * y + x)).grantS = 0 ∧
          ∀ i, (s2.cluster (128 * y + x)).bars.get i = Bar.fresh))) ∧
    (PartAt s 2 b → Formed s b [0x38, 0x40, 0x48, 0x50, 0x58, 0x60] →
      (s.partAt (pid b) (pidLevel b) = none → Reports .partModify b 1 6 0 0 0 none s s) ∧
      (∀ old, s.partAt (pid b) (pidLevel b) = some old → ∃ p, Shaped old p b.raw ∧ p.id = old.id ∧ p.func = old.func ∧
        p.tstate = old.tstate ∧
        (s.budgetsOk p = false → Reports .partModify b 1 8 0 0 0 none s s) ∧
        (s.budgetsOk p = true → (s.rectOk p = false ∨ ∃ x y, Cell old x y ∧ ¬ Cell p x y ∧ s.clusterBusy (128 * y + x) = true) →
          old.x0 + old.wd ≤ 128 →
          Reports .partModify b 1 3 0 0 0 none s s) ∧
        (s.budgetsOk p = true → s.rectOk p = true → old.x0 + old.wd ≤ 128 →
          (∀ x y, Cell old x y → ¬ Cell p x y → s.clusterBusy (128 * y + x) = false) → ∃ s2,
          Reports .partModify b 0 0 0 0 0 none s s2 ∧ s2.parts.length = s.parts.length ∧ s2.fresh = s.fresh ∧
          (old ∈ s.parts → ∃ q ∈ s2.parts, { q with shareWas := p.shareWas, weightWas := p.weightWas, sharesAt := p.sharesAt } = p ∧
            s.weightOf q = s.weightOf old ∧ (p.share ≠ old.share ∨ p.weight ≠ old.weight → q.sharesAt = s.cycle / 1024 + 1)))))

/-- R386, R388, R389, R396, R400, R401. DESTROY tears the tenant down and, when nothing of it is left, scrubs it and frees its budgets;
QASSIGN gives a disabled queue to a tenant; STATUS writes its record to host memory; STOP ends when nothing of the tenant runs, and writes
its last dirty bits, then 2; START lets it run again. A PID that names no tenant is TENANT, and STOP of one without DTRK or over no window
of R400 is FORMAT. -/
def Sys2Proof.Spec.PartitionLife : Prop :=
  ∀ (s : State) (b : Block),
    (PartAt s 3 b → b.parsed = false → Formed s b [] →
      (s.partAt (pid b) (pidLevel b) = none → Reports .partDestroy b 1 6 0 0 0 none s s) ∧
      (∀ p, s.partAt (pid b) (pidLevel b) = some p → (s.parts.any (fun q => q.id == p.id && q.level2 == p.level2)) = true → ∃ u,
        exec .partDestroy s = .next u ∧
        (∀ q, u.part? p.id = some q → q.stopping = true ∧ q.draining = true) ∧ (∀ e ∈ u.mtu, e.tenant.toNat ≠ p.id) ∧
        ∀ r ∈ u.regions, r.tenant.toNat = p.id → r.parent = none → r.phase = .torn)) ∧
    (PartAt s 3 b → b.parsed = true → ∀ p, s.part? (pid b) = some p → p.id = pid b →
      (s.tenantGone p.id = false → exec .partDestroy s = .next s) ∧
      (s.tenantGone p.id = true → Memory.wf s.mem = true → ∃ s2, Reports .partDestroy b 0 0 0 0 0 none s s2 ∧
        (∀ q ∈ s2.parts, ¬ (q.id = p.id ∧ q.level2 = p.level2)) ∧ (∀ x ∈ s2.queues, x.2.tenant ≠ some (BitVec.ofNat 6 p.id)) ∧
        (∀ x ∈ s.mapped levels p.s2root, x.1 + x.2 ≤ Config.dumpBase → ∀ j, x.1 ≤ j → j < x.1 + x.2 → Memory.read s2.mem j = 0) ∧
        (∀ x y j off, Cell p x y → j < 64 → off < 49152 → Memory.read s2.mem (2 ^ 48 + (64 * (128 * y + x) + j) * 0x10000 + off) = 0))) ∧
    (PartAt s 4 b → Formed s b [0x68] →
      let n := at64 b.raw 0x68 % 2 ^ 12
      let lidx := at64 b.raw 0x68 / 2 ^ 16 % 2 ^ 12
      let tenant := if pidFn b = 0 then s.parts.find? (fun p => p.id == pid b && p.level2 == pidLevel b) else s.parts.find? (·.func ==
        pidFn b)
      let free := (s.queueAt (pidFn b) lidx = none ∨ s.queueAt (pidFn b) lidx = some n) ∧ (s.queue n).en = false ∧
        (s.queue n).error = false ∧
        (s.queue n).destroying = false ∧ ∀ x ∈ s.blocks, x.src ≠ .queue n
      (tenant = none → Reports .qassign b 1 6 0 0 0 none s s) ∧ (∀ p, tenant = some p → ¬ free → Reports .qassign b 1 8 0 0 0 none s s) ∧
      (∀ p, tenant = some p → free → ∃ s2, Reports .qassign b 0 0 0 0 0 none s s2 ∧ (s2.queue n).fn = pidFn b ∧ (s2.queue n).lidx = lidx ∧
        (s2.queue n).tenant = some (BitVec.ofNat 6 p.id) ∧ (s2.queue n).qcfg = (s.queue n).qcfg ∧ (∀ m, m ≠ n → s2.queue m = s.queue m) ∧
          s2.mem = s.mem)) ∧
    (PartAt s 5 b → Formed s b [0x10] →
      let named := s.parts.find? (fun p => p.id == pid b && p.level2 == pidLevel b)
      (named = none → Reports .partStatus b 1 6 0 0 0 none s s) ∧
      (∀ p, named = some p → Memory.wf s.mem = true → ∃ s2, Reports .partStatus b 0 0 0 0 0 none s s2 ∧
        let at_ := fun off : Nat => little (Memory.readN s2.mem (2 ^ 50 + at64 b.raw 0x10 + off) 8)
        at_ 0 = p.inj % 2 ^ 64 ∧ at_ 8 = p.ext % 2 ^ 64 ∧ at_ 0x18 = p.xcount % 2 ^ 32 ∧ at_ 0x20 = 0 ∧ at_ 0x28 = 0 ∧ at_ 0x30 = 0 ∧
          at_ 0x38 = 0 ∧
        at_ 0x10 = s.usable p % 2 ^ 20 + (s.cores.filter (fun x => x.2.bound &&
          p.holds (clusterOf x.1))).length % 2 ^ 20 * 2 ^ 20 + p.tstate.toNat * 2 ^ 40)) ∧
    (PartAt s 6 b → b.parsed = false → Formed s b [0x10, 0x38, 0x40, 0x48] →
      let n := at64 b.raw 0x40
      let base := at64 b.raw 0x38
      let named := s.parts.find? (fun p => p.id == pid b && p.level2 == pidLevel b)
      let window := base % 65536 = 0 ∧ base < 2 ^ 48 ∧ 64 ≤ n ∧ n ≤ 2 ^ 22 ∧ n % 64 = 0
      (named = none → Reports .partStop b 1 6 0 0 0 none s s) ∧
      (∀ p, named = some p → ¬ (window ∧ p.dtrk = true) → Reports .partStop b 1 8 0 0 0 none s s) ∧
      (∀ p, named = some p → window → p.dtrk = true → ∃ u, exec .partStop s = .next u ∧ u.mem = s.mem ∧
        (∀ q, u.part? p.id = some q → q.stopping = true ∧ q.drains = b.raw.getLsbD (64 + 26)) ∧ ∃ x ∈ u.blocks, x.same b = true ∧
          x.parsed = true)) ∧
    (PartAt s 6 b → b.parsed = true → ∀ p, s.part? (pid b) = some p →
      (s.stoppedOk p = false → exec .partStop s = .next s) ∧
      (s.stoppedOk p = true → Memory.wf s.mem = true → ∃ s2, Reports .partStop b 0 0 0 0 0 none s s2 ∧
        (∀ g, (BitVec.ofNat 6 p.id, g) ∈ s2.dirty ↔ (BitVec.ofNat 6 p.id, g) ∈ s.dirty ∧
          ¬ (at64 b.raw 0x38 / 65536 ≤ g ∧ g < at64 b.raw 0x38 / 65536 + at64 b.raw 0x40)) ∧
        (∀ i j, i < at64 b.raw 0x40 / 8 → j < 8 → ¬ (at64 b.raw 0x10 ≤ at64 b.raw 0x48 + i ∧ at64 b.raw 0x48 + i < at64 b.raw 0x10 + 8) →
          ((Memory.read s2.mem (2 ^ 50 + at64 b.raw 0x48 + i)).getLsbD j = true ↔
            (BitVec.ofNat 6 p.id, at64 b.raw 0x38 / 65536 + 8 * i + j) ∈ s.dirty)) ∧
        little (Memory.readN s2.mem (2 ^ 50 + at64 b.raw 0x10) 8) = 2 ∧ ∀ q, s2.part? p.id = some q → q.tstate = 2 ∧ q.stopping = false)) ∧
    (PartAt s 7 b → Formed s b [] →
      let named := s.parts.find? (fun p => p.id == pid b && p.level2 == pidLevel b)
      (named = none → Reports .partStart b 1 6 0 0 0 none s s) ∧
      (∀ p, named = some p → p.tstate = 2 → ∃ s2, Reports .partStart b 0 0 0 0 0 none s s2 ∧ s2.mem = s.mem ∧ ∀ q, s2.part? p.id = some q →
        q.tstate = 1))

/-- R386-R389, R396, R400, R401. Together: the PART block. -/
def Obligations.Partition : Prop := Sys2Proof.Spec.PartitionShape ∧ Sys2Proof.Spec.PartitionLife

/-- R355, R365, R390, R397. The registers of a function: QCFG and QBASE change while EN is 0; TAIL moves, and more than 2^LOG2N entries is
ERROR; a 1 in QCTL destroys the queue: its blocks are cancelled, regions of which nothing has been released go, and the others are torn
down; it is disabled and empty when nothing of it is left. S1ROOT holds its fields; a write of the window reaches the register at its
offset. A vector raised within MODER of its last message is held, and belongs to the function that raised it last; it goes when its time has
come. -/
def Sys2Proof.Spec.FunctionRegisters : Prop :=
  ∀ (s : State), let fn := s.cur.sub
    let lidx := s.cur.idx
    let v := s.cur.val
    (∀ n, s.queueAt fn lidx = some n → let q := s.queue n
      (q.en = true → exec .qcfgWrite s = .next s) ∧
      (q.en = false → ∃ u, exec .qcfgWrite s = .next u ∧ u.mem = s.mem ∧ (u.queue n).qcfg = v &&& 0x80000F1F ∧ (u.queue n).qbase = q.qbase ∧
        (u.queue n).head = q.head ∧ (u.queue n).tail = q.tail ∧
        ((u.queue n).error = true ↔ q.error = true ∨ (v.getLsbD 31 = true ∧ 2 ^ (v.toNat % 32) < (q.tail - q.head).toNat))) ∧
      (∃ u, exec .tailWrite s = .next u ∧ u.mem = s.mem ∧ (u.queue n).tail.toNat = v.toNat % 2 ^ 32 ∧ (u.queue n).head = q.head ∧
        (u.queue n).qcfg = q.qcfg ∧
        ((u.queue n).error = true ↔ q.error = true ∨ (q.en = true ∧ 2 ^ q.log2n < ((u.queue n).tail - q.head).toNat)) ∧ ∀ m, m ≠ n →
          u.queue m = s.queue m) ∧
      (v.getLsbD 0 = false → exec .qctlDestroy s = .next s) ∧
      (v.getLsbD 0 = true → q.destroying = false → (∀ b ∈ s.blocks, b.src ≠ .queue n) → ∃ u, exec .qctlDestroy s = .next u ∧ u.mem = s.mem ∧
        u.regions = s.regions ∧ u.blocks = s.blocks ∧ (u.queue n).en = false ∧ (u.queue n).head = q.tail ∧ (u.queue n).error = false ∧
          (u.queue n).destroying = false) ∧
      (v.getLsbD 0 = true → q.destroying = false → (∀ x ∈ s.blocks, ∀ y ∈ s.blocks, x.same y = true → x = y) → ∃ u,
        exec .qctlDestroy s = .next u ∧
        (∀ b ∈ s.blocks, b.src = .queue n → ¬ (b.typ = 8 ∧ b.parsed = true) → ∀ rid r, b.rid = some rid → s.region? rid = some r →
          r.loop = none →
          (∀ g ∈ r.stages, g.released = false) → u.region? rid = none ∧ ∃ x ∈ u.blocks, x.same b = true ∧ x.doomed = true) ∧
        (∀ b ∈ s.blocks, b.src = .queue n → b.rid = none → ¬ (b.typ = 8 ∧ b.parsed = true) → ∃ x ∈ u.blocks, x.same b = true ∧
          x.doomed = true) ∧
        (∀ b ∈ s.blocks, b.src = .queue n → ∀ rid r, b.rid = some rid → u.region? rid = some r → r.phase = .torn))) ∧
    (∃ u, exec .s1rootWrite s = .next u ∧ u.mem = s.mem ∧ (u.func fn).s1root = v &&& 0xFFFFFFFFF001 ∧
      (u.func fn).moder = (s.func fn).moder ∧
      ∀ m, m ≠ fn → u.func m = s.func m) ∧
    (s.fw.up = true → s.cur.core = 0 →
      (lidx = 0 → exec .registerWrite s = exec .s1rootWrite s) ∧
      (lidx = 0x10 → ∃ u, exec .registerWrite s = .next u ∧ (u.func fn).moder.toNat = v.toNat % 2 ^ 16 ∧
        (u.func fn).s1root = (s.func fn).s1root) ∧
      (lidx = 0x18 → fn = 0 → ∃ u, exec .registerWrite s = .next u ∧ (u.func 0).ksel.toNat = v.toNat % 2 ^ 6) ∧
      (∀ l, l < 4096 →
        (lidx = 0x10008 + 64 * l → exec .registerWrite s = .next (s.writeQcfg fn l v)) ∧
        (lidx = 0x10010 + 64 * l → exec .registerWrite s = .next (s.writeTail fn l v)) ∧
        (lidx = 0x10028 + 64 * l → exec .registerWrite s = .next (s.writeQctl fn l v)) ∧
        (lidx = 0x10000 + 64 * l → ∀ n, s.queueAt fn l = some n → (s.queue n).en = false → ∃ u, exec .registerWrite s = .next u ∧
          (u.queue n).qbase = v &&& 0x1FFFFFFFFFF80))) ∧
    (∀ (f : Nat) (x : Vec), s.vecs.find? (·.vec == s.cur.idx) = some x →
      (x.held = true ∨ s.cycle < x.last + (s.func f).moder.toNat * 800 → (s.raise f s.cur.idx).out = s.out ∧
        ∀ y ∈ (s.raise f s.cur.idx).vecs, y.vec = s.cur.idx → y.held = true ∧ y.fn = f) ∧
      (x.held = false → x.last + (s.func f).moder.toNat * 800 ≤ s.cycle → (s.raise f s.cur.idx).out = .irq f s.cur.idx :: s.out ∧
        ∀ y ∈ (s.raise f s.cur.idx).vecs, y.vec = s.cur.idx → y.last = s.cycle ∧ y.fn = f)) ∧
    (∀ x : Vec, s.vecs.find? (·.vec == s.cur.idx) = some x → x.held = true → x.last + (s.func x.fn).moder.toNat * 800 ≤ s.cycle → ∃ u,
      exec .msixModerationExpire s = .next u ∧ u.mem = s.mem ∧ u.out = .irq x.fn x.vec :: s.out ∧ ∀ y ∈ u.vecs, y.vec = x.vec →
        y.held = false ∧ y.last = s.cycle)

/-- R398. A function level reset of a tenant's VF: TSTATE 3, its queues destroyed and silent, its regions torn down, S1ROOT 0; while it
lasts the function answers with a retry; it ends when nothing is left, with the tenant scrubbed and TSTATE 1. -/
def Sys2Proof.Spec.FunctionReset : Prop :=
  ∀ (s : State),
    (s.cur.sub = 0 → s.cur.idx = 0 ∨ 64 < s.cur.idx → exec .flr s = .next s) ∧
    (∀ p, s.cur.sub = 0 → 1 ≤ s.cur.idx → s.cur.idx ≤ 64 → s.ownedBy s.cur.idx = some p →
      (p.tstate = 3 → ∃ u, exec .flr s = .next u ∧ u.mem = s.mem ∧ u.parts = s.parts ∧ u.out = .configRetry s.cur.idx :: s.out) ∧
      (p.tstate ≠ 3 → (s.parts.any (fun q => q.id == p.id && q.level2 == p.level2)) = true → ∃ u, exec .flr s = .next u ∧
        (∀ q, u.part? p.id = some q → q.tstate = 3 ∧ q.draining = true) ∧ (u.func s.cur.idx).s1root = 0 ∧
        (∀ e ∈ u.mtu, e.tenant.toNat ≠ p.id) ∧ (∀ r ∈ u.regions, r.tenant.toNat = p.id → r.parent = none → r.phase = .torn) ∧
        (∀ b ∈ u.blocks, ∀ n, b.src = .queue n → (s.queue n).fn = s.cur.idx → b.silent = true))) ∧
    (∀ p, s.cur.sub = (if p.level2 then 1 else 2) → s.part? s.cur.idx = some p → s.partAt s.cur.idx p.level2 = some p → p.tstate = 3 →
      s.tenantGone p.id = true → Memory.wf s.mem = true → ∃ u, exec .flr s = .next u ∧
        (∀ q, u.part? p.id = some q → q.tstate = 1 ∧ q.keyGen = s.fresh) ∧
        ∀ x ∈ s.mapped levels p.s2root, x.1 + x.2 ≤ Config.dumpBase → ∀ j, x.1 ≤ j → j < x.1 + x.2 → Memory.read u.mem j = 0)

/-- R355, R365, R390, R397, R398. Together: a function's registers, its reset, and held interrupts. -/
def Obligations.FunctionControl : Prop := Sys2Proof.Spec.FunctionRegisters ∧ Sys2Proof.Spec.FunctionReset

/-! ## Firmware, errors, and accesses from outside -/

namespace Sys2Proof.Spec

/-- An image whose two keys are the vendor's and whose two signatures over the digest d of its header and body verify (R406). -/
def Signed (img : List Byte) : Prop :=
  let d := sha384 (Config.imageSigned img)
  sha384 (Config.imageRsaKey img) = Config.romRsaHash ∧ sha384 (Config.imageSlhKey img) = Config.romSlhHash ∧
    Config.rsaVerifies (Config.imageRsaKey img) d (Config.imageRsaSignature img) = true ∧
    Config.slhVerifies (Config.imageSlhKey img) d (Config.imageSlhSignature img) = true

/-- An image passes Boot ROM's checks, with a MINVER (R406). -/
def Accepted (minver : BitVec 56) (img : List Byte) : Prop := Signed img ∧ minver.toNat ≤ (Config.imageVersion img).toNat

/-- The measurement of a boot: three digests in turn over 48 zero bytes (R407). -/
def measured (img : List Byte) : BitVec 384 :=
  let ext := fun (m d : BitVec 384) => sha384 (lowBytes 48 m.toNat ++ lowBytes 48 d.toNat)
  ext (ext (ext 0 (sha384 (Config.imageSigned img))) Config.configDigest) Config.leafDigest

/-- The firmware runs the image of a slot. -/
def RunsSlot (f : Fw) (img : List Byte) (slotB : Bool) : Prop :=
  f.up = true ∧ f.noboot = false ∧ f.slotB = slotB ∧ f.version = Config.imageVersion img ∧ f.m = measured img ∧ f.log.length = 3 ∧
    f.log.map (fun e => e.d) = [sha384 (Config.imageSigned img), Config.configDigest, Config.leafDigest]

/-- The image in a slot. -/
def slotImage (f : Fw) (slotB : Bool) : List Byte := if slotB then f.imgB else f.imgA

/-- Nothing runs: no core bound, no region, no partition, no queue in use, and CYCLE 0 (R406). -/
def Quiet (u : State) : Prop :=
  u.regions = [] ∧ u.parts = [] ∧ u.parents = [] ∧ u.blocks = [] ∧ u.queues = [] ∧ u.clusters = [] ∧ u.flits = [] ∧ u.net = [] ∧
    u.counters = [] ∧
    u.cycle = 0 ∧ (∀ n, (u.core n).bound = false) ∧ ∀ n k, (u.thAt n k).state = .empty

/-- The requests of the firmware window, with what a go asks for (R411, R416). -/
def fwRequests (f : Fw) : List (Instr × (Nat → FwReq)) :=
  [(.update, fun v => .update (v % 2 ^ 48)), (.quote, fun v => .quote (v % 2 ^ 48)), (.telem, fun v => .telem (v % 2 ^ 48)),
   (.drgset, fun v => .drgset (v % 2 ^ 32) (v / 2 ^ 32 % 2 ^ 16) (v / 2 ^ 48 % 2 ^ 6)),
   (.dumpcpy, fun v => .dumpcpy (v % 2 ^ 48) (f.dumparg.toNat % 2 ^ 40 / 4096 * 4096) (f.dumparg.toNat / 2 ^ 40))]

/-- A request is over, with a result and the PF's first interrupt (R411). -/
def Over (s u : State) (r : BitVec 8) : Prop := u.fw.busy = none ∧ u.fw.result = r ∧ u.out = (s.raise 0 0).out

/-- The permits of one direction of a command link, wherever they stand: with the sender, in a message, or owed for one removed (R405). -/
def allPermits (l : Link) : Nat := l.permits + l.inbox + l.owed

/-- A module's part of a group reduction crosses a port: it combines, and the port leads to a member; or the port leads to the member of the
lowest ID (R414, R415). -/
def Crosses (gr : Group) (p : Nat) : Prop :=
  ∃ o ∈ gr.others, o.2 = p ∧ ((∀ x ∈ gr.others, gr.me < x.1) ∨ ∀ x ∈ gr.others, x = o ∨ o.1 < x.1)

/-- A number read from host memory. -/
def hostNum (u : State) (bus n : Nat) : Nat := little (Memory.readN u.mem (2 ^ 50 + bus) n)

/-- An access of an outside agent in one piece, by a tenant, reaches HBM (R391). -/
def Placed (s s1 : State) (t : BitVec 6) (both : Bool) (a n : Nat) (acc : Acc) (pa : Nat) : Prop :=
  0 < n ∧ n ≤ 64 - a % 64 ∧ a + n ≤ 0x400000000000 ∧ s.portPlace t both a acc = .ok (pa, s1)

end Sys2Proof.Spec

/-- R406, R407, R410, R411. Boot runs the committed slot's image where it passes, else the other slot's, else the module stays in reset;
nothing else has survived but retirement and host memory. UPDATE puts an image that passes in the slot that does not run; ACTIVATE stops the
tenants, and restarts on the other slot on trial; COMMIT, before the deadline, makes the trial permanent, and after the deadline the
firmware is back on the old slot. -/
def Obligations.FirmwareImages : Prop :=
  ∀ (s : State),
    (∀ imgA imgB, Memory.wf s.mem = true → ∃ u, exec (.powerOnBoot imgA imgB) s = .next u ∧ Quiet u ∧
      (∀ j, j < 2 ^ 50 → Memory.read u.mem j = 0) ∧ (∀ j, 2 ^ 50 ≤ j → Memory.read u.mem j = Memory.read s.mem j) ∧
        ((s.cores.map Prod.fst).Nodup → ∀ n, (u.core n).retired = (s.core n).retired) ∧
      u.fw.imgA = imgA ∧ u.fw.imgB = imgB ∧ u.fw.busy = none ∧ u.fw.dumpv = false ∧
      let old := s.fw.committedB
      let img := fun b : Bool => if b then imgB else imgA
      let low := Config.imageMinver (img old)
      u.fw.committedB = old ∧ u.fw.minver = low ∧ u.fw.trial = false ∧
      (Accepted low (img old) → RunsSlot u.fw (img old) old) ∧ (¬ Accepted low (img old) → Accepted low (img !old) →
        RunsSlot u.fw (img !old) !old) ∧
      (¬ Accepted low (img old) → ¬ Accepted low (img !old) → u.fw.up = false ∧ u.fw.noboot = true)) ∧
    (∀ bus, s.cur.sub = 1 → s.fw.busy = some (.update bus) →
      let len := Config.imageLength (Memory.readN s.mem (2 ^ 50 + bus) 4096)
      let img := Memory.readN s.mem (2 ^ 50 + bus) len
      ∃ u, exec .update s = .next u ∧ u.mem = s.mem ∧ u.fw.slotB = s.fw.slotB ∧ slotImage u.fw s.fw.slotB = slotImage s.fw s.fw.slotB ∧
        (Config.hostError s.tick = true → Over s u 4 ∧ slotImage u.fw (!s.fw.slotB) = slotImage s.fw (!s.fw.slotB)) ∧
        (Config.hostError s.tick = false → Accepted s.fw.minver img → Over s u 0 ∧ slotImage u.fw (!s.fw.slotB) = img) ∧
        (Config.hostError s.tick = false → ¬ Accepted s.fw.minver img → slotImage u.fw (!s.fw.slotB) = slotImage s.fw (!s.fw.slotB) ∧
          (¬ Signed img → Over s u 1) ∧ (Signed img → Over s u 2))) ∧
    (s.fw.up = true → s.cur.sub = 0 → s.cur.val.getLsbD 0 = true → s.fw.busy = none → ∃ u, exec .activate s = .next u ∧ u.mem = s.mem ∧
      u.fw.busy = some (.activate (s.cur.val.getLsbD 1)) ∧ u.fw.slotB = s.fw.slotB ∧
      (Accepted s.fw.minver (slotImage s.fw (!s.fw.slotB)) → ∀ p ∈ u.parts, p.tstate = 1 → p.stopping = true) ∧
      (¬ Accepted s.fw.minver (slotImage s.fw (!s.fw.slotB)) → u.parts = s.parts)) ∧
    (∀ d, s.cur.sub = 1 → s.fw.busy = some (.activate d) → let img := slotImage s.fw (!s.fw.slotB)
      (Accepted s.fw.minver img → s.allStopped = false → exec .activate s = .next s) ∧
      (Accepted s.fw.minver img → s.allStopped = true → ∃ u, exec .activate s = .next u ∧ u.mem = s.mem ∧ RunsSlot u.fw img (!s.fw.slotB) ∧
        u.fw.trial = true ∧
        Over s u 0 ∧ u.fw.committedB = s.fw.committedB ∧
        u.fw.trialAt = some (s.cycle + ((Config.imageTrial img).val + 1) * 800000000) ∧ ∀ p ∈ u.parts, p.id ∈ s.fw.restart →
          p.stopping = false) ∧
      (¬ Accepted s.fw.minver img → s.fw.restart = [] → ∃ u, exec .activate s = .next u ∧ u.mem = s.mem ∧ u.fw.slotB = s.fw.slotB ∧
        u.fw.trial = s.fw.trial ∧
        (Signed img → Over s u 2) ∧ (¬ Signed img → Over s u 1))) ∧
    (s.fw.up = true → s.cur.val.getLsbD 0 = true →
      (∀ d, s.fw.trial = true → s.fw.trialAt = some d → s.cycle < d → ∃ u, exec .commit s = .next u ∧ u.mem = s.mem ∧ u.fw.trial = false ∧
        u.fw.trialAt = none ∧
        u.fw.slotB = s.fw.slotB ∧ u.fw.committedB = s.fw.slotB ∧ u.fw.minver = Config.imageMinver (slotImage s.fw s.fw.slotB)) ∧
      (∀ d, s.fw.trialAt = some d → d ≤ s.cycle → exec .commit s = .next s) ∧ (s.fw.trial = false → exec .commit s = .next s)) ∧
    (∀ d, s.fw.trial = true → s.fw.trialAt = some d → d ≤ s.cycle → ∃ u, exec .trialRevert s = .next u ∧
      (s.fw.clear = false → u.mem = s.mem) ∧
      u.cores = s.cores ∧ RunsSlot u.fw (slotImage s.fw (!s.fw.slotB)) (!s.fw.slotB) ∧ u.fw.trial = false ∧ u.fw.reverted = true ∧
        u.fw.trialAt = none ∧
      u.fw.busy = none ∧ u.fw.committedB = s.fw.committedB ∧ ∀ p ∈ u.parts, p.id ∈ s.fw.restart → p.stopping = false)

/-- R405, R409, R411, R416, R418-R420, R422. A go starts its request, or is refused with 3 while one is in progress; QUOTE and TELEM write
their records to host memory; DRGSET grants a tenant's clusters; PWRCAP takes 4,000 to 7,500; DUMPCPY copies the dump, and DUMPCLR clears
it, after a copy in progress; each interval sets the factor f by its power and its temperatures; a command link's message spends a permit,
or is held where none is left, and returns permits of messages that have been removed; a held message goes when a permit has come back, and
no permit is lost. -/
def Obligations.FirmwareServices : Prop :=
  ∀ (s : State),
    (s.fw.up = true → s.cur.sub = 0 → ∀ x ∈ fwRequests s.fw, let go := s.cur.val.getLsbD 63
      ∃ u, exec x.1 s = .next u ∧ u.mem = s.mem ∧ u.cores = s.cores ∧
        (go = true → s.fw.busy = none → u.fw.busy = some (x.2 s.cur.val.toNat) ∧ u.fw.result = s.fw.result) ∧
        (go = true → s.fw.busy ≠ none → u.fw = { s.fw with result := 3 }) ∧
          (go = false → u.fw.busy = s.fw.busy ∧ u.fw.result = s.fw.result)) ∧
    (∀ bus, s.cur.sub = 1 → s.fw.busy = some (.quote bus) → Memory.wf s.mem = true → ∃ u, exec .quote s = .next u ∧
      (Config.hostError s.tick = true → Over s u 4 ∧ u.mem = s.mem) ∧
      (Config.hostError s.tick = false → Over s u 0 ∧ hostNum u bus 32 = hostNum s bus 32 ∧ hostNum u (bus + 32) 48 = s.fw.m.toNat ∧
        hostNum u (bus + 80) 8 = s.fw.version.toNat * 2 ^ 8 + (if s.fw.slotB then 1 else 0) ∧
          hostNum u (bus + 88) 8 = s.fw.log.length % 2 ^ 64 ∧
        hostNum u (bus + 96) 48 = (sha384 Config.identityKeys).toNat ∧
        ∀ i e, i < 58 → s.fw.log[i]? = some e → hostNum u (bus + 0x4180 + 64 * i) 48 = e.d.toNat ∧
          hostNum u (bus + 0x4180 + 64 * i + 48) 8 = e.kind.toNat ∧
          hostNum u (bus + 0x4180 + 64 * i + 56) 8 = e.version.toNat)) ∧
    (∀ bus, s.cur.sub = 1 → s.fw.busy = some (.telem bus) → Memory.wf s.mem = true → ∃ u, exec .telem s = .next u ∧
      (Config.hostError s.tick = true → Over s u 4 ∧ u.mem = s.mem) ∧
      (Config.hostError s.tick = false → Over s u 0 ∧ hostNum u bus 8 = s.cycle % 2 ^ 64 ∧
        hostNum u (bus + 8) 8 = s.fw.power % 65536 + s.fw.f % 65536 * 65536 ∧ hostNum u (bus + 32) 8 = s.fw.secor % 2 ^ 64 ∧
        hostNum u (bus + 48) 8 = ((s.settleAll.clusters.map (fun x => x.2.drgstat.toNat)).foldl (· + ·) 0) % 2 ^ 64 ∧
        (∀ i t, i < 16 → s.fw.temps[i]? = some t → hostNum u (bus + 16 + i) 1 = t % 256) ∧
        hostNum u (bus + 40) 8 = (s.cores.filter (fun x => x.2.rbank != 0xFF)).length % 2 ^ 20 + (s.cores.filter (fun x =>
          x.2.retired)).length % 2 ^ 20 * 2 ^ 20)) ∧
    (∀ b sl t p, s.cur.sub = 1 → s.fw.busy = some (.drgset b sl t) → s.part? t = some p → ∃ u, exec .drgset s = .next u ∧ u.fw.busy = none ∧
      u.fw.result = 0 ∧
      u.mem = s.mem ∧ ∀ x y, Cell p x y → (u.cluster (128 * y + x)).grantB = b ∧ (u.cluster (128 * y + x)).grantS = sl) ∧
    (s.fw.up = true → ∃ u, exec .pwrcapWrite s = .next u ∧ u.mem = s.mem ∧
      u.fw.pwrcap.toNat = (if 4000 ≤ s.cur.val.toNat % 65536 ∧ s.cur.val.toNat % 65536 ≤ 7500 then s.cur.val.toNat % 65536 else 7500)) ∧
    (∀ bus off len, s.cur.sub = 1 → s.fw.busy = some (.dumpcpy bus off len) → Memory.wf s.mem = true → ∃ u, exec .dumpcpy s = .next u ∧
      (Config.hostError s.tick = true → Over s u 4) ∧ (Config.hostError s.tick = false → Over s u 0 ∧
        ∀ i, i < 4096 * len → off + i < 34 * 2 ^ 30 → Memory.read u.mem (2 ^ 50 + bus + i) =
          Memory.read s.mem (768000000000 - 34 * 2 ^ 30 + off + i)) ∧
      (s.fw.clear = true → u.fw.dumpv = false ∧ u.fw.clear = false ∧ ∀ j, 768000000000 - 34 * 2 ^ 30 ≤ j → j < 768000000000 →
        Memory.read u.mem j = 0) ∧
      (s.fw.clear = false → u.fw.dumpv = s.fw.dumpv)) ∧
    (s.fw.up = true → s.cur.val.getLsbD 0 = true → Memory.wf s.mem = true → ∃ u, exec .dumpclr s = .next u ∧
      ((∃ a b c, s.fw.busy = some (.dumpcpy a b c)) → u.fw.clear = true ∧ u.mem = s.mem ∧ u.fw.dumpv = s.fw.dumpv) ∧
      ((∀ a b c, s.fw.busy ≠ some (.dumpcpy a b c)) → u.fw.dumpv = false ∧
        (∀ j, 768000000000 - 34 * 2 ^ 30 ≤ j → j < 768000000000 → Memory.read u.mem j = 0) ∧
        ∀ j, j < 768000000000 - 34 * 2 ^ 30 ∨ 768000000000 ≤ j → Memory.read u.mem j = Memory.read s.mem j)) ∧
    (∀ w temps, s.fw.up = true → (∀ t ∈ temps, t < 105) → let cap := s.fw.pwrcap.toNat
      let f := if 100 * w ≤ 95 * cap then 65536 else if cap < w then 65536 * cap / w else s.fw.f
      ∃ u, exec (.powerInterval w temps) s = .next u ∧ u.mem = s.mem ∧ u.fw.power = w ∧ u.fw.temps = temps ∧
        u.fw.f = (if ∃ t ∈ temps, 95 ≤ t then f / 2 else f)) ∧
    (∀ cl up ret payload, let link := fun (x : State) (dir : Bool) => if dir then (x.cluster cl).up else (x.cluster cl).down
      let l := link s up
      ∃ u, exec (.fwLinkMessage cl up ret payload) s = .next u ∧ u.mem = s.mem ∧
        (∀ dir, allPermits (link u dir) = allPermits (link s dir)) ∧
        (∀ n, n ≠ cl → u.cluster n = s.cluster n) ∧
        (s.cur.sub = 0 → (payload = false → link u up = l) ∧ (payload = true → l.permits = 0 →
          link u up = { l with heldMsgs := l.heldMsgs + 1 }) ∧
          (payload = true → l.permits ≠ 0 → link u up = { l with permits := l.permits - 1, inbox := l.inbox + 1 }) ∧
          (link u (!up)).permits = (link s (!up)).permits + Min.min ret.toNat (link s (!up)).owed) ∧
        (s.cur.sub = 1 → l.inbox ≠ 0 → link u up = { l with inbox := l.inbox - 1, owed := l.owed + 1 }) ∧
        (s.cur.sub = 2 → l.heldMsgs ≠ 0 → l.permits ≠ 0 →
          link u up = { l with heldMsgs := l.heldMsgs - 1, permits := l.permits - 1, inbox := l.inbox + 1 }) ∧
        (s.cur.sub = 3 → (link u up).permits = l.permits + Min.min 15 l.owed))

/-- R383, R406, R414, R415, R420-R422. A fatal error writes a dump, unless one is held, and resets the module, which keeps HBM and boots; so
does an uncorrectable HBM error. A corrected symbol is counted, and more than 16 in a second mark the core; a failed bank is reconstructed;
a second fault retires the core, and its region faults with TCAUSE 0. A corrected HBM error is counted too. A link that fails breaks the
group reductions that cross it, and no other. -/
def Obligations.ErrorsAndDump : Prop :=
  ∀ (s : State),
    (∀ i cause detail, i = Instr.fatalError cause detail ∨ (∃ n, i = .softError n .hbm ∧ cause = 1 ∧ detail = 0) →
      s.fw.up = true → Memory.wf s.mem = true → ∃ u, exec i s = .next u ∧ Quiet u ∧ u.fw.dumpv = true ∧
        (∀ j, j < 768000000000 - 34 * 2 ^ 30 → Memory.read u.mem j = Memory.read s.mem j) ∧
          (∀ j, 2 ^ 48 ≤ j → j < 2 ^ 50 → Memory.read u.mem j = 0) ∧
        (∀ j, 2 ^ 50 ≤ j → Memory.read u.mem j = Memory.read s.mem j) ∧
        (s.fw.dumpv = true → ∀ j, j < 2 ^ 48 → Memory.read u.mem j = Memory.read s.mem j) ∧
        (s.fw.dumpv = false → let at_ := fun off => little (Memory.readN u.mem (768000000000 - 34 * 2 ^ 30 + off) 8)
          at_ 0 = 0x4C554C4C44554D50 ∧ at_ 8 = 1 + 4096 * 65536 ∧ at_ 16 = cause.toNat + detail.toNat * 256 ∧ at_ 24 = s.cycle % 2 ^ 64)) ∧
    (∀ n, let c := s.core n
      (c.rbank = 0xFF → ∃ u, exec (.softError n .symbol) s = .next u ∧ u.mem = s.mem ∧ (u.core n).rsec = c.rsec + 1 ∧
        u.fw.secor = s.fw.secor + 1 ∧
        (u.core n).retired = c.retired ∧ ((u.core n).marked = true ↔ c.marked = true ∨
          16 ≤ (c.rtimes.filter (fun t => decide (s.cycle < t + 800000000))).length)) ∧
      (c.rbank = 0xFF → ∃ u, exec (.softError n .bank) s = .next u ∧ u.mem = s.mem ∧ (u.core n).rbank.toNat = s.cur.val.toNat % 256 ∧
        (u.core n).marked = true ∧
        (u.core n).retired = c.retired) ∧
      (∀ k, k = SoftErr.second ∨ (c.rbank ≠ 0xFF ∧ (k = .symbol ∨ k = .bank)) → ∃ u, exec (.softError n k) s = .next u ∧ u.mem = s.mem ∧
        (u.core n).retired = true ∧ ∀ r, c.bound = true → c.retired = false → s.region? c.rid = some r → r.fault = none → ∃ r' f,
          u.region? r.rid = some r' ∧
          r'.faulted = true ∧ r'.fault = some f ∧ f.tcause = 0 ∧ f.code = 0 ∧ f.lcore = c.lcore)) ∧
    (∀ n, exec (.softError n .hbmSymbol) s = .next { s with fw := { s.fw with secor := s.fw.secor + 1 } }) ∧
    (∃ u, exec .linkFailure s = .next u ∧ u.mem = s.mem ∧ u.cores = s.cores ∧ s.cur.idx ∈ u.linkDown ∧
      ∀ rid i g, stageOf s rid i = some g → ∃ g', stageOf u rid i = some g' ∧ g'.word = g.word ∧ g'.complete = g.complete ∧
        (g.groupBrk = true → g'.groupBrk = true) ∧
        (∀ gr, s.group = some gr → gr.others ≠ [] → gr.others.length < 16 → g.complete = false → (∃ c ∈ g.red, c.xg = true) →
          Crosses gr s.cur.idx → g'.groupBrk = true) ∧
        ((∀ gr, s.group = some gr → ∀ o ∈ gr.others, o.2 ≠ s.cur.idx ∧ o.2 ∉ s.linkDown) → (∀ x ∈ s.groupIn, x.msg ≠ .broken) →
          g'.groupBrk = g.groupBrk))

/-- R273, R274, R355, R390, R394, R411, R412, R414. A host's access to its window is a write or a read of the registers at their offsets,
those unlisted reading 0; its access to device memory, a CXL request and a peer's request act on HBM as their tenant, and a read that faults
is aborted. A peer that no pairing names, and CXL without a decoder or outside its range, are refused; a failed port does nothing, and port
1 presents no function while it is set to CXL. -/
def Obligations.OutsideAccess : Prop :=
  ∀ (s s1 : State) (port fn n pa : Nat) (addr : Addr) (data : List Byte) (t : BitVec 6),
    (port ≠ 0 → s.cxlMode = true → ∀ space, exec (.hostWrite port fn space addr data) s = .next s ∧
      exec (.hostRead port fn space addr n) s = .next { s with out := .completion port false [] :: s.out }) ∧
    (port = 0 ∨ s.cxlMode = false → addr.toNat % 8 = 0 → data.length = 8 → ∀ bar ∈ [(0, Space.win0), (2, .bar2)],
      let s' := { s with cur := { s.cur with core := bar.1, sub := fn, idx := addr.toNat, val := BitVec.ofNat 64 (little data) } }
      ∃ u, exec (.hostWrite port fn bar.2 addr data) s' = .next u ∧ exec .registerWrite s' = .next u) ∧
    (port = 0 ∨ s.cxlMode = false → s.fw.up = true → addr.toNat % 8 = 0 →
      let reads := fun v : Nat => exec (.hostRead port fn .win0 addr 8) s =
        .next { s with out := .completion port true (lowBytes 8 v) :: s.out }
      (addr = 0 → reads (s.func fn).s1root.toNat) ∧ (addr = 0x10 → reads (s.func fn).moder.toNat) ∧
      (addr = 0x18 → reads (if fn = 0 then (s.func 0).ksel.toNat else 0)) ∧
      (∀ p, addr = 8 → s.ownedBy fn = some p → reads (p.tstate.toNat + if p.faulted then 2 ^ 8 else 0)) ∧
      (0x20 ≤ addr.toNat → addr.toNat < 0x10000 → reads 0) ∧ (0x50000 ≤ addr.toNat → reads 0) ∧
      ∀ l q, l < 4096 → s.queueAt fn l = some q →
        (addr.toNat = 0x10000 + 64 * l → reads (s.queue q).qbase.toNat) ∧ (addr.toNat = 0x10008 + 64 * l → reads (s.queue q).qcfg.toNat) ∧
        (addr.toNat = 0x10010 + 64 * l → reads (s.queue q).tail.toNat) ∧ (addr.toNat = 0x10018 + 64 * l → reads (s.queue q).head.toNat) ∧
        (addr.toNat = 0x10020 + 64 * l → reads ((if s.blocks.any (fun b => b.src == .queue q) then 1 else 0) + (if (s.queue q).error then
          2 else 0) +
          if (s.queue q).destroying then 4 else 0))) ∧
    (∀ p, port = 0 ∨ s.cxlMode = false → 1 ≤ fn → s.parts.find? (·.func == fn) = some p → t = BitVec.ofNat 6 p.id → s.fw.up = true →
      (Placed s s1 t true addr.toNat data.length .write pa → ∃ u, exec (.hostWrite port fn .mem addr data) s = .next u ∧
        u.mem = (s1.writeAt (feAgent t s1.fresh) (.hbm pa) data 0x01).mem ∧ u.out = s.out) ∧
      (Placed s s1 t true addr.toNat n .read pa → ∃ u, exec (.hostRead port fn .mem addr n) s = .next u ∧ u.mem = s.mem ∧
        u.out = .completion port true (s1.readAt t (.hbm pa) n) :: s.out) ∧
      (0 < n → n ≤ 64 - addr.toNat % 64 → addr.toNat + n ≤ 0x400000000000 → s.portPlace t true addr.toNat .read = .error .stage1 →
        ∃ u, exec (.hostRead port fn .mem addr n) s = .next u ∧ u.mem = s.mem ∧ u.out = .completion port false [] :: s.out)) ∧
    (∀ w, s.cxl = none ∨ s.cxlMode = false ∨ (∀ x base size, s.cxl = some (x, base, size) → addr.toNat < base ∨
        base + size < addr.toNat + (if w then data.length else n)) → ∃ u, exec (.cxlMemRequest w addr data n) s = .next u ∧ u.mem = s.mem ∧
          u.out = .cxlCompletion false [] :: s.out) ∧
    (∀ base size, s.cxl = some (t, base, size) → s.cxlMode = true → base ≤ addr.toNat →
      addr.toNat + data.length ≤ base + size → addr.toNat + n ≤ base + size →
      (Placed s s1 t false addr.toNat data.length .write pa → ∃ u, exec (.cxlMemRequest true addr data n) s = .next u ∧
        u.mem = (s1.writeAt (feAgent t s1.fresh) (.hbm pa) data 0x01).mem ∧ u.out = .cxlCompletion true [] :: s.out) ∧
      (Placed s s1 t false addr.toNat n .read pa → ∃ u, exec (.cxlMemRequest false addr data n) s = .next u ∧ u.mem = s.mem ∧
        u.out = .cxlCompletion true (s1.readAt t (.hbm pa) n) :: s.out)) ∧
    (∀ w remote, (port ∈ s.linkDown → exec (.linkRequest port remote w addr data n) s = .next s) ∧
      (port ∉ s.linkDown → (∀ x ∈ (s.pairs.filter (·.1 == port)).take 64, x.2.2 ≠ remote) → ∃ u,
        exec (.linkRequest port remote w addr data n) s = .next u ∧ u.mem = s.mem ∧
        u.out = .linkCompletion port false [] :: s.out) ∧
      (∀ x, port ∉ s.linkDown → ((s.pairs.filter (·.1 == port)).take 64).find? (fun x => x.2.2 == remote) = some x → t = x.2.1 →
        (Placed s s1 t true addr.toNat data.length .write pa → ∃ u, exec (.linkRequest port remote true addr data n) s = .next u ∧
          u.mem = (s1.writeAt (feAgent t s1.fresh) (.hbm pa) data 0x01).mem) ∧
        (Placed s s1 t true addr.toNat n .read pa → ∃ u, exec (.linkRequest port remote false addr data n) s = .next u ∧ u.mem = s.mem ∧
          u.out = .linkCompletion port true (s1.readAt t (.hbm pa) n) :: s.out)))

/-! ## Reset, the step, encodings, and what every step keeps -/

/-- R10-R14, R22, R27, R142, R279, R355, R386, R405. What reset leaves, where the spec gives the value: no partition, no bound core, every
slot EMPTY with its registers 0, SRSTRM and CTXID the slot's number and TMCMP all ones; CYCLE 0; the barrier slots, the queues and the
functions' registers as the rules have them; the command links' permits; every full/empty bit full. -/
def Obligations.ResetValues : Prop :=
  let s := State.reset
  s.cycle = 0 ∧ s.parts = [] ∧ s.regions = [] ∧ s.blocks = [] ∧ s.counters = [] ∧ s.flits = [] ∧ (∀ k, s.full k = true) ∧
    Memory.wf s.mem = true ∧
  (∀ n k, let t := s.thAt n k
    t.state = .empty ∧ (∀ r, t.g.get r = 0) ∧ (∀ r, t.v.get r = 0) ∧ (∀ r, t.k.get r = 0) ∧ t.srctr = 0 ∧ t.fpcsr = 0 ∧ t.tcause = 0 ∧
      t.tval = 0 ∧ t.tepc = 0 ∧
    t.tfpc = 0 ∧ t.tstatus = 0 ∧ t.hscr = 0 ∧ t.tmcmp = 0xFFFFFFFFFFFFFFFF ∧ t.ctxid.toNat = k.val ∧ t.srstrm.toNat = k.val ∧ t.rel = [] ∧
      t.pfx = none) ∧
  (∀ n, (s.core n).bound = false ∧ (s.core n).accown = 0 ∧ (s.core n).smcount = 0 ∧ (∀ i, (s.core n).xbcfg.get i = 0) ∧
    (s.core n).deque = []) ∧
  (∀ n, let c := s.cluster n
    (∀ i, let b := c.bars.get i
      b.arr = 0 ∧ b.exp = 1 ∧ b.pb = 0 ∧ b.ph = false ∧ b.brk = false ∧ b.sys = false) ∧
    (∀ k, c.frames.get k = none) ∧ c.disp = [] ∧ c.cflags = 0 ∧ c.drgstat = 0 ∧ c.down.permits = 8 ∧ c.up.permits = 4 ∧ c.grantB = 65536 ∧
      c.grantS = 0) ∧
  (∀ n, let q := s.queue n
    q.fn = 0 ∧ q.lidx = n ∧ q.qbase = 0 ∧ q.qcfg = 0 ∧ q.tail = 0 ∧ q.head = 0 ∧ q.error = false ∧ q.destroying = false) ∧
  (∀ n, (s.func n).s1root = 0 ∧ (s.func n).moder = 0 ∧ (s.func n).ksel = 0)

/-- R17, R52, R53, R57, R66-R68, R254, R406. A thread's step runs the instruction that the bytes at its PC, and a literal's words after it,
decode to, under the prefix that waits for it; a word that decodes to none, and a prefix that does not fit, are ILLEGAL, and a supervisor
instruction in U is PRIV. An action from outside comes first; an event of another agent runs as what it is; without firmware nothing
runs. -/
def Obligations.StepRunsDecoded : Prop :=
  (∀ (s : State) (a : Addr) (c off : Nat), capFault s.cc.tenant s.th.pcc a.toNat 4 permX kindCode 4 = none →
    s.rowOf s.agent a.toNat = .slice c off →
    s.rowOk s.agent a.toNat 4 = true → fetchWord a s = .ok (BitVec.ofNat 32 (little (Memory.readN s.mem (2 ^ 48 + c * 0x10000 + off) 4)),
      s)) ∧
  (∀ (s s1 : State) (w : BitVec 32) (i : Instr), fetchWord s.th.wordAt s = .ok (w, s1) → decodeWord w 0 = .ok i →
    (s.th.pfx = none ∧ w.toNat / 2 ^ 26 ≠ 0x3E) ∨ (∃ p, s.th.pfx = some p ∧ legalPair p.order i = true) →
    (i.sOnly = true → s1.th.cprv = false → fetch s = .error (.trap .priv (BitVec.ofNat 64 w.toNat))) ∧
    (i.sOnly = false ∨ s1.th.cprv = true →
      (i.length = 4 → fetch s = .ok (i, s1)) ∧
      (∀ lo s2 j, i.length = 8 → fetchWord (s1.th.wordAt + 4) s1 = .ok (lo, s2) → decodeWord w (lo.zeroExtend 64) = .ok j →
        fetch s = .ok (j, s2)) ∧
      (∀ lo hi s2 s3 j, i.length = 12 → fetchWord (s1.th.wordAt + 4) s1 = .ok (lo, s2) → fetchWord (s1.th.wordAt + 8) s2 = .ok (hi, s3) →
        decodeWord w (hi ++ lo) = .ok j → fetch s = .ok (j, s3)))) ∧
  (∀ (s s1 s2 : State) (w x : BitVec 32) (o : Order) (sc : Scope), fetchWord s.th.wordAt s = .ok (w, s1) → s.th.pfx = none →
    decodeWord w 0 = .ok (.ord o sc) →
    fetchWord (s.th.pc + 4) s1 = .ok (x, s2) → fetch s = .ok (.ord o sc, s2)) ∧
  (∀ (s s1 : State) (w : BitVec 32) (x : Reject), fetchWord s.th.wordAt s = .ok (w, s1) → decodeWord w 0 = .error x →
    w.toNat / 2 ^ 26 ≠ 0x3E →
    fetch s = .error (.trap .illegal (BitVec.ofNat 64 w.toNat))) ∧
  (∀ (s s1 : State) (w : BitVec 32) (i : Instr) (p : Pfx), fetchWord s.th.wordAt s = .ok (w, s1) → decodeWord w 0 = .ok i →
    s.th.pfx = some p →
    legalPair p.order i = false → fetch s = .error (.trap .illegal (BitVec.ofNat 64 w.toNat))) ∧
  (∀ (s : State), let s1 := s.advance
    (∀ c i r, s.inputs = (c, i) :: r → step s = exec i { s1 with inputs := r, cur := c }) ∧
    (s.inputs = [] → s.fw.up = false → step s = .next s1) ∧
    (∀ n k i s2, s.inputs = [] → s1.pick = some (.issue n k) → fetch (s1.issuing n k) = .ok (i, s2) → step s = exec i s2) ∧
    (∀ n k c v, s.inputs = [] → s1.pick = some (.issue n k) → fetch (s1.issuing n k) = .error (.trap c v) →
      step s = .next ((s1.issuing n k).trapSync c v (s1.issuing n k).th.pc)) ∧
    (∀ n k i s2, s.inputs = [] → s1.pick = some (.retry n k) → fetch (s1.at_ n k) = .ok (i, s2) → step s = exec i s2) ∧
    (∀ c i, s.inputs = [] → s1.pick = some (.event c i) → step s = exec i { s1 with cur := c }))

/-- R52-R79, R208. Words written out from the encoding tables decode to their instructions. -/
def Obligations.DecodeWords : Prop :=
  decodeWord 0x94220006 0 = .ok (.pushr (.g 2) 8) ∧ decodeWord 0xE0200400 0 = .ok (.srd (.g 2) 0x001) ∧
    decodeWord 0xAC209402 0 = .ok (.ewait (.g 2) (.const 5)) ∧
  decodeWord 0xAC030000 0 = .ok (.enqm 3) ∧ decodeWord 0xAC040001 0 = .ok (.enqc 4) ∧ decodeWord 0x0030420C 0 = .ok (.sel 3 (.g 1) (.g 2)) ∧
  decodeWord 0x08304100 0 = .ok (.mul (.g 3) (.g 1) (.g 1)) ∧ decodeWord 0x94233E08 0x10 = .ok (.splitr (.g 2) 12 (.lit32 0x10)) ∧
  decodeWord 0x04307E10 0x408 = .ok (.bfx (.g 3) (.g 1) (.lit32 0x408)) ∧ decodeWord 0 0 = .error .selector

/-- R52-R82, R208-R237. Decoding an encoded instruction gives it back, for every well-formed instruction that has a word, with every operand
and literal at every value, whatever follows it in memory; and so for every well-formed command word. -/
def Obligations.EncodeDecode : Prop :=
  ∀ i : Instr, i.wf = true → (i.hasWord = true → ∀ rest, decode (encode i ++ rest) = .ok (i, rest)) ∧
    (encodeCmd i ≠ 0 → decodeCmd (encodeCmd i) = some i)

/-- R19, R255. Memory keeps its canonical form, addresses rising and no entry equal to what an unlisted address reads as, in every step from
every state that has it. The form is the model's own (entry 7): with it, equal memories are equal data. -/
def Obligations.MemoryKeepsForm : Prop := ∀ s t : State, Memory.wf s.mem = true → step s = .next t → Memory.wf t.mem = true

/-! ## What ordinary operands do -/

namespace Sys2Proof.Spec

/-- Nothing holds the next instruction of the current thread back, and no prefix comes before it: no relaxed access is outstanding, no
relaxed fault is recorded, and no release has missed (R66, R123, R124, R261). -/
def Settled (s : State) : Prop := s.th.rel = [] ∧ s.th.dfr = [] ∧ s.th.miss = none ∧ s.th.pfx = none

/-- A capability of a kind admits the current thread's access to n bytes at x, aligned to al (R17). -/
def Admits (s : State) (k : Cap) (x n al : Nat) (need : BitVec 6) (kind : Nat) : Prop :=
  k.tag = true ∧ k.bits.toNat / 2 ^ 116 = 0 ∧ k.bits.toNat / 2 ^ 107 % 2 ^ 6 = s.cc.tenant.toNat ∧ k.bits.toNat / 2 ^ 113 % 2 ^ 3 = kind ∧
  (∀ i, i < 6 → need.getLsbD i = true → k.bits.getLsbD (101 + i) = true) ∧ k.bits.toNat / 2 ^ 96 % 2 ^ 5 ≤ 24 ∧ k.base ≤ x ∧ x + n ≤ k.top ∧
  x % al = 0

/-- The n bytes at x are those from offset o on of the core's own slice, and a memory capability admits the access (R17, R19). -/
def InOwn (s : State) (k : Cap) (x n : Nat) (need : BitVec 6) (o : Nat) : Prop :=
  Admits s k x n n need 0 ∧ x = 0x500000000000 + o ∧ o + n ≤ 0xC000

/-- The state after an instruction of len bytes has written g r and retired. -/
def withReg (s : State) (r : BitVec 5) (v : Word) (len : Nat) : State := s.setTh ((s.th.setG r v).retired len)

end Sys2Proof.Spec

/-- R17, R19, R54, R61, R106-R117, R121, R122, R125, R129, R130, R143, R160, R183. Where nothing holds the thread back, no operand is a
queue register and an address lies in the own slice, within a capability that admits the access, these complete, each with its result: the
capability instructions and the transfers, loads and stores, the full/empty operations on a word whose bit lets them, the atomics, mon, jdec
while a count is left, a Bridle instruction that sends its flit, and every vector and mask instruction, which joins the queue. -/
def Obligations.OrdinaryCompletion : Prop :=
  ∀ (s : State) (r : BitVec 5) (c a : BitVec 4) (p : Src) (off : BitVec 14) (sz : BitVec 2) (dbl : Bool) (o : Nat), Settled s → Plain s p →
    let k := s.th.ar a
    let cur := k.bits.toNat % 2 ^ 48
    let v := value s p
    let len := 4 + p.litBytes
    let core := s.cur.core
    let key := 2 ^ 48 + core * 0x10000 + o
    let home := Tgt.sram core o
    let word := fun n => little (Memory.readN s.mem key n)
    let put := fun (bs : List Byte) (kind : Nat) => s.writeAt s.agent home bs kind
    (∀ x ∈ capProperties (.g r) a, exec x.1 s = .next (withReg s r (x.2 s.cc.tenant k) 4)) ∧
    (∀ x ∈ [(Instr.cadd c a p, cur + v.toNat, 63#6), (.cset c a p, v.toNat, 63#6), (.cperm c a p, cur, BitVec.ofNat 6 v.toNat)], ∃ n : Cap,
      exec x.1 s = .next (withCap s c n len) ∧ n.bits.toNat % 2 ^ 48 = x.2.1 % 2 ^ 48 ∧ n.perms = k.perms &&& x.2.2 ∧ n.tag = keptTag k) ∧
    exec (.cmov c a) s = .next (withCap s c { k with tag := keptTag k } 4) ∧
    (k.tag = false ∨ (k.bits.toNat / 2 ^ 96 % 2 ^ 5 ≤ 24 ∧ k.base ≤ cur ∧ cur + v.toNat ≤ k.top ∧ cur + v.toNat < 2 ^ 24) → ∃ n : Cap,
      exec (.cbnd c a p) s = .next (withCap s c n len) ∧ n.bits.toNat % 2 ^ 48 = cur ∧
        (cur + v.toNat < 2 ^ 24 → n.base = cur ∧ n.top = cur + v.toNat)) ∧
    (∀ disp : BitVec 16, ∀ x ∈ branches p disp, ∃ t, exec x.1 s = .next t ∧
      OnlyPc s t (if x.2 v.toInt then target s disp else s.th.wordAt + 4)) ∧
    (v.toNat % 4 = 0 → (∃ t, exec (.jmpr p) s = .next t ∧ OnlyPc s t (BitVec.ofNat 48 v.toNat)) ∧
      ∃ t, exec (.callr p) s = .next t ∧ PcAndReg s t (BitVec.ofNat 48 v.toNat) 31 ((s.th.wordAt + BitVec.ofNat 48 len).zeroExtend 64)) ∧
    (let n := 2 ^ sz.toNat
     (InOwn s k (addrOf k off) n permR o → exec (.ld (.g r) a off sz) s =
       .next (withReg s r (BitVec.ofInt 64 (signedLow (8 * n) (word n))) 4) ∧
       exec (.ldZext (.g r) a off sz) s = .next (withReg s r (BitVec.ofNat 64 (word n)) 4)) ∧
     (InOwn s k (addrOf k off) n permW o → exec (.st p a off sz) s = .next (after (put (lowBytes n v.toNat) 0x01) len))) ∧
    (InOwn s k (addrOf k off) 16 permR o → exec (.ldc c a off) s = .next
      (withCap s c { bits := BitVec.ofNat 128 (word 16), tag := s.tagAt home && k.perms.getLsbD 2 } 4)) ∧
    (InOwn s k (addrOf k off) 16 permW o → (s.th.ar c).tag = false ∨ k.perms.getLsbD 3 = true →
      exec (.stc c a off) s = .next (after ((put (lowBytes 16 (s.th.ar c).bits.toNat) 0x02).setTag home (s.th.ar c).tag) 4)) ∧
    (InOwn s k (addrOf k off) 8 (permR ||| permA) o → exec (.fes (.g r) a off) s = .next (withReg s r (flag (s.full key = true)) 4) ∧
      (s.full key = true → exec (.ldf (.g r) a off) s = .next ((withReg s r (BitVec.ofNat 64 (word 8)) 4).feServeAll core key) ∧
        exec (.ldfe (.g r) a off) s =
          .next ((withReg ((s.setFull key false).hitWatches (key / 64)) r (BitVec.ofNat 64 (word 8)) 4).feServeAll core key))) ∧
    (InOwn s k (addrOf k off) 8 (permW ||| permA) o →
      exec (.stf p a off) s = .next ((after ((put (lowBytes 8 v.toNat) 0x03).setFull key true) len).feServeAll core key) ∧
      (s.full key = false → exec (.stef p a off) s =
        .next ((after ((put (lowBytes 8 v.toNat) 0x04).setFull key true) len).feServeAll core key)) ∧
      exec (.empt a off) s = .next ((after (((s.setFull key false).hitWatches (key / 64)).trace s.agent core o 8 0x05) 4).feServeAll core key)) ∧
    (let n := if dbl then 8 else 4
     InOwn s k cur n (permR ||| permW ||| permA) o →
      (∀ x ∈ atomics (.g r) a p dbl, exec x.1 s =
        .next (withReg (put (lowBytes n (x.2.2 (word n) (v.toNat % 2 ^ (8 * n)))) 0x06) r (oldValue x.2.1 n (word n)) len)) ∧
      exec (.cas r a p dbl) s = .next (withReg (if word n = (s.th.gr r).toNat % 2 ^ (8 * n) then put (lowBytes n v.toNat) 0x07 else s) r
        (BitVec.ofNat 64 (word n)) len)) ∧
    (InOwn s k cur 4 (permR ||| permW ||| permA) o → let x := fp32.add (mode s) (word 4) (v.toNat % 2 ^ 32)
      let s3 := put (lowBytes 4 x.bits) 0x06
      ∃ t, exec (.amoFaddS (.g r) a p) s = .next t ∧ Retired (s3.setTh (s3.th.setG r (BitVec.ofNat 64 (word 4)))) t len (raising x.fl)) ∧
    (InOwn s k cur 1 permR o → let s3 := s.dropWatch core s.cur.slot
      (s3.watches.filter (·.home == watchHome home)).length < watchRoom (watchHome home) → ∃ t, exec (.mon a) s = .next t ∧
        t.th.watch = some { line := key / 64, hit := false } ∧ t.th.pc = s.th.wordAt + 4 ∧ ∀ g, t.th.gr g = s.th.gr g) ∧
    (InOwn s k cur 32 (permR ||| permW ||| permA) o → 1 < word 8 →
      exec (.jdec (.g r) a) s = .next (withReg (put (lowBytes 8 (word 8 - 1)) 0x06) r (BitVec.ofNat 64 ((word 8 - 1) % 2 ^ 60)) 4)) ∧
    (∀ x ∈ bridleOps (.g r) a p, ∀ q, Admits s k cur 1 1 x.2.2 2 → s.part? s.cc.tenant.toNat = some q → q.bbase ≤ cur →
      cur < q.blimit - (if s.th.cprv then 0 else 256) → (x.2.1 = .configure → cfgOk v = true) →
      let s2 := s.parkTh .waitMem (.bridle s.fresh (.g r) len)
      exec x.1 s = .next ({ s2 with fresh := s.fresh + 1, flits := s.flits ++ [flitOf s x.2.1 cur p v] }.inject (flitOf s x.2.1 cur p v))) ∧
    (∀ (vd vs vt gd y z : BitVec 4) (m kd ks kt : BitVec 3) (vo : BitVec 11) (ty sty : LaneTy), s.cc.vq.length < 2 → s.cc.vecWaiters = [] →
      let joins := fun i : Instr => ∃ t op, exec i s = .next t ∧ t.cc.vq = s.cc.vq ++ [op] ∧ op.instr = i ∧ op.slot = s.cur.slot
      let lanes := fun need : BitVec 6 => s.vecBusy core s.cur.slot = false ∧ ∀ i, i < ty.lanes → (s.th.kr m).getLsbD i = true →
        ∃ x, InOwn s k (laneAddr k ty (lane ty (s.th.vr vt) i)) (ty.width / 8) need x
      (∀ i ∈ registerVector vd vs vt m kd ks kt gd ty ++ [.kmovKg kd y, .vbc vd y m ty, .vmovg gd vs y ty, .vrot vd vs y m ty,
        .vins vd y z ty], joins i) ∧
      (s.th.rm ≠ 5 → joins (.vcvt vd vs vt m ty sty)) ∧ (s.th.cprv = true → joins (.vacr vd y m ty) ∧ joins (.vacw vs y m ty)) ∧
      (InOwn s k (vecAddr k vo) 32 permR o → joins (.vld vd a vo m ty)) ∧
        (InOwn s k (vecAddr k vo) 32 permW o → joins (.vst vd a vo m ty)) ∧
      (lanes permR → joins (.vldx vd a vt m ty)) ∧ (lanes permW → joins (.vstx vd a vt m ty)))
end

