-- ==== Sys2Proof/Laws/Memory.lean ====
section
/-! SUPPORT. What each shared operation over memory, translation, tags and traps can do to memory, and that it keeps memory's canonical
form (R18, R255, R391, R394, R396). -/

namespace Sys2Proof.Machine

/-! ## Operations that leave every byte -/

/-- A fold of updates that each keep the bytes keeps them. -/
theorem foldl_mem {α : Type} (f : State → α → State) (h : ∀ s x, (f s x).mem = s.mem) (l : List α) :
    ∀ s : State, (l.foldl f s).mem = s.mem := by
  induction l with
  | nil => exact fun _ => rfl
  | cons x r ih => exact fun s => (ih (f s x)).trans (h s x)

@[simp] theorem State.hitWatches_mem (s : State) (line : Nat) : (s.hitWatches line).mem = s.mem := by
  unfold State.hitWatches
  exact foldl_mem _ (fun s (w : WatchE) => State.setThAt_mem s w.core w.slot _) _ s

@[simp] theorem State.parkTh_mem (s : State) (st : TState) (w : Wait) : (s.parkTh st w).mem = s.mem := rfl
@[simp] theorem State.dropWaits_mem (s : State) (n : Nat) (k : Fin 8) : (s.dropWaits n k).mem = s.mem := rfl
@[simp] theorem State.regionFault_mem (s : State) (n : Nat) (k : Fin 8) (c d : BitVec 8) (w : Word) :
    (s.regionFault n k c d w).mem = s.mem := rfl
@[simp] theorem State.trapAsync_mem (s : State) (c : Cause) (v : Word) : (s.trapAsync c v).mem = s.mem := rfl

@[simp] theorem State.unslot_mem (s : State) (n : Nat) (k : Fin 8) (e : Fin 2) : (s.unslot n k e).mem = s.mem := by
  unfold State.unslot
  dsimp only
  split <;> rfl

@[simp] theorem State.takeBack_mem (s : State) (n : Nat) (k : Fin 8) : (s.takeBack n k).mem = s.mem := by
  unfold State.takeBack
  dsimp only
  split
  · rfl
  · rw [State.unslot_mem, State.unslot_mem]; rfl

@[simp] theorem State.noteNode_mem (s : State) (n : Nat) (f : Node → Node) : (s.noteNode n f).mem = s.mem := by
  unfold State.noteNode
  dsimp only
  split <;> rfl

@[simp] theorem State.noteFsum_mem (s : State) (n : Nat) (b : BitVec 16) : (s.noteFsum n b).mem = s.mem := State.noteNode_mem ..

/-- Taking a trap writes no byte (R30, R32). -/
@[simp] theorem State.trapSync_mem (s : State) (c : Cause) (v : Word) (a : Addr) : (s.trapSync c v a).mem = s.mem := by
  unfold State.trapSync
  dsimp only
  by_cases e : c = .broken <;> simp only [e, if_true, if_false] <;> split <;> simp [State.regionFault_mem]

@[simp] theorem State.markDirty_mem (s : State) (p : Part) (x : Nat) (a : Acc) : (s.markDirty p x a).mem = s.mem := by
  unfold State.markDirty
  dsimp only
  split <;> rfl

@[simp] theorem State.setTag_mem (s : State) (x : Tgt) (on : Bool) : (s.setTag x on).mem = s.mem := by
  cases x <;> simp only [State.setTag] <;> cases on <;> rfl

@[simp] theorem State.setFull_mem (s : State) (k : Nat) (on : Bool) : (s.setFull k on).mem = s.mem := by
  cases on <;> rfl

@[simp] theorem State.raise_mem (s : State) (fn vec : Nat) : (s.raise fn vec).mem = s.mem := by
  unfold State.raise
  dsimp only
  split
  · split <;> rfl
  · rfl

/-- Translation changes the cached entries and the dirty bits, and no byte (R391, R400). -/
theorem State.translate_mem {s t : State} {die : Nat} {tn : BitVec 6} {both : Bool} {va pa : Nat} {a : Acc}
    (h : s.translate die tn both va a = .ok (pa, t)) : t.mem = s.mem := by
  unfold State.translate at h
  split at h
  · cases h
  · split at h
    · cases h; exact State.markDirty_mem ..
    · split at h
      · cases h
      · dsimp only at h
        split at h
        · cases h
        · cases h; exact State.markDirty_mem ..

/-- Finding the home of an address writes no byte (R255). -/
theorem State.resolve_mem {s t : State} {ag : Agent} {x : Nat} {a : Acc} {g : Tgt} (h : s.resolve ag x a = .ok (g, t)) :
    t.mem = s.mem := by
  unfold State.resolve at h
  split at h
  · split at h
    · cases h
    · rename_i e; cases h; exact State.translate_mem e
  · cases h; rfl
  · cases h; rfl
  · split at h <;> cases h; rfl
  · cases h; rfl
  · cases h

/-- The same of the parts of an access. -/
theorem State.resolveAll_mem {ag : Agent} {a : Acc} : ∀ {l : List (Nat × Nat)} {s t : State} {x : Spans},
    s.resolveAll ag a l = .ok (x, t) → t.mem = s.mem
  | [], s, t, x, h => by cases h; rfl
  | (k, n) :: r, s, t, x, h => by
      unfold State.resolveAll at h
      split at h
      · cases h
      · rename_i e1
        split at h
        · cases h
        · rename_i e2; cases h; exact (State.resolveAll_mem e2).trans (State.resolve_mem e1)

/-- The same of the current thread's checked access. -/
theorem home_mem {s t : State} {addr : Nat} {a : Acc} {g : Tgt} (h : home addr a s = .ok (g, t)) : t.mem = s.mem := by
  unfold home at h
  split at h
  · rename_i e; cases h; exact State.resolve_mem e
  · cases h
  · cases h

/-- A capability check that passes changes nothing: the five conditions of R17 hold, and the window admits the access. -/
theorem capCheck_inv {s t : State} {c : Cap} {addr size : Nat} {need : BitVec 6} {kind : BitVec 3} {align : Nat}
    (h : capCheck c addr size need kind align s = .ok ((), t)) :
    t = s ∧ capFault s.cc.tenant c addr size need kind align = none
      ∧ (kind ≠ kindBridle → s.windowFault s.agent addr size = none) := by
  rw [capCheck, run_gets_bind] at h
  simp only [id] at h
  cases e : capFault s.cc.tenant c addr size need kind align with
  | some f => simp only [e] at h; cases h
  | none =>
    simp only [e] at h
    by_cases hk : kind = kindBridle
    · rw [if_pos hk] at h; cases h; exact ⟨rfl, rfl, fun hn => absurd hk hn⟩
    · rw [if_neg hk] at h
      cases w : s.windowFault s.agent addr size with
      | some f => simp only [w] at h; cases h
      | none => simp only [w] at h; cases h; exact ⟨rfl, rfl, fun _ => rfl⟩

/-! ## Operations that write bytes -/

/-- A poke writes its bytes at its key and no other. -/
@[simp] theorem State.poke_mem (s : State) (k : Nat) (bs : List Byte) : (s.poke k bs).mem = Memory.writeN s.mem k bs := by
  unfold State.poke
  dsimp only
  split
  · rfl
  · split <;> simp only [State.hitWatches_mem]

/-- The bytes of a line whose key is set: free ones where the line had another key (R396). -/
def State.lineBytes (s : State) (line : Nat) : List Byte := (List.range 64).map (fun i => s.garbled (line * 64 + i))

@[simp] theorem State.lineBytes_length (s : State) (line : Nat) : (s.lineBytes line).length = 64 := by
  unfold State.lineBytes; rw [List.length_map, List.length_range]

theorem State.rekey_mem (s : State) (t : BitVec 6) (line : Nat) :
    (s.rekey t line).mem = if s.keyMiss t line then Memory.writeN s.mem (line * 64) (s.lineBytes line) else s.mem := by
  unfold State.rekey State.lineBytes
  cases s.keyMiss t line <;> simp only [if_true, if_false, Bool.false_eq_true]

/-- A write of a line's key leaves the bytes of every other line. -/
theorem State.rekey_other (s : State) (t : BitVec 6) (line j : Nat) (hw : Memory.wf s.mem = true) (hj : j / 64 ≠ line) :
    Memory.read (s.rekey t line).mem j = Memory.read s.mem j := by
  rw [State.rekey_mem]
  split
  · rw [Memory.read_writeN _ _ _ _ hw, State.lineBytes_length, if_neg (by omega)]
  · rfl

/-! ## The canonical form -/

/-- Memory is in its canonical form. -/
def State.memOk (s : State) : Prop := Memory.wf s.mem = true

theorem State.memOk_of_mem {s t : State} (h : s.memOk) (e : t.mem = s.mem) : t.memOk := by
  unfold State.memOk; rw [e]; exact h

theorem foldl_memOk {α : Type} (f : State → α → State) (h : ∀ s x, s.memOk → (f s x).memOk) (l : List α) :
    ∀ s : State, s.memOk → (l.foldl f s).memOk := by
  induction l with
  | nil => exact fun _ hs => hs
  | cons x r ih => exact fun s hs => ih (f s x) (h s x hs)

theorem State.memOk_poke {s : State} (h : s.memOk) (k : Nat) (bs : List Byte) : (s.poke k bs).memOk := by
  unfold State.memOk; rw [State.poke_mem]; exact Memory.wf_writeN bs _ k h

theorem State.memOk_rekey {s : State} (h : s.memOk) (t : BitVec 6) (line : Nat) : (s.rekey t line).memOk := by
  unfold State.memOk
  rw [State.rekey_mem]
  split
  · exact Memory.wf_writeN _ _ _ h
  · exact h

theorem State.memOk_rekeyN {s : State} (h : s.memOk) (t : BitVec 6) (pa n : Nat) : (s.rekeyN t pa n).memOk := by
  unfold State.rekeyN
  dsimp only
  split
  · exact State.memOk_rekey h ..
  · exact State.memOk_rekey (State.memOk_rekey h ..) ..

/-- Bytes put at a place keep the form (R255). -/
theorem State.memOk_put {s : State} (h : s.memOk) (t : BitVec 6) (x : Tgt) (bs : List Byte) : (s.put t x bs).memOk := by
  cases x with
  | sram c off => exact State.memOk_poke h ..
  | hbm pa => exact State.memOk_poke (State.memOk_rekeyN h ..) ..
  | host p f b => exact State.memOk_poke h ..
  | peer p o => simp only [State.put]; split <;> exact h
  | control a => exact h

/-- A trace record keeps the form (R270). -/
theorem State.memOk_record {s : State} (h : s.memOk) (ag : Agent) (core off n kind : Nat) : (s.record ag core off n kind).memOk := by
  unfold State.record
  dsimp only
  split
  · exact h
  · split
    · exact h
    · split
      · exact h
      · rename_i e
        exact State.memOk_put (State.memOk_of_mem (by exact h) (State.resolve_mem e)) ..

theorem State.memOk_trace {s : State} (h : s.memOk) (ag : Agent) (core off n kind : Nat) : (s.trace ag core off n kind).memOk := by
  unfold State.trace
  split
  · exact State.memOk_record h ..
  · exact h

/-- A write at a home keeps the form (R255). -/
theorem State.memOk_writeAt {s : State} (h : s.memOk) (ag : Agent) (x : Tgt) (bs : List Byte) (kind : Nat) :
    (s.writeAt ag x bs kind).memOk := by
  unfold State.writeAt
  split
  · exact State.memOk_trace (State.memOk_put h ..) ..
  · exact State.memOk_put h ..

/-- The same of a write in several parts. -/
theorem State.memOk_writeSpans (ag : Agent) (kind : Nat) : ∀ (l : Spans) {s : State}, s.memOk → ∀ bs, (s.writeSpans ag bs kind l).memOk
  | [], _, h, _ => h
  | (_, _) :: r, _, h, _ => State.memOk_writeSpans ag kind r (State.memOk_writeAt h ..) _

/-- The record of a stage-2 fault keeps the form (R394). -/
theorem State.memOk_logFault {s : State} (h : s.memOk) (t : BitVec 6) (ipa kind : Nat) (who : Option Holder) :
    (s.logFault t ipa kind who).memOk := by
  have h1 : (match who with
      | some w => { s with xfaults := { tenant := t, ipa := ipa, who := w } :: s.xfaults }
      | none => s : State).memOk := by
    cases who <;> exact h
  unfold State.logFault
  dsimp only
  split
  · exact h1
  · exact State.memOk_of_mem (State.memOk_poke h1 _ _) (State.raise_mem _ _ _)

/-- However an instruction stops short of its end, memory keeps its form. -/
theorem Stop.memOk_finish {s t : State} {x : Stop} (h : s.memOk) (e : x.finish s = .next t) : t.memOk := by
  cases x with
  | trap c v => cases e; exact State.memOk_of_mem h (State.trapSync_mem ..)
  | deferred a pc => cases e; exact State.memOk_of_mem h (State.trapSync_mem ..)
  | park st w => cases e; exact h
  | held tn ipa k => cases e; exact State.memOk_logFault h _ _ _ _

/-! ## Effects that keep the form -/

/-- An effect that keeps memory's form wherever it succeeds. -/
def MemKeeps {α : Type} (m : Eff α) : Prop := ∀ s a t, s.memOk → m s = .ok (a, t) → t.memOk

theorem MemKeeps.of_mem {α : Type} {m : Eff α} (h : ∀ s a t, m s = .ok (a, t) → t.mem = s.mem) : MemKeeps m :=
  fun s a t hs e => State.memOk_of_mem hs (h s a t e)

theorem MemKeeps.pure {α : Type} (a : α) : MemKeeps (Pure.pure a : Eff α) := fun _ _ _ hs e => by cases e; exact hs
theorem MemKeeps.gets {α : Type} (f : State → α) : MemKeeps (Machine.gets f) := fun _ _ _ hs e => by cases e; exact hs
theorem MemKeeps.stop {α : Type} (x : Stop) : MemKeeps (Machine.stop x : Eff α) := fun _ _ _ _ e => by cases e
theorem MemKeeps.mods {f : State → State} (h : ∀ s, s.memOk → (f s).memOk) : MemKeeps (Machine.mods f) :=
  fun s _ _ hs e => by cases e; exact h s hs
theorem MemKeeps.modTh (f : Thread → Thread) : MemKeeps (Machine.modTh f) := .mods (fun _ hs => hs)
theorem MemKeeps.modCc (f : Core → Core) : MemKeeps (Machine.modCc f) := .mods (fun _ hs => hs)
theorem MemKeeps.modCcl (f : Cluster → Cluster) : MemKeeps (Machine.modCcl f) := .mods (fun _ hs => hs)
theorem MemKeeps.waitIn (st : TState) (w : Wait) : MemKeeps (Machine.waitIn st w) := .mods (fun _ hs => hs)

theorem MemKeeps.demand (ok : Bool) (c : Cause) (v : Word) : MemKeeps (Machine.demand ok c v) := by
  cases ok
  · exact .stop _
  · exact .pure _

theorem MemKeeps.bind {α β : Type} {m : Eff α} {f : α → Eff β} (h1 : MemKeeps m) (h2 : ∀ a, MemKeeps (f a)) : MemKeeps (m >>= f) := by
  intro s b u hs e
  obtain ⟨a, t, e1, e2⟩ := bind_inv e
  exact h2 a t b u (h1 s a t hs e1) e2

theorem MemKeeps.ite {α : Type} {c : Prop} [Decidable c] {m n : Eff α} (h1 : MemKeeps m) (h2 : MemKeeps n) :
    MemKeeps (if c then m else n) := by
  split
  · exact h1
  · exact h2

theorem MemKeeps.hazard (hit : RelAcc → Bool) (dest : Bool × BitVec 6) : MemKeeps (Machine.hazard hit dest) :=
  .of_mem (fun _ _ _ e => by rw [hazard_inv e])

theorem MemKeeps.home (addr : Nat) (a : Acc) : MemKeeps (Machine.home addr a) := .of_mem (fun _ _ _ e => home_mem e)

theorem MemKeeps.capCheck (c : Cap) (addr size : Nat) (need : BitVec 6) (kind : BitVec 3) (align : Nat) :
    MemKeeps (Machine.capCheck c addr size need kind align) := .of_mem (fun _ _ _ e => by rw [(capCheck_inv e).1])

theorem MemKeeps.fetchBytes (t : Tgt) (n : Nat) : MemKeeps (Machine.fetchBytes t n) := .gets _

theorem MemKeeps.storeBytes (t : Tgt) (bs : List Byte) (kind : Nat) : MemKeeps (Machine.storeBytes t bs kind) :=
  .mods (fun _ hs => State.memOk_writeAt hs _ _ _ _)

/-- A meaning whose effect keeps the form keeps it in every next state, however it ends. -/
theorem MemKeeps.go {m : Eff Unit} (h : MemKeeps m) {s t : State} (hs : s.memOk) (e : m.go s = .next t) : t.memOk := by
  unfold Eff.go at e
  split at e
  · rename_i e1; cases e; exact h _ _ _ hs e1
  · exact Stop.memOk_finish hs e

end Sys2Proof.Machine
end

