-- ==== Sys2Proof/Laws/PerInstr.lean ====
section
/-! SUPPORT. The length of every instruction, constructor by constructor: one word, with at most one literal of one or two words behind it (R52, R57). -/

namespace Sys2Proof

/-- A list of at most two sources with at most one literal has at most eight bytes of literals. -/
theorem litBytes_sum {l : List Src} (h2 : l.length ≤ 2) (h1 : (l.filter Src.isLit).length ≤ 1) :
    (l.map Src.litBytes).sum = 0 ∨ (l.map Src.litBytes).sum = 4 ∨ (l.map Src.litBytes).sum = 8 := by
  match l, h2 with
  | [], _ => simp
  | [a], _ => cases a <;> simp [Src.litBytes]
  | [a, b], _ => revert h1; cases a <;> cases b <;> simp [Src.litBytes, Src.isLit, List.filter]

theorem Instr.srcs_length (i : Instr) : i.srcs.length ≤ 2 := by cases i <;> simp [Instr.srcs]

end Sys2Proof

namespace Sys2Proof.Laws

/-- An instruction with at most one literal is 4, 8 or 12 bytes long (R52, R57). -/
def Length.Statement (i : Instr) : Prop := i.oneLit = true → i.length = 4 ∨ i.length = 8 ∨ i.length = 12

theorem Length.of (i : Instr) : Length.Statement i := by
  intro h
  have := litBytes_sum i.srcs_length (of_decide_eq_true h)
  simp only [Instr.length]
  omega

theorem Length.add (d : Dst) (p t : Src) : Length.Statement (.add d p t) := Length.of _
theorem Length.sub (d : Dst) (p t : Src) : Length.Statement (.sub d p t) := Length.of _
theorem Length.and (d : Dst) (p t : Src) : Length.Statement (.and d p t) := Length.of _
theorem Length.or (d : Dst) (p t : Src) : Length.Statement (.or d p t) := Length.of _
theorem Length.xor (d : Dst) (p t : Src) : Length.Statement (.xor d p t) := Length.of _
theorem Length.andn (d : Dst) (p t : Src) : Length.Statement (.andn d p t) := Length.of _
theorem Length.orn (d : Dst) (p t : Src) : Length.Statement (.orn d p t) := Length.of _
theorem Length.min (d : Dst) (p t : Src) : Length.Statement (.min d p t) := Length.of _
theorem Length.max (d : Dst) (p t : Src) : Length.Statement (.max d p t) := Length.of _
theorem Length.minu (d : Dst) (p t : Src) : Length.Statement (.minu d p t) := Length.of _
theorem Length.maxu (d : Dst) (p t : Src) : Length.Statement (.maxu d p t) := Length.of _
theorem Length.sel (d : BitVec 5) (p t : Src) : Length.Statement (.sel d p t) := Length.of _
theorem Length.mov (d : Dst) (p : Src) : Length.Statement (.mov d p) := Length.of _
theorem Length.shl (d : Dst) (p t : Src) : Length.Statement (.shl d p t) := Length.of _
theorem Length.shr (d : Dst) (p t : Src) : Length.Statement (.shr d p t) := Length.of _
theorem Length.sar (d : Dst) (p t : Src) : Length.Statement (.sar d p t) := Length.of _
theorem Length.rotl (d : Dst) (p t : Src) : Length.Statement (.rotl d p t) := Length.of _
theorem Length.clz (d : Dst) (p : Src) : Length.Statement (.clz d p) := Length.of _
theorem Length.ctz (d : Dst) (p : Src) : Length.Statement (.ctz d p) := Length.of _
theorem Length.popc (d : Dst) (p : Src) : Length.Statement (.popc d p) := Length.of _
theorem Length.sextB (d : Dst) (p : Src) : Length.Statement (.sextB d p) := Length.of _
theorem Length.sextH (d : Dst) (p : Src) : Length.Statement (.sextH d p) := Length.of _
theorem Length.sextW (d : Dst) (p : Src) : Length.Statement (.sextW d p) := Length.of _
theorem Length.zextB (d : Dst) (p : Src) : Length.Statement (.zextB d p) := Length.of _
theorem Length.zextH (d : Dst) (p : Src) : Length.Statement (.zextH d p) := Length.of _
theorem Length.zextW (d : Dst) (p : Src) : Length.Statement (.zextW d p) := Length.of _
theorem Length.bfx (d : Dst) (p t : Src) : Length.Statement (.bfx d p t) := Length.of _
theorem Length.bfi (d : BitVec 5) (p t : Src) : Length.Statement (.bfi d p t) := Length.of _
theorem Length.mul (d : Dst) (p t : Src) : Length.Statement (.mul d p t) := Length.of _
theorem Length.mulh (d : Dst) (p t : Src) : Length.Statement (.mulh d p t) := Length.of _
theorem Length.mulhu (d : Dst) (p t : Src) : Length.Statement (.mulhu d p t) := Length.of _
theorem Length.div (d : Dst) (p t : Src) : Length.Statement (.div d p t) := Length.of _
theorem Length.divu (d : Dst) (p t : Src) : Length.Statement (.divu d p t) := Length.of _
theorem Length.rem (d : Dst) (p t : Src) : Length.Statement (.rem d p t) := Length.of _
theorem Length.remu (d : Dst) (p t : Src) : Length.Statement (.remu d p t) := Length.of _
theorem Length.seq (d : Dst) (p t : Src) : Length.Statement (.seq d p t) := Length.of _
theorem Length.sne (d : Dst) (p t : Src) : Length.Statement (.sne d p t) := Length.of _
theorem Length.slt (d : Dst) (p t : Src) : Length.Statement (.slt d p t) := Length.of _
theorem Length.sltu (d : Dst) (p t : Src) : Length.Statement (.sltu d p t) := Length.of _
theorem Length.sle (d : Dst) (p t : Src) : Length.Statement (.sle d p t) := Length.of _
theorem Length.sleu (d : Dst) (p t : Src) : Length.Statement (.sleu d p t) := Length.of _
theorem Length.fadd (y : FTy) (d : Dst) (p t : Src) : Length.Statement (.fadd y d p t) := Length.of _
theorem Length.fsub (y : FTy) (d : Dst) (p t : Src) : Length.Statement (.fsub y d p t) := Length.of _
theorem Length.fmul (y : FTy) (d : Dst) (p t : Src) : Length.Statement (.fmul y d p t) := Length.of _
theorem Length.fdiv (y : FTy) (d : Dst) (p t : Src) : Length.Statement (.fdiv y d p t) := Length.of _
theorem Length.fsqrt (y : FTy) (d : Dst) (p : Src) : Length.Statement (.fsqrt y d p) := Length.of _
theorem Length.fmin (y : FTy) (d : Dst) (p t : Src) : Length.Statement (.fmin y d p t) := Length.of _
theorem Length.fmax (y : FTy) (d : Dst) (p t : Src) : Length.Statement (.fmax y d p t) := Length.of _
theorem Length.fsgn (y : FTy) (d : Dst) (p t : Src) : Length.Statement (.fsgn y d p t) := Length.of _
theorem Length.feq (y : FTy) (d : Dst) (p t : Src) : Length.Statement (.feq y d p t) := Length.of _
theorem Length.flt (y : FTy) (d : Dst) (p t : Src) : Length.Statement (.flt y d p t) := Length.of _
theorem Length.fle (y : FTy) (d : Dst) (p t : Src) : Length.Statement (.fle y d p t) := Length.of _
theorem Length.fcls (y : FTy) (d : Dst) (p : Src) : Length.Statement (.fcls y d p) := Length.of _
theorem Length.fma (y : FTy) (d : BitVec 5) (p t : Src) : Length.Statement (.fma y d p t) := Length.of _
theorem Length.fcvt (dty sty : LaneTy) (d : Dst) (p : Src) : Length.Statement (.fcvt dty sty d p) := Length.of _
theorem Length.cadd (d p : BitVec 4) (t : Src) : Length.Statement (.cadd d p t) := Length.of _
theorem Length.cset (d p : BitVec 4) (t : Src) : Length.Statement (.cset d p t) := Length.of _
theorem Length.cbnd (d p : BitVec 4) (t : Src) : Length.Statement (.cbnd d p t) := Length.of _
theorem Length.cperm (d p : BitVec 4) (t : Src) : Length.Statement (.cperm d p t) := Length.of _
theorem Length.cmov (d p : BitVec 4) : Length.Statement (.cmov d p) := Length.of _
theorem Length.ctag (d : Dst) (p : BitVec 4) : Length.Statement (.ctag d p) := Length.of _
theorem Length.cgetCur (d : Dst) (p : BitVec 4) : Length.Statement (.cgetCur d p) := Length.of _
theorem Length.cgetBase (d : Dst) (p : BitVec 4) : Length.Statement (.cgetBase d p) := Length.of _
theorem Length.cgetTop (d : Dst) (p : BitVec 4) : Length.Statement (.cgetTop d p) := Length.of _
theorem Length.cgetLen (d : Dst) (p : BitVec 4) : Length.Statement (.cgetLen d p) := Length.of _
theorem Length.cgetPerm (d : Dst) (p : BitVec 4) : Length.Statement (.cgetPerm d p) := Length.of _
theorem Length.cgetTen (d : Dst) (p : BitVec 4) : Length.Statement (.cgetTen d p) := Length.of _
theorem Length.cgetKind (d : Dst) (p : BitVec 4) : Length.Statement (.cgetKind d p) := Length.of _
theorem Length.cgetTag (d : Dst) (p : BitVec 4) : Length.Statement (.cgetTag d p) := Length.of _
theorem Length.b (disp : BitVec 16) : Length.Statement (.b disp) := Length.of _
theorem Length.bEq (p : Src) (disp : BitVec 16) : Length.Statement (.bEq p disp) := Length.of _
theorem Length.bNe (p : Src) (disp : BitVec 16) : Length.Statement (.bNe p disp) := Length.of _
theorem Length.bLt (p : Src) (disp : BitVec 16) : Length.Statement (.bLt p disp) := Length.of _
theorem Length.bGe (p : Src) (disp : BitVec 16) : Length.Statement (.bGe p disp) := Length.of _
theorem Length.bLe (p : Src) (disp : BitVec 16) : Length.Statement (.bLe p disp) := Length.of _
theorem Length.bGt (p : Src) (disp : BitVec 16) : Length.Statement (.bGt p disp) := Length.of _
theorem Length.dbnz (p : BitVec 5) (disp : BitVec 16) : Length.Statement (.dbnz p disp) := Length.of _
theorem Length.jmp (disp : BitVec 16) : Length.Statement (.jmp disp) := Length.of _
theorem Length.call (disp : BitVec 16) : Length.Statement (.call disp) := Length.of _
theorem Length.jmpr (p : Src) : Length.Statement (.jmpr p) := Length.of _
theorem Length.callr (p : Src) : Length.Statement (.callr p) := Length.of _
theorem Length.ld (d : Dst) (a : BitVec 4) (off : BitVec 14) (sz : BitVec 2) : Length.Statement (.ld d a off sz) := Length.of _
theorem Length.ldZext (d : Dst) (a : BitVec 4) (off : BitVec 14) (sz : BitVec 2) : Length.Statement (.ldZext d a off sz) := Length.of _
theorem Length.st (v : Src) (a : BitVec 4) (off : BitVec 14) (sz : BitVec 2) : Length.Statement (.st v a off sz) := Length.of _
theorem Length.ldc (c a : BitVec 4) (off : BitVec 14) : Length.Statement (.ldc c a off) := Length.of _
theorem Length.stc (c a : BitVec 4) (off : BitVec 14) : Length.Statement (.stc c a off) := Length.of _
theorem Length.ldf (d : Dst) (a : BitVec 4) (off : BitVec 14) : Length.Statement (.ldf d a off) := Length.of _
theorem Length.ldfe (d : Dst) (a : BitVec 4) (off : BitVec 14) : Length.Statement (.ldfe d a off) := Length.of _
theorem Length.stef (v : Src) (a : BitVec 4) (off : BitVec 14) : Length.Statement (.stef v a off) := Length.of _
theorem Length.stf (v : Src) (a : BitVec 4) (off : BitVec 14) : Length.Statement (.stf v a off) := Length.of _
theorem Length.empt (a : BitVec 4) (off : BitVec 14) : Length.Statement (.empt a off) := Length.of _
theorem Length.fes (d : Dst) (a : BitVec 4) (off : BitVec 14) : Length.Statement (.fes d a off) := Length.of _
theorem Length.amoAdd (d : Dst) (a : BitVec 4) (t : Src) (dbl : Bool) : Length.Statement (.amoAdd d a t dbl) := Length.of _
theorem Length.amoAnd (d : Dst) (a : BitVec 4) (t : Src) (dbl : Bool) : Length.Statement (.amoAnd d a t dbl) := Length.of _
theorem Length.amoOr (d : Dst) (a : BitVec 4) (t : Src) (dbl : Bool) : Length.Statement (.amoOr d a t dbl) := Length.of _
theorem Length.amoXor (d : Dst) (a : BitVec 4) (t : Src) (dbl : Bool) : Length.Statement (.amoXor d a t dbl) := Length.of _
theorem Length.amoMin (d : Dst) (a : BitVec 4) (t : Src) (dbl : Bool) : Length.Statement (.amoMin d a t dbl) := Length.of _
theorem Length.amoMax (d : Dst) (a : BitVec 4) (t : Src) (dbl : Bool) : Length.Statement (.amoMax d a t dbl) := Length.of _
theorem Length.amoMinu (d : Dst) (a : BitVec 4) (t : Src) (dbl : Bool) : Length.Statement (.amoMinu d a t dbl) := Length.of _
theorem Length.amoMaxu (d : Dst) (a : BitVec 4) (t : Src) (dbl : Bool) : Length.Statement (.amoMaxu d a t dbl) := Length.of _
theorem Length.amoSwap (d : Dst) (a : BitVec 4) (t : Src) (dbl : Bool) : Length.Statement (.amoSwap d a t dbl) := Length.of _
theorem Length.amoFaddS (d : Dst) (a : BitVec 4) (t : Src) : Length.Statement (.amoFaddS d a t) := Length.of _
theorem Length.cas (d : BitVec 5) (a : BitVec 4) (t : Src) (dbl : Bool) : Length.Statement (.cas d a t dbl) := Length.of _
theorem Length.mon (a : BitVec 4) : Length.Statement (.mon a) := Length.of _
theorem Length.mwait (d : Dst) (t : Src) : Length.Statement (.mwait d t) := Length.of _
theorem Length.fence (sc : Scope) : Length.Statement (.fence sc) := Length.of _
theorem Length.ord (o : Order) (sc : Scope) : Length.Statement (.ord o sc) := Length.of _
theorem Length.qpoll (d : Dst) (q : BitVec 3) : Length.Statement (.qpoll d q) := Length.of _
theorem Length.qcnt (d : Dst) (q : BitVec 3) : Length.Statement (.qcnt d q) := Length.of _
theorem Length.qclose (d : Dst) (q : BitVec 3) : Length.Statement (.qclose d q) := Length.of _
theorem Length.qstat (d : Dst) (q : BitVec 3) : Length.Statement (.qstat d q) := Length.of _
theorem Length.qwait (d : Dst) (q : BitVec 3) (t : Src) : Length.Statement (.qwait d q t) := Length.of _
theorem Length.barv (d : Dst) (p t : Src) : Length.Statement (.barv d p t) := Length.of _
theorem Length.barw (d : Dst) (p t : Src) : Length.Statement (.barw d p t) := Length.of _
theorem Length.bexp (d : Dst) (p t : Src) : Length.Statement (.bexp d p t) := Length.of _
theorem Length.bini (d : Dst) (p t : Src) : Length.Statement (.bini d p t) := Length.of _
theorem Length.fork (d : Dst) (p : BitVec 5) : Length.Statement (.fork d p) := Length.of _
theorem Length.jdec (d : Dst) (a : BitVec 4) : Length.Statement (.jdec d a) := Length.of _
theorem Length.pushr (d : Dst) (p : BitVec 5) : Length.Statement (.pushr d p) := Length.of _
theorem Length.popr (d : Dst) (p : BitVec 5) : Length.Statement (.popr d p) := Length.of _
theorem Length.splitr (d : Dst) (p : BitVec 5) (t : Src) : Length.Statement (.splitr d p t) := Length.of _
theorem Length.steal (d : Dst) (p : BitVec 5) : Length.Statement (.steal d p) := Length.of _
theorem Length.dsp (d : Dst) (p : BitVec 5) : Length.Statement (.dsp d p) := Length.of _
theorem Length.launch (d : Dst) (a : BitVec 4) : Length.Statement (.launch d a) := Length.of _
theorem Length.binc (d : Dst) (a : BitVec 4) (t : Src) : Length.Statement (.binc d a t) := Length.of _
theorem Length.bdec (d : Dst) (a : BitVec 4) (t : Src) : Length.Statement (.bdec d a t) := Length.of _
theorem Length.bcan (d : Dst) (a : BitVec 4) (t : Src) : Length.Statement (.bcan d a t) := Length.of _
theorem Length.bbar (d : Dst) (a : BitVec 4) (t : Src) : Length.Statement (.bbar d a t) := Length.of _
theorem Length.bbw (d : Dst) (a : BitVec 4) (t : Src) : Length.Statement (.bbw d a t) := Length.of _
theorem Length.bcfg (d : Dst) (a : BitVec 4) (t : Src) : Length.Statement (.bcfg d a t) := Length.of _
theorem Length.bpeek (d : Dst) (a : BitVec 4) (t : Src) : Length.Statement (.bpeek d a t) := Length.of _
theorem Length.trecv (d : Dst) (e : BitVec 5) : Length.Statement (.trecv d e) := Length.of _
theorem Length.tsend (d : Dst) (q : BitVec 3) (t : Src) : Length.Statement (.tsend d q t) := Length.of _
theorem Length.tann (d : Dst) (q : BitVec 3) (t : Src) : Length.Statement (.tann d q t) := Length.of _
theorem Length.tlah (d : Dst) (q : BitVec 3) (t : Src) : Length.Statement (.tlah d q t) := Length.of _
theorem Length.tdone (d : Dst) : Length.Statement (.tdone d) := Length.of _
theorem Length.enqm (v : BitVec 4) : Length.Statement (.enqm v) := Length.of _
theorem Length.enqc (v : BitVec 4) : Length.Statement (.enqc v) := Length.of _
theorem Length.ewait (d : Dst) (p : Src) : Length.Statement (.ewait d p) := Length.of _
theorem Length.xbset (p : Src) : Length.Statement (.xbset p) := Length.of _
theorem Length.xbp (p : Src) : Length.Statement (.xbp p) := Length.of _
theorem Length.srd (d : Dst) (sys : BitVec 10) : Length.Statement (.srd d sys) := Length.of _
theorem Length.swr (sys : BitVec 10) (v : Src) : Length.Statement (.swr sys v) := Length.of _
theorem Length.swapctx (d : Dst) (p t : Src) : Length.Statement (.swapctx d p t) := Length.of _
theorem Length.spsave (d : Dst) (p : Src) : Length.Statement (.spsave d p) := Length.of _
theorem Length.spload (d : Dst) (p t : Src) : Length.Statement (.spload d p t) := Length.of _
theorem Length.pth (d : Dst) (p t : Src) : Length.Statement (.pth d p t) := Length.of _
theorem Length.rth (d : Dst) (p t : Src) : Length.Statement (.rth d p t) := Length.of _
theorem Length.ebrk (p : Src) : Length.Statement (.ebrk p) := Length.of _
theorem Length.scall (p : Src) : Length.Statement (.scall p) := Length.of _
theorem Length.trap (p : Src) : Length.Statement (.trap p) := Length.of _
theorem Length.vadd (vd vs vt : BitVec 4) (km : BitVec 3) (ty : LaneTy) : Length.Statement (.vadd vd vs vt km ty) := Length.of _
theorem Length.vsub (vd vs vt : BitVec 4) (km : BitVec 3) (ty : LaneTy) : Length.Statement (.vsub vd vs vt km ty) := Length.of _
theorem Length.vmul (vd vs vt : BitVec 4) (km : BitVec 3) (ty : LaneTy) : Length.Statement (.vmul vd vs vt km ty) := Length.of _
theorem Length.vfma (vd vs vt : BitVec 4) (km : BitVec 3) (ty : LaneTy) : Length.Statement (.vfma vd vs vt km ty) := Length.of _
theorem Length.vmin (vd vs vt : BitVec 4) (km : BitVec 3) (ty : LaneTy) : Length.Statement (.vmin vd vs vt km ty) := Length.of _
theorem Length.vmax (vd vs vt : BitVec 4) (km : BitVec 3) (ty : LaneTy) : Length.Statement (.vmax vd vs vt km ty) := Length.of _
theorem Length.vabs (vd vs : BitVec 4) (km : BitVec 3) (ty : LaneTy) : Length.Statement (.vabs vd vs km ty) := Length.of _
theorem Length.vneg (vd vs : BitVec 4) (km : BitVec 3) (ty : LaneTy) : Length.Statement (.vneg vd vs km ty) := Length.of _
theorem Length.vsclb (vd vs vt : BitVec 4) (km : BitVec 3) (ty : LaneTy) : Length.Statement (.vsclb vd vs vt km ty) := Length.of _
theorem Length.vand (vd vs vt : BitVec 4) (km : BitVec 3) (ty : LaneTy) : Length.Statement (.vand vd vs vt km ty) := Length.of _
theorem Length.vor (vd vs vt : BitVec 4) (km : BitVec 3) (ty : LaneTy) : Length.Statement (.vor vd vs vt km ty) := Length.of _
theorem Length.vxor (vd vs vt : BitVec 4) (km : BitVec 3) (ty : LaneTy) : Length.Statement (.vxor vd vs vt km ty) := Length.of _
theorem Length.vshl (vd vs vt : BitVec 4) (km : BitVec 3) (ty : LaneTy) : Length.Statement (.vshl vd vs vt km ty) := Length.of _
theorem Length.vshr (vd vs vt : BitVec 4) (km : BitVec 3) (ty : LaneTy) : Length.Statement (.vshr vd vs vt km ty) := Length.of _
theorem Length.vsar (vd vs vt : BitVec 4) (km : BitVec 3) (ty : LaneTy) : Length.Statement (.vsar vd vs vt km ty) := Length.of _
theorem Length.vcmpEq (kd : BitVec 3) (vs vt : BitVec 4) (km : BitVec 3) (ty : LaneTy) : Length.Statement (.vcmpEq kd vs vt km ty) := Length.of _
theorem Length.vcmpNe (kd : BitVec 3) (vs vt : BitVec 4) (km : BitVec 3) (ty : LaneTy) : Length.Statement (.vcmpNe kd vs vt km ty) := Length.of _
theorem Length.vcmpLt (kd : BitVec 3) (vs vt : BitVec 4) (km : BitVec 3) (ty : LaneTy) : Length.Statement (.vcmpLt kd vs vt km ty) := Length.of _
theorem Length.vcmpLe (kd : BitVec 3) (vs vt : BitVec 4) (km : BitVec 3) (ty : LaneTy) : Length.Statement (.vcmpLe kd vs vt km ty) := Length.of _
theorem Length.vcmpGt (kd : BitVec 3) (vs vt : BitVec 4) (km : BitVec 3) (ty : LaneTy) : Length.Statement (.vcmpGt kd vs vt km ty) := Length.of _
theorem Length.vcmpGe (kd : BitVec 3) (vs vt : BitVec 4) (km : BitVec 3) (ty : LaneTy) : Length.Statement (.vcmpGe kd vs vt km ty) := Length.of _
theorem Length.vsel (vd vs vt : BitVec 4) (km : BitVec 3) (ty : LaneTy) : Length.Statement (.vsel vd vs vt km ty) := Length.of _
theorem Length.vcls (vd vs : BitVec 4) (km : BitVec 3) (ty : LaneTy) : Length.Statement (.vcls vd vs km ty) := Length.of _
theorem Length.vcvt (vd vs p : BitVec 4) (km : BitVec 3) (dty sty : LaneTy) : Length.Statement (.vcvt vd vs p km dty sty) := Length.of _
theorem Length.vld (vd a : BitVec 4) (off : BitVec 11) (km : BitVec 3) (ty : LaneTy) : Length.Statement (.vld vd a off km ty) := Length.of _
theorem Length.vst (vd a : BitVec 4) (off : BitVec 11) (km : BitVec 3) (ty : LaneTy) : Length.Statement (.vst vd a off km ty) := Length.of _
theorem Length.vldx (vd a vt : BitVec 4) (km : BitVec 3) (ty : LaneTy) : Length.Statement (.vldx vd a vt km ty) := Length.of _
theorem Length.vstx (vd a vt : BitVec 4) (km : BitVec 3) (ty : LaneTy) : Length.Statement (.vstx vd a vt km ty) := Length.of _
theorem Length.vbc (vd gs : BitVec 4) (km : BitVec 3) (ty : LaneTy) : Length.Statement (.vbc vd gs km ty) := Length.of _
theorem Length.vmovg (gd vs gt : BitVec 4) (ty : LaneTy) : Length.Statement (.vmovg gd vs gt ty) := Length.of _
theorem Length.vins (vd gs gt : BitVec 4) (ty : LaneTy) : Length.Statement (.vins vd gs gt ty) := Length.of _
theorem Length.vperm (vd vs vt : BitVec 4) (km : BitVec 3) (ty : LaneTy) : Length.Statement (.vperm vd vs vt km ty) := Length.of _
theorem Length.vrot (vd vs gt : BitVec 4) (km : BitVec 3) (ty : LaneTy) : Length.Statement (.vrot vd vs gt km ty) := Length.of _
theorem Length.vred (vd vs : BitVec 4) (km : BitVec 3) (ty : LaneTy) : Length.Statement (.vred vd vs km ty) := Length.of _
theorem Length.vdot (vd vs vt : BitVec 4) (km : BitVec 3) (ty : LaneTy) : Length.Statement (.vdot vd vs vt km ty) := Length.of _
theorem Length.vexp2 (vd vs : BitVec 4) (km : BitVec 3) (ty : LaneTy) : Length.Statement (.vexp2 vd vs km ty) := Length.of _
theorem Length.vlog2 (vd vs : BitVec 4) (km : BitVec 3) (ty : LaneTy) : Length.Statement (.vlog2 vd vs km ty) := Length.of _
theorem Length.vrcp (vd vs : BitVec 4) (km : BitVec 3) (ty : LaneTy) : Length.Statement (.vrcp vd vs km ty) := Length.of _
theorem Length.vrsq (vd vs : BitVec 4) (km : BitVec 3) (ty : LaneTy) : Length.Statement (.vrsq vd vs km ty) := Length.of _
theorem Length.vacr (vd gt : BitVec 4) (km : BitVec 3) (ty : LaneTy) : Length.Statement (.vacr vd gt km ty) := Length.of _
theorem Length.vacw (vs gt : BitVec 4) (km : BitVec 3) (ty : LaneTy) : Length.Statement (.vacw vs gt km ty) := Length.of _
theorem Length.kand (kd ks kt : BitVec 3) : Length.Statement (.kand kd ks kt) := Length.of _
theorem Length.kor (kd ks kt : BitVec 3) : Length.Statement (.kor kd ks kt) := Length.of _
theorem Length.kxor (kd ks kt : BitVec 3) : Length.Statement (.kxor kd ks kt) := Length.of _
theorem Length.knot (kd ks : BitVec 3) : Length.Statement (.knot kd ks) := Length.of _
theorem Length.kmovKk (kd ks : BitVec 3) : Length.Statement (.kmovKk kd ks) := Length.of _
theorem Length.kmovKg (kd : BitVec 3) (gs : BitVec 4) : Length.Statement (.kmovKg kd gs) := Length.of _
theorem Length.kmovGk (gd : BitVec 4) (ks : BitVec 3) : Length.Statement (.kmovGk gd ks) := Length.of _
theorem Length.kpop (gd : BitVec 4) (ks : BitVec 3) : Length.Statement (.kpop gd ks) := Length.of _
theorem Length.mzero (h : CmdHdr) (slot : BitVec 2) : Length.Statement (.mzero h slot) := Length.of _
theorem Length.mmulF64 (h : CmdHdr) (f : MmulF) : Length.Statement (.mmulF64 h f) := Length.of _
theorem Length.mmulF32 (h : CmdHdr) (f : MmulF) : Length.Statement (.mmulF32 h f) := Length.of _
theorem Length.mmulBf16 (h : CmdHdr) (f : MmulF) : Length.Statement (.mmulBf16 h f) := Length.of _
theorem Length.mmulF16 (h : CmdHdr) (f : MmulF) : Length.Statement (.mmulF16 h f) := Length.of _
theorem Length.mmulE4m3 (h : CmdHdr) (f : MmulF) : Length.Statement (.mmulE4m3 h f) := Length.of _
theorem Length.mmulE5m2 (h : CmdHdr) (f : MmulF) : Length.Statement (.mmulE5m2 h f) := Length.of _
theorem Length.mmulE4e5 (h : CmdHdr) (f : MmulF) : Length.Statement (.mmulE4e5 h f) := Length.of _
theorem Length.mmulNq4e4 (h : CmdHdr) (f : MmulF) : Length.Statement (.mmulNq4e4 h f) := Length.of _
theorem Length.mmulNq4b (h : CmdHdr) (f : MmulF) : Length.Statement (.mmulNq4b h f) := Length.of _
theorem Length.mmulI8 (h : CmdHdr) (f : MmulF) : Length.Statement (.mmulI8 h f) := Length.of _
theorem Length.mlatch (h : CmdHdr) (f : MlatchF) : Length.Statement (.mlatch h f) := Length.of _
theorem Length.mtrans (h : CmdHdr) (f : MlatchF) : Length.Statement (.mtrans h f) := Length.of _
theorem Length.mrot (h : CmdHdr) (sl dl : BitVec 1) : Length.Statement (.mrot h sl dl) := Length.of _
theorem Length.mstore (h : CmdHdr) (d : AOp) (str : BitVec 16) (sty dty : BitVec 4) (slot : BitVec 2) : Length.Statement (.mstore h d str sty dty slot) := Length.of _
theorem Length.mspill (h : CmdHdr) (m : AOp) (slot : BitVec 2) : Length.Statement (.mspill h m slot) := Length.of _
theorem Length.mfill (h : CmdHdr) (m : AOp) (slot : BitVec 2) : Length.Statement (.mfill h m slot) := Length.of _
theorem Length.ccopy (h : CmdHdr) (p d t : AOp) (sty dty : BitVec 4) : Length.Statement (.ccopy h p d t sty dty) := Length.of _
theorem Length.cgath (h : CmdHdr) (f : GathF) : Length.Statement (.cgath h f) := Length.of _
theorem Length.cscat (h : CmdHdr) (f : GathF) : Length.Statement (.cscat h f) := Length.of _
theorem Length.cscata (h : CmdHdr) (f : GathF) : Length.Statement (.cscata h f) := Length.of _
theorem Length.cmerge (h : CmdHdr) (x y o : AOp) (na nb : BitVec 24) (dupok cty : Bool) : Length.Statement (.cmerge h x y o na nb dupok cty) := Length.of _
theorem Length.cred (h : CmdHdr) (p : AOp) (ridx : BitVec 2) : Length.Statement (.cred h p ridx) := Length.of _
theorem Length.cfill (h : CmdHdr) (d t : AOp) (value : BitVec 64) (ety : BitVec 4) : Length.Statement (.cfill h d t value ety) := Length.of _
theorem Length.cstrm (h : CmdHdr) (p t : AOp) (ety : BitVec 4) (q : BitVec 2) : Length.Statement (.cstrm h p t ety q) := Length.of _
theorem Length.cbcast (h : CmdHdr) (p : AOp) (dcap : BitVec 4) (doff len : BitVec 16) (scope : BitVec 1) : Length.Statement (.cbcast h p dcap doff len scope) := Length.of _
theorem Length.cquant (h : CmdHdr) (p k v : AOp) (nblk : BitVec 9) : Length.Statement (.cquant h p k v nblk) := Length.of _
theorem Length.hostWrite (port fn : Nat) (space : Space) (addr : Addr) (data : List Byte) : Length.Statement (.hostWrite port fn space addr data) := Length.of _
theorem Length.hostRead (port fn : Nat) (space : Space) (addr : Addr) (n : Nat) : Length.Statement (.hostRead port fn space addr n) := Length.of _
theorem Length.cxlMemRequest (write : Bool) (ipa : Addr) (data : List Byte) (n : Nat) : Length.Statement (.cxlMemRequest write ipa data n) := Length.of _
theorem Length.linkRequest (port : Nat) (remote : BitVec 6) (write : Bool) (addr : Addr) (data : List Byte) (n : Nat) : Length.Statement (.linkRequest port remote write addr data n) := Length.of _
theorem Length.groupPartial (tag : Word) (ch src : Nat) (msg : GroupMsg) : Length.Statement (.groupPartial tag ch src msg) := Length.of _
theorem Length.fwLinkMessage (cluster : Nat) (up : Bool) (returns : BitVec 4) (payload : Bool) : Length.Statement (.fwLinkMessage cluster up returns payload) := Length.of _
theorem Length.powerOnBoot (imgA imgB : List Byte) : Length.Statement (.powerOnBoot imgA imgB) := Length.of _
theorem Length.powerInterval (watts : Nat) (temps : List Nat) : Length.Statement (.powerInterval watts temps) := Length.of _
theorem Length.fatalError (cause : BitVec 8) (detail : BitVec 56) : Length.Statement (.fatalError cause detail) := Length.of _
theorem Length.softError (core : Nat) (kind : SoftErr) : Length.Statement (.softError core kind) := Length.of _
theorem Length.ret : Length.Statement .ret := Length.of _
theorem Length.waitw : Length.Statement .waitw := Length.of _
theorem Length.tend : Length.Statement .tend := Length.of _
theorem Length.done : Length.Statement .done := Length.of _
theorem Length.yield : Length.Statement .yield := Length.of _
theorem Length.tret : Length.Statement .tret := Length.of _
theorem Length.nop : Length.Statement .nop := Length.of _
theorem Length.feResend : Length.Statement .feResend := Length.of _
theorem Length.reservationGrant : Length.Statement .reservationGrant := Length.of _
theorem Length.mwaitWake : Length.Statement .mwaitWake := Length.of _
theorem Length.mwaitTimeout : Length.Statement .mwaitTimeout := Length.of _
theorem Length.watchEvict : Length.Statement .watchEvict := Length.of _
theorem Length.qwaitTimeout : Length.Statement .qwaitTimeout := Length.of _
theorem Length.doneProceed : Length.Statement .doneProceed := Length.of _
theorem Length.yieldExpire : Length.Statement .yieldExpire := Length.of _
theorem Length.stealRequest : Length.Statement .stealRequest := Length.of _
theorem Length.idlewRetry : Length.Statement .idlewRetry := Length.of _
theorem Length.balancerServe : Length.Statement .balancerServe := Length.of _
theorem Length.exitCellServe : Length.Statement .exitCellServe := Length.of _
theorem Length.bridleResult : Length.Statement .bridleResult := Length.of _
theorem Length.bcfgDrainDone : Length.Statement .bcfgDrainDone := Length.of _
theorem Length.bridleBarrierRelease : Length.Statement .bridleBarrierRelease := Length.of _
theorem Length.tetherAnnounce : Length.Statement .tetherAnnounce := Length.of _
theorem Length.tetherAnnounceArrival : Length.Statement .tetherAnnounceArrival := Length.of _
theorem Length.slotArrival : Length.Statement .slotArrival := Length.of _
theorem Length.channelSlotFreed : Length.Statement .channelSlotFreed := Length.of _
theorem Length.closeMarkerArrival : Length.Statement .closeMarkerArrival := Length.of _
theorem Length.xbarTermFire : Length.Statement .xbarTermFire := Length.of _
theorem Length.xbarOutputPending : Length.Statement .xbarOutputPending := Length.of _
theorem Length.xbarTickPulse : Length.Statement .xbarTickPulse := Length.of _
theorem Length.fpcsrWrite : Length.Statement .fpcsrWrite := Length.of _
theorem Length.xbcfgWrite : Length.Statement .xbcfgWrite := Length.of _
theorem Length.cflagsClear : Length.Statement .cflagsClear := Length.of _
theorem Length.accownWrite : Length.Statement .accownWrite := Length.of _
theorem Length.timer : Length.Statement .timer := Length.of _
theorem Length.vectorStart : Length.Statement .vectorStart := Length.of _
theorem Length.vectorComplete : Length.Statement .vectorComplete := Length.of _
theorem Length.mrotTileArrive : Length.Statement .mrotTileArrive := Length.of _
theorem Length.streamElementDelivery : Length.Statement .streamElementDelivery := Length.of _
theorem Length.engineCommandStart : Length.Statement .engineCommandStart := Length.of _
theorem Length.commandComplete : Length.Statement .commandComplete := Length.of _
theorem Length.drogueWindow : Length.Statement .drogueWindow := Length.of _
theorem Length.homeRequest : Length.Statement .homeRequest := Length.of _
theorem Length.accessReply : Length.Statement .accessReply := Length.of _
theorem Length.scopeMissMessage : Length.Statement .scopeMissMessage := Length.of _
theorem Length.scopeMissHandling : Length.Statement .scopeMissHandling := Length.of _
theorem Length.nodeDoneMessage : Length.Statement .nodeDoneMessage := Length.of _
theorem Length.dispatch : Length.Statement .dispatch := Length.of _
theorem Length.nopBlock : Length.Statement .nopBlock := Length.of _
theorem Length.launchBlock : Length.Statement .launchBlock := Length.of _
theorem Length.launchBindRetry : Length.Statement .launchBindRetry := Length.of _
theorem Length.ballastBlock : Length.Statement .ballastBlock := Length.of _
theorem Length.ballastTest : Length.Statement .ballastTest := Length.of _
theorem Length.ballastUpcall : Length.Statement .ballastUpcall := Length.of _
theorem Length.waitwBlock : Length.Statement .waitwBlock := Length.of _
theorem Length.waitwBlockTimeout : Length.Statement .waitwBlockTimeout := Length.of _
theorem Length.signal : Length.Statement .signal := Length.of _
theorem Length.tstamp : Length.Statement .tstamp := Length.of _
theorem Length.inval : Length.Statement .inval := Length.of _
theorem Length.dirtysnap : Length.Statement .dirtysnap := Length.of _
theorem Length.seal : Length.Statement .seal := Length.of _
theorem Length.partCreate : Length.Statement .partCreate := Length.of _
theorem Length.partModify : Length.Statement .partModify := Length.of _
theorem Length.partDestroy : Length.Statement .partDestroy := Length.of _
theorem Length.qassign : Length.Statement .qassign := Length.of _
theorem Length.partStatus : Length.Statement .partStatus := Length.of _
theorem Length.partStop : Length.Statement .partStop := Length.of _
theorem Length.partStart : Length.Statement .partStart := Length.of _
theorem Length.qcfgWrite : Length.Statement .qcfgWrite := Length.of _
theorem Length.tailWrite : Length.Statement .tailWrite := Length.of _
theorem Length.qctlDestroy : Length.Statement .qctlDestroy := Length.of _
theorem Length.s1rootWrite : Length.Statement .s1rootWrite := Length.of _
theorem Length.registerWrite : Length.Statement .registerWrite := Length.of _
theorem Length.preemptThread : Length.Statement .preemptThread := Length.of _
theorem Length.sliceEnd : Length.Statement .sliceEnd := Length.of _
theorem Length.sliceResume : Length.Statement .sliceResume := Length.of _
theorem Length.hypervisorPreempt : Length.Statement .hypervisorPreempt := Length.of _
theorem Length.spoolEvict : Length.Statement .spoolEvict := Length.of _
theorem Length.evictionDone : Length.Statement .evictionDone := Length.of _
theorem Length.framePinResolved : Length.Statement .framePinResolved := Length.of _
theorem Length.spoolRefillDone : Length.Statement .spoolRefillDone := Length.of _
theorem Length.regionTeardown : Length.Statement .regionTeardown := Length.of _
theorem Length.msgToDone : Length.Statement .msgToDone := Length.of _
theorem Length.coreRetire : Length.Statement .coreRetire := Length.of _
theorem Length.flr : Length.Statement .flr := Length.of _
theorem Length.msixModerationExpire : Length.Statement .msixModerationExpire := Length.of _
theorem Length.linkFailure : Length.Statement .linkFailure := Length.of _
theorem Length.commit : Length.Statement .commit := Length.of _
theorem Length.update : Length.Statement .update := Length.of _
theorem Length.activate : Length.Statement .activate := Length.of _
theorem Length.trialRevert : Length.Statement .trialRevert := Length.of _
theorem Length.quote : Length.Statement .quote := Length.of _
theorem Length.telem : Length.Statement .telem := Length.of _
theorem Length.drgset : Length.Statement .drgset := Length.of _
theorem Length.pwrcapWrite : Length.Statement .pwrcapWrite := Length.of _
theorem Length.dumpcpy : Length.Statement .dumpcpy := Length.of _
theorem Length.dumpclr : Length.Statement .dumpclr := Length.of _

end Sys2Proof.Laws
end

