-- ==== Sys2Proof/Tests/Slice0.lean ====
section
/-! SUPPORT. Tests: words written out from the encoding tables, ill-formed terms, results worked from the spec, and, for the statements,
states that meet their hypotheses. -/

-- One proof at a time: the evaluations are many, and each would take a thread of its own.
set_option Elab.async false

open Sys2Proof Sys2Proof.Machine Sys2Proof.Spec

namespace Sys2Proof.Tests

/-! ## Small states -/

/-- One thread started on core 0. -/
def base : State := State.reset.started

/-- base with its thread changed. -/
def withTh (f : Thread → Thread) : State := base.setTh (f base.th)

/-- base with core 0 changed. -/
def withCc (f : Core → Core) : State := base.setCc (f base.cc)

/-- A memory capability, every permission, over 16 MiB from the own slice on, with a cursor. -/
def memCap (cur : Nat) : Cap :=
  { bits := BitVec.ofNat 128 (cur + 0x500000 * 2 ^ 48 + 0x500001 * 2 ^ 72 + 24 * 2 ^ 96 + 63 * 2 ^ 101), tag := true }

/-- base with g1, g2 and a1 set. -/
def regs (x y : Word) (k : Cap) : State :=
  withTh (fun t => { (t.setG 1 x).setG 2 y with a := t.a.set 1 k })

/-- A region of depth 1 with one core and one thread, running. -/
def reg0 : Region :=
  { rid := 0, seq := 0, parent := none, pstage := 0, depth := 1, top := 0, tenant := 0, queue := none, first := 0, cores := 1, sram := 0,
    threads := 1, hbmshare := 0, slice := 0, prio := 0, fdom := false, tvec := 0, smiss := 0, scap := Cap.null, jseed := 0, save := 0,
    trace := Vector.replicate 4 0, rcb := 0, stages := [], phase := .running, fault := none, faulted := false, byFault := false,
      paused := false, sliceAt := 0,
    span := 0, loop := none }

end Sys2Proof.Tests
open Sys2Proof.Tests

/-! ## Words written out from the encoding tables of spec/03_encodings.md and spec/opcode_table.json -/

namespace Sys2Proof.Tests

theorem test_decode_integer1 : ([
    (0x01E2E901, .add (.g 30) (.g 11) (.const 9)),
    (0x01CD7E02, .sub (.g 28) (.q 5) (.lit32 0)),
    (0x01E28F03, .and (.g 30) (.g 10) (.g 15)),
    (0x01C87004, .or (.g 28) (.const 1) (.q 0)),
    (0x01E24E05, .xor (.g 30) (.g 9) (.g 14)),
    (0x01C8E606, .andn (.g 28) (.const 3) (.const 6)),
    (0x01EF8D07, .orn (.g 30) (.lit32 0) (.g 13)),
    (0x0365E808, .min .q6 (.g 23) (.const 8)),
    (0x01ECBF09, .max (.g 30) (.q 2) (.lit64 0)),
    (0x01C59B0A, .minu (.g 28) (.g 22) (.g 27)),
    (0x01E8330B, .maxu (.g 30) (.const 0) (.q 3)),
    (0x00F55A0C, .sel 15 (.g 21) (.g 26)),
    (0x01E8800D, .mov (.g 30) (.const 2)),
    (0x041D3F00, .shl (.g 1) (.q 4) (.lit64 0)),
    (0x04378401, .shr (.g 3) (.g 30) (.g 4)),
    (0x041AB502, .sar (.g 1) (.const 10) (.q 5)),
    (0x04374303, .rotl (.g 3) (.g 29) (.g 3)),
    (0x041B0004, .clz (.g 1) (.const 12)),
    (0x051C0005, .ctz (.g 17) (.q 0)),
    (0x07608006, .popc .q6 (.g 2)),
    (0x04130008, .sextB (.g 1) (.g 12)),
    (0x05190009, .sextH (.g 17) (.const 4)),
    (0x05EF800A, .sextW (.g 30) (.lit32 0)),
    (0x0412C00C, .zextB (.g 1) (.g 11))] : List (Nat × Instr)).all (fun x => decodeTableWord 32 x.1 == some x.2) = true := by decide +kernel

theorem test_decode_integer2 : ([
    (0x0519800D, .zextH (.g 17) (.const 6)),
    (0x05EC800E, .zextW (.g 30) (.q 2)),
    (0x04128F10, .bfx (.g 1) (.g 10) (.g 15)),
    (0x059AEE11, .bfi 25 (.const 11) (.const 14)),
    (0x081F8E00, .mul (.g 1) (.lit32 0) (.g 14)),
    (0x08362001, .mulh (.g 3) (.g 24) (.const 0)),
    (0x081D3F02, .mulhu (.g 1) (.q 4) (.lit64 0)),
    (0x0835DC04, .div (.g 3) (.g 23) (.g 28)),
    (0x081A3505, .divu (.g 1) (.const 8) (.q 5)),
    (0x08359B06, .rem (.g 3) (.g 22) (.g 27)),
    (0x081AAD07, .remu (.g 1) (.const 10) (.const 13)),
    (0x0C3FDA00, .seq (.g 3) (.lit64 0) (.g 26)),
    (0x0F616F01, .sne .q6 (.g 5) (.const 15)),
    (0x0C3C7E02, .slt (.g 3) (.q 1) (.lit32 0)),
    (0x0C110903, .sltu (.g 1) (.g 4) (.g 9)),
    (0x0C39F204, .sle (.g 3) (.const 7) (.q 2)),
    (0x0C10C805, .sleu (.g 1) (.g 3) (.g 8))] : List (Nat × Instr)).all (fun x => decodeTableWord 32 x.1 == some x.2) = true :=
      by decide +kernel

theorem test_decode_float : ([
    (0x41EB3300, .fadd .d (.g 30) (.const 12) (.q 3)),
    (0x41131101, .fsub .d (.g 17) (.g 12) (.g 17)),
    (0x401D3F02, .fmul .d (.g 1) (.q 4) (.lit64 0)),
    (0x41E56303, .fdiv .d (.g 30) (.g 21) (.const 3)),
    (0x411F8004, .fsqrt .d (.g 17) (.lit32 0)),
    (0x40766885, .fmin .s (.g 7) (.g 25) (.const 8)),
    (0x403FD386, .fmax .s (.g 3) (.lit64 0) (.g 19)),
    (0x41CB6087, .fsgn .s (.g 28) (.const 13) (.const 0)),
    (0x4075DC88, .feq .s (.g 7) (.g 23) (.g 28)),
    (0x40397289, .flt .s (.g 3) (.const 5) (.q 2)),
    (0x4360468A, .fle .s .q6 (.g 1) (.g 6)),
    (0x407CC08B, .fcls .s (.g 7) (.q 3)),
    (0x44814A00, .fma .d 8 (.g 5) (.g 10)),
    (0x49CFC01A, .fcvt .f32 .i32 (.g 28) (.lit64 0))] : List (Nat × Instr)).all (fun x => decodeTableWord 32 x.1 == some x.2) = true :=
      by decide +kernel

theorem test_decode_capability : ([
    (0x50900E00, .cadd 9 0 (.g 14)),
    (0x50E17501, .cset 14 5 (.q 5)),
    (0x50328D02, .cbnd 3 10 (.g 13)),
    (0x5083E903, .cperm 8 15 (.const 9)),
    (0x50D10004, .cmov 13 4),
    (0x50708005, .ctag (.g 7) 2),
    (0x51C00010, .cgetCur (.g 28) 0),
    (0x50338011, .cgetBase (.g 3) 14),
    (0x50730012, .cgetTop (.g 7) 12),
    (0x51C28013, .cgetLen (.g 28) 10),
    (0x50320014, .cgetPerm (.g 3) 8),
    (0x50718015, .cgetTen (.g 7) 6),
    (0x51C10016, .cgetKind (.g 28) 4),
    (0x53608017, .cgetTag .q6 2)] : List (Nat × Instr)).all (fun x => decodeTableWord 32 x.1 == some x.2) = true := by decide +kernel

theorem test_decode_control : ([
    (0x58008E49, .b 0x8E49),
    (0x58738E63, .bEq (.q 3) 0x8E63),
    (0x58988E7D, .bNe (.g 24) 0x8E7D),
    (0x58C38E97, .bLt (.g 3) 0x8E97),
    (0x592D8EB1, .bGe (.const 13) 0x8EB1),
    (0x59498ECB, .bLe (.g 9) 0x8ECB),
    (0x59828EE5, .bGt (.g 2) 0x8EE5),
    (0x5C098EFF, .dbnz 9 0x8EFF),
    (0x60008F0C, .jmp 0x8F0C),
    (0x60408F19, .call 0x8F19),
    (0x64004000, .jmpr (.g 1)),
    (0x64018001, .callr (.g 6)),
    (0x64000002, .ret)] : List (Nat × Instr)).all (fun x => decodeTableWord 32 x.1 == some x.2) = true := by decide +kernel

theorem test_decode_memory1 : ([
    (0x6815F862, .ld (.g 1) 5 0x3E18 2),
    (0x6DE1FE71, .ldZext (.g 30) 1 0x3F9C 1),
    (0x729D0482, .st (.const 9) 13 0x120 2),
    (0x74290A90, .ldc 2 9 0x2A4),
    (0x747E0F1D, .stc 7 14 0x3C7),
    (0x781313A8, .ldf (.g 1) 3 0x4EA),
    (0x78381835, .ldfe (.g 3) 8 0x60D),
    (0x7B3D1CC2, .stef (.q 3) 13 0x730),
    (0x7962214F, .stf (.g 22) 2 0x853),
    (0x7C002454, .empt 0 0x915),
    (0x7D1528E1, .fes (.g 17) 5 0xA38),
    (0x8072A030, .amoAdd (.g 7) 10 (.const 0) true),
    (0x80319E31, .amoAnd (.g 3) 6 (.g 30) true),
    (0x81C0B032, .amoOr (.g 28) 2 (.q 0) true),
    (0x80738833, .amoXor (.g 7) 14 (.g 8) true),
    (0x8032BE34, .amoMin (.g 3) 10 (.lit32 0) true),
    (0x81C1AC35, .amoMax (.g 28) 6 (.const 12) true),
    (0x80708636, .amoMinu (.g 7) 2 (.g 6) true),
    (0x8033A437, .amoMaxu (.g 3) 14 (.const 4) true),
    (0x83628F38, .amoSwap .q6 10 (.g 15) true),
    (0x8071B429, .amoFaddS (.g 7) 6 (.q 4)),
    (0x8042D32A, .cas 4 11 (.g 19) false),
    (0x84000000, .mon 0),
    (0x85C03501, .mwait (.g 28) (.q 5))] : List (Nat × Instr)).all (fun x => decodeTableWord 32 x.1 == some x.2) = true := by decide +kernel

theorem test_decode_memory2 : ([
    (0x84000008, .fence .thread)] : List (Nat × Instr)).all (fun x => decodeTableWord 32 x.1 == some x.2) = true := by decide +kernel

theorem test_decode_sync : ([
    (0x881CC000, .qpoll (.g 1) 3),
    (0x891D4001, .qcnt (.g 17) 5),
    (0x89EC0002, .qclose (.g 30) 0),
    (0x881C8003, .qstat (.g 1) 2),
    (0x891D3104, .qwait (.g 17) 4 (.q 1)),
    (0x90769F00, .barv (.g 7) (.g 26) (.g 31)),
    (0x911AAD01, .barw (.g 17) (.const 10) (.const 13)),
    (0x907FDE02, .bexp (.g 7) (.lit64 0) (.g 30)),
    (0x91126F03, .bini (.g 17) (.g 9) (.const 15))] : List (Nat × Instr)).all (fun x => decodeTableWord 32 x.1 == some x.2) = true :=
      by decide +kernel

theorem test_decode_task1 : ([
    (0x94000000, .waitw),
    (0x94000001, .tend),
    (0x94000002, .done),
    (0x94000003, .yield),
    (0x94730004, .fork (.g 7) 12),
    (0x95C00005, .jdec (.g 28) 0),
    (0x97630006, .pushr .q6 12),
    (0x94730007, .popr (.g 7) 12),
    (0x95C30708, .splitr (.g 28) 12 (.g 7)),
    (0x95E30009, .steal (.g 30) 12),
    (0x9413000A, .dsp (.g 1) 12),
    (0x9B62C000, .launch .q6 11),
    (0xA1E25500, .binc (.g 30) 9 (.g 21)),
    (0xA1C3B001, .bdec (.g 28) 14 (.q 0)),
    (0xA1E0D402, .bcan (.g 30) 3 (.g 20)),
    (0xA3622603, .bbar .q6 8 (.const 6)),
    (0xA1E35304, .bbw (.g 30) 13 (.g 19)),
    (0xA1C0A805, .bcfg (.g 28) 2 (.const 8)),
    (0xA1E1FF06, .bpeek (.g 30) 7 (.lit64 0)),
    (0xA9C40000, .trecv (.g 28) 16),
    (0xA83DA001, .tsend (.g 3) 6 (.const 0)),
    (0xA81D9B02, .tann (.g 1) 6 (.g 27)),
    (0xA83DA203, .tlah (.g 3) 6 (.const 2)),
    (0xA8100004, .tdone (.g 1))] : List (Nat × Instr)).all (fun x => decodeTableWord 32 x.1 == some x.2) = true := by decide +kernel

theorem test_decode_task2 : ([
    (0xAC090000, .enqm 9),
    (0xAC000001, .enqc 0),
    (0xAC301402, .ewait (.g 3) (.g 5)),
    (0xAC002803, .xbset (.g 10)),
    (0xAC009C04, .xbp (.const 7))] : List (Nat × Instr)).all (fun x => decodeTableWord 32 x.1 == some x.2) = true := by decide +kernel

theorem test_decode_vector1 : ([
    (0xB1B51880, .vadd 6 13 4 3 .f32),
    (0xB241F301, .vsub 9 0 7 6 .i8),
    (0xB30E8D82, .vmul 12 3 10 1 .u32),
    (0xB3DB6083, .vfma 15 6 13 4 .f32),
    (0xB0A43B84, .vmin 2 9 0 7 .u8),
    (0xB170D605, .vmax 5 12 3 2 .i64),
    (0xB23C3106, .vabs 8 15 6 .bf16),
    (0xB12C1307, .vneg 4 11 2 .i8),
    (0xB01FA888, .vsclb 0 7 14 5 .f32),
    (0xB4E84400, .vand 3 10 1 0 .i16),
    (0xB5B51E81, .vor 6 13 4 3 .u64),
    (0xB641F502, .vxor 9 0 7 6 .i32),
    (0xB70E8B83, .vshl 12 3 10 1 .u8),
    (0xB7DB6604, .vshr 15 6 13 4 .i64),
    (0xB4A43C85, .vsar 2 9 0 7 .u16),
    (0xB970D080, .vcmpEq 5 12 3 2 .f32),
    (0xB83DAB01, .vcmpNe 0 15 6 5 .i8),
    (0xB8CA4182, .vcmpLt 3 2 9 0 .f16),
    (0xB9971C83, .vcmpLe 6 5 12 3 .u16),
    (0xB863F104, .vcmpGt 1 8 15 6 .bf16),
    (0xB92C8B85, .vcmpGe 4 11 2 1 .u8),
    (0xB9F96310, .vsel 7 14 5 4 .i8),
    (0xBA840011, .vcls 10 1 0 .f64),
    (0xBDB45883, .vcvt 6 13 1 3 .f32 .f16)] : List (Nat × Instr)).all (fun x => decodeTableWord 32 x.1 == some x.2) = true :=
      by decide +kernel

theorem test_decode_vector2 : ([
    (0xC01EEBB3, .vld 0 7 0x5B3 5 .u8),
    (0xC4EAC633, .vst 3 10 0x5B3 0 .i64),
    (0xC9B51D00, .vldx 6 13 4 3 .i32),
    (0xCA41F501, .vstx 9 0 7 6 .i32),
    (0xCF0C1600, .vbc 12 3 2 .i64),
    (0xCE3D8101, .vmovg 8 15 6 .bf16),
    (0xCD2C8302, .vins 4 11 2 .i8),
    (0xCC1FAD83, .vperm 0 7 14 5 .u32),
    (0xCCE84104, .vrot 3 10 1 0 .bf16)] : List (Nat × Instr)).all (fun x => decodeTableWord 32 x.1 == some x.2) = true := by decide +kernel

theorem test_decode_lanes : ([
    (0xD1B42080, .vred 6 13 4 .f32),
    (0xD0A43881, .vdot 2 9 0 7 .f32),
    (0xD5701880, .vexp2 5 12 3 .f32),
    (0xD4603881, .vlog2 1 8 7 .f32),
    (0xD7501882, .vrcp 13 4 3 .f32),
    (0xD6403883, .vrsq 9 0 7 .f32),
    (0xD9431880, .vacr 5 12 3 .f32),
    (0xD8063881, .vacw 1 8 7 .f32),
    (0xDD50C000, .kand 5 4 3),
    (0xDC840001, .kor 2 1 0),
    (0xDDD94002, .kxor 7 6 5),
    (0xDD0C0003, .knot 4 3),
    (0xDC840004, .kmovKk 2 1),
    (0xDC3C0005, .kmovKg 0 15),
    (0xDD940006, .kmovGk 6 5),
    (0xDD0C0007, .kpop 4 3)] : List (Nat × Instr)).all (fun x => decodeTableWord 32 x.1 == some x.2) = true := by decide +kernel

theorem test_decode_system : ([
    (0xF9200000, .ord .acquire .cluster),
    (0xE1C02000, .srd (.g 28) 0x008),
    (0xE0402001, .swr 0x008 (.g 4)),
    (0xE4000000, .tret),
    (0xE473AC01, .swapctx (.g 7) (.g 14) (.const 12)),
    (0xE51C0002, .spsave (.g 17) (.q 0)),
    (0xE5E20D03, .spload (.g 30) (.g 8) (.g 13)),
    (0xE5C86404, .pth (.g 28) (.const 1) (.const 4)),
    (0xE5EF8C05, .rth (.g 30) (.lit32 0) (.g 12)),
    (0xE4044008, .ebrk (.g 17)),
    (0xE4058009, .scall (.g 22)),
    (0xE409800A, .trap (.const 6)),
    (0xE8000000, .nop)] : List (Nat × Instr)).all (fun x => decodeTableWord 32 x.1 == some x.2) = true := by decide +kernel

end Sys2Proof.Tests

/-! ## Command words written out from the layouts of R79, R80 and R208-R236 -/

namespace Sys2Proof.Tests

/-- A header with no gate, no completion and RMS 0 (R79). -/
def h0 : CmdHdr := { gate := 0xF, cmode := 0, smode := 0, ccap := 0, rms := 0, bslot := 0, coff := 0 }

/-- A header with every field set: gate 3, CMODE 0b11, SMODE 0b10, CCAP a5, RMS 4, slot 17 and COFF -8. -/
def h1 : CmdHdr := { gate := 3, cmode := 3, smode := 2, ccap := 5, rms := 4, bslot := 17, coff := 0xFFFFFFF8 }

theorem test_command_words_matrix : ([
    (0x103E5091FFFFFFF8000000000000000000000000000000000000000000000002,
     .mzero h1 2),
    (0x11F000000000000001FFFFFFFE00200000000000000000000000000000000000,
     .mmulF64 h0 { a := { cap := 1, off := 0xFFFFFFFE0 }, str := 512, latch := 0, slot := 0 }),
    (0x12F000000000000002FFFFFFFE00220000000000000000000000000000000005,
     .mmulF32 h0 { a := { cap := 2, off := 0xFFFFFFFE0 }, str := 544, latch := 1, slot := 1 }),
    (0x13F000000000000003FFFFFFFE00240000000000000000000000000000000002,
     .mmulBf16 h0 { a := { cap := 3, off := 0xFFFFFFFE0 }, str := 576, latch := 0, slot := 2 }),
    (0x14F000000000000004FFFFFFFE00260000000000000000000000000000000007,
     .mmulF16 h0 { a := { cap := 4, off := 0xFFFFFFFE0 }, str := 608, latch := 1, slot := 3 }),
    (0x15F000000000000005FFFFFFFE00280000000000000000000000000000000000,
     .mmulE4m3 h0 { a := { cap := 5, off := 0xFFFFFFFE0 }, str := 640, latch := 0, slot := 0 }),
    (0x16F000000000000006FFFFFFFE002A0000000000000000000000000000000005,
     .mmulE5m2 h0 { a := { cap := 6, off := 0xFFFFFFFE0 }, str := 672, latch := 1, slot := 1 }),
    (0x17F000000000000007FFFFFFFE002C0000000000000000000000000000000002,
     .mmulE4e5 h0 { a := { cap := 7, off := 0xFFFFFFFE0 }, str := 704, latch := 0, slot := 2 }),
    (0x18F000000000000008FFFFFFFE002E0000000000000000000000000000000007,
     .mmulNq4e4 h0 { a := { cap := 8, off := 0xFFFFFFFE0 }, str := 736, latch := 1, slot := 3 }),
    (0x19F000000000000009FFFFFFFE00300000000000000000000000000000000000,
     .mmulNq4b h0 { a := { cap := 9, off := 0xFFFFFFFE0 }, str := 768, latch := 0, slot := 0 }),
    (0x1AF00000000000000AFFFFFFFE00320000000000000000000000000000000005,
     .mmulI8 h0 { a := { cap := 10, off := 0xFFFFFFFE0 }, str := 800, latch := 1, slot := 1 }),
    (0x1BF0000000000000040000000400040900000012000000000000000000000101,
     .mlatch h0 { b := { cap := 4, off := 64 }, str := 64, sc := { cap := 9, off := 0x120 }, nq := true, fmt := 0, latch := 1 }),
    (0x1FF0000000000000040000000400100000000000000000000000000000000030,
     .mtrans h0 { b := { cap := 4, off := 64 }, str := 256, sc := { cap := 0, off := 0 }, nq := false, fmt := 3, latch := 0 }),
    (0x1CF0000000000000000000000000000000000000000000000000000000000002,
     .mrot h0 0 1),
    (0x1DF000000000000007FFFFFFFE00100000000000000000000000000000000132,
     .mstore h0 { cap := 7, off := 0xFFFFFFFE0 } 256 1 3 2),
    (0x1EF0000000000000070000000400000000000000000000000000000000000003,
     .mspill h0 { cap := 7, off := 64 } 3),
    (0x1EF0000000000000870000000400000000000000000000000000000000000001,
     .mfill h0 { cap := 7, off := 64 } 1)] : List (BitVec 256 × Instr)).all (fun x => decodeCmd x.1 == some x.2) = true := by decide +kernel

theorem test_command_words_copy : ([
    (0x20F0000000000000010000000080000200000001030000000200000000000013,
     .ccopy h0 { cap := 1, off := 8 } { cap := 2, off := 16 } { cap := 3, off := 32 } 1 3),
    (0x21F000000000000001000000008000020000000103000000020800000018B000,
     .cgath h0 { s := { cap := 1, off := 8 }, d := { cap := 2, off := 16 }, i := { cap := 3, off := 32 }, count := 0x80000001, iw := true, aop := 0, ety := 0xB }),
    (0x22F000000000000001000000008000020000000103000000020800000018B000,
     .cscat h0 { s := { cap := 1, off := 8 }, d := { cap := 2, off := 16 }, i := { cap := 3, off := 32 }, count := 0x80000001, iw := true, aop := 0, ety := 0xB }),
    (0x23F00000000000000100000000800002000000010300000002080000001BB000,
     .cscata h0 { s := { cap := 1, off := 8 }, d := { cap := 2, off := 16 }, i := { cap := 3, off := 32 }, count := 0x80000001, iw := true, aop := 3, ety := 0xB }),
    (0x24F0000000000000010000000080000200000001030000000208000010000052,
     .cmerge h0 { cap := 1, off := 8 } { cap := 2, off := 16 } { cap := 3, off := 32 } 0x800001 5 true false),
    (0x25F0000000000000010000000080000000000000000000000000000000000002,
     .cred h0 { cap := 1, off := 8 } 2),
    (0x26F000000000000001000000008000020000000208123456789ABCDEF000000D,
     .cfill h0 { cap := 1, off := 8 } { cap := 2, off := 32 } 0x8123456789ABCDEF 0xD),
    (0x27F0000000000000010000000080000200000002000000000000000000000013,
     .cstrm h0 { cap := 1, off := 8 } { cap := 2, off := 32 } 1 3),
    (0x28F0000000000000010000000200000612300000000000000000040000000001,
     .cbcast h0 { cap := 1, off := 32 } 6 0x1230 0x40 1),
    (0x29F0000000000000010000000000000200000001030000000208000000000000,
     .cquant h0 { cap := 1, off := 0 } { cap := 2, off := 16 } { cap := 3, off := 32 } 256)] : List (BitVec 256 × Instr)).all (fun x =>
       decodeCmd x.1 == some x.2) = true := by decide +kernel

end Sys2Proof.Tests

/-! ## Ill-formed terms and words that are no instructions -/

namespace Sys2Proof.Tests

/-- One term for each check of an instruction word (R57, R58, R61, R63, R71, R78, R164). -/
theorem test_wf_refuses_instructions : ([
    .add (.g 1) (.lit32 0) (.lit64 0), .bEq (.lit32 0) 4, .fcvt .f64 .f64 (.g 1) (.g 2), .fcvt .i32 .u8 (.g 1) (.g 2), .dbnz 0 4,
    .ldZext (.g 1) 2 0 3, .fork (.g 1) 0, .pushr (.g 1) 29, .popr (.g 1) 30, .splitr (.g 1) 31 (.g 2), .steal (.g 1) 0, .dsp (.g 1) 29,
    .trecv (.g 4) 4, .vabs 1 2 0 .u8, .vadd 1 2 3 0 .e4m3, .vneg 1 2 0 .e5m2, .vcmpEq 1 2 3 0 .e4m3, .vred 1 2 0 .e5m2, .vdot 1 2 3 0 .e4m3,
    .vsclb 1 2 3 0 .i32, .vexp2 1 2 0 .u64, .vshl 1 2 3 0 .f32, .vacr 1 2 0 .f16, .vacw 1 2 0 .u32, .vcvt 1 2 0 0 .i8 .u8,
      .vcvt 1 2 4 0 .f32 .e4m3] :
    List Instr).all (fun i => !i.wf) = true := by decide +kernel

/-- A block of four registers may start at g1 and at g28 (the task group's encodings). -/
theorem test_wf_block_bounds : ([.fork (.g 1) 1, .fork (.g 1) 28, .dbnz 31 4, .ldZext (.g 1) 2 0 2, .vcvt 1 2 3 0 .f32 .e4m3] :
    List Instr).all Instr.wf = true := by decide +kernel

/-- One term for each check of a command word (R79, R220-R237). -/
theorem test_wf_refuses_commands : ([
    .mzero { h0 with gate := 8 } 0, .mzero { h0 with smode := 3 } 0, .mzero { h0 with ccap := 1 } 0,
      .mzero { h0 with cmode := 1, coff := 4 } 0,
    .mzero { h0 with bslot := 1 } 0,
    .mmulF64 h0 { a := { cap := 0, off := 0 }, str := 96, latch := 0, slot := 0 },
      .mmulF32 h0 { a := { cap := 0, off := 0 }, str := 80, latch := 0, slot := 0 },
    .mmulNq4b h0 { a := { cap := 0, off := 0 }, str := 224, latch := 0, slot := 0 },
    .mlatch h0 { b := { cap := 0, off := 0 }, str := 128, sc := { cap := 0, off := 0 }, nq := false, fmt := 7, latch := 0 },
    .mlatch h0 { b := { cap := 0, off := 0 }, str := 128, sc := { cap := 0, off := 0 }, nq := true, fmt := 1, latch := 0 },
    .mlatch h0 { b := { cap := 0, off := 0 }, str := 128, sc := { cap := 1, off := 0 }, nq := false, fmt := 1, latch := 0 },
    .mtrans h0 { b := { cap := 0, off := 0 }, str := 72, sc := { cap := 0, off := 0 }, nq := false, fmt := 1, latch := 0 },
    .mstore h0 { cap := 0, off := 0 } 128 2 1 0, .mstore h0 { cap := 0, off := 0 } 64 1 1 0, .mstore h0 { cap := 0, off := 0 } 128 10 8 0,
    .ccopy h0 { cap := 0, off := 0 } { cap := 0, off := 0 } { cap := 0, off := 0 } 6 7,
    .cgath h0 { s := { cap := 0, off := 0 }, d := { cap := 0, off := 0 }, i := { cap := 0, off := 0 }, count := 0, iw := false, aop := 0, ety := 1 },
    .cscat h0 { s := { cap := 0, off := 0 }, d := { cap := 0, off := 0 }, i := { cap := 0, off := 0 }, count := 1, iw := false, aop := 1, ety := 1 },
    .cscat h0 { s := { cap := 0, off := 0 }, d := { cap := 0, off := 0 }, i := { cap := 0, off := 0 }, count := 1, iw := false, aop := 0, ety := 14 },
    .cscata h0 { s := { cap := 0, off := 0 }, d := { cap := 0, off := 0 }, i := { cap := 0, off := 0 }, count := 1, iw := false, aop := 6, ety := 0 },
    .cscata h0 { s := { cap := 0, off := 0 }, d := { cap := 0, off := 0 }, i := { cap := 0, off := 0 }, count := 1, iw := false, aop := 0, ety := 9 },
    .cfill h0 { cap := 0, off := 0 } { cap := 0, off := 0 } 0 15, .cstrm h0 { cap := 0, off := 0 } { cap := 0, off := 0 } 14 0,
    .cbcast h0 { cap := 0, off := 0 } 0 0 48 0, .cbcast h0 { cap := 0, off := 0 } 0 0 0 0,
      .cbcast h0 { cap := 0, off := 0 } 0 0x20 0xC000 0,
    .cquant h0 { cap := 0, off := 0 } { cap := 0, off := 0 } { cap := 0, off := 0 } 0,
      .cquant h0 { cap := 0, off := 0 } { cap := 0, off := 0 } { cap := 0, off := 0 } 257] :
    List Instr).all (fun i => !i.wf) = true := by decide +kernel

/-- The words that are not instructions, of the second worked example of spec/03_encodings.md, and reserved codes (R54, R63, R66). -/
theorem test_decode_refuses : ([0x00000000, 0x00307E3F, 0x03E0FF01, 0xFC800000, 0x6C420023, 0x00387901, 0x03803F01, 0x4801004E, 0xFA800000,
  0xF8600000,
    0xE8000001, 0x003FBE01] : List Nat).all (fun w => (decodeTableWord 32 w).isNone) = true := by decide +kernel

/-- The words of the worked examples of spec/03 (the fill stage, add with a 64-bit literal, vfma), 04 (a loop and a subroutine) and 08 (one
tile). -/
theorem test_decode_worked_examples : ([
    (0xE0200400, .srd (.g 2) 1), (0x0840A300, .mul (.g 4) (.g 2) (.const 3)), (0x00410301, .add (.g 4) (.g 4) (.g 3)),
    (0x0450A300, .shl (.g 5) (.g 2) (.const 3)), (0x50304500, .cadd 3 1 (.g 5)), (0xF9C00000, .ord .release .module),
      (0x70430003, .st (.g 4) 3 0 3),
    (0x94000002, .done), (0x00317E01, .add (.g 3) (.g 5) (.lit32 0)), (0x00307F01, .add (.g 3) (.g 1) (.lit64 0)),
      (0xB0805883, .vfma 2 0 1 3 .f32),
    (0x0020000D, .mov (.g 2) (.g 0)), (0x59410004, .bLe (.g 1) 4), (0x60400005, .call 5), (0x00208301, .add (.g 2) (.g 2) (.g 3)),
      (0x5C01FFFE, .dbnz 1 0xFFFE),
    (0x70210003, .st (.g 2) 1 0 3), (0x08304100, .mul (.g 3) (.g 1) (.g 1)), (0x64000002, .ret),
    (0x7C0E0200, .empt 14 128), (0xC0380680, .vld 0 14 0 0 .u64), (0xC0780681, .vld 1 14 1 0 .u64), (0xAC010000, .enqm 1),
      (0x783E0200, .ldf (.g 3) 14 128),
    (0x684E4282, .ld (.g 4) 14 4256 2), (0xBD044201, .vcvt 4 1 1 0 .e4m3 .f32)] : List (Nat × Instr)).all (fun x =>
      decodeTableWord 32 x.1 == some x.2) = true := by
  decide +kernel

/-- The literal of R41's example: two words, the low word first (R52). -/
theorem test_decode_literal : (decode (bytesOf 12 (0x00307F01 + 2 ^ 64))).toOption = some (.add (.g 3) (.g 1) (.lit64 0x100000000), []) :=
  by decide +kernel

/-- The mstore word of the worked example of spec/08. -/
theorem test_command_word_worked : decodeCmd 0x1DF5E000000000800E0000010A00080000000000000000000000000000000110 =
    some (.mstore { h0 with cmode := 1, smode := 1, ccap := 14, coff := 128 } { cap := 14, off := 4256 } 128 1 1 0) := by decide +kernel

end Sys2Proof.Tests

/-! ## Results worked from the spec -/

namespace Sys2Proof.Tests

/-- What a register holds after an instruction. -/
def gAfter (i : Instr) (s : State) (r : BitVec 5) : Option Word :=
  match exec i s with
  | .next t => some (t.th.gr r)
  | _ => none

/-- What a function of the state gives after an instruction. -/
def after {α : Type} (i : Instr) (s : State) (f : State → α) : Option α :=
  match exec i s with
  | .next t => some (f t)
  | _ => none

/-- g1 and g2 are the operands, g3 the destination. -/
def two (i : Dst → Src → Src → Instr) (a b : Word) : Option Word := gAfter (i (.g 3) (.g 1) (.g 2)) (regs a b (memCap 0)) 3
def one (i : Dst → Src → Instr) (a : Word) : Option Word := gAfter (i (.g 3) (.g 1)) (regs a 0 (memCap 0)) 3

/-- The table of R93. -/
theorem test_divide : ([
    (two .div (-7) 2, -3), (two .rem (-7) 2, -1), (two .div 7 0, 0xFFFFFFFFFFFFFFFF), (two .rem 7 0, 7),
      (two .div 0x8000000000000000 (-1), 0x8000000000000000),
    (two .rem 0x8000000000000000 (-1), 0), (two .divu 0xFFFFFFFFFFFFFFFE 0xFFFFFFFFFFFFFFFF, 0),
      (two .remu 9 0, 9)] : List (Option Word × Word)).all
    (fun x => x.1 == some x.2) = true := by decide +kernel

/-- R85-R92, R94: wraps, counts of 64, sign changes, fields. -/
theorem test_integer : ([
    (two .add 0xFFFFFFFFFFFFFFFF 2, 1), (two .sub 0 1, 0xFFFFFFFFFFFFFFFF), (two .andn 0xF 5, 0xA), (two .orn 0 0xFFFFFFFFFFFFFFF0, 0xF),
    (two .and 12 10, 8), (two .or 12 10, 14), (two .xor 12 10, 6), (two .min (-1) 1, -1), (two .max (-1) 1, 1), (two .minu (-1) 1, 1),
      (two .maxu (-1) 1, -1),
    (two .shl 3 64, 3), (two .shr 0x8000000000000000 63, 1), (two .sar 0x8000000000000000 63, -1), (two .rotl 0x8000000000000001 1, 3),
    (one .clz 0, 64), (one .ctz 0, 64), (one .clz 1, 63), (one .popc 0xFF, 8), (one .sextB 0x180, 0xFFFFFFFFFFFFFF80),
      (one .sextH 0x8000, 0xFFFFFFFFFFFF8000),
    (one .sextW 0x7FFFFFFF, 0x7FFFFFFF), (one .zextB 0x1FF, 0xFF), (one .zextH 0x1FFFF, 0xFFFF), (one .zextW (-1), 0xFFFFFFFF),
    (two .bfx 0xABC 0x408, 0xA), (two .bfx (-1) 0x7F20, 0xFFFFFFFF), (two .mul 0x100000000 0x100000001, 0x100000000),
      (two .mulh (-1) 1, -1), (two .mulhu (-1) 2, 1),
    (two .seq 3 3, 1), (two .sne 3 3, 0), (two .slt (-1) 0, 1), (two .sltu (-1) 0, 0), (two .sle 4 4, 1),
      (two .sleu 5 4, 0)] : List (Option Word × Word)).all
    (fun x => x.1 == some x.2) = true := by decide +kernel

/-- R86, R91: sel and bfi read their destination first. -/
theorem test_sel_bfi : (gAfter (.sel 1 (.const 4) (.const 5)) (regs 0 0 (memCap 0)) 1,
  gAfter (.sel 1 (.const 4) (.const 5)) (regs 9 0 (memCap 0)) 1,
    gAfter (.bfi 1 (.g 2) (.lit32 0x408)) (regs 0xFFFF 0x3 (memCap 0)) 1) = (some 5, some 4, some 0xF3FF) := by decide +kernel

/-- FP64 1.0, 2.0, 0.5 and FP32 2^24. -/
def d1 : Word := 0x3FF0000000000000
def d2 : Word := 0x4000000000000000

/-- R95-R101: exact sums, signed zeros, invalid operations, a division by zero, and the comparisons of NaNs. -/
theorem test_float : ([
    (two (.fadd .d) d1 d1, d2), (two (.fsub .d) d1 d1, 0), (two (.fmul .d) d2 d2, 0x4010000000000000),
      (two (.fdiv .d) d1 0x8000000000000000, 0xFFF0000000000000),
    (two (.fdiv .d) 0 0, 0x7FF8000000000000), (one (.fsqrt .d) 0x4010000000000000, d2),
      (one (.fsqrt .d) 0x8000000000000000, 0x8000000000000000),
    (two (.fadd .s) 0x4B800000 0x3F800000, 0x4B800000), (two (.fmin .d) 0x8000000000000000 0, 0x8000000000000000),
      (two (.fmax .d) 0x7FF8000000000001 d1, d1),
    (two (.fsgn .d) d1 (-1), 0xBFF0000000000000), (two (.feq .d) 0 0x8000000000000000, 1), (two (.flt .d) d1 d2, 1),
      (two (.fle .d) 0x7FF8000000000000 d2, 0)] :
    List (Option Word × Word)).all (fun x => x.1 == some x.2) = true := by decide +kernel

/-- R98, R102: one rounding; infinity times zero; the ten classes of fcls. -/
theorem test_fma_fcls : ([
    (gAfter (.fma .d 3 (.g 1) (.g 2)) (regs d1 d2 (memCap 0)) 3, d2),
      (gAfter (.fma .d 1 (.lit64 0x7FF0000000000000) (.g 2)) (regs 0x7FF8000000000000 0 (memCap 0)) 1, 0x7FF8000000000000),
    (one (.fcls .d) 0xFFF0000000000000, 1), (one (.fcls .d) 0xBFF0000000000000, 2), (one (.fcls .d) 0x8000000000000001, 4),
      (one (.fcls .d) 0x8000000000000000, 8),
    (one (.fcls .d) 0, 16), (one (.fcls .d) 1, 32), (one (.fcls .d) d1, 64), (one (.fcls .d) 0x7FF0000000000000, 128),
      (one (.fcls .d) 0x7FF0000000000001, 256),
    (one (.fcls .d) 0x7FF8000000000000, 512)] : List (Option Word × Word)).all (fun x => x.1 == some x.2) = true := by decide +kernel

/-- The conversions of the worked example of spec/07, in a scalar register, and R103-R105's saturation. -/
theorem test_convert : ([
    (one (.fcvt .e4m3 .f32) 0x3EA00000, 0x2A), (one (.fcvt .e4m3 .f32) 0x43960000, 0x79), (one (.fcvt .e4m3 .f32) 0x43FA0000, 0x7E),
    (one (.fcvt .e4m3 .f32) 0xBAC00000, 0x81), (one (.fcvt .e4m3 .f32) 0x3F800000, 0x38), (one (.fcvt .i8 .f32) 0x43960000, 127),
    (one (.fcvt .i8 .f32) 0xC3960000, -128), (one (.fcvt .u8 .f64) 0x7FF8000000000000, 0),
      (one (.fcvt .f64 .i64) (-1), 0xBFF0000000000000)] :
    List (Option Word × Word)).all (fun x => x.1 == some x.2) = true := by decide +kernel

/-- 300.0 to E4M3 raises NX, 500.0 OF and NX, -0.75 x 2^-9 UF and NX, in FPCSR and in CFLAGS (spec/07's example; R96). -/
theorem test_convert_flags : (after (.fcvt .e4m3 .f32 (.g 3) (.g 1)) (regs 0x43960000 0 (memCap 0)) (fun t => (t.th.fpcsr, t.ccl.cflags)),
    after (.fcvt .e4m3 .f32 (.g 3) (.g 1)) (regs 0x43FA0000 0 (memCap 0)) (fun t => t.th.fpcsr),
    after (.fcvt .e4m3 .f32 (.g 3) (.g 1)) (regs 0xBAC00000 0 (memCap 0)) (fun t => t.th.fpcsr)) =
      (some (0x08, 0x08), some 0x28, some 0x18) := by decide +kernel

/-- The capability of spec/01's example: tenant 5, exponent 12, R and W. -/
def bufCap : Cap := { bits := 0x0000286C00A30000A00000000A000040, tag := true }

/-- Its fields (R15, R16, R112), and the three accesses of the example (R17). -/
theorem test_capability_example : (bufCap.cur, bufCap.base, bufCap.top, bufCap.perms, bufCap.ten, bufCap.kind) =
  (0x0A000040, 0x0A000000, 0x0A300000, 3, 5, 0) ∧
    capFault 5 bufCap 0x0A2FFFF8 8 permR kindMem 8 = none ∧ capFault 5 bufCap 0x0A2FFFFC 8 permR kindMem 8 = some .capBound ∧
    capFault 5 bufCap 0x0A000040 8 permA kindMem 8 = some .capPerm ∧ capFault 4 bufCap 0x0A000040 8 permR kindMem 8 = some .capTenant ∧
    capFault 5 { bufCap with tag := false } 0x0A000040 8 permR kindMem 8 = some .capTag := by decide +kernel

/-- What a capability register holds after an instruction on a1. -/
def aAfter (i : Instr) (x : Word) : Option Cap := after i (regs x 0 (memCap 0x500000000010)) (fun t => t.th.ar 2)

/-- R107-R111: the cursor wraps, permissions are only removed, cbnd takes exact bounds where E is 0, and reserved bits clear the tag. -/
theorem test_capability : (aAfter (.cadd 2 1 (.g 1)) (-16)).map Cap.cur = some 0x500000000000 ∧
  (aAfter (.cset 2 1 (.g 1)) 0x123).map Cap.cur = some 0x123 ∧
    (aAfter (.cperm 2 1 (.g 1)) 0x41).map Cap.perms = some 1 ∧ (aAfter (.cmov 2 1) 0).map Cap.tag = some true ∧
    (aAfter (.cbnd 2 1 (.lit32 0x20)) 0).map (fun k => (decide (k.base ≤ 0x500000000010), decide (0x500000000030 ≤ k.top), k.tag)) =
      some (true, true, true) ∧
    gAfter (.cgetLen (.g 3) 1) (regs 0 0 (memCap 0)) 3 = some 0x1000000 ∧
      gAfter (.ctag (.g 3) 1) (regs 0 0 { memCap 0 with tag := false }) 3 = some 0 := by
  decide +kernel

/-- R114-R117: PC after each transfer, from 0x5000_0000_0000. -/
theorem test_control : after (.bLe (.g 1) 4) (regs 0 0 (memCap 0)) (·.th.pc) = some 0x500000000010 ∧
  after (.bLe (.g 1) 4) (regs 5 0 (memCap 0)) (·.th.pc) = some 0x500000000004 ∧
    after (.call 5) base (fun t => (t.th.pc, t.th.gr 31)) = some (0x500000000014, 0x500000000004) ∧
    after (.dbnz 1 0xFFFE) (regs 5 0 (memCap 0)) (fun t => (t.th.pc, t.th.gr 1)) = some (0x4FFFFFFFFFF8, 4) ∧
    after (.dbnz 1 0xFFFE) (regs 1 0 (memCap 0)) (fun t => (t.th.pc, t.th.gr 1)) = some (0x500000000004, 0) ∧
    after (.jmpr (.g 1)) (regs 0x500000000102 0 (memCap 0)) (fun t => (t.th.tcause, t.th.tval)) = some (Cause.align.code, 0x500000000102) ∧
    after .nop base (·.th.pc) = some 0x500000000004 := by decide +kernel

/-- A store to the own slice, then loads of its bytes (R7, R121). -/
def stored : State := match exec (.st (.g 1) 1 8 3) (regs 0x8877665544332211 0 (memCap 0x500000000100)) with | .next t => t | _ => base

theorem test_store_load : gAfter (.ld (.g 3) 1 8 3) stored 3 = some 0x8877665544332211 ∧
  gAfter (.ld (.g 3) 1 15 0) stored 3 = some 0xFFFFFFFFFFFFFF88 ∧
    gAfter (.ldZext (.g 3) 1 14 1) stored 3 = some 0x8877 ∧ gAfter (.ldZext (.g 3) 1 8 1) stored 3 = some 0x2211 ∧
    after (.ld (.g 3) 1 9 1) stored (·.th.tcause) = some Cause.align.code := by decide +kernel

/-- R129: the old value, and the new one in memory; min compares signed, minu not. -/
theorem test_atomics : after (.amoAdd (.g 3) 1 (.const 1) true) stored (fun t => t.th.gr 3) = some 0 ∧
    ([Instr.amoAdd (.g 3) 1 (.g 1) true, .amoSwap (.g 3) 1 (.g 1) true, .amoMin (.g 3) 1 (.g 1) true,
      .amoMinu (.g 3) 1 (.g 1) true].map (fun i =>
      (after i stored (fun t => gAfter (.ld (.g 2) 1 0 3) t 2)))) =
    [some (some 0x8877665544332211), some (some 0x8877665544332211), some (some 0x8877665544332211), some (some 0)] := by decide +kernel

/-- R126: every word is full at reset; empt empties it, stef fills it, ldfe empties it again. -/
theorem test_full_empty : gAfter (.fes (.g 3) 1 0) stored 3 = some 1 ∧
  (after (.empt 1 0) stored (fun t => gAfter (.fes (.g 3) 1 0) t 3)) = some (some 0) ∧
    (after (.empt 1 0) stored (fun t => after (.ldf (.g 3) 1 0) t (·.th.state))) = some (some .parkFe) ∧
    after (.stef (.g 1) 1 0) stored (·.th.state) = some .parkFe ∧ after (.ldfe (.g 3) 1 8) stored (fun t => gAfter (.fes (.g 2) 1 8) t 2) =
      some (some 0) := by decide +kernel

/-- A thread in the state a two-operand vector instruction needs: v1, v2 and the destination v3. -/
def vth (x y : BitVec 256) : Thread := { base.th with v := (base.th.v.set 1 x).set 2 y }
def vop (i : Instr) (rm : BitVec 3) : VOp :=
  { instr := i, uid := 0, after := [], slot := 0, rm := rm, gs := 0, gt := 0, cap := Cap.null, tenant := 0, lcore := 0, sup := false, jseed := 0, srstrm := 0, srctr := 0 }

/-- The pack of spec/07's example: part 0 of v4, from lanes 0.3125, 300, 500 and -0.75 x 2^-9; flags OF, UF and NX. -/
theorem test_vector_pack : ((vEval (vop (.vcvt 4 1 0 0 .e4m3 .f32) 0) (vth 0x3F8000003F8000003F8000003F800000BAC0000043FA0000439600003EA00000 0)).map
    (fun o => (o.v, o.fl ++ (0 : BitVec 3)))) = some (some (4, 0x38383838817E792A), 0x38) := by decide +kernel

/-- R190, R193: lanes wrap, inactive lanes stay, a mask comes from a compare. -/
theorem test_vector_lanes : (vEval (vop (.vadd 3 1 2 0 .u8) 0) (vth 0x01FF 0x0102)).map (·.v) = some (some (3, 0x0201)) ∧
    (vEval (vop (.vadd 3 1 2 1 .u8) 0) { vth 0x01FF 0x0102 with v := ((vth 0x01FF 0x0102).v.set 3 0xAABB), k := base.th.k.set 1 1 }).map (·.v) = some (some (3, 0xAA01)) ∧
    (vEval (vop (.vcmpLt 2 1 2 0 .i64) 0) (vth 5 6)).map (·.k) = some (some (2, 1)) := by decide +kernel

/-- The GroupSum table of R248: RNE, RUP, RDN, and three products of 1 (spec/09). -/
theorem test_group_sum :
    let c : Fv := .fin false 1 24
    groupSum 0 c [some (.fin false 1 1), some (.fin false 1 (-40)), some (.fin false 0 0), some (.fin false 0 0)] =
      { bits := 0x4B800001, fl := flAL ||| flNX } ∧
    groupSum 2 c [some (.fin false 1 1), some (.fin false 1 (-40)), some (.fin false 0 0), some (.fin false 0 0)] =
      { bits := 0x4B800001, fl := flAL ||| flNX } ∧
    groupSum 3 c [some (.fin false 1 1), some (.fin true 1 (-40)), some (.fin false 0 0), some (.fin false 0 0)] =
      { bits := 0x4B800001, fl := flAL ||| flNX } ∧
    groupSum 0 c [some (.fin false 1 0), some (.fin false 1 0), some (.fin false 1 0), some (.fin false 0 0)] =
      { bits := 0x4B800002, fl := flNX } := by decide +kernel

/-- Three contributions to an FP32 SUM in any order: 0x4B80_0001 and no flag (spec/09, after R253). -/
theorem test_reduction : reduce 1 .f32 [0x4B800000, 0x3F800000, 0x3F800000] = { bits := 0x4B800001, fl := 0, nan := false } ∧
    reduce 1 .f32 [0x3F800000, 0x3F800000, 0x4B800000] = { bits := 0x4B800001, fl := 0, nan := false } := by decide +kernel

/-- The block of spec/15's example, as far as a test reads it, and its loop. -/
def solveBlock : BitVec 1024 := BitVec.ofNat 1024 (0x0000000800020902 + 0x3EB0000000000000 * 2 ^ 640 + 0x3FA999999999999A * 2 ^ 768)
def solveLoop (r k c : Nat) (prev : Option Word) (n : Word) : Loop :=
  { pos := .test, r := r, k := k, c := c, rprev := prev, n := some n, n0 := some d1, bn := some d1, norm0 := n, norm1 := none, climbed := false,
    lastW := 0, sub := none, code := 0, finfo := 0, fault := none, upd := false, saved := false }

/-- The four tests of the example: decision, ratio, c, climb. -/
theorem test_ballast_example :
    ballastTest solveBlock (solveLoop 0 0 0 none d1) = { c := 0, ratio := 0, dec := .cont, climb := false } ∧
    ballastTest solveBlock (solveLoop 0 1 0 (some d1) 0x3FAE000000000000) =
      { c := 1, ratio := 0x3FAE000000000000, dec := .cont, climb := false } ∧
    ballastTest solveBlock (solveLoop 0 2 1 (some 0x3FAE000000000000) 0x3F6C200000000000) =
      { c := 2, ratio := 0x3FAE000000000000, dec := .stagnated, climb := true } ∧
    ballastTest solveBlock (solveLoop 1 3 0 (some 0x3F6C200000000000) 0x3EAC200000000000) =
      { c := 0, ratio := 0x3F30000000000000, dec := .converged, climb := false } := by
  decide +kernel

/-- spec/25's example: 7,200 W under a cap of 6,000 W, at a temperature below 95 °C and at one that is not. -/
theorem test_power_factor : factorOf 65536 7200 6000 [40] = 54613 ∧ 52428 * 54613 / 65536 = 43689 ∧
  factorOf 65536 7200 6000 [95] = 27306 := by decide +kernel

/-- State.reset: memory in form, CYCLE 0, no partition, every slot EMPTY, EXP 1 in every barrier slot, permits 8 and 4, PWRCAP 7,500 (R27,
R142, R279, R386, R405, R416). -/
theorem test_reset : Memory.wf State.reset.mem = true ∧ State.reset.cycle = 0 ∧ State.reset.parts = [] ∧
  (State.reset.thAt 7 3).state = .empty ∧
    (State.reset.thAt 7 3).tmcmp = BitVec.allOnes 64 ∧ ((State.reset.cluster 9).bars.get 31).exp = 1 ∧
      (State.reset.cluster 9).down.permits = 8 ∧
    (State.reset.cluster 9).up.permits = 4 ∧ State.reset.fw.pwrcap = 7500 ∧ State.reset.full (2 ^ 48) = true := by decide +kernel

/-- step after withFetchWord runs the word: add g3, g0, 5 (R52). -/
theorem test_step_runs : (match step (State.reset.withFetchWord 32 0x00302501) with | .next t => some (t.th.gr 3, t.th.pc) | _ => none) =
    some (5, 0x500000000004) := by decide +kernel

/-- SHA-384 of the examples of FIPS 180-4, of one block and of two, the first byte lowest (R406, R407). -/
theorem test_sha384 : sha384 [0x61, 0x62, 0x63] =
  0xa725c834a1ecba5823cce7a12b078680ed5bff435a608b1a63d1de0eab322c270750c69a693da0b58b5ea3453f7500cb ∧
    sha384 ((List.range 14).flatMap (fun i => (List.range 8).map (fun j => BitVec.ofNat 8 (0x61 + i + j)))) =
      0x39607491fae9c366b92d7e551ac7c7fc12f7b0e38680a02fd2053b3b171b1153471bcd82c72f193de84711f7330c3309 := by decide +kernel

end Sys2Proof.Tests

/-! ## States that meet the hypotheses of the statements: scalar instructions -/

namespace Sys2Proof.Tests

/-- A started thread with g1 = 7 and g2 = 9, and a memory capability in a1. -/
def r0 : State := regs 7 9 (memCap 0x500000000010)

theorem test_witness_IntegerTwoSourceResult : ∃ (s s1 s2 s3 : State) (a b : Word), Ready (.g 31) s ∧ readSrc (.g 1) s = .ok (a, s1) ∧
    readSrc (.lit64 5) s1 = .ok (b, s2) ∧ writeDst (.g 31) (BitVec.ofInt 64 (a.toInt + b.toInt)) s2 = .ok ((), s3) :=
  ⟨r0, r0, r0, _, _, _, ⟨rfl, rfl⟩, rfl, rfl, rfl⟩

theorem test_witness_IntegerOneSourceResult : ∃ (s s1 s2 : State) (a : Word), Ready (.g 0) s ∧ readSrc (.const 15) s = .ok (a, s1) ∧
    writeDst (.g 0) a s1 = .ok ((), s2) := ⟨r0, r0, _, _, ⟨rfl, rfl⟩, rfl, rfl⟩

/-- No relaxed access and no recorded fault. -/
theorem r0_clear (r : BitVec 5) : r0.th.clearG r :=
  ⟨fun x h => absurd (show x ∈ ([] : List RelAcc) from h) List.not_mem_nil,
    fun x h => absurd (show x ∈ ([] : List Dfr) from h) List.not_mem_nil⟩
theorem r0_readyA (r : BitVec 4) : r0.th.readyA r :=
  ⟨fun x h => absurd (show x ∈ ([] : List RelAcc) from h) List.not_mem_nil,
    fun x h => absurd (show x ∈ ([] : List Dfr) from h) List.not_mem_nil⟩
theorem r0_clearA (r : BitVec 4) : r0.th.clearA r :=
  ⟨r0_readyA r, fun x h => absurd (show x ∈ ([] : List RelAcc) from h) List.not_mem_nil⟩

theorem test_witness_DestinationReadResult : ∃ (s s1 s2 : State) (a b : Word), s.th.clearG 31 ∧ readSrc (.g 1) s = .ok (a, s1) ∧
    readSrc (.g 2) s1 = .ok (b, s2) ∧ s2.th.clearG 31 := ⟨r0, r0, r0, _, _, r0_clear _, rfl, rfl, r0_clear _⟩

theorem test_witness_PlainOperandValue : Plain r0 (.g 31) ∧ Plain r0 (.const 15) ∧
  Plain r0 (.lit32 0x80000000) := ⟨r0_clear _, trivial, trivial⟩

/-- r0 with stream queue q3. -/
def strm (q : Stream) : State := withTh (fun t => { t with strm := t.strm.set 3 q })
def q0 : Stream := { Stream.none with bound := true }

theorem test_witness_StreamOperand :
    ((strm Stream.none).th.strm.get 3).bound = false ∧
    (((strm { q0 with elems := [5] }).th.strm.get 3).bound = true ∧ ((strm { q0 with elems := [5] }).th.strm.get 3).elems = 5 :: []) ∧
    (((strm { q0 with broken := true }).th.strm.get 3).elems = [] ∧ ((strm { q0 with broken := true }).th.strm.get 3).broken = true) ∧
    (((strm { q0 with closed := true }).th.strm.get 3).broken = false ∧ ((strm { q0 with closed := true }).th.strm.get 3).closed = true) ∧
    ((strm q0).th.strm.get 3).closed = false := by decide +kernel

/-- r0 with endpoint i of the core. -/
def epAt (i : Fin 4) (e : Ep) : State := withCc (fun c => c.setEp i (fun _ => e))
def e0 : Ep := { Ep.none with bound := true, senders := 1 }

theorem test_witness_ChannelOperand :
    ((withTh (fun t => { t with rbuf := t.rbuf.set 1 [4] })).th.rbuf.get 1 = 4 :: []) ∧
    ((epAt 1 Ep.none).th.rbuf.get 1 = [] ∧ ((epAt 1 Ep.none).cc.ep.get 1).bound = false) ∧
    (let e := { e0 with slots := [5] }; ((epAt 1 e).cc.ep.get 1).slots = 5 :: [] ∧ ((epAt 1 e).cc.ep.get 1).tether = false ∧
      (epAt 1 e).aheadIn (popsFrom 1) ≤ 0) ∧
    (let e := { e0 with broken := true }; ((epAt 1 e).cc.ep.get 1).slots = [] ∧ ((epAt 1 e).cc.ep.get 1).broken = true) ∧
    (let e := { e0 with closed := true }; ((epAt 1 e).cc.ep.get 1).broken = false ∧ ((epAt 1 e).cc.ep.get 1).closed = true) ∧
    ((epAt 1 e0).cc.ep.get 1).closed = false := by decide +kernel

theorem test_witness_DestinationOperand : r0.th.clearG 0 ∧ ((epAt 3 Ep.none).cc.ep.get 3).bound = false ∧
  ((epAt 3 { e0 with broken := true }).cc.ep.get 3).broken = true ∧
    ((epAt 3 { e0 with closed := true }).cc.ep.get 3).closed = true ∧ ((epAt 3 e0).cc.ep.get 3).bound = true ∧
      ((epAt 3 e0).cc.ep.get 3).tether = false :=
  ⟨r0_clear _, by decide +kernel⟩

/-- A full send buffer for q6, whose channel to core 1 has the given room. -/
def sending (room : Nat) : State :=
  let s := epAt 2 { e0 with peer := 1, allow := room }
  s.setTh { s.th with sbuf := s.th.sbuf.set 0 [1, 2, 3, 4] }

theorem test_witness_Retirement : (let s := sending 1; s.th.sbuf.get 0 = [1, 2, 3, 4] ∧ (s.th.sbuf.get 1).length < 4 ∧ s.maySend (s.cc.ep.get 2) = true) ∧
    (let s := sending 0; s.th.sbuf.get 0 = [1, 2, 3, 4] ∧ (s.th.sbuf.get 1).length < 4 ∧ s.maySend (s.cc.ep.get 2) = false) ∧
    (let s := (sending 1).setCc ((sending 1).cc.setEp 2 (fun e => { e with broken := true })); s.th.sbuf.get 0 = [1, 2, 3, 4] ∧ (s.cc.ep.get 2).broken = true ∧ s.th.cprv = false) ∧
    (let s := epAt 3 { e0 with peer := 1, allow := 1 }; let u := s.setTh { s.th with sbuf := s.th.sbuf.set 1 [1, 2, 3, 4] }; u.th.sbuf.get 1 = [1, 2, 3, 4] ∧ u.maySend (u.cc.ep.get 3) = true) := by decide +kernel

theorem test_witness_FloatTwoSourceResult : ∃ (s s1 s2 s3 : State) (a b : Word), Ready (.g 3) s ∧ readSrc (.g 1) s = .ok (a, s1) ∧
  readSrc (.g 2) s1 = .ok (b, s2) ∧
    writeDst (.g 3) (BitVec.ofNat 64 (fp64.add (mode s2) a.toNat b.toNat).bits) s2 = .ok ((), s3) :=
  ⟨r0, r0, r0, _, _, _, ⟨rfl, rfl⟩, rfl, rfl, rfl⟩

theorem test_witness_FloatOtherResult : ∃ (s s1 s2 s3 : State) (a b : Word), Ready (.g 3) s ∧ s.th.clearG 3 ∧
  readSrc (.g 1) s = .ok (a, s1) ∧ readSrc (.g 2) s1 = .ok (b, s2) ∧
    writeDst (.g 3) 1 s2 = .ok ((), s3) := ⟨r0, r0, r0, _, _, _, ⟨rfl, rfl⟩, r0_clear _, rfl, rfl, rfl⟩

/-- For each special case of R97 and R98, FP64 patterns: infinity, zero, a negative number, a quiet and a signalling NaN. -/
theorem test_witness_FloatSpecialCases : isInf fp64 0x7FF0000000000000 ∧ neg fp64 0x7FF0000000000000 ≠ neg fp64 0xFFF0000000000000 ∧
  isInf fp64 0xFFF0000000000000 ∧ isZero fp64 0x8000000000000000 ∧
    !isNaN fp64 0x8000000000000001 ∧ !isZero fp64 0x8000000000000001 ∧ neg fp64 0x8000000000000001 ∧ !isInf fp64 1 ∧
      isNaN fp64 0x7FF8000000000000 ∧ isSNaN fp64 0x7FF0000000000001 ∧
    (0xFFFFFFFFFFFFFFFF : Nat) < 2 ^ (FTy.d).fmt.w := by decide +kernel

theorem test_witness_RoundingExact : e4m3.decode 0x7E = .fin false 14 5 ∧ fp64.decode 1 = .fin false 1 (-1074) := by decide +kernel

/-- 2^53 + 1 over FP64's precision: a tie, which RNE brings to 2^53 and RUP to 2^53 + 2; and the clauses of a rounding (R96, R104). -/
theorem test_witness_CorrectRounding : (fp64.round 0 false { m := 2 ^ 53 + 1, e := 0, st := false } 0).bits = 0x4340000000000000 ∧
    (fp64.round 2 false { m := 2 ^ 53 + 1, e := 0, st := false } 0).bits = 0x4340000000000001 ∧ number (2 ^ 53 + 1) 0 (2 ^ 53) 0 = .lt ∧
      number (2 ^ 53 + 1) 0 (2 ^ 53 + 2) 0 = .gt ∧
    largest fp64 = 0x7FEFFFFFFFFFFFFF ∧ largest e4m3 = 0x7E ∧ finite fp64 0x3FF0000000000000 ∧ finite fp64 0x8000000000000000 ∧
      isZero fp64 0x8000000000000000 = true ∧
    units fp64 0xBFF8000000000000 (-52) = -3 * 2 ^ 51 := by
  refine ⟨?_, ?_, ?_, ?_, ?_, ?_, ⟨?_, ?_⟩, ⟨?_, ?_⟩, ?_, ?_⟩ <;> decide +kernel

/-- NaN, infinity, and values at and beyond the bounds of i8 (R104). -/
theorem test_witness_ConvertResult : (LaneTy.i8).fmt = none ∧ (LaneTy.f32).value 0x7FC00000 = .nan false ∧
  (LaneTy.f32).value 0xFF800000 = .inf true ∧
    (LaneTy.i64).value 127 = .fin false 127 0 ∧ (LaneTy.i64).value 128 = .fin false 128 0 ∧ (LaneTy.i8).hi = 127 ∧ (LaneTy.i8).lo = -128 ∧
      (LaneTy.u8).lo = 0 ∧
    (LaneTy.f32).value 0xBF800000 = .fin true 8388608 (-23) ∧ (LaneTy.f32).value 0x3FC00000 = .fin false 12582912 (-23) ∧
      (LaneTy.u8).fmt = none ∧ (LaneTy.bf16).fmt = some bf16 := by
  decide +kernel

theorem test_witness_CapabilityResult : ∃ (s s1 : State) (b : Word), s.th.readyA 1 ∧ readSrc (.g 2) s = .ok (b, s1) ∧ s1.th.clearA 15 ∧
  s.th.clearA 15 :=
  ⟨r0, r0, 9, r0_readyA _, rfl, r0_clearA _, r0_clearA _⟩

/-- cbnd at each clause: exponent 0 and a greater one, the mantissa 0 of 2^48, a range past the address space, an untagged source (R108). -/
theorem test_witness_SetBoundsResult : r0.th.readyA 1 ∧ readSrc (.g 2) r0 = .ok (9, r0) ∧ r0.th.clearA 15 ∧
    (let n := setBounds (memCap 0x500000000010) 9; n.e = 23 ∧ n.base = 0x500000000000 ∧ n.top = 0x500000800000) ∧
      (setBounds (memCap 0x10) 9).e = 0 ∧
    (let n := setBounds (memCap 0xFFFFFF000001) 0xFFFFFF; n.e = 24 ∧ n.t = 0 ∧ n.top = 2 ^ 48) ∧
      2 ^ 48 < (memCap 1).bits.toNat % 2 ^ 48 + (0x1000000000000 : Word).toNat ∧
    (memCap 0).tag = true ∧ ({ memCap 0 with tag := false } : Cap).tag = false := ⟨r0_readyA _, rfl, r0_clearA _, by decide +kernel⟩

theorem test_witness_CapabilityProperty : ∃ (s s2 : State), Ready (.g 0) s ∧ s.th.readyA 1 ∧
  writeDst (.g 0) (BitVec.ofNat 64 (s.th.ar 1).top) s = .ok ((), s2) :=
  ⟨r0, _, ⟨rfl, rfl⟩, r0_readyA _, rfl⟩

theorem test_witness_BranchResult : ∃ (s s1 : State) (v : Word), readSrc (.g 1) s = .ok (v, s1) ∧ s1.th.pc = s.th.pc ∧
  s1.th.pfx = s.th.pfx :=
  ⟨r0, r0, 7, rfl, rfl, rfl⟩

/-- A target that is aligned, one that is not, and g31 both ways (R117). -/
theorem test_witness_TransferResult : (∃ (s s1 : State), readSrc (.const 8) s = .ok (8, s1) ∧ s.th.clearG 31 ∧ s1.th.clearG 31 ∧
  s1.th.pc = s.th.pc ∧ s1.th.pfx = s.th.pfx) ∧
    (∃ (s s1 : State), readSrc (.const 2) s = .ok (2, s1) ∧ s1.th.clearG 31) ∧ (r0.th.gr 31).toNat % 4 = 0 ∧
    ((r0.setTh (r0.th.setG 31 3)).th.gr 31).toNat % 4 ≠ 0 :=
  ⟨⟨r0, r0, rfl, r0_clear _, r0_clear _, rfl, rfl⟩, ⟨r0, r0, rfl, r0_clear _⟩, by decide +kernel⟩

theorem test_witness_Frames : r0.th.clearG 3 ∧ Plain r0 (.g 1) ∧ Plain r0 (.lit32 0) := ⟨r0_clear _, r0_clear _, trivial⟩

end Sys2Proof.Tests

/-! ## States that meet the hypotheses of the statements: memory -/

namespace Sys2Proof.Tests

theorem r0_located : Located r0 r0 1 (memCap 0x500000000010) 0x500000000018 8 permR .read (.sram 0 0x18) := ⟨rfl, rfl, rfl⟩
theorem r0_locatedW : Located r0 r0 1 (memCap 0x500000000010) 0x500000000010 16 permW .write (.sram 0 0x10) := ⟨rfl, rfl, rfl⟩
theorem r0_ordered : Ordered r0 := ⟨rfl, by decide +kernel, rfl⟩

/-- One capability for each outcome of the checks, in their order, and a top of 2^48 (R16, R17). -/
theorem test_witness_CapCheckOrder : (memCap 0).tag = true ∧ (memCap 0).bits.toNat / 2 ^ 116 = 0 ∧
  (memCap 0).bits.toNat / 2 ^ 107 % 2 ^ 6 = (0 : BitVec 6).toNat ∧
    (memCap 0).bits.toNat / 2 ^ 113 % 2 ^ 3 = kindMem.toNat ∧ (∀ i, i < 6 → (permR ||| permA).getLsbD i = true →
      (memCap 0).bits.getLsbD (101 + i) = true) ∧
    (memCap 0).base ≤ 0x500000FFFFF8 ∧ 0x500000FFFFF8 + 8 ≤ (memCap 0).top ∧ 0x500000FFFFF8 % 8 = 0 ∧
      ¬ 0x500000FFFFFC + 8 ≤ (memCap 0).top ∧
    (bufCap.bits.toNat / 2 ^ 107 % 2 ^ 6 ≠ (0 : BitVec 6).toNat) ∧ bufCap.bits.getLsbD (101 + 5) = false ∧
    ({ memCap 0 with bits := 24 <<< 96 } : Cap).top = 2 ^ 48 := by decide +kernel

/-- A release of cluster scope to a home beyond the cluster misses, one of module scope passes, and a plain access passes (R257, R261). -/
theorem test_witness_Misses : Misses { order := .release, scope := .cluster } r0 0x500010000000 ∧
  Passes { order := .release, scope := .module } r0 0x500010000000 ∧
    Passes (ordering r0) r0 0x500000000010 ∧ (ordering r0).order ≠ .relaxed :=
  ⟨⟨by decide, by decide +kernel, by decide +kernel, by decide +kernel⟩, ⟨fun h => absurd h.2.2.1 (by decide +kernel), rfl⟩,
    ⟨fun h => absurd h.2.1 (by decide +kernel), rfl⟩, by decide +kernel⟩

theorem test_witness_WriteTakesEffect : Memory.wf stored.mem = true ∧ Memory.read stored.mem (2 ^ 48 + 0x108) = 0x11 := by decide +kernel

theorem test_witness_LoadResult : ∃ (s s1 : State) (k : Cap) (t : Tgt), Ordered s ∧ Ready (.g 0) s ∧ addrOf k 8 = 0x500000000018 ∧
    Located s s1 1 k 0x500000000018 8 permR .read t ∧ ∃ s2, writeDst (.g 0) 0 s1 = .ok ((), s2) :=
  ⟨r0, r0, _, _, r0_ordered, ⟨rfl, rfl⟩, by decide +kernel, r0_located, _, rfl⟩

theorem test_witness_StoreResult : ∃ (s s1 s2 : State) (x : Word) (k : Cap) (t : Tgt), Ordered s ∧ readSrc (.g 1) s = .ok (x, s1) ∧
  addrOf k 0 = 0x500000000010 ∧
    Located s1 s2 1 k 0x500000000010 8 permW .write t := ⟨r0, r0, r0, _, _, .sram 0 0x10, r0_ordered, rfl, by decide +kernel, rfl, rfl, rfl⟩

/-- ldc; stc of a tagged capability with WC, and without it (R122). -/
theorem test_witness_CapabilityMemory : ∃ (s s1 : State) (k v : Cap) (t : Tgt), Ordered s ∧ readA 1 s = .ok (v, s) ∧
  Located s s1 1 k 0x500000000010 16 permW .write t ∧
    v.tag = true ∧ k.perms.getLsbD 3 = true ∧ ({ k with bits := k.bits ^^^ BitVec.ofNat 128 (8 <<< 101) } : Cap).perms.getLsbD 3 = false ∧
    (∃ s2, writeA 0 v s1 = .ok ((), s2)) := ⟨r0, r0, _, _, _, r0_ordered, rfl, r0_locatedW, by decide +kernel, by decide +kernel,
      by decide +kernel, _, rfl⟩

/-- r0 under ORD.RELAXED, with n accesses outstanding. -/
def acc (i : Nat) (op : RelOp) (st : RelStage) : RelAcc :=
  { op := op, reg := 3, fn := if op = .ldc then 0 else 3, addr := 0x500000000020 + BitVec.ofNat 48 (16 * i), val := 5, exp := 0, rm := 0, cap := memCap 0, pc := 0x500000000000,
    order := i, stage := st, res := 0, rcap := Cap.null }
def relaxed (n : Nat) : State := r0.setTh { r0.th with pfx := some { order := .relaxed, scope := .thread }, rel := (List.range n).map (fun i => acc i .ld .issued) }

theorem relaxed_clear : (relaxed 3).th.clearG 4 :=
  ⟨by have : (relaxed 3).th.rel.all (fun x => !x.setsG 4) = true := by decide +kernel
      intro x h; simpa using (List.all_eq_true.1 this) x h,
   fun x h => absurd (show x ∈ ([] : List Dfr) from h) List.not_mem_nil⟩

/-- Three accesses outstanding, and four (R123). -/
theorem test_witness_RelaxedIssue : (relaxed 3).th.rel.length < 4 ∧ (relaxed 3).th.pfx = some { order := .relaxed, scope := .thread } ∧
  (relaxed 3).th.clearG 4 ∧
    readA 1 (relaxed 3) = .ok (memCap 0x500000000010, relaxed 3) ∧
      capCheck (memCap 0x500000000010) 0x500000000018 8 permR kindMem 8 (relaxed 3) = .ok ((), relaxed 3) ∧
    capCheck (memCap 0x500000000010) 0x500000000018 8 permW kindMem 8 (relaxed 3) = .ok ((), relaxed 3) ∧
      readSrc (.g 1) (relaxed 3) = .ok (7, relaxed 3) ∧ (relaxed 4).th.rel.length = 4 :=
  ⟨by decide +kernel, rfl, relaxed_clear, rfl, rfl, rfl, rfl, by decide +kernel⟩

/-- One access outstanding, of each kind and stage. -/
def single (op : RelOp) (st : RelStage) : State := r0.setTh { r0.th with rel := [acc 0 op st] }

theorem test_witness_RelaxedEffect : ([RelOp.ld, .st, .ldc, .stc, .amo, .cas].all (fun op => decide ((single op .issued).th.rel[(single op .issued).cur.idx]? = some (acc 0 op .issued))
      && (single op .issued).relReady (single op .issued).cur.core (single op .issued).cur.slot (acc 0 op .issued) && decide ((single op .issued).windowFault (single op .issued).agent 0x500000000020 (acc 0 op .issued).size = none)
      && (match (single op .issued).resolve (single op .issued).agent 0x500000000020 (acc 0 op .issued).kind with | .ok (t, _) => decide (t = .sram 0 0x20) | .error _ => false))) = true ∧
    ([RelOp.ld, .st, .ldc, .stc, .amo, .cas].all (fun op => decide ((single op .applied).th.rel[(single op .applied).cur.idx]? = some (acc 0 op .applied)))) = true := by decide +kernel

/-! ## Full/empty words, atomics, watches, fences and scope misses -/

theorem r0_feWord (need : BitVec 6) (h : need = (permR ||| permA) ∨ need = (permW ||| permA)) : FeWord r0 1 8 need 0 (2 ^ 48 + 0x18) := by
  rcases h with rfl | rfl
  · exact ⟨memCap 0x500000000010, 0x18, rfl, rfl, by decide +kernel, rfl⟩
  · exact ⟨memCap 0x500000000010, 0x18, rfl, rfl, by decide +kernel, rfl⟩

/-- A full word, an empty one, a table with room and a full table (R126, R127). -/
theorem test_witness_FullEmptyLoad : Ready (.g 3) r0 ∧ FeWord r0 1 8 (permR ||| permA) 0 (2 ^ 48 + 0x18) ∧ r0.full (2 ^ 48 + 0x18) = true ∧
    (r0.setFull (2 ^ 48 + 0x18) false).full (2 ^ 48 + 0x18) = false ∧ (r0.core 0).feWait.length < 32 ∧
    32 ≤ ((r0.setCore 0 { r0.core 0 with feWait := List.replicate 32 (request r0 8 0 0) }).core 0).feWait.length ∧
      (∃ s2, writeDst (.g 3) 5 r0 = .ok ((), s2)) :=
  ⟨⟨rfl, rfl⟩, r0_feWord _ (Or.inl rfl), by decide +kernel, by decide +kernel, by decide +kernel, by decide +kernel, _, rfl⟩

theorem test_witness_FullEmptyStore : ∃ (s s1 : State) (x : Word), Ordered s ∧ readSrc (.g 1) s = .ok (x, s1) ∧
  FeWord s1 1 8 (permW ||| permA) 0 (2 ^ 48 + 0x18) ∧
    s1.full (2 ^ 48 + 0x18) = true := ⟨r0, r0, _, r0_ordered, rfl, r0_feWord _ (Or.inr rfl), by decide +kernel⟩

/-- A word with a request, which proceeds or not, one without, and a request that a full table had refused (R127). -/
def waiting (op : BitVec 2) : State := r0.setCore 0 { r0.core 0 with feWait := [request r0 (2 ^ 48) op 0] }
theorem test_witness_FullEmptyService : (r0.core 0).feWait.find? (·.key == 2 ^ 48) = none ∧
    ((waiting 0).core 0).feWait.find? (·.key == 2 ^ 48) = some (request r0 (2 ^ 48) 0 0) ∧
      (waiting 0).full (2 ^ 48) ≠ ((0 : BitVec 2) == 2) ∧
    ((waiting 2).core 0).feWait.find? (·.key == 2 ^ 48) = some (request r0 (2 ^ 48) 2 0) ∧
      (waiting 2).full (2 ^ 48) = ((2 : BitVec 2) == 2) ∧
    (let s := r0.parkTh .parkFe (.feRef 0 (request r0 (2 ^ 48) 2 0) none 4); s.th.wait = .feRef 0 (request r0 (2 ^ 48) 2 0) none 4 ∧
      s.full (2 ^ 48) = true ∧ (s.core 0).feWait.length < 32) := by
  decide +kernel

theorem test_witness_AtomicResult : ∃ (s s1 s2 : State) (k : Cap) (b : Word) (t : Tgt), Ordered s ∧ Ready (.g 3) s ∧ s.th.clearG 3 ∧
  readSrc (.g 1) s = .ok (b, s1) ∧
    AtomicAt s1 s2 1 k 8 t ∧ AtomicAt s1 s2 1 k 4 t := ⟨r0, r0, r0, memCap 0x500000000010, _, .sram 0 0x10, r0_ordered, ⟨rfl, rfl⟩,
      r0_clear _, rfl, ⟨rfl, rfl, rfl⟩, ⟨rfl, rfl, rfl⟩⟩

/-- mon with room and without; mwait without a watch, with one that is hit and one that is not; its two ends; an old entry of a full
store. -/
def watching (hit : Bool) (w : Wait) : State := (r0.setTh { r0.th with watch := some { line := 2 ^ 42, hit := hit } }).parkTh .parkMon w
def monFull : State := { r0 with watches := List.replicate 64 { home := 0, line := 5, core := 9, slot := 0, since := 0 } }
theorem test_witness_MonitorAndWait : readA 1 r0 = .ok (memCap 0x500000000010, r0) ∧
  capCheck (memCap 0x500000000010) ((memCap 0x500000000010).bits.toNat % 2 ^ 48) 1 permR kindMem 1 r0 = .ok ((), r0) ∧
    inHostWindow (memCap 0x500000000010).cur = false ∧ home ((memCap 0x500000000010).bits.toNat % 2 ^ 48) .read r0 =
      .ok (.sram 0 0x10, r0) ∧
    (((r0.dropWatch 0 0).watches.filter (·.home == watchHome (.sram 0 0x10))).length < watchRoom (watchHome (.sram 0 0x10))) ∧
    watchRoom (watchHome (.sram 0 0x10)) ≤ ((monFull.dropWatch 0 0).watches.filter (·.home == watchHome (.sram 0 0x10))).length ∧
    Ready (.g 3) r0 ∧ readSrc (.const 0) r0 = .ok (0, r0) ∧ r0.th.watch = none ∧
      (watching true .none).th.watch = some { line := 2 ^ 42, hit := true } ∧
    (watching true (.mwait (.g 3) 4 none)).th.wait = .mwait (.g 3) 4 none ∧
      (watching false (.mwait (.g 3) 4 (some 0))).th.wait = .mwait (.g 3) 4 (some 0) ∧
    monFull.watches.find? (·.home == 0) = some { home := 0, line := 5, core := 9, slot := 0, since := 0 } ∧
      watchRoom 0 ≤ (monFull.watches.filter (·.home == 0)).length :=
  ⟨rfl, rfl, by decide +kernel, rfl, by decide +kernel, by decide +kernel, ⟨rfl, rfl⟩, rfl, rfl, rfl, rfl, rfl, by decide +kernel,
    by decide +kernel⟩

theorem test_witness_FenceResult : (r0.th.rel = [] ∧ r0.th.dfr = []) ∧ (single .ld .issued).th.rel ≠ [] ∧
    (let s := r0.setTh { r0.th with dfr := [{ dest := none, addr := 0x10, pc := 0x20, order := 0 }] };
      s.th.rel = [] ∧ s.th.dfr = { dest := none, addr := 0x10, pc := 0x20, order := 0 } :: [] ∧ s.th.cprv = false) :=
  ⟨⟨rfl, rfl⟩, by decide +kernel, by decide +kernel⟩

/-- A miss whose message has not come, one that is due with and without a routine, and one to write again (R261, R262). -/
def missed (counted : Bool) (rw : Option Bool) (smiss : Addr) : State :=
  let s := r0.setTh { r0.th with miss := some { addr := 0x500000000040, size := 8, value := 5, rewrite := rw, counted := counted } }
  { s with regions := [{ reg0 with smiss := smiss }] }
theorem test_witness_ScopeMiss : (missed false none 0).th.miss =
  some { addr := 0x500000000040, size := 8, value := 5, rewrite := none, counted := false } ∧
    ((missed true none 0x10).th.missDue = true ∧ (missed true none 0x10).smissOf (missed true none 0x10).cur.core ≠ 0 ∧
      (missed true none 0x10).th.cprv = false) ∧
    ((missed true none 0).th.missDue = true ∧ (missed true none 0).smissOf (missed true none 0).cur.core = 0 ∧
      (missed true none 0).th.rel = [] ∧ (missed true none 0).th.dfr = []) ∧
    home 0x500000000040 .write (missed true (some false) 0) = .ok (.sram 0 0x40, missed true (some false) 0) :=
  ⟨rfl, by decide +kernel, by decide +kernel, rfl⟩

end Sys2Proof.Tests

/-! ## States that meet the hypotheses of the statements: queues, barriers, tasks, the Bridle -/

namespace Sys2Proof.Tests

theorem r0_takes (d : BitVec 5) : Takes (.g d) r0 := fun v => ⟨_, writeG_ok r0 d v (r0_clear d)⟩

/-- q5 unbound; with a slot; drained; broken; with neither (R134, R138). -/
theorem test_witness_QueueState : Ready (.g 3) r0 ∧ (r0.view 5).bound = false ∧ readSrc (.const 0) r0 = .ok (0, r0) ∧
    (let s := epAt 1 { e0 with slots := [5] }; (s.view 5).bound = true ∧ s.polls 5 = true) ∧
    (let s := epAt 1 { e0 with closed := true }; s.polls 5 = false ∧ (s.view 5).drained = true) ∧
    (let s := epAt 1 { e0 with broken := true }; s.polls 5 = false ∧ (s.view 5).drained = false ∧ (s.view 5).broken = true) :=
  ⟨⟨rfl, rfl⟩, by decide +kernel, rfl, by decide +kernel, by decide +kernel, by decide +kernel⟩

theorem test_witness_QueueWaitTimeout : let s := (epAt 1 e0).parkTh .parkQ (.qwait 5 (.g 3) 4 (some 0))
    s.th.wait = .qwait 5 (.g 3) 4 (some 0) ∧ 0 ≤ s.cycle ∧ s.qwaitEnd 5 = none ∧
    ((epAt 1 { e0 with slots := [5] }).parkTh .parkQ (.qwait 5 (.g 3) 4 (some 0))).qwaitEnd 5 = some 0 := by decide +kernel

theorem test_witness_QueueClose : ((strm q0).th.strm.get 3).bound = true ∧ (r0.th.strm.get 0).bound = false ∧
    ((epAt 2 { e0 with broken := true }).cc.ep.get 2).broken = true ∧ (sending 1).th.sbuf.get 0 ≠ [] ∧
      ((sending 1).cc.ep.get 2).broken = false ∧
    ((epAt 2 e0).cc.ep.get 2).bound = true ∧ (epAt 2 e0).th.sbuf.get 0 = [] ∧ ((epAt 2 e0).cc.ep.get 2).closed = false ∧
    ((epAt 2 { e0 with closed := true }).cc.ep.get 2).closed = true ∧ ((epAt 2 Ep.none).cc.ep.get 2).bound = false := by decide +kernel

/-- A message at the head of its link. -/
def msg (m : Msg) : State := { r0 with net := [m] }
theorem test_witness_MessageArrival : (msg (.slot 1 0 0 5)).arriving (msg (.slot 1 0 0 5)).cur.idx = some (.slot 1 0 0 5) ∧
    (msg (.close 1 0 1)).arriving (msg (.close 1 0 1)).cur.idx = some (.close 1 0 1) ∧
    (msg (.announce 1 0 1 9)).arriving (msg (.announce 1 0 1 9)).cur.idx = some (.announce 1 0 1 9) ∧
    (let s := { r0 with net := [Msg.slot 2 0 0 5, .slot 1 0 0 5], cur := { r0.cur with idx := 1 } }; s.arriving s.cur.idx =
      some (.slot 1 0 0 5) ∧ s.net[0]? = some (.slot 2 0 0 5)) := by
  decide +kernel

theorem test_witness_ChannelSlotFreed : let s := (sending 1).parkTh .parkQ (.send (BitVec.ofNat 1 0) 4 (raising 8) true)
    s.th.wait = .send (BitVec.ofNat 1 (0 : Fin 2).val) 4 (raising 8) true ∧ s.th.sbuf.get 0 = [1, 2, 3, 4] ∧ (s.th.sbuf.get 1).length < 4 ∧
      s.maySend (s.cc.ep.get 2) = true := by decide +kernel

/-- r0 with barrier slot 31 of its cluster. -/
def bar (b : Bar) : State := r0.setCcl { r0.ccl with bars := r0.ccl.bars.set 31 b }
def b0 : Bar := { Bar.fresh with exp := 65535 }

/-- A slot number out of range, a SYS slot, a broken one, and arrivals that pass EXP, that do not, and that are 0 (R140). -/
theorem test_witness_BarrierResult : Ready (.g 3) r0 ∧ readSrc (.lit32 32) r0 = .ok (32, r0) ∧ readSrc (.g 2) r0 = .ok (9, r0) ∧
  32 ≤ (32 : Word).toNat ∧ (31 : Word).toNat < 32 ∧
    ((bar { b0 with sys := true }).bar (clusterOf 0) 31).sys = true ∧ ((bar { b0 with brk := true }).bar (clusterOf 0) 31).brk = true ∧
      ((bar { b0 with brk := true }).bar (clusterOf 0) 31).sys = false ∧
    (let b := (bar { b0 with arr := 65534 }).bar (clusterOf 0) 31; b.brk = false ∧ b.sys = false ∧
      b.exp.toNat < b.arr.toNat + (2 : Word).toNat ∧ b.arr.toNat + (1 : Word).toNat ≤ b.exp.toNat) ∧
    2 ^ 48 ≤ (0x1000000000000 : Word).toNat ∧ (65535 : Word).toNat ≤ 65535 ∧ 65535 < (65536 : Word).toNat :=
  ⟨⟨rfl, rfl⟩, rfl, rfl, by decide, by decide, by decide +kernel, by decide +kernel, by decide +kernel, by decide +kernel, by decide,
    by decide, by decide⟩

theorem test_witness_BarrierWaitAndRelease : (let b := (bar b0).bar (clusterOf 0) 31; b.brk = false ∧ b.ph ≠ (1 : Word).getLsbD 0 ∧
  b.ph = (2 : Word).getLsbD 0 ∧ (b.arr ≠ b.exp ∨ b.pb ≠ 0)) ∧
    (let s := bar { b0 with arr := 65535 }; (s.bar 0 31).arr = (s.bar 0 31).exp ∧ (s.bar 0 31).pb = 0) ∧
    (let s := (bar { b0 with arr := 65535 }).parkTh .parkBar (.barw 31 (.g 3) 4); s.barWaiters 0 31 = [(0, 0, Dst.g 3, 4)] ∧
      ((s.barWaiters 0 31).map (fun w => (w.1, w.2.1))).Nodup ∧
      (s.thAt 0 0).rel = [] ∧ (s.thAt 0 0).dfr = []) := by decide +kernel

/-- A block g20 to g23: an aligned entry, the range 3 to 8, and its deque. -/
def block (pc lo hi : Word) : State := r0.setTh (((((r0.th.setG 20 pc).setG 21 lo).setG 22 hi).setG 23 4))
def entry (range : Bool) : BitVec 256 := BitVec.ofNat 256 (entryNat 0x400 range 3 8 5)
def deq (l : List (BitVec 256)) : State := let s := block 0x400 3 8; s.setCc { s.cc with deque := l }

theorem block_clear (pc lo hi : Word) : BlockClear (block pc lo hi) 20 :=
  have h (r : BitVec 5) : (block pc lo hi).th.clearG r :=
    ⟨fun x h => absurd (show x ∈ ([] : List RelAcc) from h) List.not_mem_nil,
      fun x h => absurd (show x ∈ ([] : List Dfr) from h) List.not_mem_nil⟩
  ⟨h _, h _, h _, h _⟩

theorem test_witness_TaskPush : Ready (.g 3) (block 0x400 3 8) ∧ BlockClear (block 0x400 3 8) 20 ∧
  pushOrder (block 0x400 3 8) = .ok ((), block 0x400 3 8) ∧
    ((block 0x400 3 8).th.gr 20).toNat % 4 = 0 ∧ (block 0x400 3 8).cc.deque.length < 16 ∧
      ((block 0x400 3 8).th.gr 21).toNat < ((block 0x400 3 8).th.gr 22).toNat ∧
    16 ≤ (deq (List.replicate 16 0)).cc.deque.length ∧ ((block 0x400 8 8).th.gr 22).toNat ≤ ((block 0x400 8 8).th.gr 21).toNat ∧
      (block 0x400 3 8).ccl.disp.length < 256 ∧
    (block 0x400 3 8).ccl.upcalls = [] ∧ ((block 0x402 3 8).th.gr 20).toNat % 4 ≠ 0 ∧
    256 ≤ (r0.setCcl { r0.ccl with disp := List.replicate 256 { rid := 0, stage := 0, words := 0 } }).ccl.disp.length :=
  ⟨⟨rfl, rfl⟩, block_clear _ _ _, rfl, by decide +kernel, by decide +kernel, by decide +kernel, by decide +kernel, by decide +kernel,
    by decide +kernel, rfl, by decide +kernel, by decide +kernel⟩

/-- An empty deque; a task at its bottom; a range of five elements, all taken or two of them; one core, or more (R161). -/
theorem test_witness_TaskTake : Ready (.g 3) (deq []) ∧ Plain (deq []) (.const 2) ∧ value (deq []) (.const 2) = 2 ∧ (deq []).cc.deque = [] ∧
  (entry false).getLsbD 63 = false ∧
    (deq [entry true]).cc.deque = entry true :: [] ∧ (entry true).getLsbD 63 = true ∧
      (entWord (entry true) 2 - entWord (entry true) 1).toNat = 5 ∧ (2 : Word) ≠ 0 ∧ (deq []).cc.scnt = 1 ∧
    ((deq []).setCc { (deq []).cc with scnt := 2 }).cc.scnt ≠ 1 ∧ (∃ s1,
      writeBlock 20 (entry true) ((deq [entry true]).setCc { (deq [entry true]).cc with deque := [] }) = .ok ((), s1)) :=
  ⟨⟨rfl, rfl⟩, trivial, rfl, rfl, by decide +kernel, rfl, by decide +kernel, by decide +kernel, by decide, rfl, by decide, _, rfl⟩

theorem test_witness_BlockWritten : BlockClear (block 0 0 0) 20 ∧ (28 : BitVec 5).toNat ≤ 28 := ⟨block_clear _ _ _, by decide⟩

/-- U and S; an entry in the deque, one in the dispenser, none, and a stage of two cores (R155, R156). -/
theorem test_witness_SearchResult : r0.th.cprv = false ∧ r0.th.rel = [] ∧ r0.th.dfr = [] ∧
  (withTh (fun t => { t with tstatus := 1 })).th.cprv = true ∧ (deq [entry false]).cc.deque = entry false :: [] ∧
    (let s := r0.setCcl { r0.ccl with disp := [{ rid := 0, stage := 0, words := entry false }] };
      s.cc.deque = [] ∧ s.ccl.disp.find? (fun x => x.rid == s.cc.rid && x.stage == s.cc.stage) =
        some { rid := 0, stage := 0, words := entry false }) ∧
    r0.ccl.disp.find? (fun x => x.rid == r0.cc.rid && x.stage == r0.cc.stage) = none ∧ r0.cc.scnt = 1 ∧
      (r0.setCc { r0.cc with scnt := 2 }).cc.scnt ≠ 1 := by decide +kernel

/-- A thief on core 0, its victim core 1. -/
def thief (l : List (BitVec 256)) (done : Bool) : State :=
  (r0.parkTh .waitMem (.steal 5 (some 1) none 0 4)).setCore 1 { Core.fresh with bound := true, deque := l, done := done }
theorem test_witness_StealAnswered : (thief [] false).th.wait = .steal 5 (some 1) none 0 4 ∧ (1 : Nat) ≠ (thief [] false).cur.core ∧
    ((thief [entry true, entry false] false).core 1).deque = [entry true] ++ [entry false] ∧ ((thief [] false).core 1).done = false ∧
      (entry false).getLsbD 63 = false ∧
    (entWord (entry true) 1).toNat + 1 < (entWord (entry true) 2).toNat ∧ ((thief [] true).core 1).done = true ∧
    (let s := deq [entry false]; (s.setTh { s.th with state := .idleW, wait := .idle 0 }).dequeTurn s.cur.core s.cur.slot = true) :=
      by decide +kernel

/-- A join block of 32 bytes whose counter is n. -/
def join (n : Nat) : State :=
  let s := regs 7 9 (memCap 0x500000000020)
  { s with mem := Memory.writeN s.mem (2 ^ 48 + 0x20) (bytesOf 32 (n + 0x400 * 2 ^ 64)) }
theorem test_witness_JoinDecrement : beforeAccess { order := .acqRel, scope := .module } (join 1) = .ok ((), join 1) ∧
  readA 1 (join 1) = .ok (memCap 0x500000000020, join 1) ∧
    capCheck (memCap 0x500000000020) ((memCap 0x500000000020).bits.toNat % 2 ^ 48) 32 (permR ||| permW ||| permA) kindMem 32 (join 1) =
      .ok ((), join 1) ∧
    inHostWindow (memCap 0x500000000020).cur = false ∧ home ((memCap 0x500000000020).bits.toNat % 2 ^ 48) .atomic (join 1) =
      .ok (.sram 0 0x20, join 1) ∧
    ([0, 1, 2].map (fun n => little ((join n).readAt (join n).cc.tenant (.sram 0 0x20) 32) % 2 ^ 64)) = [0, 1, 2] ∧
      (join 1).cc.deque.length < 16 :=
  ⟨rfl, rfl, rfl, by decide +kernel, rfl, by decide +kernel, by decide +kernel⟩

/-- yield in force; tend and done in U; done with its work complete, with room for its deque and without, and with the siblings empty. -/
theorem test_witness_YieldAndDone : (withTh (fun t => { t with yld := some (0, [1]) })).th.yld = some (0, [1]) ∧
  (r0.th.cprv = false ∧ r0.th.rel = [] ∧ r0.th.dfr = []) ∧
    (deq [entry false]).cc.deque = entry false :: [] ∧ r0.cc.deque = [] ∧
      r0.ccl.disp.find? (fun x => x.rid == r0.cc.rid && x.stage == r0.cc.stage) = none ∧ r0.cc.scnt = 1 ∧
    (let s := r0.parkTh .waitMem .done; s.th.wait = .done ∧ s.hasStreams s.cur.core = false ∧ s.cc.quiet s.cur.slot = true ∧
      s.roomForDeque s.cur.core = true) ∧
    (let s := (deq [entry false]).setCcl { r0.ccl with disp := List.replicate 256 { rid := 0, stage := 0, words := 0 } }; s.roomForDeque s.cur.core = false) ∧
    (let s := r0.parkTh .waitMem .doneEnd; s.th.wait = .doneEnd ∧ s.cc.alone s.cur.slot = true) := by decide +kernel

/-- A tenant with counters 0 to 511. -/
def part0 : Part :=
  { id := 0, level2 := false, func := 0, cascade := false, dtrk := false, x0 := 0, y0 := 0, wd := 1, ht := 1, share := 0, weight := 1, shareWas := 0, weightWas := 1, sharesAt := 0, slice := 0,
    bbase := 0, blimit := 512, s2root := 0, vec0 := 0, vecN := 1, xflog := 0, xvec := 0, xcount := 0, tstate := 1, faulted := false,
      deficit := 0,
    qptr := 0, serial := 0, inj := 0, ext := 0, keyGen := 0, stopping := false, drains := false, draining := false }
/-- A Bridle capability, every permission, over the numbers 0 to 511, with counter 255 as its cursor. -/
def ctrCap : Cap := { bits := BitVec.ofNat 128 (255 + 512 * 2 ^ 72 + 63 * 2 ^ 101 + 2 * 2 ^ 113), tag := true }
def bridled : State := { regs 7 0 ctrCap with parts := [part0] }

theorem test_witness_BridleSend : ∃ (s s1 : State) (v : Word) (c : Cap), Ready (.g 3) s ∧ bridleOrder s = .ok ((), s) ∧
  readSrc (.g 1) s = .ok (v, s1) ∧ readA 1 s1 = .ok (c, s1) ∧
    bridleCheck c permA s1 = .ok (255, s1) ∧ bridleCheck c permR s1 = .ok (255, s1) ∧ bridleCheck c (permW ||| permA) s1 = .ok (255, s1) ∧
      cfgOk 0 = true ∧
    cfgOk 0xFFFFFFFFFFFFFFFF = false := ⟨bridled, bridled, _, _, ⟨rfl, rfl⟩, rfl, rfl, rfl, rfl, rfl, rfl, by decide +kernel,
      by decide +kernel⟩

/-- A counter of width 2 and a flit that is at it. -/
def ctr2 : Counter := freshCounter .count 1 0 none
def flit (k : FlitKind) (at_ : FlitAt) (arg : Word) : Flit :=
  { id := 5, kind := k, tenant := 0, fe := false, ctr := 255, core := 0, slot := 0, wire := 0, arg := arg, at_ := at_ }
def atCounter (c : Counter) (f : Flit) : State :=
  { bridled with counters := [(255, c)], flits := [f], cur := { bridled.cur with idx := 5 } }

theorem test_witness_BridleInjection : ((atCounter { ctr2 with pending := true } (flit .token .injection 0)).ctr 255).pending = true ∧
    ((atCounter { ctr2 with broken := true } (flit .token .injection 0)).ctr 255).broken = true ∧
    (let c := (atCounter { ctr2 with mode := .barrier } (flit .token .injection 0)).ctr 255; c.pending = false ∧ c.cfg = none ∧
      c.broken = false ∧ (FlitKind.token = .barToken ↔ c.mode ≠ .barrier)) ∧
    (FlitKind.token = .barToken ↔ ((atCounter ctr2 (flit .token .injection 0)).ctr 255).mode = .barrier) := by decide +kernel

theorem test_witness_BalancerServed : theFlit (atCounter ctr2 (flit .token (.wire 0) 0)) (flit .token (.wire 0) 0) ∧
  cellOf ((atCounter ctr2 (flit .token (.wire 0) 0)).ctr 255).lw 0 = .balancer 0 :=
  ⟨⟨rfl, rfl⟩, by decide +kernel⟩

/-- A token with and without a hole, antitokens at 0, at a hole and elsewhere, a barrier token within and beyond its quota, cancels
(R145-R149). -/
theorem test_witness_ExitCellServed : (∀ k : FlitKind, theFlit (atCounter ctr2 (flit k (.exit 1) 7)) (flit k (.exit 1) 7)) ∧
    (let c := (atCounter ctr2 (flit .token (.exit 1) 0)).ctr 255; c.broken = false ∧ 1 < 2 ^ c.lw ∧ c.cnt.length = 2 ^ c.lw ∧
      c.holes.length = 2 ^ c.lw ∧ c.hole 1 = [] ∧ c.count 1 = 0) ∧
    (let c := (atCounter { ctr2 with cnt := [2, 2], holes := [[], [3]] } (flit .token (.exit 1) 0)).ctr 255; c.hole 1 = 3 :: [] ∧
      c.count 0 ≠ 0 ∧ (0 + 2 ^ c.lw * (c.count 0 - 1)) ∉ c.hole 0) ∧
    (let c := (atCounter { ctr2 with cnt := [2, 2], holes := [[], [3]] } (flit .anti (.exit 1) 0)).ctr 255; c.count 1 ≠ 0 ∧
      (1 + 2 ^ c.lw * (c.count 1 - 1)) ∈ c.hole 1) ∧
    (let c := { ctr2 with mode := .barrier, param := 3 }; c.count 1 < c.quota 1 ∧ { c with cnt := [2, 1] }.quota 1 ≤ 1) ∧
    (let c := { ctr2 with mode := .barrier, gen := 3 }; c.mode = .barrier ∧ c.gen.toNat ≠ (7 : Word).toNat % 2 ^ 16) ∧
    (let c := { ctr2 with cnt := [2, 5], holes := [[], [1, 3, 5, 9]] }; c.mode = .count ∧ 7 < 1 + 2 * c.count 1 ∧ 7 ∉ c.hole 1 ∧
      4 ≤ (c.hole 1).length ∧
      0 < 0 + 2 * c.count 0 ∧ 0 ∉ c.hole 0 ∧ (c.hole 0).length < 4) :=
        ⟨fun _ => ⟨rfl, rfl⟩, by decide +kernel, by decide +kernel, by decide +kernel, by decide +kernel, by decide +kernel,
          by decide +kernel⟩

end Sys2Proof.Tests

/-! ## States that meet the hypotheses of the statements: Bridle events, Tether mode, engines and the crossbar -/

namespace Sys2Proof.Tests

/-- A result that comes back; a counter that drains, and one with a release pending, each with a thread in bbw on it and a flit held for
it. -/
def waitingCtr (c : Counter) : State :=
  { (bridled.parkTh .waitMem (.bbw 255 0 (.g 3) 4)) with
    counters := [(255, c)], cur := { bridled.cur with idx := 255 }, flits := [flit .token .injection 0] }
theorem test_witness_BridleEvents : (let s := (atCounter ctr2 (flit .token (.result 3) 0)).parkTh .waitMem (.bridle 5 (.g 3) 4);
      theFlit s (flit .token (.result 3) 0) ∧ s.th.wait = .bridle (flit .token (.result 3) 0).id (.g 3) 4 ∧ (3 : Word).toNat / 2 ^ 60 ≠ 1) ∧
    Takes (.g 3) { (atCounter ctr2 (flit .token (.result 3) 0)) with flits := [] } ∧
    ([{ ctr2 with cfg := some 0x102 }, { ctr2 with pending := true, mode := .barrier }].all (fun c => let s := waitingCtr c
      s.bbwWaiters s.cur.idx == [(0, 0, 0, Dst.g 3, 4)] && !s.inNet s.cur.idx &&
        s.flits.all (fun f => !(f.ctr == s.cur.idx && f.at_ == .injection && f.kind == .configure)) && (s.thAt 0 0).rel.isEmpty &&
          (s.thAt 0 0).dfr.isEmpty)) = true ∧
    (waitingCtr { ctr2 with cfg := some 0x102 }).ctr 255 = { ctr2 with cfg := some 0x102 } ∧
      (waitingCtr { ctr2 with pending := true, gen := 3 }).ctr 255 = { ctr2 with pending := true, gen := 3 } :=
  ⟨⟨⟨rfl, rfl⟩, rfl, by decide⟩, fun v => ⟨_, writeG_ok _ 3 v ⟨fun x h => absurd (show x ∈ ([] : List RelAcc) from h) List.not_mem_nil,
    fun x h => absurd (show x ∈ ([] : List Dfr) from h) List.not_mem_nil⟩⟩, by decide +kernel, rfl, rfl⟩

/-- Core 0 in Tether mode with an inbound link q4 that has a head of time t and a bound b, and an outbound link q6. -/
def tethered (head : List (BitVec 256)) (bnd : Word) (hold : Option Held) : State :=
  let s := regs 7 9 (memCap 0)
  s.setCc { s.cc with tether := true, ep := ((s.cc.ep.set 0 { e0 with tether := true, slots := head, bnd := bnd }).set 2 { e0 with tether := true, lout := 4, peer := 1 }), held := s.cc.held.set 0 hold }

theorem test_witness_VirtualTime : (tethered [] 9 (some { time := 5, ep := 0 })).cc.heldTimes ≠ [] ∧
  (tethered [3] 9 none).cc.heldTimes = [] ∧ (tethered [3] 9 none).cc.safeHead = some 0 := by
  decide +kernel

/-- Outside Tether mode, with an event held, with a safe head, and with a head that is not safe (R164). -/
theorem test_witness_TetherReceive : r0.th.clearG 3 ∧ r0.cc.tether = false ∧
  ((tethered [] 9 (some { time := 5, ep := 0 })).cc.held.get 0).isSome = true ∧
    (let s := tethered [3] 9 none; s.cc.tether = true ∧ s.cc.held.get s.cur.slot = none ∧ s.th.rbuf.get 0 = [] ∧ s.th.rbuf.get 1 = [] ∧
      s.cc.safeHead = some 0 ∧ s.aheadIn isTrecv = 0 ∧
      (s.cc.ep.get (recvEp 0)).slots = 3 :: []) ∧
    (let s := tethered [9] 9 none; s.cc.safeHead = none ∧ 0 ∈ s.cc.inLinks ∧ (s.cc.ep.get (recvEp 0)).closed = false ∧
      (s.cc.ep.get (recvEp 0)).broken = false) :=
  ⟨r0_clear _, rfl, by decide +kernel, by decide +kernel, by decide +kernel⟩

/-- A time that keeps lookahead 4 from a held event at 5 and one that does not; bounds above and not above the floor; tlah 0 without a
certificate. -/
theorem test_witness_TetherSend : (let s := tethered [] 9 (some { time := 5, ep := 0 });
      Ready (.g 3) s ∧ readSrc (.const 9) s = .ok (9, s) ∧ readSrc (.const 8) s = .ok (8, s) ∧ s.cc.tether = true ∧
        (s.cc.ep.get 2).bound = true ∧ (s.cc.ep.get 2).tether = true ∧
      (s.cc.ep.get 2).broken = false ∧ (s.cc.ep.get 2).closed = false ∧ s.th.sbuf.get 0 = [] ∧
        refTime s + (s.cc.ep.get 2).lout.toNat ≤ (9 : Word).toNat ∧
      (8 : Word).toNat < refTime s + (s.cc.ep.get 2).lout.toNat ∧
        (s.cc.ep.get 2).floor.toNat < Nat.min (2 ^ 64 - 1) ((9 : Word).toNat + (s.cc.ep.get 2).lout.toNat) ∧
      (s.cc.ep.get 2).cert = false ∧ s.cc.held.get s.cur.slot = some { time := 5, ep := 0 }) ∧
    (let s := tethered [] 9 none; s.cc.held.get s.cur.slot = none ∧ s.cc.announces 0 = true ∧ s.cur.idx = (0 : Fin 2).val) :=
  ⟨⟨⟨rfl, rfl⟩, rfl, rfl, rfl, rfl, rfl, rfl, rfl, rfl, by decide +kernel, by decide +kernel, by decide +kernel, rfl, rfl⟩,
    by decide +kernel⟩

/-- Every capability register over the own slice, and a command word in v3. -/
def caps : State := withTh (fun t => { t with a := Vector.replicate 16 (memCap 0x500000000000) })
def cmdIn (w : BitVec 256) : State := caps.setTh { caps.th with v := caps.th.v.set 3 w }

/-- A word that is rejected, one that passes, and a slot that another context owns (R33, R81). -/
theorem test_witness_CommandEnqueue : (cmdIn 0).vecBusy (cmdIn 0).cur.core (cmdIn 0).cur.slot = false ∧
  ((cmdIn 0).cmdReject .matrix 0).isSome = true ∧
    (let w := encodeCmd (.mzero h0 3); (cmdIn w).cmdReject .matrix w = none ∧ rawCmd w = some (.mzero h0 3) ∧
      cmdCapChecks (cmdCaps (.mzero h0 3)) (cmdIn w) = .ok ((), cmdIn w) ∧
      (hdrOf w).cmode.getLsbD 0 = false ∧ SlotFree (cmdIn w) (.mzero h0 3) ∧ ((cmdIn w).cc.engQ .matrix).length < 2 ∧
        (cmdIn w).cc.engWaiters .matrix = []) ∧
    (cmdSlot (.mzero h0 3) = some 3 ∧ ¬ SlotFree (r0.setCc { r0.cc with accown := 0x8001000000000000 }) (.mzero h0 3)) :=
  ⟨by decide +kernel, by decide +kernel, ⟨by decide +kernel, by decide +kernel, rfl, by decide +kernel,
    fun n h => by cases h; exact Or.inr (Or.inl (by decide +kernel)),
    by decide +kernel, by decide +kernel⟩, by decide +kernel,
   fun h => absurd (h 3 rfl) (by decide +kernel)⟩

/-- A command that runs at the head of its engine's queue. -/
def run (e : Eng) (j : Instr) (f : Cmd → Cmd) : State :=
  let c := f { caps.newCmd (encodeCmd j) with running := true }
  caps.setCc (match e with | .matrix => { caps.cc with mq := [c] } | .copy => { caps.cc with cq := [c] })

theorem test_witness_EngineWait : Ready (.g 3) r0 ∧ readSrc (.const 7) r0 = .ok (7, r0) ∧
    (let s := (run .matrix (.mzero h0 3) id).setTh { caps.th with cmds := [(0, .matrix)] }; (0, Eng.matrix) ∈ s.th.cmds ∧
      s.cmdOpen 0 = true) ∧ r0.th.cmds = [] ∧ r0.vecBusy 0 0 = false :=
  ⟨⟨rfl, rfl⟩, rfl, by decide +kernel, rfl, by decide +kernel⟩

/-- A counter that counts input 15, at 1 and elsewhere; a term that has all it needs; an output that has been marked; a tick that is due. -/
def xbar (cfg : Word) (latch : BitVec 24) (fired : BitVec 8) : State :=
  r0.setCc { r0.cc with xbcfg := r0.cc.xbcfg.set 0 cfg, xblatch := r0.cc.xblatch.set 0 latch, xbfired := fired }
theorem test_witness_EventCrossbar : (let x := ((xbar 0xF00000000001 0 0).cc.xbcfg.get 0).toNat; x % 2 = 1 ∧
  x / 2 ^ 44 % 16 = (15 : Fin 16).val) ∧
    (let s := xbar 0xFFFFFF00 0xFFFFFF 0; s.cur.idx = (0 : Fin 8).val ∧ (s.cc.xbcfg.get 0).toNat / 2 ^ 8 % 2 ^ 24 ≠ 0 ∧
      (s.cc.xblatch.get 0).toNat &&& ((s.cc.xbcfg.get 0).toNat / 2 ^ 8 % 2 ^ 24) = (s.cc.xbcfg.get 0).toNat / 2 ^ 8 % 2 ^ 24) ∧
    (xbar 0 0 1).cc.xbfired.getLsbD 0 = true ∧ r0.cc.xbtick < { r0 with cycle := 1024 }.cycle / 1024 ∧ readSrc (.g 1) r0 = .ok (7, r0) :=
  ⟨by decide +kernel, by decide +kernel, by decide +kernel, by decide +kernel, rfl⟩

/-- Operands of an mmul. -/
def mmulF : MmulF := { a := { cap := 2, off := 0x400 }, str := 128, latch := 1, slot := 3 }

/-- The head before its start; at its end, without a completion word and with one; a tile; a stream; a window. -/
def strmJob : Instr := .cstrm h0 { cap := 0, off := 0x40 } { cap := 0, off := 0x100 } 1 2
def streaming : State :=
  let d : Desc := { counts := [4], sstr := [4], dstr := [4] }
  let c : Cmd := { caps.newCmd (encodeCmd strmJob) with desc := some d }
  let s := caps.setCc { caps.cc with strms := [{ cmd := c, q := 2, next := 3, total := 4, num := 0 }] }
  s.setTh { s.th with strm := s.th.strm.set 2 { q0 with width := 4 } }
theorem test_witness_EngineProgress : (let s := run .matrix (.mzero h0 3) (fun c => { c with running := false });
      (s.cc.engHead (engOf s.cur.idx)).map (fun c => ((hdrOf c.word).gate, c.running)) = some (0xF, false)) ∧
    (let s := run .matrix (.mzero { h0 with cmode := 1, coff := 0x80 } 3) (fun c => { c with finished := true });
      s.ended s.cur.core .matrix = true ∧ (s.cc.engHead .matrix).isSome = true ∧ s.cc.engWaiters .matrix = [] ∧ s.rowOf (((s.newCmd 0)).agent s 0 .matrix) 0x500000000080 = .slice 0 0x80 ∧
      (s.core 0).feWait = []) ∧
    (let s : State := { r0 with net := [.tile 1 0 0 1 0 0] }; s.net[s.cur.idx]? = some (.tile 1 0 0 1 0 0) ∧ s.tileReady (.tile 1 0 0 1 0 0) = true) ∧
    (let s := streaming; s.cc.strms.length = 1 ∧ (s.cc.strms[s.cur.idx]?.bind (s.fedBy 0)) = some (0, 0) ∧ (s.cc.strms[s.cur.idx]?.bind (fun j => decodeCmd j.cmd.word)) = some strmJob ∧
      ((s.thAt 0 0).strm.get 2).elems.length < 8) ∧
    (match streaming.cc.strms[0]? with | some j => (match engRead .copy j.cmd (j.cmd.cap 0) 0x50000000004C 4 4 streaming with | .ok _ => true | .error _ => false) | none => false) = true ∧
    (let s : State := { r0 with cycle := 1024 }; s.asking s.cur.idx = [] ∧ (s.cluster s.cur.idx).window < s.cycle / 1024) ∧
    (let s := { (run .matrix (.mmulF64 h0 mmulF) (fun c => { c with left := 5 })) with cycle := 1 }; let c := s.cluster s.cur.idx;
      s.asking s.cur.idx ≠ [] ∧ s.cycle = c.drgAt + 1 ∧ c.window = c.drgAt / 1024 ∧ s.cycle / 1024 = c.window ∧ c.used ≤ c.allow) := by decide +kernel

/-- The commands of the matrix engine, running. -/
def latchF : MlatchF := { b := { cap := 2, off := 0x400 }, str := 128, sc := { cap := 3, off := 0x100 }, nq := true, fmt := 0, latch := 1 }
theorem test_witness_MatrixCommands : ([Instr.mzero h0 3, .mmulF64 h0 mmulF, .mmulF32 h0 mmulF, .mmulI8 h0 mmulF, .mlatch h0 latchF,
  .mtrans h0 latchF, .mrot h0 0 1].all (fun j =>
      ((run .matrix j id).runningCmd .matrix j).isSome)) = true ∧
    ((List.range 16).all (fun i => match engCheckIn (inSlice 0) .matrix (caps.newCmd 0) (memCap 0x500000000000) (0x500000000400 + 128 * i) 128 32 .read false (run .matrix (.mmulF64 h0 mmulF) id) with
      | .ok (t, _) => t == [(.sram 0 (0x400 + 128 * i), 128)] | .error _ => false)) = true ∧
    (match forRows (fun i => engRead .matrix (caps.newCmd 0) (memCap 0x500000000000) (0x500000000400 + 128 * i) 16 16) (List.range 4) (run .matrix (.mlatch h0 latchF) id) with
      | .ok (l, _) => l.length == 4 | .error _ => false) = true ∧
    ({ (run .matrix (.mrot h0 0 1) id) with cores := [(0, { (run .matrix (.mrot h0 0 1) id).cc with ringed := true }), (1, { Core.fresh with bound := true, ringed := true, sidx := 1 })] }).ringNext 0 = some 1 := by
  decide +kernel

/-- The commands of the copy engine that move elements, with an element that has not been read and one that has. -/
def ao (c : BitVec 4) (x : BitVec 36) : AOp := { cap := c, off := x }
def fifo : Desc := { counts := [4], sstr := [8], dstr := [8] }
theorem test_witness_ElementCommands : ([(Eng.matrix, Instr.mstore h0 (ao 0 0x100) 256 1 1 0), (.matrix, .mspill h0 (ao 0 0x100) 0), (.matrix, .mfill h0 (ao 0 0x100) 0),
      (.copy, .ccopy h0 (ao 0 0) (ao 1 0x80) (ao 2 0x100) 1 1), (.copy, .cfill h0 (ao 1 0x80) (ao 2 0x100) 5 1), (.copy, .cbcast h0 (ao 0 0) 1 0x40 0x40 1)].all (fun x =>
      let s := run x.1 x.2 (fun c => { c with desc := some fifo })
      let s2 := run x.1 x.2 (fun c => { c with desc := some fifo, elems := [(0, some 5)] })
      (match s.runningCmd x.1 x.2 with | some c => c.cursor == 0 && !c.written 0 && c.elems.isEmpty | none => false)
      && (match s2.runningCmd x.1 x.2 with | some c => !c.written 0 && (c.elems.find? (fun y => y.1 == 0) == some (0, some 5)) | none => false)
      && (match engCheck x.1 (caps.newCmd 0) (memCap 0x500000000000) 0x500000000100 32 32 .write false s with | .ok _ => true | .error _ => false))) = true ∧
    (match readDesc (caps.newCmd 0) (ao 2 0x100) (run .copy (.cfill h0 (ao 1 0x80) (ao 2 0x100) 5 1) id) with | .error (.status x) => x == csMode | _ => false) = true ∧
    (match readDesc (caps.newCmd 0) (ao 2 0x100) { (run .copy (.cfill h0 (ao 1 0x80) (ao 2 0x100) 5 1) id) with mem := Memory.writeN [] (2 ^ 48 + 0x100) (bytesOf 224 (1 + 4 * 2 ^ 64)) } with
      | .ok _ => true | .error _ => false) = true := by decide +kernel

end Sys2Proof.Tests

/-! ## States that meet the hypotheses of the statements: the copy engine's lists, and the vector engine -/

namespace Sys2Proof.Tests

/-- Whether a computation succeeds with a value that meets a test. -/
def gives {ε α : Type} (x : Except ε (α × State)) (p : α → Bool) : Bool := match x with | .ok (a, _) => p a | .error _ => false

/-- An index list of two entries, the second 3, at the slice offset 0x100; FP32 elements, and INT32 for cscata. -/
def gathF (ety : BitVec 4) (aop : BitVec 3) : GathF :=
  { s := ao 0 0, d := ao 1 0x80, i := ao 2 0x100, count := 2, iw := false, aop := aop, ety := ety }
def listed (j : Instr) : State := { (run .copy j (fun c => { c with cursor := 1 })) with mem := Memory.writeN [] (2 ^ 48 + 0x100) (bytesOf 8 (3 * 2 ^ 32)) }
theorem test_witness_IndexedCommands : ([Instr.cgath h0 (gathF 1 0), .cscat h0 (gathF 1 0), .cscata h0 (gathF 1 6),
  .cscata h0 (gathF 0xB 5)].all (fun j =>
      ((listed j).runningCmd .copy j).isSome &&
        gives (engRead .copy (caps.newCmd 0) (memCap 0x500000000000) 0x500000000104 4 4 (listed j)) (· == 3)
      && gives (engCheck .copy (caps.newCmd 0) (memCap 0x500000000000) 0x50000000000C 4 4 .read true (listed j)) (· == [(.sram 0 0xC, 4)])
      && gives (engCheck .copy (caps.newCmd 0) (memCap 0x500000000000) 0x50000000008C 4 4 .atomic true (listed j)) (· ==
        [(.sram 0 0x8C, 4)]))) = true := by decide +kernel

/-- List A holds coordinate 7, list B coordinate 7 too; with nothing pending, 7 pending, 5 pending, and 9 before in A, which is out of
order. -/
def mergeI : Instr := .cmerge h0 (ao 0 0x100) (ao 1 0x200) (ao 2 0x300) 1 1 false true
def merging (l : List (Nat × Option Nat)) (n : Nat) : State :=
  { (run .copy mergeI (fun c => { c with elems := l })) with mem := Memory.writeN (Memory.writeN [] (2 ^ 48 + 0x100) (bytesOf 8 (7 + n * 2 ^ 32))) (2 ^ 48 + 0x200) (bytesOf 8 7) }
theorem test_witness_MergeCommand : ([[], [(4, some 7), (5, some 1)], [(4, some 5), (5, some 1)], [(2, some 9)]].all (fun l =>
      match (merging l 2).runningCmd .copy mergeI with
      | some c => gives (mergeHead c (ao 0 0x100) 1 false false (merging l 2)) (fun x => x.1 == some (7, 2) &&
        (x.2 == (l == [(2, some 9)])))
          && gives (mergeHead c (ao 1 0x200) 1 true false (merging l 2)) (fun x => x.1 == some (7, 0) && !x.2)
          && gives (mergeHead { c with elems := [(0, some 1)] } (ao 0 0x100) 1 false false (merging l 2)) (fun x => x.1 == none && !x.2)
          && gives (engCheck .copy c (memCap 0x500000000000) 0x500000000300 8 8 .write false (merging l 2)) (· == [(.sram 0 0x300, 8)])
      | none => false)) = true := by decide +kernel

/-- A stage with a channel of two FP32 elements; a stream of an owner whose queue is free or bound; cquant before and after its maximum is known. -/
def stage0 : Stage :=
  { entry := 0x1000, threads := 1, ringed := false, cores := 1, sram := 0, imgAddr := 0, imgLen := 0, tether := 0, pcc := Cap.null,
    eps := Vector.replicate 4 (0, 0), red := [{ op := 1, ty := .f32, count := 2, xg := false }], raddr := 0, args := Vector.replicate 8 0,
    caps := Vector.replicate 16 Cap.null, slcm := 0, near := 0, onedie := false, serial := 0, pcores := [0], released := true, nodes := [], fsum := 0, fpf := 0,
    doneN := 0, contribs := [], groupSent := [], groupRes := [], groupBrk := false, complete := false, word := 0, results := [] }
def staged (s : State) : State := { s with regions := [{ reg0 with stages := [stage0] }] }
def cstrmI : Instr := .cstrm h0 (ao 0 0) (ao 2 0x100) 1 2
def owned (s : State) (b : Bool) : State :=
  let t := s.th
  { (s.setTh { t with cmds := [(0, .copy)], strm := t.strm.set 2 { q0 with bound := b } }) with mem := Memory.writeN [] (2 ^ 48 + 0x100) (bytesOf 224 (1 + 4 * 2 ^ 64)) }
theorem test_witness_StreamReduceQuantise : (let s := staged (run .copy (.cred h0 (ao 0 0) 0) id)
      (s.runningCmd .copy (.cred h0 (ao 0 0) 0)).isSome && (s.stageOf s.cur.core).isSome &&
      gives (forRows (fun i => engRead .copy (caps.newCmd 0) (memCap 0x500000000000) (0x500000000000 + 4 * i) 4 4) (List.range 2) s) (fun l => l.length == 2)) = true ∧
    ([true, false].all (fun b => let s := owned (run .copy cstrmI id) b
      (s.runningCmd .copy cstrmI).isSome && (s.ownerOf 0 == some (0, 0)) && (s.th.strm.get 2).bound == b && gives (readDesc (caps.newCmd 0) (ao 2 0x100) s) (fun _ => true)
      && (s.cc.engWaiters .copy).isEmpty)) = true ∧
    ([[], [(1, some 0x3F800000)]].all (fun l => let j := Instr.cquant h0 (ao 0 0) (ao 1 0x200) (ao 2 0x400) 1; let s := run .copy j (fun c => { c with elems := l })
      (match s.runningCmd .copy j with | some c => c.reg 1 == (l.head?.bind Prod.snd) && c.cursor == 0 | none => false)
      && gives (engCheck .copy (caps.newCmd 0) (memCap 0x500000000000) 0x500000000400 4 4 .write false s) (· == [(.sram 0 0x400, 4)])
      && gives (engCheck .copy (caps.newCmd 0) (memCap 0x500000000000) 0x500000000404 1 1 .write false s) (· == [(.sram 0 0x404, 1)])
      && gives (engCheck .copy (caps.newCmd 0) (memCap 0x500000000000) 0x500000000200 32 1 .write false s) (· == [(.sram 0 0x200, 32)]))) = true ∧
    ((0x3F800000 : Nat) % 2 ^ 31 < 0x7F800000 ∧ (0x3F800000 : Nat) % 2 ^ 31 ≠ 0 ∧ (0x80000000 : Nat) % 2 ^ 31 = 0) := by decide +kernel

/-- The rounding mode SR, and vector work in the queue or none. -/
def sr (l : List VOp) : State := let s := caps.setTh { caps.th with fpcsr := 5 }; s.setCc { s.cc with vq := l }
theorem test_witness_VectorIssue : r0.th.rm ≠ 5 ∧ (sr []).th.rm = 5 ∧ (sr []).vecBusy 0 0 = false ∧
  (sr [vop (.knot 1 2) 0]).vecBusy 0 0 = true ∧
    (caps.cc.vq.length < 2 ∧ caps.cc.vecWaiters = []) ∧ 2 ≤ (sr (List.replicate 2 (vop (.knot 1 2) 0))).cc.vq.length ∧
      r0.th.clearG (0#1 ++ 0xF#4) ∧ caps.th.cprv = false ∧ caps.cc.accown.toNat / 2 ^ 16 % 2 ^ 16 < 2 ^ 15 ∧
    2 ^ 15 ≤ (0x8001 : Word).toNat / 2 ^ (16 * (0 : BitVec 2).toNat) % 2 ^ 16 ∧ (0x8001 : Word).toNat % 2 ^ 11 ≠ caps.th.ctxid.toNat ∧
    readA 3 caps = .ok (memCap 0x500000000000, caps) ∧
      vecCheck (memCap 0x500000000000) (vecAddr (memCap 0x500000000000) 1) 32 permR false caps = .ok ((), caps) ∧
    vecCheck (memCap 0x500000000000) (vecAddr (memCap 0x500000000000) 1) 32 permW false caps = .ok ((), caps) ∧
    vecCheck (memCap 0x500000000000) (laneAddr (memCap 0x500000000000) .f32 (lane .f32 (caps.th.vr 2) 7)) 4 permW true caps =
      .ok ((), caps) ∧
    (let s := sr [vop (.knot 1 2) 0]; s.cc.vq = vop (.knot 1 2) 0 :: [] ∧ s.vecCanStart s.cur.core = true ∧ s.cc.vecWaiters = []) :=
  ⟨by decide +kernel, by decide +kernel, by decide +kernel, by decide +kernel, ⟨by decide +kernel, by decide +kernel⟩, by decide +kernel,
    r0_clear _,
   by decide +kernel, by decide +kernel, by decide +kernel, by decide +kernel, rfl, rfl, rfl, rfl, by decide +kernel⟩

/-- One instruction that has started; a thread that waits for its general register; a lane's place in the slice. -/
def started (i : Instr) (w : Wait) : State := let s := caps.setCc { caps.cc with vrun := [{ vop i 0 with cap := memCap 0x500000000000 }] }; s.parkTh .waitMem w
theorem test_witness_VectorEffect : ([Instr.vadd 1 2 3 1 .f32, .vand 1 2 3 1 .u8, .vcmpEq 1 2 3 1 .i8, .vsel 1 2 3 1 .f64, .vperm 1 2 3 1 .i16, .vrot 1 2 3 1 .i16, .vbc 1 2 1 .i16,
      .vins 1 2 3 .i16, .knot 1 2, .vld 1 2 0 1 .i32, .vst 1 2 0 1 .i32, .vldx 1 2 3 1 .i32, .vstx 1 2 3 1 .i32, .vcvt 1 2 3 1 .e4m3 .f32, .vcmpNe 1 2 3 1 .f16, .vexp2 1 2 1 .f32, .vred 1 2 1 .f32, .vdot 1 2 3 1 .bf16, .vacr 1 2 1 .i32, .vacw 1 2 1 .i32, .vred 1 2 1 .i32, .vdot 1 2 3 1 .i64].all (fun i =>
      let s := started i .none; s.cc.vrun == [{ vop i 0 with cap := memCap 0x500000000000 }] && s.cur.idx == 0)) = true ∧
    (let s := started (.kpop 3 1) (.vres 3 4); (0 : Fin 8) = s.cur.slot ∧ s.th.wait = .vres 3 4) ∧
    ((List.range 8).all (fun i => (started (.vld 1 2 0 1 .i32) .none).rowOf ((started (.vld 1 2 0 1 .i32) .none).agentOf 0 0) (vecAddr (memCap 0x500000000000) 0 + 4 * i) == .slice 0 (4 * i))) = true ∧
    (let s := started (.vstx 1 2 3 1 .i32) .none; (List.range 8).all (fun i => s.rowOf ({ vop (.vstx 1 2 3 1 .i32) 0 with cap := memCap 0x500000000000 }.agent s 0)
      (laneAddr (memCap 0x500000000000) .i32 (lane .i32 (s.th.vr 3) i)) == .slice 0 0) && (s.core 0).trcrng0 == 0 && (s.core 0).trcrng1 == 0) = true ∧
    Memory.wf (started (.vst 1 2 0 1 .i32) .none).mem = true := by decide +kernel

end Sys2Proof.Tests

/-! ## States that meet the hypotheses of the statements: system registers, traps, the Spool -/

namespace Sys2Proof.Tests

/-- r0 in S. -/
def r1 : State := r0.setTh { r0.th with tstatus := 1 }
/-- A state whose core 0 belongs to a region. -/
def inRegion (s : State) (r : Region) : State := { s with regions := [r] }

theorem test_witness_SystemRegisters : (Ready (.g 3) r0 ∧ Ready (.g 3) r1 ∧ readSrc (.g 1) r0 = .ok (7, r0) ∧
  readSrc (.g 1) r1 = .ok (7, r1)) ∧
    r0.th.cprv = false ∧ r1.th.cprv = true ∧ r1.cycle / 1024 ≤ r1.ccl.window ∧
      (r1.setCc { r1.cc with mq := [{ r1.newCmd 0 with running := true, left := 1 }] }).asking 0 ≠ [] ∧
    r0.vecBusy r0.cur.core r0.cur.slot = false ∧ (sr [vop (.knot 1 2) 0]).vecBusy 0 0 = true ∧ (7 : Word).toNat % 8 = 7 ∧
      (5 : Word).toNat % 8 ≤ 5 ∧ r0.cur.val.toNat % 8 ≤ 5 ∧
    (¬ (0x3FF ≤ 0x010 ∨ (0x020 ≤ 0x3FF ∧ 0x3FF ≤ 0x027) ∨ (0x040 ≤ 0x3FF ∧ 0x3FF ≤ 0x047) ∨ (0x050 ≤ 0x3FF ∧ 0x3FF ≤ 0x052) ∨
      (0x058 ≤ 0x3FF ∧ 0x3FF ≤ 0x05B))) ∧
    0x200 ≤ (0x200#10).toNat ∧ (0x1FF#10).toNat < 0x200 ∧ 0x040 ≤ (0x040#10).toNat ∧ (0x03F#10).toNat < 0x040 :=
  ⟨⟨⟨rfl, rfl⟩, ⟨rfl, rfl⟩, rfl, rfl⟩, by decide +kernel⟩

/-- A trap in U, one in S of a region that has faulted and of one that has not; TIMER due, at its very cycle (R27, R32). -/
theorem test_witness_Traps : r0.th.undo = [] ∧ r0.th.cprv = false ∧ r1.th.cprv = true ∧ r1.th.undo = [] ∧ Plain r0 (.g 1) ∧
  value r0 (.g 1) = 7 ∧
    ([none, some { tcause := 1, code := 0, lcore := 0, tslot := 1, tval := 0, tepc := 0, tfpc := 0, soft := 0 }].all (fun f =>
      let s := inRegion r1 { reg0 with fault := f }; (s.region? s.cc.rid).isSome && (s.regions.filter (·.rid == s.cc.rid)).length == 1 &&
        s.cc.bound)) = true ∧
    (let s := { (withTh (fun t => { t with tstatus := 4, tmcmp := 100 })) with cycle := 100 }; s.timerDue s.th = true) :=
  ⟨rfl, by decide +kernel, by decide +kernel, rfl, r0_clear _, rfl, by decide +kernel, by decide +kernel⟩

/-- An image of r0's thread, and a frame that holds it. -/
def img0 : Image := { th := { r0.th with state := .empty }, resume := .run, tslot := 1, seq := 0, eps := Vector.replicate 4 0 }
def frame (i : Option (Fin 64)) : Frame :=
  { st := .held, rid := 0, index := i, core := 0, img := img0, order := 0, due := false, cmds := [], key := 0 }
def framed (l : List (Fin 64 × Frame)) (s : State) : State := l.foldl (fun s x => s.modFrame 0 x.1 (some x.2)) s
def gone (i : Option (Fin 64)) : Evicted :=
  { rid := 0, index := i, core := 0, slot := 1, addr := 0x400000001000, due := false, cmds := [], key := 0 }

/-- r0 with g1 and g2 set and frames. -/
def spool (x y : Word) (l : List (Fin 64 × Frame)) : State := framed l (r0.setTh ((r0.th.setG 1 x).setG 2 y))

/-- Every case of R179 to R182: an index above 63, another region's entry, an evicted one, a FREE one with and without a frame, a held
one. -/
theorem test_witness_SpoolInstructions : Ready (.g 3) (spool 63 0 []) ∧
    (let s := spool 63 2 [(0, frame (some 2)), (1, frame (some 63))];
      s.vecBusy 0 0 = false ∧ s.th.rel = [] ∧ s.th.dfr = [] ∧ value s (.g 1) = 63 ∧ value s (.g 2) = 2 ∧ 64 ≤ (64 : Word).toNat ∧
      s.entry 0 63 = .frame 1 (frame (some 63)) ∧ s.entry 0 2 = .frame 0 (frame (some 2)) ∧ (frame (some 2)).img.resume = .run ∧
      (s.modFrame 0 0 none).entry 0 63 = .frame 1 (frame (some 63)) ∧ (frame (some 63)).rid = s.cc.rid ∧
        (frame (some 2)).img.th.inbox = [] ∧ s.eventElsewhere (frame (some 2)) = false) ∧
    (let s := (spool 1 63 [(0, { frame (some 63) with core := 1, key := 7 })]).setCore 1 { Core.fresh with heldOut := [(7, { time := 5, ep := 0 })] };
      s.eventElsewhere { frame (some 63) with core := 1, key := 7 } = true ∧
        s.entry 0 63 = .frame 0 { frame (some 63) with core := 1, key := 7 }) ∧
    ((spool 63 0 []).entry 0 63 = .free ∧ (spool 63 0 []).frameFor 0 0 = some 0) ∧
      ((spool 63 0 [(0, frame none)]).frameFor 0 0 = none ∧ (spool 63 0 [(0, frame none)]).entry 0 63 = .free) ∧
    ((spool 63 0 [(0, { frame (some 63) with rid := 9 })]).entry 0 63).foreign 0 = true ∧
    (((spool 63 0 []).setCcl { (spool 63 0 []).ccl with evicted := [gone (some 63)] }).entry 0 63) = .out (gone (some 63)) ∧
    (let s := spool 1 63 [(0, frame (some 63))]; (BitVec.ofNat 3 (1 : Word).toNat).toFin ≠ s.cur.slot ∧ (s.thAt 0 1).state = .empty ∧
      s.entry 0 63 = .frame 0 (frame (some 63))) ∧
    (let s := (spool 1 63 []).setThAt 0 1 { r0.th with state := .ready }; (s.thAt 0 1).state = .ready ∧ (s.thAt 0 1).cprv = false ∧
      (s.thAt 0 1).pre = none ∧
      (match s.entryFrame 0 0 63 with | .ok k => k == 0 | .error _ => false) = true) :=
  ⟨⟨rfl, rfl⟩, by decide +kernel, by decide +kernel, by decide +kernel, by decide +kernel, by decide +kernel, by decide +kernel,
    by decide +kernel, by decide +kernel⟩

/-- A request that is taken, into a frame or held; a slice that is over; one that resumes; a frame evicted, written, pinned and back. -/
theorem test_witness_PreemptionAndSpool : ([PreReq.slice, .hypervisor].all (fun q => let s := r0.setTh { r0.th with pre := some q };
      s.takeable 0 0 && s.th.state != .empty && s.th.undo.isEmpty && s.frameFor 0 0 == some 0)) = true ∧
    (let s := framed [(0, frame none)] (r0.setTh { r0.th with pre := some .slice });
      s.takeable 0 0 = true ∧ s.frameFor 0 0 = none ∧ s.saveArea 0 = 0 ∧ (s.ccl.framesOf 0).all (fun f => f.st != .evicting) = true) ∧
    (let r := { reg0 with slice := 1 }; let s : State := { inRegion r0 r with cycle := 800 }; s.region? s.cur.idx = some r ∧ r.loop = none ∧ s.sliceOver r = true ∧
      (s.cores.map Prod.fst).Nodup ∧ s.cc.bound = true) ∧
    (let r := { reg0 with paused := true }; let s := inRegion r0 r; s.region? s.cur.idx = some r ∧ s.canResume r = true ∧ s.clusters.all (fun x => (x.2.framesOf r.rid).isEmpty) = true) ∧
    (r0.th.state ≠ .empty ∧ r0.th.wait ≠ .back ∧ r0.th.pre = none) ∧
    (let s0 := epAt 1 { e0 with slots := [5] }; let s := s0.setTh { s0.th with state := .parkQ, wait := .popq 1, pre := some .slice };
      s.takeable 0 0 = true ∧ s.th.undo = [] ∧ s.th.inbox = [] ∧ s.cc.before s.cur.slot 1 = 0 ∧ (s.cc.ep.get 1).slots = 5 :: [] ∧ (s.cc.ep.get 1).kept = [] ∧
      s.frameFor s.cc.rid 0 = some 0 ∧ (s.ccl.frames.get 0).isNone = true) ∧
    (let s := framed [(0, frame (some 2))] (inRegion r0 { reg0 with save := 0x400000001000, paused := true }); (s.cluster 0).frames.get 0 = some (frame (some 2)) ∧ s.evictDue 0 0 = true) ∧
    (let f := { frame (some 2) with st := .evicting }; let s := framed [(0, f)] (inRegion r0 { reg0 with save := 0x400000001000 });
      (match s.granules (s.leafAgent 0) (s.saveAddr f).toNat .write 128 with | .ok _ => true | .error _ => false) = true) ∧
    (let f := { frame (some 2) with st := .pinned }; let s := framed [(0, f)] (inRegion r0 { reg0 with save := 0x400000001000 }); s.pinResolved 0 0 f = true) ∧
    (let s0 := r0.parkTh .waitMem (.refill 63); let s := s0.setCcl { s0.ccl with evicted := [gone (some 63)] };
      s.th.wait = .refill 63 ∧ s.ccl.evicted.find? (fun e => e.index == some 63) = some (gone (some 63)) ∧ (gone (some 63)).core = s.cur.core ∧ s.ccl.freeFrame = some 0 ∧ s.holds (.refill s.cur.core s.cur.slot) = false ∧
      (match s.refill (gone (some 63)) with | .ok (_, s1) => s1.clusters == s.clusters | .error _ => false) = true) := by decide +kernel

end Sys2Proof.Tests

/-! ## States that meet the hypotheses of the statements: blocks, launches, completion -/

namespace Sys2Proof.Tests

/-- Doublewords at offsets, as one number. -/
def lay (l : List (Nat × Nat)) : Nat := l.foldl (fun a x => a + x.2 * 2 ^ (8 * x.1)) 0
/-- A block at work, of queue 0. -/
def blk (l : List (Nat × Nat)) : Block :=
  { seq := 7, src := .queue 0, fn := 0, tenant := 0, typ := lay l % 256, raw := BitVec.ofNat 1024 (lay l), comp := CompF.none, active := true, parsed := false,
    waiting := false, prio := 0, rid := none, spec := none, subs := [], deadline := none, silent := false, doomed := false, at_ := 5,
      since := 0 }
/-- r0 with a region, whose numbering queue 0 uses, a tenant, and blocks. -/
def front (bs : List Block) : State :=
  { (inRegion r0 { reg0 with stages := [stage0] }) with
    blocks := bs, cur := { r0.cur with idx := 7 }, parts := [{ part0 with dtrk := true }],
    queues := [(0, { Queue.fresh 0 with tenant := some 0, anchors := [0] })], fresh := 1 }
/-- HBM's first 2 GiB, mapped by stage 2; and with a stage 1 that maps nothing (R392, R393). -/
def hbm (s : State) : State :=
  { s with parts := [{ part0 with dtrk := true, s2root := 0x10000000 }], mem := Memory.writeN (Memory.writeN s.mem 0x10000000 (bytesOf 8 0x10001001)) 0x10001000 (bytesOf 8 0xF) }
def paged (s : State) : State := { (hbm s) with parts := [{ part0 with dtrk := true, s2root := 0x10000000, func := 1 }], funcs := [(1, { Func.fresh with s1root := 1 })] }
/-- Bytes in the slice of core 0. -/
def inSlice (off n v : Nat) (s : State) : State := { s with mem := Memory.writeN s.mem (2 ^ 48 + off) (bytesOf n v) }

theorem test_witness_CompletionRecord : (let b := { blk [] with silent := true }; b.silent = true) ∧
  (let b := { blk [] with src := .ballast 3 }; b.src.isSub = true) ∧
    (let b := { blk [] with comp := { crec := 0x400000000020, cflag := 0x400000000100, msix := some 0, user := 9 } }; let s := front [b];
      b.silent = false ∧ b.src.isSub = false ∧ gives (fePlace (feAgent 0 (s.anchorOf b.src)) b.comp.crec.toNat 32 .write .page s) (· ==
        .sram 0 0x20) = true ∧
      inSlices b.comp.cflag.toNat = true ∧ s.target b b.comp.cflag.toNat = some (0, 0x100) ∧ s.target b 0x400000010000 = none) ∧
    (match fePlace (feAgent 0 0) 0x1000 32 .write .page (paged (front [])) with | .error .page => true | _ => false) = true :=
      by decide +kernel

/-- A queue in host memory with a NOP at its head; two queues of which one has the higher priority; the intake; none. -/
def queued (prio tail : Nat) : Queue := { Queue.fresh 0 with tenant := some 0, qbase := 0x1000000000000, qcfg := BitVec.ofNat 64 (2 ^ 31 + prio * 256 + 4), tail := BitVec.ofNat 32 tail }
theorem test_witness_Dispatch : ([0, 1, 9].all (fun k => let s : State :=
  { front [] with queues := [(1, queued 3 1)], mem := Memory.writeN [] (2 ^ 50) [BitVec.ofNat 8 k] }
      (match s.chooseQueue with | some (t, n, _) => t == 0 && n == 1 | none => false) &&
        (blockOf (Memory.readN s.mem (2 ^ 50 + ((s.queue 1).qbase.toNat % 2 ^ 48 + 128 * ((s.queue 1).head.toNat % 2 ^ (s.queue 1).log2n))) 128)).toNat % 256 == k)) = true ∧
    (let s := { front [] with queues := [(0, queued 2 1), (1, queued 3 1)] };
      (match s.chooseQueue with | some (t, n, _) => t == 0 && n == 1 | none => false) = true ∧ (s.queue 1).inHost = true) ∧
    (front []).chooseQueue = none ∧
    (let b := { blk [(0, 1)] with src := .device 0 0 0 0, active := false }; let s := { front [b] with queues := [] };
      (match s.chooseQueue with | some (t, n, _) => t == 0 && n == 4096 | none => false) = true ∧ s.intakeHead 0 = some b) :=
        by decide +kernel

/-- A block of each type, formed, with a bit outside its map, and with its address where the clauses meet. -/
theorem test_witness_FrontEndBlocks : ([[(0, 0)], [(0, 3), (8, 0x400000000100)], [(0, 4), (8, 0x400000000100), (16, 5)],
  [(0, 5), (8, 0x400000000100)], [(0, 6 + 65536)], [(0, 6 + 131072)],
      [(0, 7), (0x10, 4096), (0x40, 64)], [(0, 9), (8, 0x400000000100), (16, 1)], [(0, 3), (8, 0x400000000104)], [(0, 4 + 2 ^ 20)],
        [(0, 5), (8, 0x400000000104)], [(0, 6)], [(0, 7)], [(0, 9)]].all (fun l =>
      let b := blk l; let s := front [b]; (s.block? s.cur.idx false == some b) && b.active && !b.doomed &&
        (s.compOf b.tenant false b.raw).2)) = true ∧
    (let b := blk [(0, 3), (8, 0x400000000100)]; let s := front [b]; s.target b 0x400000000100 = some (0, 0x100) ∧
      s.full (sramKey 0 0x100) = true ∧
      { s with empties := [sramKey 0 0x100] }.full (sramKey 0 0x100) = false ∧ s.target b 0x400000010000 = none ∧
        inSlices 0x400000010000 = true) ∧
    (let b := blk [(0, 4), (8, 0x400000000100), (16, 5)]; gives (feStf (feAgent 0 0) 0x400000000100 5 (.reject 8) (front [b])) (fun _ =>
      true) = true) ∧
    (match feStf (feAgent 0 0) 0x1000 5 (.reject 8) (paged (front [])) with | .error (.reject 8) => true | _ => false) = true ∧
    gives (feWrite (feAgent 0 0) 0x400000000100 (lowBytes 8 5) (.reject 8) (front [])) (fun _ => true) = true ∧
    (front []).part? 0 = some { part0 with dtrk := true } ∧ (front []).part? 5 = none ∧ Memory.wf (front []).mem = true ∧
      part0.dtrk = false ∧
    (match sealCheck (feAgent 0 0) 0x400000000100 1 (front []) with | .ok (l, _) => l.length == 1 | .error _ => false) = true ∧
    (match sealCheck (feAgent 0 0) 0x1000 1 (paged (front [])) with | .error (.reject _) => true | _ => false) = true ∧
    gives (fePlace (feAgent 0 0) 0x400000000100 16 .write (.reject 8) (inSlice 0x100 16 (2 ^ 107) (front []))) (fun t =>
      little ((inSlice 0x100 16 (2 ^ 107) (front [])).readAt 0 t 16) == 2 ^ 107) = true := by
  decide +kernel

/-- A LAUNCH block whose stage descriptor lies in the slice of core 0, formed, with too many threads, and with no descriptor behind it. -/
def launchRaw (a n : Nat) : List (Nat × Nat) := [(0, 1 + n * 65536), (0x10, a)]
def desc0 (threads : Nat) : List (Nat × Nat) := [(0, 0x1000 + threads * 2 ^ 48), (8, 1 + 4096 * 2 ^ 20), (0x30, codeCap.bits.toNat)]
def launching (a n threads : Nat) : State := inSlice 0x400 512 (lay (desc0 threads)) (front [blk (launchRaw a n)])
def parsed (a n threads : Nat) : Except FeStop ((Region × List Nat) × State) :=
  let s := launching a n threads
  parseLaunch (feAgent 0 (s.anchorOf (.queue 0))) part0 true (s.partValues part0) (s.usable part0) (blk (launchRaw a n)).raw false s
theorem test_witness_LaunchValidation : firstReason [3, 8, 7] = some 8 ∧ firstReason [] = none ∧
    (let s := launching 0x400000000400 1 1; s.launchBlock? = some (blk (launchRaw 0x400000000400 1)) ∧
      s.part? 0 = some { part0 with dtrk := true } ∧
      s.heldBack (blk (launchRaw 0x400000000400 1)) = false) ∧
    headOp (blk (launchRaw 0 0)).raw = 0 ∧ gives (parsed 0x400000000400 1 9) (fun x => firstReason x.2 == some 1) = true ∧
      gives (parsed 0x400000000400 1 1) (fun x => firstReason x.2 == none) = true ∧
    (match parseLaunch (feAgent 0 0) part0 true ((front []).partValues part0) 64 (blk (launchRaw 0x1000 1)).raw false (paged (front [])) with | .error (.reject 8) => true | _ => false) = true ∧
    gives (feRead (feAgent 0 0) 0x400000000400 512 badFormat (launching 0x400000000400 1 1)) (fun l => l.length == 512) = true :=
      by decide +kernel

/-- A spec of one stage, as a device launch and a host's block have it; what it binds on core 1. -/
def spec0 : Region := { reg0 with depth := 1, span := 1, stages := [{ stage0 with released := false, pcores := [], imgAddr := 0x1000, imgLen := 64 }] }
def binding (waiting : Bool) : State := front [{ blk [(0, 1)] with spec := some spec0, waiting := waiting }]
theorem test_witness_LaunchBinds : ([true, false].all (fun w => let s := hbm (binding w); let b :=
  { blk [(0, 1)] with spec := some spec0, waiting := w };
      (s.launchBlock? == some b) && !s.heldBack b && gives (bindRegion b spec0 [[1]] s) (fun _ => true))) = true ∧
    [[1]].flatten.Nodup ∧ (∀ st ∈ spec0.stages, st.imgLen ≤ 49152) ∧ Memory.wf (binding false).mem = true ∧
    gives (feRead (feAgent 0 1) 0x1000 64 (.reject 8) (hbm (binding false))) (fun l => l.length == 64) = true ∧
    (let s := binding false; { s with parts := [{ part0 with tstate := 2 }] }.heldBack { blk [(0, 1)] with spec := some spec0 } = true) :=
      by decide +kernel
/-- A place is found, whichever of the valid ones it is (entry 29). -/
theorem test_witness_LaunchBinds_place : ((binding false).place? spec0).isSome = true := by
  have p : (binding false).part? spec0.tenant.toNat = some { part0 with dtrk := true } := by decide +kernel
  simp only [State.place?, p]
  split
  · rfl
  · decide +kernel

/-- An image that cannot be read, for a host's launch and for a sub-launch of a loop; a region that is bound and has yet to be released
(R278, R347). -/
def unreadable (src : BSrc) : State :=
  { (paged (binding false)) with
    blocks := [{ blk [(0, 1)] with spec := some spec0, src := src }], cur := { r0.cur with idx := 7, sub := if src.isSub then 1 else 0 },
    regions := [{ reg0 with loop := some (solveLoop 0 1 0 none 0) }] }
theorem test_witness_LaunchBinds_images : ([BSrc.queue 0, .ballast 0].all (fun src => let s := unreadable src
      let b := { blk [(0, 1)] with spec := some spec0, src := src }
      (s.launchBlock? == some b) && !s.heldBack b && (s.region? 0).isSome &&
        gives (readImages (feAgent 0 1) (s.numbered b spec0 [[1]]).stages s) (· == none))) = true ∧
    gives (readImages (feAgent 0 1) ((hbm (binding false)).numbered { blk [(0, 1)] with spec := some spec0 } spec0 [[1]]).stages
      (hbm (binding false))) (fun x => x.isSome) = true := by decide +kernel

theorem test_witness_LaunchBinds_release : let r :=
  { reg0 with phase := .binding, stages := [{ stage0 with released := false }, { stage0 with released := false, pcores := [1] }] }
    let b := { blk [(0, 1)] with rid := some 0 }; let s :=
      { (inRegion r0 r) with blocks := [b], cur := { r0.cur with idx := 7 }, cores := [(0, r0.cc), (1, Core.fresh)] }
    s.launchBlock? = some b ∧ s.region? 0 = some r ∧ r.nextGroup.isSome = true ∧ { r with stages := [stage0] }.nextGroup = none ∧
      (s.cores.map Prod.fst).Nodup ∧
    (r.stages.flatMap (·.pcores)).Nodup ∧ (s.thAt 1 7).state = .empty := by decide +kernel

/-- A frame whose save area's page stage 2 does not map: its eviction faults (R376). -/
theorem test_witness_PreemptionAndSpool_pinned : let f := { frame (some 2) with st := .evicting }
    let s := framed [(0, f)] (hbm (inRegion r0 { reg0 with save := 0x4000000000 }))
    (s.cluster 0).frames.get 0 = some f ∧ (match s.granules (s.leafAgent f.core) (s.saveAddr f).toNat .write 128 with | .error (.stage2 _ _) => true | _ => false) = true := by decide +kernel

end Sys2Proof.Tests

/-! ## States that meet the hypotheses of the statements: the launch instruction, reductions, completion and teardown -/

namespace Sys2Proof.Tests

/-- A thread whose a1 points at a LAUNCH block in its slice; the descriptor it names may lie at 0x800 there. -/
def submitting (stab cores : Nat) : State :=
  let s := { (regs 7 9 (memCap 0x500000000400)) with
    regions := [{ reg0 with cores := cores, sram := 49152, threads := 8, stages := [stage0] }], parts := [part0], fresh := 1,
      tags := [(2 ^ 48 + 0x830) / 16] }
  inSlice 0x800 512 (lay (desc0 1)) (inSlice 0x400 128 (lay (launchRaw stab 1)) s)
def submitRaw (s : State) : BitVec 1024 := blockOf (s.readAt 0 (.sram 0 0x400) 64 ++ s.readAt 0 (.sram 0 0x440) 64)

/-- A block that joins, one that is rejected for its cores, one whose descriptor a stage-2 fault holds; the intake full (R162, R356). -/
theorem test_witness_LaunchInstruction : ([(0x400000000800, 4), (0x400000000800, 0), (0x1000, 4)].all (fun x => let s := submitting x.1 x.2
      s.th.rel.isEmpty && s.th.dfr.isEmpty && gives (readA 1 s) (· == memCap 0x500000000400) &&
        gives (capCheck (memCap 0x500000000400) 0x500000000400 128 permR kindMem 128 s) (fun _ => true)
      && gives (home 0x500000000400 .read s) (· == .sram 0 0x400) && gives (home 0x500000000440 .read s) (· == .sram 0 0x440) &&
        !s.intakeFull && (s.region? s.cc.rid).isSome)) = true ∧
    ([(0x400000000800, 4, true), (0x400000000800, 0, false)].all (fun x => let s := submitting x.1 x.2.1; match s.region? 0 with
      | some r => gives (deviceParse s.cc r (submitRaw s) s) (fun y => y.2.2.2.isEmpty == x.2.2) &&
        gives (submit s s.cc r (submitRaw s) s) (fun _ => true) | none => false)) = true ∧
    (let s := submitting 0x1000 4; match s.region? 0 with
      | some r => (match submit s s.cc r (submitRaw s) s with | .error (.held _ _ _) => true | _ => false) | none => false) = true ∧
    { r0 with blocks := List.replicate 1024 { blk [] with src := .device 0 0 0 0, active := false } }.intakeFull = true := by decide +kernel
theorem test_witness_LaunchInstruction_ready : Ready (.g 3) (submitting 0x400000000800 4) := ⟨rfl, rfl⟩

theorem test_witness_ReductionResult : [1, 2, 2].Perm [2, 1, 2] ∧ (∀ b ∈ [(0 : Nat), 0xFF800000], b < 2 ^ LaneTy.f32.width) ∧
  LaneTy.f32.fmt = some fp32 ∧ LaneTy.i32 ∈ [LaneTy.i32, .i64] ∧
    notFinite .f32 fp32 0xFF800000 = true ∧ notFinite .f32 fp32 0xFF7FFFFF = false ∧ notFinite .e4m3 e4m3 0xFF = true ∧
      notFinite .e4m3 e4m3 0xFE = false ∧ [(0 : Nat)] ≠ [] := by decide +kernel

/-- A region of one stage, by its nodes and what of it is done; stage0's channel has elements 0 and 1. -/
def tree (g : Stage) : State := { (inRegion r0 { reg0 with stages := [g] }) with blocks := [{ blk [(0, 1)] with rid := some 0 }], parts := [part0] }
def node (up : Option Nat) (released : Bool) (sent : Option Word) : Node :=
  { cluster := if up = none then 0 else 1, up := up, slot := some 31, cores := 1, released := released, fsum := 0, fpf := 0, done := 1, sent := sent }
/-- A stage of a group of two modules, whose root has sent and whose channel crosses the link to the other. -/
def grouped : Stage := { stage0 with nodes := [node none true (some 0)], doneN := 1, red := [{ op := 2, ty := .f32, count := 1, xg := true }] }
def inGroup (me other : Nat) : State := { tree grouped with group := some { me := me, others := [(other, 3)] } }
theorem test_witness_CompletionTree : ([[node none true none], [node none true none, node (some 0) true (some 0x10000)]].all (fun ns =>
  let g := { stage0 with nodes := ns }; let s := tree g
      (s.region? s.cur.idx == some { reg0 with stages := [g] }) && (ns.map (·.cluster) == (List.range ns.length)) && (s.cur.core == 0) &&
      (children g (node none true none)).all (fun m => m.sent != none))) = true ∧
    (let g := { stage0 with nodes := [node none true none, node (some 0) true none] }; let s :=
      { tree g with cur := { (tree g).cur with core := 1 } };
      s.region? s.cur.idx = some { reg0 with stages := [g] } ∧ s.cur.core = 1 ∧ children g (node (some 0) true none) = []) ∧
    ([[], stage0.red].all (fun red => let g :=
      { stage0 with nodes := [node none true (some 0), node (some 0) true (some 0)], doneN := 1, red := red }; let s := tree g
      g.nodes.all (·.sent != none) && g.released && !g.complete && (g.doneN == g.cores) && s.groupReady g && (g.raddr == 0))) = true ∧
    ([{ grouped with groupBrk := true }, { grouped with groupRes := [(0, [reduce 2 .f32 [5]])] }].all (fun g =>
      (inGroup 0 1).groupReady g && g.released && !g.complete && (g.doneN == g.cores))) = true ∧
    (let s0 := tree { stage0 with complete := true }; let s := { s0 with cur := { s0.cur with sub := 1 } };
      s.cur.sub = [{ stage0 with complete := true }].length ∧ s.launchesOf 0 = [] ∧ (s.blockFor 0).isSome = true ∧
        s.regions.all (fun c => c.parent != some 0) = true ∧
      gives (feComplete { blk [(0, 1)] with rid := some 0 } 0 0 0 0 0 (some 0) s) (fun _ => true) = true ∧ (s.cores.map Prod.fst).Nodup) :=
        by
  decide +kernel
theorem test_witness_CompletionTree_group : (∀ x ∈ [(0, 1), (1, 0)],
  Reducing (inGroup x.1 x.2) { reg0 with stages := [grouped] } 0 grouped { op := 2, ty := .f32, count := 1, xg := true }) ∧
    (inGroup 0 1).linkDown.contains 3 = false ∧ twoPassed 2 .f32 = false := by
  simp only [Reducing]; decide +kernel

/-- A fault that tears down; a torn region with nothing below it; a launch that lost its parent; a tenant whose flits are home; a message to
a done core. -/
def fault0 : FInfo := { tcause := 1, code := 0, lcore := 0, tslot := 1, tval := 0, tepc := 0, tfpc := 0, soft := 0 }
theorem test_witness_Teardown : (let r := { reg0 with faulted := true, fault := some fault0 }; let s := inRegion r0 r; s.cur.sub = 0 ∧
  s.region? s.cur.idx = some r ∧ r.phase ≠ .torn ∧ r.loop = none ∧ r.fdom = false ∧ s.cc.bound = true) ∧
    ([none, some fault0].all (fun f => let r := { reg0 with phase := .torn, fault := f }; let s :=
      { (inRegion r0 r) with blocks := [{ blk [(0, 1)] with rid := some 0 }], parts := [part0] }
      (s.launchesOf 0).isEmpty && (s.blockFor 0).isSome && s.regions.all (fun c => c.parent != some 0) && (s.region? s.cur.idx == some r) &&
      gives (feComplete { blk [(0, 1)] with rid := some 0 } 3 0 0 0 0 (some 0) s) (fun _ => true))) = true ∧
    (let b := { blk [(0, 1)] with doomed := true }; let s :=
      { r0 with blocks := [b], cur := { r0.cur with sub := 1, idx := 7 } }; s.block? s.cur.idx false = some b) ∧
    (let p := { part0 with draining := true }; let s := { r0 with parts := [p], cur := { r0.cur with sub := 2 } }; s.part? s.cur.idx =
      some p ∧ p.inj = p.ext) ∧
    (let s0 := (inRegion r0 reg0).setCore 0 { r0.cc with done := true }; let s :=
      { s0 with net := [.slot 1 0 0 5] }; (s.toDone s.cur.idx).isSome = true ∧ (s.region? (s.core 0).rid).isSome = true) ∧
    (let s := inRegion r0 reg0; s.cc.bound = true ∧ s.cc.retired = false ∧ s.region? s.cc.rid = some reg0) := by decide +kernel

end Sys2Proof.Tests

/-! ## States that meet the hypotheses of the statements: Ballast -/

namespace Sys2Proof.Tests

/-- Finite norms and thresholds, -0 among them; tests that end in each way, at the boundary of each comparison (R342). -/
theorem test_witness_BallastDecision : Spec.Norm 0x3FF0000000000000 ∧ Spec.Norm 0x8000000000000000 ∧ Spec.Norm 0x7FEFFFFFFFFFFFFF ∧
    ([(none, d1, d1, d1, 1, 0), (some d1, d1, d1, 0, 1, 0), (some d1, d1, d1, 0, 1, 5), (some 0, d1, d1, 0, 3, 5)].all (fun x =>
      let l := { solveLoop 0 x.2.2.2.2.2 0 x.1 x.2.1 with n0 := some x.2.2.1 }
      l.n.isSome && l.n0.isSome && l.bn.isSome)) = true ∧
    quanta d1 ≤ quanta d1 ∧ ¬ (quanta 0x3FF0000000000001 ≤ quanta d1) ∧ quanta (0 : Word) = 0 ∧
      quanta (1 : Word) * quanta d1 < quanta d1 * 2 ^ 1074 ∧
    (0x7FF0000000000000 : Word).toNat / 2 ^ 52 % 2 ^ 11 = 2047 := by
  unfold Spec.Norm; decide +kernel

/-- HBM mapped by both stages below 2 GiB and by none above: S1ROOT's table is at 0x3000. -/
def halfPaged (s : State) : State :=
  let t := hbm s
  { t with
    parts := [{ part0 with s2root := 0x10000000, func := 1 }], funcs := [(1, { Func.fresh with s1root := 0x3001 })],
    mem := Memory.writeN (Memory.writeN t.mem 0x3000 (bytesOf 8 0x4001)) 0x4000 (bytesOf 8 0xF) }

/-- A Ballast block: MAXIT 5, SWIN 2, RESID, FACT0 and SOLV0 at an address, HIST at 0x1000 with a number of records. -/
def bRaw (a hlen : Nat) (dact : Nat) : List (Nat × Nat) := [(0, 2 + dact * 2048 + 2 * 2 ^ 16 + 5 * 2 ^ 32), (8, a), (0x10, a), (0x30, a),
  (0x70, 0x1000 + hlen * 2 ^ 48)]
def sub0 : Region := { spec0 with stages := [{ stage0 with released := false, pcores := [] }] }
def bBlock (a hlen dact : Nat) (src : BSrc) : Block :=
  { blk (bRaw a hlen dact) with rid := some 0, src := src, subs := [(0, sub0), (1, sub0), (5, sub0)] }
def loop0 (pos : LPos) : Loop := { solveLoop 0 1 0 none d1 with pos := pos }
/-- A region with a loop, its block at work, and HBM. -/
def looping (l : Loop) (hlen dact : Nat) : State :=
  hbm { (inRegion r0 { reg0 with loop := some l }) with blocks := [bBlock 0x80000000 hlen dact (.queue 0)], fresh := 1 }
def isLooping (s : State) : Bool := match s.region? s.cur.idx with
  | some r => (match r.loop with | some l => !l.saved | none => false) && (s.blockFor r.rid).isSome && r.phase == .running && !r.paused
  | none => false

theorem test_witness_BallastLoop : ([LPos.start, .launchFact, .launchSolv, .launchResid, .runFact, .runSolv, .runResid, .test, .exit,
  .finish].all (fun p => let s := looping (loop0 p) 4 0
      isLooping s && gives (feWrite (ballastAgent reg0) 0x1000 (List.replicate 32 0) .page s) (fun _ => true)
      && gives (feWrite (ballastAgent reg0) 0x1040 (List.replicate 32 0) .page s) (fun _ => true) && s.subOver reg0 (loop0 p)
      && gives (feComplete (bBlock 0x80000000 4 0 (.queue 0)) 0 0 1 0 0 (some 0) s) (fun _ => true))) = true ∧
    (let l := { loop0 .start with n := none, bn := none }; l.r < 256 ∧ l.code = 0 ∧ l.finfo = 0 ∧ l.upd = false ∧
      isLooping (looping l 4 0) = true) ∧
    ([0, 1, 5].all (fun k => ((bBlock 0 4 0 (.queue 0)).subs.find? (·.1 == k)) == some (k, sub0))) = true ∧
    isLooping (looping { loop0 .runFact with fault := some fault0 } 4 0) = true ∧
      isLooping (looping { loop0 .runFact with climbed := true } 4 0) = true ∧
    isLooping (looping { loop0 .runFact with climbed := true, k := 5 } 4 0) = true ∧
      isLooping (looping { loop0 .runResid with n := none } 4 0) = true ∧
    isLooping (looping { loop0 .exit with code := 3 } 4 0) = true ∧ isLooping (looping (loop0 .test) 0 0) = true ∧
    ([0, 1].all (fun d => ((bBlock 0 4 d (.queue 0)).raw.getLsbD 11) == (d == 1))) = true ∧
    (match feWrite (ballastAgent reg0) 0x80001000 (List.replicate 32 0) .page (halfPaged (looping (loop0 .start) 4 0)) with | .error .page => true | _ => false) = true ∧
    gives (feWrite (ballastAgent reg0) 0xC0 (List.replicate 64 0) .page (looping (loop0 .test) 4 0)) (fun _ => true) = true ∧
    (looping { loop0 .test with saved := true } 4 0).loopsUsed < 32 := by decide +kernel

/-- Blocks that are accepted, rejected, and whose named blocks fault; an upcall with room, without, and with nobody to call. -/
theorem test_witness_BallastBlockAndUpcall : (let b := { blk (bRaw 0x80000000 4 1) with spec := some sub0 }; let s := front [b]; s.block? 7 false = some b ∧ b.typ = 2 ∧ b.rid = none) ∧
    (let b := blk (bRaw 0x800000000400 4 1); let s := front [b];
      gives (parseBallast (feAgent 0 (s.anchorOf b.src)) part0 true (s.partValues part0) (s.usable part0) none b.raw s) (fun x => x.2.2.2 == [8]) = true ∧
      gives (withResid b s) (fun b1 => gives (feComplete b1 1 8 0 0 0 none s) (fun _ => true)) = true) ∧
    (let b := blk (bRaw 0x80000000 4 1); let s := halfPaged (front [b]);
      (match parseBallast (feAgent 0 (s.anchorOf b.src)) part0 true (s.partValues part0) (s.usable part0) none b.raw s with | .error .page => true | _ => false) = true ∧
      gives (withResid b s) (fun b1 => b1.comp == CompF.none) = true ∧ gives (feWrite (feAgent 0 (s.anchorOf b.src)) 0x1000 (exitBytes 5 0 0 false 0 0x80000 0) .page s) (fun _ => true) = true) ∧
    ([0, 256].all (fun n => let b := bBlock 0x80000000 4 0 (.device 0 9 0 9); let e : DispEntry := { rid := 9, stage := 0, words := 0 }
      let s0 := looping (loop0 .upcall) 4 0
      let s := { (s0.setCcl { s0.ccl with disp := List.replicate n e }) with blocks := [b], regions := s0.regions ++ [{ reg0 with rid := 9, stages := [stage0] }] }
      isLooping s && !s.stageGone 9 0 && s.stageGone 9 1 && s.ccl.upcalls.isEmpty && (s.ccl.disp.length == n)
      && gives (feWrite (ballastAgent reg0) 0x1000 (List.replicate 32 0) .page s) (fun _ => true))) = true := by decide +kernel

end Sys2Proof.Tests

/-! ## States that meet the hypotheses of the statements: partitions, functions -/

namespace Sys2Proof.Tests

/-- A PART block of an operation on PID 0, and the state it works on. -/
def partBlk (op : Nat) (l : List (Nat × Nat)) : Block := blk ((0, 8 + op * 65536) :: l)
def shape (x0 wd bb : Nat) : List (Nat × Nat) := [(0x38, x0 + wd * 2 ^ 16 + 2 ^ 24), (0x40, 2 ^ 16), (0x48, bb + (bb + 512) * 2 ^ 16)]
def parting (b : Block) (ps : List Part) : State := { r0 with blocks := [b], cur := { r0.cur with idx := 7 }, parts := ps }
def partAtB (s : State) (op : Nat) (b : Block) : Bool := (s.block? s.cur.idx false == some b) && b.active && !b.doomed && b.typ == 8 &&
  headOp b.raw == op

/-- CREATE with budgets that are free, that are not, for an ID in use, and over another's clusters; MODIFY of none, to a bad budget, onto
another, of a busy cluster. -/
theorem test_witness_PartitionShape : ([1, 2, 3, 4, 5, 6, 7].all (fun op => partAtB (parting (partBlk op []) []) op (partBlk op []) &&
  (partBlk op []).parsed == false
      && partLayout (partBlk op []).raw [] && (State.reset.compOf 0 false (partBlk op []).raw).2)) = true ∧
    ([0x10, 0x38, 0x40, 0x48, 0x50, 0x58, 0x60, 0x68].all (fun o => !partLayout (partBlk 3 [(o, 4096)]).raw [])) = true ∧
    partLayout (partBlk 1 (shape 3 2 0)).raw [0x38, 0x40, 0x48, 0x50, 0x58, 0x60] = true ∧
      (partBlk 1 (shape 3 2 0)).raw.toNat / 2 ^ 16 % 256 = 1 ∧
    (let p := { part0 with x0 := 3, wd := 2 }; let q :=
      { part0 with id := 4, x0 := 5, bbase := 512, blimit := 1024, vecN := 0 }; p.meets q = false ∧ { p with wd := 3 }.meets q = true ∧
      (parting (partBlk 1 []) []).budgetsOk p = true ∧ (parting (partBlk 1 []) []).budgetsOk { p with weight := 0 } = false ∧
        (parting (partBlk 1 []) [p]).pidFree (partBlk 1 []).raw = false ∧
      (parting (partBlk 1 []) [q]).pidFree (partBlk 1 []).raw = true ∧ (parting (partBlk 1 []) [q]).rectOk p = true ∧
        (parting (partBlk 1 []) [q]).budgetsOk p = true ∧
      (parting (partBlk 1 []) [q]).rectOk { p with wd := 3 } = false ∧ (parting (partBlk 1 []) [q]).budgetsOk { p with wd := 3 } = true ∧
      (parting (partBlk 2 []) []).partAt 0 false = none ∧ (parting (partBlk 2 []) [p]).partAt 0 false = some p ∧
        (parting (partBlk 2 []) []).clusterBusy 0 = true ∧
      (parting (partBlk 2 []) []).clusterBusy 1 = false ∧ p.x0 + p.wd ≤ 128) := by decide +kernel

/-- Each operation on a PID that names a tenant and on one that does not, before and after what it waits for. -/
theorem test_witness_PartitionLife : (let p := { part0 with s2root := 0x10000000 }; let b := { partBlk 3 [] with parsed := true }; let s := parting b [p];
      partAtB s 3 b = true ∧ s.part? 0 = some p ∧ s.tenantGone 0 = true ∧ { s with regions := [reg0] }.tenantGone 0 = false ∧ Memory.wf s.mem = true ∧
      s.parts.any (fun q => q.id == p.id && q.level2 == p.level2) = true) ∧
    (let b := partBlk 4 [(0x68, 3 + 3 * 65536)]; let s := { (parting b [part0]) with blocks := [b] }; partAtB s 4 b = true ∧ partLayout b.raw [0x68] = true ∧ s.queueAt 0 3 = some 3 ∧
      { s with queues := [(3, { Queue.fresh 3 with fn := 2 })] }.queueAt 0 3 = none ∧ s.parts.find? (fun p => p.id == 0 && p.level2 == false) = some part0 ∧ (s.queue 3).en = false ∧ (s.queue 3).error = false ∧ (s.queue 3).destroying = false ∧
      s.blocks.all (fun x => x.src != .queue 3) = true ∧ { s with queues := [(3, { Queue.fresh 3 with qcfg := 0x80000004 })] }.queue 3 ≠ Queue.fresh 3) ∧
    (let b := partBlk 5 [(0x10, 4096)]; partAtB (parting b [part0]) 5 b = true ∧ partLayout b.raw [0x10] = true ∧ part0.id = at64 b.raw 8 % 64) ∧
    (let b := partBlk 6 [(0x10, 4096), (0x40, 64)]; partAtB (parting b [part0]) 6 b = true ∧ partLayout b.raw [0x10, 0x38, 0x40, 0x48] = true ∧ part0.dtrk = false ∧ { part0 with dtrk := true }.dtrk = true) ∧
    (let p := { part0 with stopping := true }; let b := { partBlk 6 [(0x10, 4096)] with parsed := true }; let s := parting b [p]; s.part? 0 = some p ∧ s.stoppedOk p = false ∧
      { s with cores := [] }.stoppedOk p = true ∧ at64 b.raw 0x40 = 0) ∧
    (let p := { part0 with tstate := 2 }; let b := partBlk 7 []; let s := parting b [p]; partAtB s 7 b = true ∧ s.parts.find? (fun p => p.id == 0 && p.level2 == false) = some p) := by decide +kernel

/-- A queue that is disabled, enabled, destroyed with and without blocks; each offset of the window; a vector that holds an interrupt. -/
theorem test_witness_FunctionRegisters : r0.queueAt 0 0 = some 0 ∧ (r0.queue 0).en = false ∧
    (let s := { r0 with queues := [(0, { Queue.fresh 0 with qcfg := 0x80000004 })] }; s.queueAt 0 0 = some 0 ∧ (s.queue 0).en = true ∧
      (s.queue 0).destroying = false) ∧
    (1 : Word).getLsbD 0 = true ∧ (2 : Word).getLsbD 0 = false ∧ r0.blocks = [] ∧
      (let b := { blk [(0, 1)] with rid := some 0 }; let s := { (inRegion r0 reg0) with blocks := [b] };
      b ∈ s.blocks ∧ b.src = .queue 0 ∧ s.region? 0 = some reg0 ∧ ¬ (b.typ = 8 ∧ b.parsed = true)) ∧
    r0.fw.up = true ∧ r0.cur.core = 0 ∧ r0.cur.sub = 0 ∧ 0x10000 + 64 * 4095 < 0x50000 ∧
    (let s := { r0 with vecs := [{ vec := 0, fn := 0, last := 0, held := true }] }; s.vecs.find? (·.vec == s.cur.idx) =
      some { vec := 0, fn := 0, last := 0, held := true } ∧
      0 + (s.func 0).moder.toNat * 800 ≤ s.cycle) := by decide +kernel

theorem test_witness_FunctionReset : (let s := { r0 with cur := { r0.cur with idx := 65 } }; s.cur.sub = 0 ∧ 64 < s.cur.idx) ∧
    ([1, 2, 3].all (fun t => let p := { part0 with func := 64, tstate := t }; let s :=
      { r0 with parts := [p], cur := { r0.cur with idx := 64 } }
      (s.ownedBy s.cur.idx == some p) && s.parts.any (fun q => q.id == p.id && q.level2 == p.level2))) = true ∧
    (let p := { part0 with func := 64, tstate := 3 }; let s :=
      { r0 with parts := [p], cur := { r0.cur with sub := 2 } }; s.part? s.cur.idx = some p ∧ s.partAt s.cur.idx p.level2 = some p ∧
      s.tenantGone p.id = true ∧ Memory.wf s.mem = true ∧ s.cur.sub = (if p.level2 then 1 else 2)) := by decide +kernel

end Sys2Proof.Tests

/-! ## States that meet the hypotheses of the statements: firmware, errors, accesses from outside, the step -/

namespace Sys2Proof.Tests

/-- What an image's bytes mean is free; an image is accepted, or its signatures or its version refuse it, and each case has its clause
(R406, R411). -/
theorem test_witness_FirmwareImages_cases (low : BitVec 56) (img : List Byte) (k : Nat) : (Accepted low img ∨ ¬ Signed img ∨
  (Signed img ∧ ¬ Accepted low img)) ∧
    (Config.hostError k = true ∨ Config.hostError k = false) := by
  unfold Accepted
  refine ⟨?_, by cases Config.hostError k <;> simp⟩
  by_cases h : Signed img <;> simp [h]
  exact Nat.lt_or_ge _ _ |>.symm

/-- r0 with a request in progress. -/
def asked (q : FwReq) : State := { r0 with cur := { r0.cur with sub := 1 }, fw := { r0.fw with busy := some q } }
theorem test_witness_FirmwareImages : Memory.wf r0.mem = true ∧ (r0.cores.map Prod.fst).Nodup ∧
  (asked (.update 4096)).fw.busy = some (.update 4096) ∧ r0.fw.up = true ∧ r0.cur.sub = 0 ∧
    r0.fw.busy = none ∧ (1 : Word).getLsbD 0 = true ∧ (asked (.activate false)).allStopped = true ∧
      { (asked (.activate false)) with parts := [part0] }.allStopped = false ∧ r0.fw.restart = [] ∧
    (let s := { r0 with fw := { r0.fw with trial := true, trialAt := some 1 } }; s.cycle < 1 ∧ 1 ≤ { s with cycle := 1 }.cycle) ∧
      r0.fw.trial = false := by decide +kernel

theorem test_witness_FirmwareServices : (0x8000000000000000 : Word).getLsbD 63 = true ∧ (0 : Word).getLsbD 63 = false ∧ r0.fw.busy = none ∧
  (asked (.quote 4096)).fw.busy ≠ none ∧
    ([FwReq.quote 4096, .telem 4096, .drgset 65536 0 0, .dumpcpy 4096 0 1].all (fun q => ((asked q).fw.busy == some q) &&
      (asked q).cur.sub == 1 && Memory.wf (asked q).mem)) = true ∧
    { (asked (.drgset 65536 0 0)) with parts := [part0] }.part? 0 = some part0 ∧ (3999 % 65536 < 4000 ∧ 7500 ≤ 7500) ∧
      (∀ t ∈ [94, 95, 104], t < 105) ∧
    ({ (asked (.dumpcpy 4096 0 1)) with fw := { (asked (.dumpcpy 4096 0 1)).fw with clear := true } }.fw.clear = true) ∧
    (let c := r0.cluster 0; c.up.permits ≠ 0 ∧ c.down.permits ≠ 0) ∧
      ({ r0.ccl with up := { permits := 0, heldMsgs := 1, inbox := 2, owed := 3 } }.up.permits = 0) := by decide +kernel

theorem test_witness_ErrorsAndDump : r0.fw.up = true ∧ Memory.wf r0.mem = true ∧ r0.fw.dumpv = false ∧
  { r0.fw with dumpv := true }.dumpv = true ∧ (r0.core 0).rbank = 0xFF ∧
    ((r0.setCc { r0.cc with rbank := 3 }).core 0).rbank ≠ 0xFF ∧ (inRegion r0 reg0).region? (r0.core 0).rid = some reg0 ∧
      (r0.core 0).bound = true ∧ (r0.core 0).retired = false ∧ reg0.fault = none ∧
    (let g := { stage0 with red := [{ op := 1, ty := .f64, count := 1, xg := true }] }; stageOf (inRegion r0 { reg0 with stages := [g] }) 0 0 = some g) := by decide +kernel

/-- The window of a VF that owns queue 3; its memory, CXL's and a peer's, mapped; a port that no pairing names, and one that has failed. -/
theorem test_witness_LinkFailure : Crosses { me := 0, others := [(1, 3)] } 3 ∧ (inGroup 0 1).group = some { me := 0, others := [(1, 3)] } ∧
  (∃ c ∈ grouped.red, c.xg = true) ∧
    (∀ o ∈ [((1 : Nat), (3 : Nat))], o.2 ≠ 4 ∧ o.2 ∉ (inGroup 0 1).linkDown) ∧ ∀ x ∈ (inGroup 0 1).groupIn, x.msg ≠ .broken := by
  unfold Crosses; decide +kernel

theorem test_witness_OutsideAccess : (let s :=
  { r0 with parts := [{ part0 with func := 1 }], queues := [(3, { Queue.fresh 3 with fn := 1, lidx := 0 })] };
      (s.ownedBy 1).isSome = true ∧ s.queueAt 1 0 = some 3 ∧ s.fw.up = true) ∧ (0x4FFF8 : Nat) % 8 = 0 ∧
        (List.replicate 8 (0 : Byte)).length = 8 ∧
    (let s := { (hbm r0) with parts := [{ part0 with s2root := 0x10000000, func := 1 }] }; s.parts.find? (·.func == 1) =
      some { part0 with s2root := 0x10000000, func := 1 } ∧
      ([Acc.read, .write].all (fun a => gives (s.portPlace 0 true 0x1038 a) (· == 0x1038) &&
        gives (s.portPlace 0 false 0x1038 a) (· == 0x1038))) = true ∧ 8 ≤ 64 - 0x1038 % 64 ∧
      s.cxl = none ∧ s.cxlMode = false ∧ (let s :=
        { s with cxl := some (0, 0x1000, 0x1000), cxlMode := true }; gives (s.portPlace 0 false 0x1038 .write) (· == 0x1038) = true) ∧
          s.linkDown = [] ∧ s.pairs = [] ∧ { s with pairs := [(2, 0, 5)] }.pairs.find? (fun x => x.1 == 2 && x.2.2 == 5) = some (2, 0, 5)) ∧
    (match (halfPaged r0).portPlace 0 true 0x80001000 .read with | .error .stage1 => true | _ => false) = true := by decide +kernel

/-- A word's place in a slice; each way a step goes on: a thread issues, one issues again, an event, an action from outside, no firmware (R254). -/
theorem test_witness_StepRunsDecoded : (let s := State.reset.withFetchWord 32 0x00302501; capFault s.cc.tenant s.th.pcc s.th.pc.toNat 4 permX kindCode 4 = none ∧ s.rowOf s.agent s.th.pc.toNat = .slice 0 0 ∧
      s.rowOk s.agent s.th.pc.toNat 4 = true ∧ gives (fetchWord s.th.wordAt s) (· == 0x00302501) = true ∧ s.inputs = [] ∧ s.advance.pick = some (.issue 0 0) ∧
      gives (fetch (s.advance.issuing 0 0)) (fun i => i == .add (.g 3) (.g 0) (.const 5)) = true) ∧
    (let s := State.reset.withFetchWord 32 0xFFFFFFFF; (match decodeWord 0xFFFFFFFF 0 with | .error _ => true | .ok _ => false) = true ∧ s.advance.pick = some (.issue 0 0) ∧
      (match fetch (s.advance.issuing 0 0) with | .error (.trap .illegal _) => true | _ => false) = true) ∧
    (let s0 := State.reset.withFetchWord 32 0x00302501; let s := s0.setTh { s0.th with state := .waitMem, wait := .reissue }; s.advance.pick = some (.retry 0 0) ∧
      gives (fetch (s.advance.at_ 0 0)) (fun i => i == .add (.g 3) (.g 0) (.const 5)) = true) ∧
    (let s := { (State.reset.withFetchWord 32 0x00302501) with inputs := [(r0.cur, .timer)] }; s.inputs = (r0.cur, .timer) :: []) ∧ { r0.fw with up := false }.up = false ∧
    (let s := State.reset.withFetchWord 64 (0xF9C00000 + 0x00302501 * 2 ^ 32); s.th.pfx = none ∧ gives (fetchWord s.th.wordAt s) (· == 0xF9C00000) = true ∧
      gives (fetchWord (s.th.pc + 4) s) (· == 0x00302501) = true ∧ gives (fetch s) (fun i => i == .ord .release .module) = true ∧
      (let t := s.setTh { s.th with pfx := some { order := .release, scope := .module } }; gives (fetchWord t.th.wordAt t) (· == 0x00302501) = true ∧
        legalPair .release (.add (.g 3) (.g 0) (.const 5)) = false ∧ legalPair .release (.st (.g 4) 3 0 3) = true)) ∧
    (let s := { State.reset with net := [.slot 1 0 0 5] }; (match s.advance.pick with | some (.event _ _) => true | _ => false) = true) ∧
    ((Instr.sOnly .tret = true) ∧ r0.th.cprv = false ∧ Instr.sOnly (.add (.g 3) (.g 0) (.const 5)) = false) ∧
    ((Instr.length (.add (.g 3) (.g 0) (.const 5)), Instr.length (.add (.g 3) (.g 0) (.lit32 5)), Instr.length (.add (.g 3) (.g 0) (.lit64 5))) = (4, 8, 12)) := by decide +kernel

/-- What OrdinaryCompletion asks of the operands, for each kind of access, at both ends of the own slice; a free Bridle capability; vector
lanes in it. -/
theorem test_witness_OrdinaryCompletion : Settled r0 ∧ Plain r0 (.g 1) ∧ Plain r0 (.lit64 8) ∧
    (∀ x ∈ [((0 : Nat), (1 : Nat)), (0xBFFF, 1), (0x10, 4), (0xBFF8, 8), (0xBFF0, 16), (0x20, 32), (0xBFE0, 32)],
      InOwn r0 (memCap (0x500000000000 + x.1)) (addrOf (memCap (0x500000000000 + x.1)) 0) x.2 (permR ||| permW ||| permA) x.1) ∧
    ((memCap 0x500000000010).tag = true ∧ ((memCap 0x500000000010).bits ^^^ (1 <<< 101)).getLsbD 102 = true) ∧
    (let k : Cap := { bits := BitVec.ofNat 128 (0x100 + 0x200 * 2 ^ 72 + 63 * 2 ^ 101), tag := true }; k.bits.toNat / 2 ^ 96 % 2 ^ 5 ≤ 24 ∧
      k.base ≤ 0x100 ∧ 0x100 + 7 ≤ k.top ∧ 0x100 + 7 < 2 ^ 24) ∧
    ((8 : Word).toNat % 4 = 0 ∧ r0.full (2 ^ 48 + 8) = true ∧ ({ r0 with empties := [2 ^ 48 + 8] }).full (2 ^ 48 + 8) = false) ∧
    (let s := r0.dropWatch 0 0; (s.watches.filter (·.home == watchHome (.sram 0 0x10))).length < watchRoom (watchHome (.sram 0 0x10))) ∧
    1 < little (Memory.readN (join 2).mem (2 ^ 48 + 0x20) 8) ∧
    (Admits bridled ctrCap 255 1 1 (permW ||| permA) 2 ∧ bridled.part? 0 = some part0 ∧ part0.bbase ≤ 255 ∧
      255 < part0.blimit - (if bridled.th.cprv then 0 else 256) ∧ cfgOk 0 = true ∧ Settled bridled) ∧
    r0.cc.vq.length < 2 ∧ r0.cc.vecWaiters = [] ∧ r0.th.rm ≠ 5 ∧ r1.th.cprv = true ∧
    InOwn r0 (memCap 0x500000000020) (vecAddr (memCap 0x500000000020) 0) 32 permW 0x20 ∧
    (r0.vecBusy 0 0 = false ∧ ∀ i, i < LaneTy.f32.lanes →
      InOwn r0 (memCap 0x500000000020) (laneAddr (memCap 0x500000000020) .f32 (lane .f32 (r0.th.vr 0) i)) 4 permR 0x20) := by
  refine ⟨⟨rfl, rfl, rfl, rfl⟩, r0_clear _, trivial, ?_, by decide +kernel, by decide +kernel, by decide +kernel, by decide +kernel,
    by decide +kernel,
    ⟨?_, by decide +kernel, by decide +kernel, by decide +kernel, by decide +kernel, ⟨rfl, rfl, rfl, rfl⟩⟩, by decide +kernel, rfl,
      by decide +kernel, by decide +kernel, ?_, by decide +kernel, ?_⟩ <;>
    simp only [InOwn, Admits] <;> decide +kernel

/-- Instructions and a command word that are well formed. -/
theorem test_witness_EncodeDecode : Instr.wf (.add (.g 3) (.g 0) (.lit64 5)) = true ∧ Instr.hasWord (.add (.g 3) (.g 0) (.lit64 5)) = true ∧
  Instr.wf (.mzero h0 3) = true ∧ encodeCmd (.mzero h0 3) ≠ 0 := by
  decide +kernel

theorem test_witness_MemoryKeepsForm : ∃ s t : State, Memory.wf s.mem = true ∧ step s = .next t :=
  ⟨{ State.reset with inputs := [(r0.cur, .fpcsrWrite)] }, _, by decide +kernel, rfl⟩

end Sys2Proof.Tests
end

/-! SUPPORT. Writes at a key, and loads and stores: what they do, and the statements about them (R7, R18, R60, R121, R122, R255,
R261). -/

namespace Sys2Proof.Machine

open Sys2Proof.Spec

/-! ## Writes at a key (R18, R255) -/

/-- A hit on the watches of a line changes threads alone, so it keeps whatever no thread's update touches (R130). -/
theorem State.hitWatches_keeps {α : Type} (g : State → α) (hg : ∀ s n k t, g (State.setThAt s n k t) = g s) (s : State) (line : Nat) :
    g (s.hitWatches line) = g s := by
  unfold State.hitWatches
  generalize s.watches.filter (·.line == line) = ws
  induction ws generalizing s with
  | nil => rfl
  | cons w ws ih => rw [List.foldl_cons, ih, hg]

/-- A poke writes bytes and clears tags; besides, it changes threads alone. -/
theorem State.poke_keeps {α : Type} (g : State → α) (hg : ∀ s n k t, g (State.setThAt s n k t) = g s) (s : State) (k : Nat)
    (bs : List Byte) : g (s.poke k bs) = g { s with mem := Memory.writeN s.mem k bs, tags := clearTags s.tags k bs.length } := by
  unfold State.poke
  dsimp only
  split
  · rfl
  · split <;> simp only [State.hitWatches_keeps g hg]

@[simp] theorem State.poke_tags (s : State) (k : Nat) (bs : List Byte) : (s.poke k bs).tags = clearTags s.tags k bs.length :=
  State.poke_keeps State.tags State.setThAt_tags s k bs

@[simp] theorem State.poke_empties (s : State) (k : Nat) (bs : List Byte) : (s.poke k bs).empties = s.empties :=
  State.poke_keeps State.empties State.setThAt_empties s k bs

@[simp] theorem State.poke_regions (s : State) (k : Nat) (bs : List Byte) : (s.poke k bs).regions = s.regions :=
  State.poke_keeps State.regions State.setThAt_regions s k bs

@[simp] theorem State.poke_clusters (s : State) (k : Nat) (bs : List Byte) : (s.poke k bs).clusters = s.clusters :=
  State.poke_keeps State.clusters State.setThAt_clusters s k bs

/-- The tags that stay set are those of the granules that no byte of the write lies in (R18). -/
theorem mem_clearTags (tags : List Nat) (k n g : Nat) :
    g ∈ clearTags tags k n ↔ g ∈ tags ∧ ¬ (g * 16 < k + n ∧ k < g * 16 + 16 ∧ n ≠ 0) := by
  unfold clearTags
  split
  · rename_i hn
    simp [hn]
  · have hgranule : k / 16 ≤ g ∧ g ≤ (k + n - 1) / 16 ↔ g * 16 < k + n ∧ k < g * 16 + 16 ∧ n ≠ 0 := by omega
    simp only [List.mem_filter, ← Bool.decide_and, hgranule, Bool.not_eq_true', decide_eq_false_iff_not]

/-- Settles O10: a poke is a write of its bytes, a clearing of tags, and hits on watches, which change threads alone. -/
theorem writeTakesEffect : Obligations.WriteTakesEffect := by
  intro s k bs hwf
  refine ⟨fun j => ?_, State.memOk_poke hwf k bs, fun g => ?_, State.poke_empties s k bs, State.poke_regions s k bs,
    State.poke_clusters s k bs⟩
  · rw [State.poke_mem, Memory.read_writeN bs s.mem k j hwf]
  · rw [State.poke_tags, mem_clearTags, ne_eq, List.length_eq_zero_iff]

/-! ## Numbers and their bytes (R7) -/

theorem little_eq_ofBytes (bs : List Byte) : little bs = ofBytes bs := by
  induction bs with
  | nil => rfl
  | cons b r ih => rw [little, ofBytes, ih]

/-- Byte i of a number is the low byte of its quotient by 256 to the power i. -/
theorem bytesOf_eq_map (n v : Nat) : bytesOf n v = (List.range n).map (fun i => BitVec.ofNat 8 (v / 256 ^ i)) := by
  induction n generalizing v with
  | zero => rfl
  | succ n ih =>
    rw [bytesOf, ih, List.range_succ_eq_map, List.map_cons, List.map_map]
    simp [Function.comp_def, Nat.div_div_eq_div_mul, Nat.pow_succ']

/-- The signed reading of the low n bits of a number. -/
theorem toInt_ofNat_eq_signedLow (n a : Nat) (hn : 0 < n) : (BitVec.ofNat n a).toInt = signedLow n a := by
  obtain ⟨m, rfl⟩ : ∃ m, n = m + 1 := ⟨n - 1, by omega⟩
  have hpow : 2 ^ (m + 1) = 2 * 2 ^ m := Nat.pow_succ'
  rw [BitVec.toInt_eq_toNat_cond, BitVec.toNat_ofNat, signedLow, Nat.add_sub_cancel]
  have hiff : 2 * (a % 2 ^ (m + 1)) < 2 ^ (m + 1) ↔ a % 2 ^ (m + 1) < 2 ^ m := by omega
  simp only [hiff]

theorem ext_signed (n v : Nat) (hn : 0 < n) : ext n v true = BitVec.ofInt 64 (signedLow (8 * n) v) := by
  rw [ext, if_pos rfl, BitVec.signExtend, toInt_ofNat_eq_signedLow _ _ (by omega)]

theorem ext_unsigned (n v : Nat) : ext n v false = BitVec.ofNat 64 v := rfl

/-! ## The address and the permissions of a capability (R15, R60) -/

/-- The address of format M is the cursor and the offset, added modulo 2^48. -/
theorem toNat_ea (k : Cap) (off : BitVec 14) : (ea k off).toNat = addrOf k off := by
  have hcur : (k.cur.toNat : Int) = (k.bits.toNat : Int) % 2 ^ 48 := by
    simp [Cap.cur]
  have hoff : ((off.signExtend 48).toNat : Int) = off.toInt % 2 ^ 48 := by
    simp [BitVec.signExtend, BitVec.toNat_ofInt]
    omega
  rw [ea, addrOf, BitVec.toNat_add]
  omega

theorem zeroExtend_ea (k : Cap) (off : BitVec 14) : (ea k off).zeroExtend 64 = BitVec.ofNat 64 (addrOf k off) := by
  rw [← toNat_ea]
  exact BitVec.eq_of_toNat_eq (by simp)

theorem and_permRC_ne_zero (p : BitVec 6) : ((p &&& permRC) != 0) = p.getLsbD 2 := by
  decide +revert

theorem and_permWC_eq_zero (p : BitVec 6) : ((p &&& permWC) == 0) = !p.getLsbD 3 := by
  decide +revert

/-! ## Finding the home of an address (R255, R391, R400) -/

theorem State.markDirty_frame (s : State) (p : Part) (x : Nat) (a : Acc) : ∃ d, s.markDirty p x a = { s with dirty := d } := by
  unfold State.markDirty
  dsimp only
  split
  · exact ⟨_, rfl⟩
  · exact ⟨s.dirty, rfl⟩

/-- Translation changes the cached entries and the dirty bits, and nothing else. -/
theorem State.translate_frame {s t : State} {die : Nat} {tn : BitVec 6} {both : Bool} {va pa : Nat} {a : Acc}
    (h : s.translate die tn both va a = .ok (pa, t)) : ∃ m d, t = { s with mtu := m, dirty := d } := by
  unfold State.translate at h
  split at h
  · cases h
  · rename_i p _
    split at h
    · rename_i e _
      obtain ⟨d, hd⟩ := s.markDirty_frame p (e.ipa + (va - e.va)) a
      cases h
      exact ⟨s.mtu, d, hd⟩
    · split at h
      · cases h
      · rename_i l1 _
        dsimp only at h
        split at h
        · cases h
        · obtain ⟨d, hd⟩ := s.markDirty_frame p (l1.base + va % l1.size) a
          cases h
          rw [hd]
          exact ⟨_, d, rfl⟩

theorem State.resolve_frame {s t : State} {ag : Agent} {x : Nat} {a : Acc} {g : Tgt} (h : s.resolve ag x a = .ok (g, t)) :
    ∃ m d, t = { s with mtu := m, dirty := d } := by
  unfold State.resolve at h
  split at h
  case h_1 =>
    split at h
    · cases h
    · rename_i e
      cases h
      exact State.translate_frame e
  case h_4 =>
    split at h
    · cases h
    · cases h
      exact ⟨s.mtu, s.dirty, rfl⟩
  case h_6 => cases h
  all_goals
    cases h
    exact ⟨s.mtu, s.dirty, rfl⟩

/-- Finding the home of an access changes the cached entries and the dirty bits, and nothing else. -/
theorem home_frame {s t : State} {addr : Nat} {a : Acc} {g : Tgt} (h : home addr a s = .ok (g, t)) :
    ∃ m d, t = { s with mtu := m, dirty := d } := by
  unfold home at h
  split at h
  · rename_i e
    cases h
    exact State.resolve_frame e
  · cases h
  · cases h

theorem home_cc {s t : State} {addr : Nat} {a : Acc} {g : Tgt} (h : home addr a s = .ok (g, t)) : t.cc = s.cc := by
  obtain ⟨m, d, rfl⟩ := home_frame h
  rfl

/-! ## The end of a write that may be a release (R261) -/

theorem isRelease_iff (o : Order) : isRelease o = true ↔ o = .release ∨ o = .acqRel := by
  cases o <;> simp [isRelease]

/-- The test by which a miss is noted: the order, the scope, and the home of the address. -/
theorem missTest_iff (p : Pfx) (s : State) (x : Nat) : (isRelease p.order &&
    decide (1 ≤ scopeRank p.scope ∧ scopeRank p.scope ≤ 3 ∧ scopeRank p.scope < s.homeScope s.agent s.cur.core x)) = true ↔
    Misses p s x := by
  rw [Bool.and_eq_true, isRelease_iff, decide_eq_true_eq, Misses]

theorem noteMiss_of_misses {p : Pfx} {addr : Addr} {s : State} (size : Nat) (v : Word) (again : Option Bool)
    (h : Misses p s addr.toNat) : noteMiss p addr size v again s =
      .ok ((), s.setTh { s.th with miss := some { addr := addr, size := size, value := v, rewrite := again, counted := false } }) := by
  rw [noteMiss, run_gets_bind]
  dsimp only [id]
  rw [if_pos ((missTest_iff ..).2 h)]
  rfl

theorem noteMiss_of_not_misses {p : Pfx} {addr : Addr} {s : State} (size : Nat) (v : Word) (again : Option Bool)
    (h : ¬ Misses p s addr.toNat) : noteMiss p addr size v again s = .ok ((), s) := by
  rw [noteMiss, run_gets_bind]
  dsimp only [id]
  rw [if_neg (mt (missTest_iff ..).1 h)]
  rfl

/-- An instruction without a result, whose release has no miss open, retires. -/
theorem conclude_none_retires {s : State} (len : Nat) (v : Word) (h : s.th.missOpen = false) :
    conclude none len v Fx.none s = .ok ((), after s len) := by
  simp only [conclude, run_gets_bind, h, Bool.false_eq_true, if_false]
  rfl

/-- One whose miss is open waits for the message. -/
theorem conclude_waits {s : State} (d : Option Dst) (len : Nat) (v : Word) (x : Fx) (h : s.th.missOpen = true) :
    conclude d len v x s = .ok ((), s.parkTh .waitMem (.missed d len v x)) := by
  simp only [conclude, run_gets_bind, h, if_true]
  rfl

section
variable {p : Pfx} {k : Cap} {off : BitVec 14} {s : State} (size len : Nat) (v : Word) (again : Option Bool)

/-- A write whose release has nothing to wait for retires. -/
theorem noteMiss_conclude_retires (h : Passes p s (addrOf k off)) :
    (noteMiss p (ea k off) size v again >>= fun _ => conclude none len 0 Fx.none) s = .ok ((), after s len) := by
  rw [← toNat_ea] at h
  obtain ⟨hreaches, hclosed⟩ := h
  rw [bind_ok (noteMiss_of_not_misses size v again hreaches), conclude_none_retires len 0 hclosed]

/-- A write whose release has missed waits for the message, and what it wrote stands. -/
theorem noteMiss_conclude_awaits (h : Misses p s (addrOf k off)) :
    ∃ u, (noteMiss p (ea k off) size v again >>= fun _ => conclude none len 0 Fx.none) s = .ok ((), u) ∧ u.mem = s.mem ∧
      AwaitsMessage s u (addrOf k off) none len 0 Fx.none := by
  rw [← toNat_ea] at h ⊢
  rw [bind_ok (noteMiss_of_misses size v again h), conclude_waits _ _ _ _ (by simp [Thread.missOpen])]
  refine ⟨_, rfl, rfl, ?_⟩
  simp [AwaitsMessage, State.parkTh, Thread.gr]

end

/-! ## Loads and stores (R121, R122) -/

theorem withEff_ok {s s1 s2 t : State} {d : Dst} {len : Nat} {body : Eff Word} {v : Word} (hr : Ready d s) (hb : body s = .ok (v, s1))
    (hw : writeDst d v s1 = .ok ((), s2)) (he : endDst d len Fx.none false s2 = .ok ((), t)) : withEff d len body s = .ok ((), t) := by
  obtain ⟨huse, hres⟩ := hr
  rw [withEff, withEffect, bind_ok huse, run_gets_bind, hres, if_neg Bool.false_ne_true, bind_ok (by rw [bind_ok hb]; rfl), bind_ok hw, he]

/-- A load that is not relaxed gives its destination the bytes at the home of its address, widened. -/
theorem load_ok {i : Instr} {d : Dst} {a : BitVec 4} {off : BitVec 14} {sz : BitVec 2} {signed : Bool} {s s1 s2 u : State} {k : Cap}
    {t : Tgt} (hp : (ordering s).order ≠ .relaxed) (hr : Ready d s)
    (hl : Located s s1 a k (addrOf k off) (2 ^ sz.toNat) permR .read t)
    (hw : writeDst d (ext (2 ^ sz.toNat) (ofBytes (s1.readAt s.cc.tenant t (2 ^ sz.toNat))) signed) s1 = .ok ((), s2))
    (he : endDst d 4 Fx.none false s2 = .ok ((), u)) : load i d a off sz signed s = .ok ((), u) := by
  obtain ⟨hreg, hchk, hhome⟩ := hl
  rw [load, prefixOf, run_gets_bind]
  dsimp only
  rw [← ordering, if_neg hp]
  refine withEff_ok hr ?_ hw he
  rw [bind_ok hreg]
  dsimp only [szBytes]
  rw [toNat_ea, bind_ok hchk, bind_ok hhome, fetchBytes, run_gets_bind, home_cc hhome]
  rfl

theorem loadResult : LoadResult := by
  intro d a off sz s s1 s2 k t hp hr hl v
  obtain ⟨u, hu⟩ := endDst_total s2 d 4 Fx.none false
  refine ⟨fun hw => ⟨u, go_ok (load_ok hp hr hl ?_ hu), hu⟩, fun hw => ⟨u, go_ok (load_ok hp hr hl ?_ hu), hu⟩⟩
  · rw [← little_eq_ofBytes, ext_signed _ _ (Nat.two_pow_pos _)]
    exact hw
  · rw [← little_eq_ofBytes, ext_unsigned]
    exact hw

/-- What Ordered says, of the order and scope by their name. -/
theorem ordering_of_ordered {s : State} (h : Ordered s) :
    (ordering s).order ≠ .relaxed ∧ beforeAccess (ordering s) s = .ok ((), s) := h.2

/-- A store that is not relaxed writes its bytes at the home, and then ends as a write that may be a release. -/
theorem exec_st_next {p : Src} {a : BitVec 4} {off : BitVec 14} {sz : BitVec 2} {s s1 s2 u : State} {x : Word} {k : Cap} {t : Tgt}
    (hord : Ordered s) (hsrc : readSrc p s = .ok (x, s1)) (hl : Located s1 s2 a k (addrOf k off) (2 ^ sz.toNat) permW .write t)
    (hend : (noteMiss (ordering s) (ea k off) (2 ^ sz.toNat) x (some false) >>= fun _ => conclude none (len1 p) 0 Fx.none)
      (s2.writeAt s2.agent t (bytesOf (2 ^ sz.toNat) x.toNat) 0x01) = .ok ((), u)) : exec (.st p a off sz) s = .next u := by
  obtain ⟨hreg, hchk, hhome⟩ := hl
  obtain ⟨hplain, hbefore⟩ := ordering_of_ordered hord
  refine go_ok ?_
  rw [prefixOf, run_gets_bind]
  dsimp only [szBytes]
  rw [← ordering, bind_ok hbefore, if_neg hplain, bind_ok hsrc, bind_ok hreg, toNat_ea, bind_ok hchk,
    if_neg hplain, bind_ok hhome, storeBytes, run_mods_bind]
  exact hend

theorem storeResult : StoreResult := by
  intro p a off sz s s1 s2 x k t hord hsrc hl s3
  have hs3 : s2.writeAt s2.agent t (bytesOf (2 ^ sz.toNat) x.toNat) 0x01 = s3 := by rw [bytesOf_eq_map]
  refine ⟨fun h => exec_st_next hord hsrc hl (by rw [hs3]; exact noteMiss_conclude_retires _ _ _ _ h), fun h => ?_⟩
  obtain ⟨u, hu, hrest⟩ := noteMiss_conclude_awaits (2 ^ sz.toNat) (len1 p) x (some false) h
  exact ⟨u, exec_st_next hord hsrc hl (by rw [hs3]; exact hu), hrest⟩

/-- A load of a capability that is not relaxed gives its register the 16 bytes, and the tag where the register admits it. -/
theorem exec_ldc_next {c a : BitVec 4} {off : BitVec 14} {s s1 : State} {k : Cap} {t : Tgt} (hord : Ordered s)
    (hl : Located s s1 a k (addrOf k off) 16 permR .read t) (hc : s1.th.clearA c) :
    exec (.ldc c a off) s = .next (withCap s1 c (s1.capAt s.cc.tenant t (k.perms.getLsbD 2)) 4) := by
  obtain ⟨hreg, hchk, hhome⟩ := hl
  obtain ⟨hplain, -⟩ := ordering_of_ordered hord
  refine go_ok ?_
  rw [prefixOf, run_gets_bind]
  dsimp only
  rw [← ordering, if_neg hplain, bind_ok hreg, toNat_ea, bind_ok hchk, if_neg hplain, bind_ok hhome, run_gets_bind,
    bind_ok (writeA_ok s1 c _ hc), and_permRC_ne_zero, home_cc hhome, run_retire, withCap]
  simp

/-- A store of a capability that is not relaxed traps where it is tagged and the register lacks WC, before it has a home. -/
theorem exec_stc_capPerm {c a : BitVec 4} {off : BitVec 14} {s : State} {k : Cap} (hord : Ordered s) (hc : s.th.readyA c)
    (hreg : readA a s = .ok (k, s)) (hchk : capCheck k (addrOf k off) 16 permW kindMem 16 s = .ok ((), s))
    (htag : (s.th.ar c).tag = true) (hwc : k.perms.getLsbD 3 = false) :
    exec (.stc c a off) s = .next (s.trapSync .capPerm (BitVec.ofNat 64 (addrOf k off)) s.th.pc) := by
  obtain ⟨hplain, hbefore⟩ := ordering_of_ordered hord
  refine go_error (x := .trap .capPerm (BitVec.ofNat 64 (addrOf k off))) ?_
  rw [prefixOf, run_gets_bind]
  dsimp only
  rw [← ordering, bind_ok hbefore, if_neg hplain, bind_ok (readA_ok s c hc), bind_ok hreg, toNat_ea, bind_ok hchk,
    run_demand_bind, and_permWC_eq_zero, htag, hwc, zeroExtend_ea]
  rfl

/-- One that is untagged or admitted writes its bytes and its tag, and then ends as a write that may be a release. -/
theorem exec_stc_next {c a : BitVec 4} {off : BitVec 14} {s s1 u : State} {k : Cap} {t : Tgt} (hord : Ordered s) (hc : s.th.readyA c)
    (hl : Located s s1 a k (addrOf k off) 16 permW .write t) (hwc : (s.th.ar c).tag = false ∨ k.perms.getLsbD 3 = true)
    (hend : (noteMiss (ordering s) (ea k off) 16 0 none >>= fun _ => conclude none 4 0 Fx.none) (s1.putCap s1.agent t (s.th.ar c)) =
      .ok ((), u)) : exec (.stc c a off) s = .next u := by
  obtain ⟨hreg, hchk, hhome⟩ := hl
  have hadmitted : (!((s.th.ar c).tag && (k.perms &&& permWC) == 0)) = true := by
    rw [and_permWC_eq_zero]
    rcases hwc with h | h <;> simp [h]
  obtain ⟨hplain, hbefore⟩ := ordering_of_ordered hord
  refine go_ok ?_
  rw [prefixOf, run_gets_bind]
  dsimp only
  rw [← ordering, bind_ok hbefore, if_neg hplain, bind_ok (readA_ok s c hc), bind_ok hreg, toNat_ea, bind_ok hchk,
    run_demand_bind, if_pos hadmitted, if_neg hplain, bind_ok hhome, run_mods_bind]
  exact hend

/-- The bytes of a capability stored at a home, lowest first, and its tag (R7, R18). -/
theorem State.putCap_eq (s : State) (ag : Agent) (t : Tgt) (c : Cap) : s.putCap ag t c =
    (s.writeAt ag t ((List.range 16).map (fun i => BitVec.ofNat 8 (c.bits.toNat / 256 ^ i))) 0x02).setTag t c.tag := by
  rw [State.putCap, bytesOf_eq_map]

theorem capabilityMemory : CapabilityMemory := by
  intro c a off s s1 k t hord
  refine ⟨fun hl hc => ?_, fun hc hl => ⟨fun hwc => ?_, fun htag hwc => ?_⟩⟩
  · rw [exec_ldc_next hord hl hc, State.capAt, little_eq_ofBytes]
  · intro s3
    have hs3 : s1.putCap s1.agent t (s.th.ar c) = s3 := State.putCap_eq ..
    refine ⟨fun h => exec_stc_next hord hc hl hwc (by rw [hs3]; exact noteMiss_conclude_retires _ _ _ _ h), fun h => ?_⟩
    obtain ⟨u, hu, hrest⟩ := noteMiss_conclude_awaits 16 4 0 none h
    exact ⟨u, exec_stc_next hord hc hl hwc (by rw [hs3]; exact hu), hrest⟩
  · obtain ⟨hreg, hchk, -⟩ := hl
    exact exec_stc_capPerm hord hc hreg hchk htag hwc

/-- Settles O11, from the results of loads, of stores, and of loads and stores of capabilities. -/
theorem loadStore : Obligations.LoadStore := ⟨loadResult, storeResult, capabilityMemory⟩

end Sys2Proof.Machine
